-- ==== Sys2Proof/Word.lean ====
section
/-! DEFINITION. The scalar types of the CORE (00_scope.md R10 to R14): bytes and bit strings. A Word is "a natural number below
`2^WB`" (R11) whose width `WB` is a parameter of the hardware (R7), so a sequence of Words is a `List Nat`, and the bound is
part of well-formedness. -/

namespace Sys2Proof

/-- A byte: a symbol, or one unit of a message (00_scope.md R10). -/
abbrev Byte := BitVec 8

/-- A bit string, most significant (first) bit first (00_scope.md R13, R14). -/
abbrev Bits := List Bool

end Sys2Proof
end

