-- ==== Sys2Proof/Config.lean ====
section
/-! DEFINITION. What an instance of the hardware fixes (00_scope.md R7 to R9) and the one value the spec leaves open. -/

namespace Sys2Proof

/-- The parameters of one CORE instance, fixed for its lifetime (00_scope.md R7). -/
structure Config where
  /-- `WB`, the width of a Word. -/
  wordBits : Nat
  /-- `DICT_CAP`, the largest number of entries of one LZW dictionary; 0 means unbounded (R9). -/
  dictCap : Nat
  deriving DecidableEq, Repr

/-- `COUNT_BITS`, the width of one transmitted frequency count: 16, fixed (00_scope.md R7). -/
def countBits : Nat := 16

/-- The default instance: `WB = 64` (00_scope.md R7) and `DICT_CAP = 0`, the source's behaviour (R7, R9). -/
def Config.standard : Config := { wordBits := 64, dictCap := 0 }

/-- The Word widths the spec gives a meaning: a multiple of 8 that is at least 8 (00_scope.md R8). -/
abbrev Config.Valid (c : Config) : Prop := 8 ≤ c.wordBits ∧ c.wordBits % 8 = 0

/-- FREE VALUE (log entry 2). The payload of the response number `k` when a length field of its result does not fit 64
bits: the spec has no meaning for it (92_eei_decisions.md D24). It has no body, so nothing can be proved of its value. -/
opaque Config.freePayload : Nat → List Byte

end Sys2Proof
end

