-- ==== Sys2Proof/Syntax.lean ====
section
/-! DEFINITION. The command set as syntax: messages, BitBuffers, registers, headers, and one constructor of `Instr` per row of
spec/opcode_table.json (30_encoding.md R105). -/

namespace Sys2Proof

/-- One command message: a 32-bit header, then the operand payload (30_encoding.md R100). -/
structure Message where
  header : BitVec 32
  payload : List Byte
  deriving DecidableEq, Repr

/-- A BitBuffer, in value or stream convention depending on role (41_bitbuffer.md R140). -/
structure BitBuffer where
  words : List Nat
  bitCount : Nat
  deriving DecidableEq, Repr

/-- The seven units (00_scope.md R2). -/
inductive FUnit where
  | ctl | bb | lze | lzd | hft | hfe | hfd
  deriving DecidableEq, Repr

/-- The 34 registers of the register map, by the spec's names (10_state.md R40). -/
inductive Reg where
  | status | faultInfo | faultCmd | cfgWordBits | cfgCountBits | cfgDictCap
  | lzeWidth | lzeDictSize | lzeCtr | lzeCtrWords | lzePhraseLen | lzeOutBits | lzeAlphaSize
  | lzdWidth | lzdDictSize | lzdCtr | lzdCtrWords | lzdPos | lzdLimit | lzdPendingLen | lzdOutLen | lzdAlphaSize
  | hftLeaves | hftTotal | hftMerges | hftSubtrees
  | hfdPos | hfdTrial | hfdMinlen | hfdMaxlen | hfdEmitted | hfdTotal | hfdNbits | hfdLit
  deriving DecidableEq, Repr

/-- A legal header, decoded: the opcode row with the operands its FLAGS and IMM fields supply (30_encoding.md R102 to R107).
`lim` and `lit` are FLAGS[0] (R103). -/
inductive Head where
  | ctlNop | ctlReset | ctlRead (reg : Reg)
  | bbNew | bbUnused | bbAppend | bbShiftLeft | bbPushLeadingBit (bit : Bool) | bbToBytes | bbFromBytes
  | lzeInit | lzeSymbol (sym : Byte) | lzeFlush | lzeEncode
  | lzdInit (lim : Bool) | lzdStep | lzdDecode (lim : Bool)
  | hftLoad | hftStep | hftTable
  | hfeEncode | hfeHist
  | hfdInit (lit : Bool) | hfdStep | hfdDecode (lit : Bool)
  deriving DecidableEq, Repr

/-- A command with all its operands (30_encoding.md R105, R111). `limit` is present exactly when LIM = 1. -/
inductive Instr where
  | ctlNop
  | ctlReset
  | ctlRead (reg : Reg)
  | bbNew (ws : List Nat) (n : Nat)
  | bbUnused (b : BitBuffer)
  | bbAppend (s v : BitBuffer)
  | bbShiftLeft (b : BitBuffer)
  | bbPushLeadingBit (bit : Bool) (b : BitBuffer)
  | bbToBytes (b : BitBuffer)
  | bbFromBytes (bytes : List Byte)
  | lzeInit (alpha : List Byte)
  | lzeSymbol (sym : Byte)
  | lzeFlush
  | lzeEncode (alpha syms : List Byte)
  | lzdInit (alpha input : List Byte) (limit : Option Nat)
  | lzdStep
  | lzdDecode (alpha input : List Byte) (limit : Option Nat)
  | hftLoad (freq : List Nat)
  | hftStep
  | hftTable
  | hfeEncode (data : List Byte)
  | hfeHist (data : List Byte)
  | hfdInit (lit : Bool) (container : List Byte)
  | hfdStep
  | hfdDecode (lit : Bool) (container : List Byte)
  deriving DecidableEq, Repr

/-- The header row of an instruction: what is left of it when its payload operands are dropped. -/
def Instr.head : Instr → Head
  | .ctlNop => .ctlNop
  | .ctlReset => .ctlReset
  | .ctlRead reg => .ctlRead reg
  | .bbNew _ _ => .bbNew
  | .bbUnused _ => .bbUnused
  | .bbAppend _ _ => .bbAppend
  | .bbShiftLeft _ => .bbShiftLeft
  | .bbPushLeadingBit bit _ => .bbPushLeadingBit bit
  | .bbToBytes _ => .bbToBytes
  | .bbFromBytes _ => .bbFromBytes
  | .lzeInit _ => .lzeInit
  | .lzeSymbol sym => .lzeSymbol sym
  | .lzeFlush => .lzeFlush
  | .lzeEncode _ _ => .lzeEncode
  | .lzdInit _ _ limit => .lzdInit limit.isSome
  | .lzdStep => .lzdStep
  | .lzdDecode _ _ limit => .lzdDecode limit.isSome
  | .hftLoad _ => .hftLoad
  | .hftStep => .hftStep
  | .hftTable => .hftTable
  | .hfeEncode _ => .hfeEncode
  | .hfeHist _ => .hfeHist
  | .hfdInit lit _ => .hfdInit lit
  | .hfdStep => .hfdStep
  | .hfdDecode lit _ => .hfdDecode lit

end Sys2Proof
end

