-- ==== Sys2Proof/WellFormed.lean ====
section
/-! DEFINITION. Which instructions a message can carry: the framing conditions of 30_encoding.md R110 to R112, as one Boolean
check. (The value checks of R113 are the machine's: an instruction that fails them is well formed and faults.) -/

namespace Sys2Proof

/-- A U64 field holds the value (R110). -/
def fitsU64 (n : Nat) : Bool := n < 2 ^ 64

/-- The words can be sent as a WORDS field at word width `wb` (R110). -/
def wordsWf (wb : Nat) (ws : List Nat) : Bool := fitsU64 ws.length && ws.all (· < 2 ^ wb)

/-- The BitBuffer invariant of 41_bitbuffer.md R140, which framing checks (R112), and the bounds of its fields. -/
def BitBuffer.wf (wb : Nat) (b : BitBuffer) : Bool :=
  fitsU64 b.bitCount && wordsWf wb b.words && b.bitCount ≤ b.words.length * wb

/-- The bytes can be sent as a BYTES field (R110). -/
def bytesWf (bs : List Byte) : Bool := fitsU64 bs.length

/-- A FREQ operand: 256 counts below 2^16 (R110). -/
def freqWf (f : List Nat) : Bool := f.length == 256 && f.all (· < 65536)

/-- The optional U64 limit of LZD_INIT and LZD_DECODE (R111). -/
def limitWf (l : Option Nat) : Bool := l.all fitsU64

/-- A well-formed instruction at word width `wb`: every operand fits its payload field and frames (R110 to R112). -/
def Instr.wf (wb : Nat) : Instr → Bool
  | .ctlNop => true
  | .ctlReset => true
  | .ctlRead _ => true
  | .bbNew ws n => wordsWf wb ws && fitsU64 n
  | .bbUnused b => b.wf wb
  | .bbAppend s v => s.wf wb && v.wf wb
  | .bbShiftLeft b => b.wf wb
  | .bbPushLeadingBit _ b => b.wf wb
  | .bbToBytes b => b.wf wb
  | .bbFromBytes bytes => bytesWf bytes
  | .lzeInit alpha => bytesWf alpha
  | .lzeSymbol _ => true
  | .lzeFlush => true
  | .lzeEncode alpha syms => bytesWf alpha && bytesWf syms
  | .lzdInit alpha input limit => bytesWf alpha && bytesWf input && limitWf limit
  | .lzdStep => true
  | .lzdDecode alpha input limit => bytesWf alpha && bytesWf input && limitWf limit
  | .hftLoad freq => freqWf freq
  | .hftStep => true
  | .hftTable => true
  | .hfeEncode data => bytesWf data
  | .hfeHist data => bytesWf data
  | .hfdInit _ container => bytesWf container
  | .hfdStep => true
  | .hfdDecode _ container => bytesWf container

end Sys2Proof
end

