-- ==== Sys2Proof/Decode.lean ====
section
/-! DEFINITION. Decoding and encoding of command messages (30_encoding.md R100 to R112): the header as a total function on
every 32-bit value, the operand payload as a total function on every byte string, and the encoder written from the same
tables. -/

namespace Sys2Proof

/-! ## Byte order (20_memory.md R72, R74, R75: most significant byte first) -/

/-- The natural number a big-endian byte string stands for. -/
def natOfBytes (bs : List Byte) : Nat := bs.foldl (fun a b => a * 256 + b.toNat) 0

/-- The `n` big-endian bytes of `v mod 256^n`: byte `k` is bits `8(n-k)-1 .. 8(n-k)-8` (R72). -/
def bytesBE : Nat → Nat → List Byte
  | 0, _ => []
  | n + 1, v => BitVec.ofNat 8 (v / 256 ^ n) :: bytesBE n v

/-- `k` groups of `n` elements each, front to back. -/
def chunks {α : Type} (n : Nat) : Nat → List α → List (List α)
  | 0, _ => []
  | k + 1, xs => xs.take n :: chunks n k (xs.drop n)

/-! ## The header (R101 to R107) -/

/-- The register map's numbers (10_state.md R40). -/
def Reg.number : Reg → Byte
  | .status => 0x00 | .faultInfo => 0x01 | .faultCmd => 0x02
  | .cfgWordBits => 0x03 | .cfgCountBits => 0x04 | .cfgDictCap => 0x05
  | .lzeWidth => 0x10 | .lzeDictSize => 0x11 | .lzeCtr => 0x12 | .lzeCtrWords => 0x13
  | .lzePhraseLen => 0x14 | .lzeOutBits => 0x15 | .lzeAlphaSize => 0x16
  | .lzdWidth => 0x20 | .lzdDictSize => 0x21 | .lzdCtr => 0x22 | .lzdCtrWords => 0x23 | .lzdPos => 0x24
  | .lzdLimit => 0x25 | .lzdPendingLen => 0x26 | .lzdOutLen => 0x27 | .lzdAlphaSize => 0x28
  | .hftLeaves => 0x30 | .hftTotal => 0x31 | .hftMerges => 0x32 | .hftSubtrees => 0x33
  | .hfdPos => 0x40 | .hfdTrial => 0x41 | .hfdMinlen => 0x42 | .hfdMaxlen => 0x43
  | .hfdEmitted => 0x44 | .hfdTotal => 0x45 | .hfdNbits => 0x46 | .hfdLit => 0x47

/-- Every assigned register, in register-number order (10_state.md R40). -/
def allRegs : List Reg :=
  [.status, .faultInfo, .faultCmd, .cfgWordBits, .cfgCountBits, .cfgDictCap,
   .lzeWidth, .lzeDictSize, .lzeCtr, .lzeCtrWords, .lzePhraseLen, .lzeOutBits, .lzeAlphaSize,
   .lzdWidth, .lzdDictSize, .lzdCtr, .lzdCtrWords, .lzdPos, .lzdLimit, .lzdPendingLen, .lzdOutLen, .lzdAlphaSize,
   .hftLeaves, .hftTotal, .hftMerges, .hftSubtrees,
   .hfdPos, .hfdTrial, .hfdMinlen, .hfdMaxlen, .hfdEmitted, .hfdTotal, .hfdNbits, .hfdLit]

/-- The register of a number, or none where the number is unassigned (10_state.md R40, R49). -/
def regOfNumber (n : Byte) : Option Reg := allRegs.find? (fun r => r.number == n)

/-- Assembles a header: UNIT and OP in `header[31:24]` (R102), seven zero bits, FLAGS[0], IMM (R101). -/
def headerWord (opcode : BitVec 8) (flag : Bool) (imm : BitVec 16) : BitVec 32 :=
  BitVec.ofNat 32 (opcode.toNat * 2 ^ 24 + flag.toNat * 2 ^ 16 + imm.toNat)

/-- The opcode byte of each row (R102, R105). -/
def Head.opcode : Head → BitVec 8
  | .ctlNop => 0x00 | .ctlReset => 0x01 | .ctlRead _ => 0x02
  | .bbNew => 0x10 | .bbUnused => 0x11 | .bbAppend => 0x12 | .bbShiftLeft => 0x13
  | .bbPushLeadingBit _ => 0x14 | .bbToBytes => 0x15 | .bbFromBytes => 0x16
  | .lzeInit => 0x20 | .lzeSymbol _ => 0x21 | .lzeFlush => 0x22 | .lzeEncode => 0x23
  | .lzdInit _ => 0x30 | .lzdStep => 0x31 | .lzdDecode _ => 0x32
  | .hftLoad => 0x40 | .hftStep => 0x41 | .hftTable => 0x42
  | .hfeEncode => 0x50 | .hfeHist => 0x51
  | .hfdInit _ => 0x60 | .hfdStep => 0x61 | .hfdDecode _ => 0x62

/-- FLAGS[0] of a row (R103). -/
def Head.flag : Head → Bool
  | .lzdInit f => f
  | .lzdDecode f => f
  | .hfdInit f => f
  | .hfdDecode f => f
  | _ => false

/-- The IMM field of a row, zero-extended (R104). -/
def Head.imm : Head → BitVec 16
  | .ctlRead reg => reg.number.setWidth 16
  | .bbPushLeadingBit bit => (BitVec.ofBool bit).setWidth 16
  | .lzeSymbol sym => sym.setWidth 16
  | _ => 0#16

/-- The 32-bit header of a row. -/
def Head.word (hd : Head) : BitVec 32 := headerWord hd.opcode hd.flag hd.imm

/-- The unit a row belongs to (00_scope.md R2; the high nibble of the opcode, R101). -/
def Head.unit : Head → FUnit
  | .ctlNop | .ctlReset | .ctlRead _ => .ctl
  | .bbNew | .bbUnused | .bbAppend | .bbShiftLeft | .bbPushLeadingBit _ | .bbToBytes | .bbFromBytes => .bb
  | .lzeInit | .lzeSymbol _ | .lzeFlush | .lzeEncode => .lze
  | .lzdInit _ | .lzdStep | .lzdDecode _ => .lzd
  | .hftLoad | .hftStep | .hftTable => .hft
  | .hfeEncode | .hfeHist => .hfe
  | .hfdInit _ | .hfdStep | .hfdDecode _ => .hfd

/-- A row that takes neither a mode flag nor an immediate (R107, "otherwise"). -/
def plainRow (f : Bool) (imm : BitVec 16) (hd : Head) : Option Head :=
  if f = false ∧ imm = 0#16 then some hd else none

/-- A row whose FLAGS[0] is a mode (R103). -/
def modeRow (f : Bool) (imm : BitVec 16) (mk : Bool → Head) : Option Head :=
  if imm = 0#16 then some (mk f) else none

/-- A row with an 8-bit immediate: IMM[15:8] must be 0 (R104). -/
def byteRow (f : Bool) (imm : BitVec 16) (mk : Byte → Option Head) : Option Head :=
  if f = false ∧ imm.extractLsb' 8 8 = 0#8 then mk (imm.extractLsb' 0 8) else none

/-- A row with a 1-bit immediate: IMM[15:1] must be 0 (R104). -/
def bitRow (f : Bool) (imm : BitVec 16) (mk : Bool → Head) : Option Head :=
  if f = false ∧ imm.extractLsb' 1 15 = 0#15 then some (mk (imm.getLsbD 0)) else none

/-- The row of an opcode with its flag and immediate, or none where R106 makes the header illegal. -/
def decodeFields (opcode : Nat) (f : Bool) (imm : BitVec 16) : Option Head :=
  match opcode with
  | 0x00 => plainRow f imm .ctlNop
  | 0x01 => plainRow f imm .ctlReset
  | 0x02 => byteRow f imm fun n => (regOfNumber n).map .ctlRead
  | 0x10 => plainRow f imm .bbNew
  | 0x11 => plainRow f imm .bbUnused
  | 0x12 => plainRow f imm .bbAppend
  | 0x13 => plainRow f imm .bbShiftLeft
  | 0x14 => bitRow f imm .bbPushLeadingBit
  | 0x15 => plainRow f imm .bbToBytes
  | 0x16 => plainRow f imm .bbFromBytes
  | 0x20 => plainRow f imm .lzeInit
  | 0x21 => byteRow f imm fun n => some (.lzeSymbol n)
  | 0x22 => plainRow f imm .lzeFlush
  | 0x23 => plainRow f imm .lzeEncode
  | 0x30 => modeRow f imm .lzdInit
  | 0x31 => plainRow f imm .lzdStep
  | 0x32 => modeRow f imm .lzdDecode
  | 0x40 => plainRow f imm .hftLoad
  | 0x41 => plainRow f imm .hftStep
  | 0x42 => plainRow f imm .hftTable
  | 0x50 => plainRow f imm .hfeEncode
  | 0x51 => plainRow f imm .hfeHist
  | 0x60 => modeRow f imm .hfdInit
  | 0x61 => plainRow f imm .hfdStep
  | 0x62 => modeRow f imm .hfdDecode
  | _ => none

/-- Header decoding, total on every 32-bit value (R107); none is ILLEGAL. -/
def decodeHeader (h : BitVec 32) : Option Head :=
  if h.extractLsb' 17 7 ≠ 0#7 then none
  else decodeFields (h.extractLsb' 24 8).toNat (h.getLsbD 16) (h.extractLsb' 0 16)

/-! ## Operand payloads (R110, R111) -/

/-- Reads one operand off the front of a payload: its value and the bytes after it, or none where the message ends inside
it (R112). -/
abbrev Parser (α : Type) := List Byte → Option (α × List Byte)

/-- Exactly `n` bytes. -/
def takeBytes (n : Nat) : Parser (List Byte) := fun bs =>
  if n ≤ bs.length then some (bs.take n, bs.drop n) else none

/-- U64: 8 bytes. -/
def parseU64 : Parser Nat := fun bs => (takeBytes 8 bs).map fun p => (natOfBytes p.1, p.2)

/-- BYTES: a U64 length, then that many bytes. -/
def parseBytes : Parser (List Byte) := fun bs => (parseU64 bs).bind fun p => takeBytes p.1 p.2

/-- WORDS: a U64 length, then that many Words of `WB/8` bytes. -/
def parseWords (wb : Nat) : Parser (List Nat) := fun bs =>
  (parseU64 bs).bind fun p =>
    (takeBytes (p.1 * (wb / 8)) p.2).map fun q => ((chunks (wb / 8) p.1 q.1).map natOfBytes, q.2)

/-- BB: a U64 bit count, then WORDS; refused where the words do not cover the bit count (R112). -/
def parseBB (wb : Nat) : Parser BitBuffer := fun bs =>
  (parseU64 bs).bind fun p =>
    (parseWords wb p.2).bind fun q =>
      if p.1 ≤ q.1.length * wb then some (⟨q.1, p.1⟩, q.2) else none

/-- FREQ: 512 bytes, count `i` at bytes `2i` and `2i+1` (20_memory.md R74). -/
def parseFreq : Parser (List Nat) := fun bs =>
  (takeBytes 512 bs).map fun p => ((chunks 2 256 p.1).map natOfBytes, p.2)

/-- The U64 limit, present only when LIM = 1 (R111). -/
def parseLimit : Bool → Parser (Option Nat)
  | false => fun bs => some (none, bs)
  | true => fun bs => (parseU64 bs).map fun p => (some p.1, p.2)

/-- Operand `i` of a command: where it does not parse, the information value is `i` (R112). -/
def operand {α β : Type} (i : Nat) (p : Parser α) (bs : List Byte) (k : α → List Byte → Except Nat β) : Except Nat β :=
  match p bs with
  | none => .error i
  | some (a, rest) => k a rest

/-- The end of the payload after `n` operands: bytes that remain give the information value `n` (R112). -/
def endOfPayload (n : Nat) (i : Instr) (rest : List Byte) : Except Nat Instr :=
  if rest.isEmpty then .ok i else .error n

/-- The operands of each command, in payload order (R111). -/
def parseOperands (wb : Nat) (hd : Head) (bs : List Byte) : Except Nat Instr :=
  match hd with
  | .ctlNop => endOfPayload 0 .ctlNop bs
  | .ctlReset => endOfPayload 0 .ctlReset bs
  | .ctlRead reg => endOfPayload 0 (.ctlRead reg) bs
  | .bbNew => operand 0 (parseWords wb) bs fun ws r => operand 1 parseU64 r fun n r => endOfPayload 2 (.bbNew ws n) r
  | .bbUnused => operand 0 (parseBB wb) bs fun b r => endOfPayload 1 (.bbUnused b) r
  | .bbAppend => operand 0 (parseBB wb) bs fun s r => operand 1 (parseBB wb) r fun v r => endOfPayload 2 (.bbAppend s v) r
  | .bbShiftLeft => operand 0 (parseBB wb) bs fun b r => endOfPayload 1 (.bbShiftLeft b) r
  | .bbPushLeadingBit bit => operand 0 (parseBB wb) bs fun b r => endOfPayload 1 (.bbPushLeadingBit bit b) r
  | .bbToBytes => operand 0 (parseBB wb) bs fun b r => endOfPayload 1 (.bbToBytes b) r
  | .bbFromBytes => operand 0 parseBytes bs fun s r => endOfPayload 1 (.bbFromBytes s) r
  | .lzeInit => operand 0 parseBytes bs fun a r => endOfPayload 1 (.lzeInit a) r
  | .lzeSymbol sym => endOfPayload 0 (.lzeSymbol sym) bs
  | .lzeFlush => endOfPayload 0 .lzeFlush bs
  | .lzeEncode => operand 0 parseBytes bs fun a r => operand 1 parseBytes r fun s r => endOfPayload 2 (.lzeEncode a s) r
  | .lzdInit lim =>
    operand 0 parseBytes bs fun a r => operand 1 parseBytes r fun x r => operand 2 (parseLimit lim) r fun l r =>
      endOfPayload (if lim then 3 else 2) (.lzdInit a x l) r
  | .lzdStep => endOfPayload 0 .lzdStep bs
  | .lzdDecode lim =>
    operand 0 parseBytes bs fun a r => operand 1 parseBytes r fun x r => operand 2 (parseLimit lim) r fun l r =>
      endOfPayload (if lim then 3 else 2) (.lzdDecode a x l) r
  | .hftLoad => operand 0 parseFreq bs fun f r => endOfPayload 1 (.hftLoad f) r
  | .hftStep => endOfPayload 0 .hftStep bs
  | .hftTable => endOfPayload 0 .hftTable bs
  | .hfeEncode => operand 0 parseBytes bs fun d r => endOfPayload 1 (.hfeEncode d) r
  | .hfeHist => operand 0 parseBytes bs fun d r => endOfPayload 1 (.hfeHist d) r
  | .hfdInit lit => operand 0 parseBytes bs fun c r => endOfPayload 1 (.hfdInit lit c) r
  | .hfdStep => endOfPayload 0 .hfdStep bs
  | .hfdDecode lit => operand 0 parseBytes bs fun c r => endOfPayload 1 (.hfdDecode lit c) r

/-! ## Whole messages -/

/-- Why a message is no instruction. -/
inductive DecodeError where
  /-- The header is illegal in one of the ways of R106: ILLEGAL_COMMAND. -/
  | illegalCommand
  /-- The payload does not frame (R112): BAD_OPERAND with this information value, in a command of this row. -/
  | badOperand (hd : Head) (index : Nat)
  deriving DecidableEq, Repr

/-- Decoding of a whole message at word width `wb`: the header first, then the payload (R107, R112; 60_exceptions.md R314,
checks 2 and 3). -/
def decode (wb : Nat) (m : Message) : Except DecodeError Instr :=
  match decodeHeader m.header with
  | none => .error .illegalCommand
  | some hd =>
    match parseOperands wb hd m.payload with
    | .ok i => .ok i
    | .error n => .error (.badOperand hd n)

/-- Why a byte string is no instruction. -/
inductive BytesError where
  /-- Fewer than the 4 header bytes of R100: no message at all. -/
  | noHeader
  /-- A message that does not decode. -/
  | message (e : DecodeError)
  deriving DecidableEq, Repr

/-- A byte string as a message: 4 header bytes, most significant first, then the payload (R100, R75). -/
def messageOfBytes (bs : List Byte) : Option Message :=
  (takeBytes 4 bs).map fun p => ⟨BitVec.ofNat 32 (natOfBytes p.1), p.2⟩

/-- Decoding, total on any byte string. -/
def decodeBytes (wb : Nat) (bs : List Byte) : Except BytesError Instr :=
  match messageOfBytes bs with
  | none => .error .noHeader
  | some m =>
    match decode wb m with
    | .ok i => .ok i
    | .error e => .error (.message e)

/-! ## Encoding (R100, R101, R110, R111) -/

def encodeU64 (n : Nat) : List Byte := bytesBE 8 n

def encodeBytes (bs : List Byte) : List Byte := encodeU64 bs.length ++ bs

def encodeWords (wb : Nat) (ws : List Nat) : List Byte := encodeU64 ws.length ++ ws.flatMap (bytesBE (wb / 8))

def encodeBB (wb : Nat) (b : BitBuffer) : List Byte := encodeU64 b.bitCount ++ encodeWords wb b.words

def encodeFreq (f : List Nat) : List Byte := f.flatMap (bytesBE 2)

/-- The operands of an instruction, each serialized, in payload order (R111). -/
def Instr.fields (wb : Nat) : Instr → List (List Byte)
  | .ctlNop => []
  | .ctlReset => []
  | .ctlRead _ => []
  | .bbNew ws n => [encodeWords wb ws, encodeU64 n]
  | .bbUnused b => [encodeBB wb b]
  | .bbAppend s v => [encodeBB wb s, encodeBB wb v]
  | .bbShiftLeft b => [encodeBB wb b]
  | .bbPushLeadingBit _ b => [encodeBB wb b]
  | .bbToBytes b => [encodeBB wb b]
  | .bbFromBytes s => [encodeBytes s]
  | .lzeInit alpha => [encodeBytes alpha]
  | .lzeSymbol _ => []
  | .lzeFlush => []
  | .lzeEncode alpha syms => [encodeBytes alpha, encodeBytes syms]
  | .lzdInit alpha input none => [encodeBytes alpha, encodeBytes input]
  | .lzdInit alpha input (some limit) => [encodeBytes alpha, encodeBytes input, encodeU64 limit]
  | .lzdStep => []
  | .lzdDecode alpha input none => [encodeBytes alpha, encodeBytes input]
  | .lzdDecode alpha input (some limit) => [encodeBytes alpha, encodeBytes input, encodeU64 limit]
  | .hftLoad f => [encodeFreq f]
  | .hftStep => []
  | .hftTable => []
  | .hfeEncode data => [encodeBytes data]
  | .hfeHist data => [encodeBytes data]
  | .hfdInit _ container => [encodeBytes container]
  | .hfdStep => []
  | .hfdDecode _ container => [encodeBytes container]

/-- The payload of an instruction (R111). -/
def encodePayload (wb : Nat) (i : Instr) : List Byte := (i.fields wb).flatten

/-- The message of an instruction. -/
def encode (wb : Nat) (i : Instr) : Message := ⟨i.head.word, encodePayload wb i⟩

/-- A message as the bytes sent: the header most significant byte first, then the payload (R100). -/
def messageBytes (m : Message) : List Byte := bytesBE 4 m.header.toNat ++ m.payload

/-! ## A table row's word -/

/-- How many payload bytes of zeros make exactly the operands of a row (R110, R111): a zero U64, BYTES or WORDS is 8 bytes, a
zero BB 16, a FREQ 512. -/
def Head.zeroPayload : Head → Nat
  | .ctlNop | .ctlReset | .ctlRead _ => 0
  | .bbNew => 16
  | .bbUnused | .bbShiftLeft | .bbPushLeadingBit _ | .bbToBytes => 16
  | .bbAppend => 32
  | .bbFromBytes => 8
  | .lzeInit => 8
  | .lzeSymbol _ | .lzeFlush => 0
  | .lzeEncode => 16
  | .lzdInit lim | .lzdDecode lim => if lim then 24 else 16
  | .lzdStep => 0
  | .hftLoad => 512
  | .hftStep | .hftTable => 0
  | .hfeEncode | .hfeHist => 8
  | .hfdInit _ | .hfdDecode _ => 8
  | .hfdStep => 0

/-- The message whose header is the low `nbits` bits of `w` and whose operands are all zero. -/
def tableMessage (nbits w : Nat) : Message :=
  let h := BitVec.ofNat 32 (w % 2 ^ nbits)
  ⟨h, List.replicate (((decodeHeader h).map Head.zeroPayload).getD 0) 0#8⟩

/-- The instruction the decoder reads from a row's word, at the default word width. -/
def decodeTableWord (nbits w : Nat) : Option Instr := (decode Config.standard.wordBits (tableMessage nbits w)).toOption

end Sys2Proof
end

