-- ==== Sys2Proof/Machine/State.lean ====
section
/-! DEFINITION. Every piece of state the spec gives the CORE (10_state.md R32 to R36, R43), the two ends of the command port,
the reset values (R52), and the reasons a step can stop. -/

namespace Sys2Proof.Machine

/-! ## Faults of the CORE (60_exceptions.md). These are no stops: taking one is a next state. -/

/-- The fault codes (R310). -/
inductive FaultCode where
  | alphabetCoverage | corruptStream | degenerateTree | illegalCommand
  | sequenceError | badOperand | countOverflow | capacityExceeded
  deriving DecidableEq, Repr

/-- `raise F(info)` (00_scope.md R16): the fault a command's pseudocode reaches, with its information value (R312). -/
structure Raise where
  code : FaultCode
  info : Nat
  deriving DecidableEq, Repr

/-- The global fault state (10_state.md R32). -/
structure FaultState where
  faulted : Bool
  code : Byte
  info : Nat
  cmd : BitVec 32
  deriving DecidableEq, Repr

/-! ## Unit state -/

/-- The encoder instance (10_state.md R33). The dictionary is a finite map in insertion order, which for every instance is
the rising order of its codewords (R53). -/
structure Lze where
  live : Bool
  alpha : List Byte
  dict : List (List Byte × Nat)
  ctr : List Nat
  width : Nat
  phrase : List Byte
  out : BitBuffer
  deriving DecidableEq, Repr

/-- The mode of a decoder instance: no instance, decoding, finished (10_state.md R34, R36). -/
inductive DecoderMode where
  | idle | active | ended
  deriving DecidableEq, Repr

/-- The decoder instance (10_state.md R34); the dictionary as in `Lze`. -/
structure Lzd where
  mode : DecoderMode
  alpha : List Byte
  dict : List (Nat × List Byte)
  ctr : List Nat
  width : Nat
  words : List Nat
  limit : Nat
  pos : Nat
  pending : Option (List Byte)
  out : List Byte
  deriving DecidableEq, Repr

/-- A leaf of the tree under construction (44_huffman_tree.md R230). -/
structure Leaf where
  code : BitBuffer
  sym : Byte
  id : Byte
  weight : Nat
  deriving DecidableEq, Repr

/-- The mode of the tree engine (10_state.md R35). -/
inductive TreeMode where
  | idle | building | done
  deriving DecidableEq, Repr

/-- The tree engine (10_state.md R35). -/
structure Hft where
  mode : TreeMode
  leaves : List Leaf
  total : Nat
  merges : Nat
  deriving DecidableEq, Repr

/-- The bit-matcher decoder instance (10_state.md R36). The reverse table is keyed by the codeword's bit string, which
45_huffman_codec.md R266 allows, and listed in rising order of its bytes. -/
structure Hfd where
  mode : DecoderMode
  lit : Bool
  total : Nat
  rev : List (Bits × Byte)
  minlen : Nat
  maxlen : Nat
  stream : List Byte
  nbits : Nat
  pos : Nat
  trial : Nat
  emitted : Nat
  out : List Byte
  deriving DecidableEq, Repr

/-! ## The command port -/

/-- One response message: a 32-bit header, then the result payload (30_encoding.md R120, R121). -/
structure Response where
  header : BitVec 32
  payload : List Byte
  deriving DecidableEq, Repr

/-- The result of a command before it is serialized (30_encoding.md R123). -/
inductive Result where
  | none
  | nat (n : Nat)
  | bb (b : BitBuffer)
  | bytes (bs : List Byte)
  | freq (f : List Nat)
  | table (t : List BitBuffer)
  deriving DecidableEq, Repr

/-- What a command returns with status OK: the result tag (R122) and the result (R123). -/
structure Answer where
  tag : BitVec 16
  result : Result
  deriving DecidableEq, Repr

/-- The machine: the CORE's parameters and state, and the HOST's side of the command port. `commands` are the messages the
HOST has still to send, the next one first; `responses` are the responses the CORE has sent, oldest first. The HOST sends
one message, waits for its response, then sends the next (70_reset_and_hazards.md R361), so the head of `commands` is the
only message in flight. -/
structure State where
  cfg : Config
  fault : FaultState
  lze : Lze
  lzd : Lzd
  hft : Hft
  hfd : Hfd
  commands : List Message
  responses : List Response
  deriving DecidableEq, Repr

/-! ## Reset values (10_state.md R52) -/

def FaultState.reset : FaultState := { faulted := false, code := 0x00, info := 0, cmd := 0x00000000 }

def Lze.reset : Lze :=
  { live := false, alpha := [], dict := [], ctr := [0], width := 0, phrase := [], out := ⟨[], 0⟩ }

def Lzd.reset : Lzd :=
  { mode := .idle, alpha := [], dict := [], ctr := [0], width := 0, words := [], limit := 0, pos := 0, pending := none,
    out := [] }

def Hft.reset : Hft := { mode := .idle, leaves := [], total := 0, merges := 0 }

def Hfd.reset : Hfd :=
  { mode := .idle, lit := false, total := 0, rev := [], minlen := 0, maxlen := 0, stream := [], nbits := 0, pos := 0,
    trial := 0, emitted := 0, out := [] }

/-- The power-on reset of an instance with the given parameters (70_reset_and_hazards.md R350, R353): no command sent, no
response received. -/
def State.powerOn (cfg : Config) : State :=
  { cfg, fault := .reset, lze := .reset, lzd := .reset, hft := .reset, hfd := .reset, commands := [], responses := [] }

/-- The machine right after reset, with the standard parameters (R350; log entry 1 for the parameters). -/
def State.reset : State := State.powerOn .standard

/-! ## Stops -/

/-- No step stops with a fault: every fault of the CORE is a next state that records it (60_exceptions.md R320), and the
spec names nothing that stops the machine. The type is closed and empty. -/
inductive Fault
  deriving DecidableEq, Repr

/-- Why a step has no meaning. -/
inductive Refusal where
  /-- Raised by an arm of `exec` whose instruction has no meaning yet; no arm is left. Safe. -/
  | notModelled (mnemonic : String)
  /-- Raised by `step` on an instance whose `WB` is not a multiple of 8 that is at least 8: "refused: the model has no
  meaning for it" (00_scope.md R8; 93_implementation_defined.md I5). Safe. -/
  | wordBits (wb : Nat)
  deriving DecidableEq, Repr

/-- The outcome of a step of this machine. -/
abbrev Outcome := Host.Outcome State Fault Refusal

end Sys2Proof.Machine
end

