-- ==== Sys2Proof/Machine/Operands.lean ====
section
/-! DEFINITION. Bits, Words and their views (00_scope.md R14, R15; 20_memory.md R70 to R79), the operand value checks
(30_encoding.md R113), and the serialization of results (R110, R123). -/

namespace Sys2Proof.Machine

/-! ## Numbers and bit strings -/

/-- The number of significant bits of a natural number (00_scope.md R15). -/
def bitlen (x : Nat) : Nat := if x = 0 then 0 else x.log2 + 1

/-- `ceil(a / b)`. -/
def ceilDiv (a b : Nat) : Nat := (a + b - 1) / b

/-- The `n`-bit big-endian bit string of `v mod 2^n` (00_scope.md R14). -/
def bitsOf : Nat → Nat → Bits
  | _, 0 => []
  | v, n + 1 => v.testBit n :: bitsOf v n

/-- The natural number whose big-endian digits are the bit string (00_scope.md R14). -/
def natOf (bs : Bits) : Nat := bs.foldl (fun a b => 2 * a + b.toNat) 0

/-- The bit string of a word sequence, word 0 first, each word MSB first (00_scope.md R14). -/
def cat (wb : Nat) (ws : List Nat) : Bits := ws.flatMap (fun w => bitsOf w wb)

/-- The bit string of a byte string, MSB first (20_memory.md R73). -/
def bitsOfBytes (bs : List Byte) : Bits := bs.flatMap (fun b => bitsOf b.toNat 8)

/-- `extract(bs, p, n)` (20_memory.md R78). -/
def extract (bs : Bits) (p n : Nat) : Nat := natOf ((bs.drop p).take n)

/-- The `k * wb`-bit value `v` cut into `k` Words, the most significant first (used by 41_bitbuffer.md R143, R153, R154). -/
def wordsOf (wb : Nat) : Nat → Nat → List Nat
  | 0, _ => []
  | k + 1, v => v / 2 ^ (wb * k) % 2 ^ wb :: wordsOf wb k v

/-- The shortest non-empty word sequence of a value (41_bitbuffer.md R143, with the word count of R146). -/
def canon (wb v : Nat) : List Nat := wordsOf wb (max 1 (ceilDiv (bitlen v) wb)) v

/-! ## Operand value checks (30_encoding.md R113) -/

/-- A seed alphabet: 1 to 256 bytes, all distinct (00_scope.md R10). -/
abbrev AlphabetOk (alpha : List Byte) : Prop := 1 ≤ alpha.length ∧ alpha.length ≤ 256 ∧ alpha.Nodup

/-- R113 (a) for the alphabet, operand 0 of every command that takes one. -/
def checkAlphabet (alpha : List Byte) : Except Raise Unit :=
  if AlphabetOk alpha then .ok () else .error ⟨.badOperand, 0⟩

/-- R113 (b): the limit, operand 2, must not exceed the padded input's bit capacity. -/
def checkLimit (limit : Option Nat) (capacity : Nat) : Except Raise Unit :=
  match limit with
  | none => .ok ()
  | some l => if l ≤ capacity then .ok () else .error ⟨.badOperand, 2⟩

/-! ## Result serialization (30_encoding.md R110, R123) -/

/-- A BB result whose two length fields fit 64 bits. -/
def fitsBB (b : BitBuffer) : Bool := fitsU64 b.bitCount && fitsU64 b.words.length

/-- The payload of a result, or none where one of its length fields does not fit 64 bits ("Lengths above 2^64 - 1 cannot be
expressed", 92_eei_decisions.md D24). -/
def resultPayload (wb : Nat) : Result → Option (List Byte)
  | .none => some []
  | .nat n => if fitsU64 (canon wb n).length then some (encodeWords wb (canon wb n)) else none
  | .bb b => if fitsBB b then some (encodeBB wb b) else none
  | .bytes bs => if fitsU64 bs.length then some (encodeBytes bs) else none
  | .freq f => some (encodeFreq f)
  | .table t => if t.all fitsBB then some (t.flatMap (encodeBB wb)) else none

end Sys2Proof.Machine
end

