-- ==== Sys2Proof/Machine/Flags.lean ====
section
/-! DEFINITION. The flags: the STATUS register (10_state.md R41, R50). -/

namespace Sys2Proof.Machine

/-- STATUS (R41): bits 31:16 zero, FAULT_CODE in 15:8, then HFD_ENDED, HFD_ACTIVE, HFT_DONE, HFT_BUILDING, LZD_ENDED,
LZD_ACTIVE, LZE_LIVE and FAULTED from bit 7 down to bit 0. -/
def statusWord (s : State) : BitVec 32 :=
  BitVec.ofNat 32 (s.fault.code.toNat * 2 ^ 8
    + (decide (s.hfd.mode = .ended)).toNat * 2 ^ 7 + (decide (s.hfd.mode = .active)).toNat * 2 ^ 6
    + (decide (s.hft.mode = .done)).toNat * 2 ^ 5 + (decide (s.hft.mode = .building)).toNat * 2 ^ 4
    + (decide (s.lzd.mode = .ended)).toNat * 2 ^ 3 + (decide (s.lzd.mode = .active)).toNat * 2 ^ 2
    + s.lze.live.toNat * 2 ^ 1 + s.fault.faulted.toNat * 2 ^ 0)

end Sys2Proof.Machine
end

