-- ==== Sys2Proof/Machine/Ops.lean ====
section
/-! DEFINITION. The shared operations: finite maps, BitBuffers and Counters, the register map's read, responses, taking a
fault and returning from it by reset, and the frame every command runs in. -/

namespace Sys2Proof.Machine

/-! ## Finite maps (00_scope.md R17) -/

/-- `m[k]`, or none where `k ∉ m`. -/
def mapGet {κ ν : Type} [DecidableEq κ] (m : List (κ × ν)) (k : κ) : Option ν :=
  match m with
  | [] => none
  | (k', v) :: m => if k' = k then some v else mapGet m k

/-- `m[k] <- v`: adds the key at the end, or replaces its value where it stands. -/
def mapPut {κ ν : Type} [DecidableEq κ] (m : List (κ × ν)) (k : κ) (v : ν) : List (κ × ν) :=
  match m with
  | [] => [(k, v)]
  | (k', v') :: m => if k' = k then (k, v) :: m else (k', v') :: mapPut m k v

/-! ## BitBuffers (41_bitbuffer.md) -/

/-- `unused(b)` (R141). -/
def unused (wb : Nat) (b : BitBuffer) : Nat := b.words.length * wb - b.bitCount

/-- The bits of a value-convention buffer: the last `bit_count` bits of `cat(words)` (20_memory.md R70). -/
def vbits (wb : Nat) (b : BitBuffer) : Bits := (cat wb b.words).drop (unused wb b)

/-- The bits of a stream-convention buffer: the first `bit_count` bits of `cat(words)` (20_memory.md R71). -/
def sbits (wb : Nat) (b : BitBuffer) : Bits := (cat wb b.words).take b.bitCount

/-- `frombits(bs)` (R142): zero-padded to whole Words, no unused trailing Word. -/
def frombits (wb : Nat) (bs : Bits) : BitBuffer :=
  let padded := bs ++ List.replicate ((wb - bs.length % wb) % wb) false
  ⟨(chunks wb (ceilDiv bs.length wb) padded).map natOf, bs.length⟩

/-- `new(words, bit_count)` (R150). -/
def bbNew (wb : Nat) (ws : List Nat) (n : Nat) : BitBuffer :=
  let need := ceilDiv n wb
  ⟨if ws.length < need then List.replicate (need - ws.length) 0 ++ ws else ws, n⟩

/-- `append(value)` (R152). -/
def bbAppend (wb : Nat) (s v : BitBuffer) : BitBuffer := frombits wb (sbits wb s ++ vbits wb v)

/-- `shift_left()` (R153). -/
def bbShiftLeft (wb : Nat) (b : BitBuffer) : BitBuffer :=
  let n := b.words.length * wb
  ⟨wordsOf wb b.words.length (natOf (cat wb b.words) * 2 ^ unused wb b % 2 ^ n), b.bitCount⟩

/-- `push_leading_bit(bit)` (R154). -/
def bbPushLeadingBit (wb : Nat) (bit : Bool) (b : BitBuffer) : BitBuffer :=
  let ws := if b.words.length * wb = b.bitCount then 0 :: b.words else b.words
  let x := natOf (cat wb ws)
  let p := b.bitCount
  ⟨wordsOf wb ws.length (x - (x.testBit p).toNat * 2 ^ p + bit.toNat * 2 ^ p), p + 1⟩

/-- The byte string of a word sequence (20_memory.md R72). -/
def bytesOfWords (wb : Nat) (ws : List Nat) : List Byte := ws.flatMap (bytesBE (wb / 8))

/-- Serialization of a stream to bytes (R156). -/
def bbToBytes (wb : Nat) (b : BitBuffer) : List Byte := (bytesOfWords wb b.words).take (ceilDiv b.bitCount 8)

/-- Deserialization of bytes into a stream (R157). -/
def bbFromBytes (wb : Nat) (bs : List Byte) : BitBuffer :=
  let n := wb / 8
  let padded := bs ++ List.replicate ((n - bs.length % n) % n) 0x00
  ⟨(chunks n (ceilDiv bs.length n) padded).map natOfBytes, 8 * bs.length⟩

/-- The value-convention buffer of codeword `v` at width `n` (R143). -/
def valueBB (wb v n : Nat) : BitBuffer := bbNew wb (canon wb v) n

/-! ## Counters (41_bitbuffer.md R144 to R146) -/

/-- The value of a Counter (R144). -/
def ctrValue (wb : Nat) (c : List Nat) : Nat := natOf (cat wb c)

/-- The ripple carry of R145, from the least significant Word up: each Word is incremented modulo `2^WB` while the carry is
1, and a new leading Word 1 is added when the carry leaves the last one. -/
def incRev (wb : Nat) : List Nat → List Nat
  | [] => [1]
  | d :: ds => if (d + 1) / 2 ^ wb = 1 then (d + 1) % 2 ^ wb :: incRev wb ds else (d + 1) % 2 ^ wb :: ds

/-- `inc(c)` (R145). -/
def inc (wb : Nat) (c : List Nat) : List Nat := (incRev wb c.reverse).reverse

/-- An LZW dictionary of `n` entries would pass `DICT_CAP` (00_scope.md R9). -/
def overCap (cfg : Config) (n : Nat) : Bool := 0 < cfg.dictCap && cfg.dictCap < n

/-! ## Updates of the state -/

def State.withLze (s : State) (u : Lze) : State := { s with lze := u }

def State.withLzd (s : State) (u : Lzd) : State := { s with lzd := u }

def State.withHft (s : State) (u : Hft) : State := { s with hft := u }

def State.withHfd (s : State) (u : Hfd) : State := { s with hfd := u }

def State.withFault (s : State) (f : FaultState) : State := { s with fault := f }

/-- The message port after a message was taken. -/
def State.withCommands (s : State) (ms : List Message) : State := { s with commands := ms }

/-- Sends one response (30_encoding.md R120). -/
def State.send (s : State) (r : Response) : State := { s with responses := s.responses ++ [r] }

/-! ## Reading a register (10_state.md R40 to R47) -/

/-- The distinct `id` values among the leaves (10_state.md R40, HFT_SUBTREES). -/
def subtreeIds (leaves : List Leaf) : List Byte := (leaves.map (·.id)).dedup

/-- `reg(n)`: the value of a register as a natural number. -/
def readReg (s : State) : Reg → Nat
  | .status => (statusWord s).toNat
  | .faultInfo => s.fault.info
  | .faultCmd => s.fault.cmd.toNat
  | .cfgWordBits => s.cfg.wordBits
  | .cfgCountBits => countBits
  | .cfgDictCap => s.cfg.dictCap
  | .lzeWidth => s.lze.width
  | .lzeDictSize => s.lze.dict.length
  | .lzeCtr => ctrValue s.cfg.wordBits s.lze.ctr
  | .lzeCtrWords => s.lze.ctr.length
  | .lzePhraseLen => s.lze.phrase.length
  | .lzeOutBits => s.lze.out.bitCount
  | .lzeAlphaSize => s.lze.alpha.length
  | .lzdWidth => s.lzd.width
  | .lzdDictSize => s.lzd.dict.length
  | .lzdCtr => ctrValue s.cfg.wordBits s.lzd.ctr
  | .lzdCtrWords => s.lzd.ctr.length
  | .lzdPos => s.lzd.pos
  | .lzdLimit => s.lzd.limit
  | .lzdPendingLen => (s.lzd.pending.getD []).length
  | .lzdOutLen => s.lzd.out.length
  | .lzdAlphaSize => s.lzd.alpha.length
  | .hftLeaves => s.hft.leaves.length
  | .hftTotal => s.hft.total
  | .hftMerges => s.hft.merges
  | .hftSubtrees => (subtreeIds s.hft.leaves).length
  | .hfdPos => s.hfd.pos
  | .hfdTrial => s.hfd.trial
  | .hfdMinlen => s.hfd.minlen
  | .hfdMaxlen => s.hfd.maxlen
  | .hfdEmitted => s.hfd.emitted
  | .hfdTotal => s.hfd.total
  | .hfdNbits => s.hfd.nbits
  | .hfdLit => s.hfd.lit.toNat

/-! ## Responses (30_encoding.md R120 to R123) -/

/-- RSTATUS, RFAULT and TAG (R121). -/
def responseHeader (rstatus rfault : Byte) (tag : BitVec 16) : BitVec 32 :=
  BitVec.ofNat 32 (rstatus.toNat * 2 ^ 24 + rfault.toNat * 2 ^ 16 + tag.toNat)

/-- The payload of the next response for a result. Where a length cannot be expressed (92_eei_decisions.md D24) it is the
free value of log entry 2, applied to the number of responses sent so far. -/
def State.payload (s : State) (r : Result) : List Byte :=
  (resultPayload s.cfg.wordBits r).getD (Config.freePayload s.responses.length)

/-- A response as the bytes sent: the header most significant byte first, then the payload (20_memory.md R75; 30_encoding.md
R120). -/
def responseBytes (r : Response) : List Byte := bytesBE 4 r.header.toNat ++ r.payload

/-- A byte string as a response, the HOST's reading of it: 4 header bytes, most significant first, then the payload. -/
def responseOfBytes (bs : List Byte) : Option Response := (messageOfBytes bs).map fun m => ⟨m.header, m.payload⟩

/-- The OK response: RSTATUS 0x00, RFAULT 0, the command's tag, and its result. -/
def State.respondOk (s : State) (a : Answer) : State := s.send ⟨responseHeader 0x00 0x00 a.tag, s.payload a.result⟩

/-- The REFUSED response of a faulted CORE, which has no other effect (60_exceptions.md R322). -/
def State.respondRefused (s : State) : State := s.send ⟨responseHeader 0x02 s.fault.code 0x0000, []⟩

/-! ## Taking a fault, and the return from it -/

/-- The code of a fault (60_exceptions.md R310). -/
def FaultCode.byte : FaultCode → Byte
  | .alphabetCoverage => 0x01
  | .corruptStream => 0x02
  | .degenerateTree => 0x03
  | .illegalCommand => 0x04
  | .sequenceError => 0x05
  | .badOperand => 0x06
  | .countOverflow => 0x07
  | .capacityExceeded => 0x08

/-- A fault ends the instance of the unit its command belongs to, and changes no other field of it (60_exceptions.md R321).
An illegal header belongs to no unit; a BB, HFE or CTL command ends no instance. -/
def State.endInstance (s : State) : Option FUnit → State
  | some .lze => s.withLze { s.lze with live := false }
  | some .lzd => s.withLzd { s.lzd with mode := .idle }
  | some .hft => s.withHft { s.hft with mode := .idle }
  | some .hfd => s.withHfd { s.hfd with mode := .idle }
  | some .ctl | some .bb | some .hfe | none => s

/-- Fault entry (60_exceptions.md R320, R321): `s` is the state before the command, `u` its unit (none for an illegal
header), `h` its header. -/
def State.takeFault (s : State) (u : Option FUnit) (h : BitVec 32) (r : Raise) : State :=
  ((s.endInstance u).withFault { faulted := true, code := r.code.byte, info := r.info, cmd := h }).send
    ⟨responseHeader 0x01 r.code.byte 0x0000, []⟩

/-- Reset, the only return from a fault (60_exceptions.md R323; 70_reset_and_hazards.md R350): every piece of CORE state at
its reset value, the parameters and the HOST's side unchanged (10_state.md R43). -/
def State.resetCore (s : State) : State :=
  { s with fault := .reset, lze := .reset, lzd := .reset, hft := .reset, hfd := .reset }

/-! ## The frame of a command -/

/-- Ends a command: with status OK all its writes take effect together and the response is sent; with a fault none of them
do (20_memory.md R81; 60_exceptions.md R320, R321). `s` is the state before the command. -/
def complete (hd : Head) (s : State) : Except Raise (State × Answer) → State
  | .ok (t, a) => t.respondOk a
  | .error r => s.takeFault (some hd.unit) hd.word r

/-- Runs a command other than CTL_RESET and CTL_READ: a faulted CORE refuses it (60_exceptions.md R322), otherwise its body
decides. -/
def command (hd : Head) (s : State) (body : Except Raise (State × Answer)) : Outcome :=
  if s.fault.faulted then .next s.respondRefused else .next (complete hd s body)

/-- A command whose result depends on its operands only and that writes no state. -/
def pureCommand (hd : Head) (s : State) (r : Result) : Outcome := command hd s (.ok (s, ⟨0x0000, r⟩))

/-- SEQUENCE_ERROR, with the header as information (60_exceptions.md R312). -/
def sequenceError (hd : Head) : Raise := ⟨.sequenceError, hd.word.toNat⟩

end Sys2Proof.Machine
end

