-- ==== Sys2Proof/Machine/BitBufferUnit.lean ====
section
/-! DEFINITION. The BitBuffer unit's commands (41_bitbuffer.md R150 to R157): pure functions of their operands
(10_state.md R37). -/

namespace Sys2Proof.Machine

/-- BB_NEW (R150). -/
def execBbNew (ws : List Nat) (n : Nat) (s : State) : Outcome := pureCommand .bbNew s (.bb (bbNew s.cfg.wordBits ws n))

/-- BB_UNUSED (R151). -/
def execBbUnused (b : BitBuffer) (s : State) : Outcome := pureCommand .bbUnused s (.nat (unused s.cfg.wordBits b))

/-- BB_APPEND (R152). -/
def execBbAppend (a v : BitBuffer) (s : State) : Outcome := pureCommand .bbAppend s (.bb (bbAppend s.cfg.wordBits a v))

/-- BB_SHIFT_LEFT (R153). -/
def execBbShiftLeft (b : BitBuffer) (s : State) : Outcome := pureCommand .bbShiftLeft s (.bb (bbShiftLeft s.cfg.wordBits b))

/-- BB_PUSH_LEADING_BIT (R154). -/
def execBbPushLeadingBit (bit : Bool) (b : BitBuffer) (s : State) : Outcome :=
  pureCommand (.bbPushLeadingBit bit) s (.bb (bbPushLeadingBit s.cfg.wordBits bit b))

/-- BB_TO_BYTES (R156). -/
def execBbToBytes (b : BitBuffer) (s : State) : Outcome := pureCommand .bbToBytes s (.bytes (bbToBytes s.cfg.wordBits b))

/-- BB_FROM_BYTES (R157). -/
def execBbFromBytes (bs : List Byte) (s : State) : Outcome :=
  pureCommand .bbFromBytes s (.bb (bbFromBytes s.cfg.wordBits bs))

end Sys2Proof.Machine
end

