-- ==== Sys2Proof/Machine/Control.lean ====
section
/-! DEFINITION. The control unit's commands (46_control.md). -/

namespace Sys2Proof.Machine

/-- CTL_NOP (R290). -/
def execCtlNop (s : State) : Outcome := pureCommand .ctlNop s .none

/-- CTL_RESET (R291): accepted while faulted (60_exceptions.md R322). -/
def execCtlReset (s : State) : Outcome := .next (s.resetCore.respondOk ⟨0x0000, .none⟩)

/-- CTL_READ (R292): accepted while faulted (60_exceptions.md R322), with no side effect (20_memory.md R82). -/
def execCtlRead (reg : Reg) (s : State) : Outcome := .next (s.respondOk ⟨0x0000, .nat (readReg s reg)⟩)

end Sys2Proof.Machine
end

