-- ==== Sys2Proof/Machine/HuffmanTree.lean ====
section
/-! DEFINITION. The Huffman tree-build engine (44_huffman_tree.md): the engine's operations, then the HFT commands. -/

namespace Sys2Proof.Machine

/-! ## The engine -/

/-- The leaves of a frequency table, in ascending byte order (R231). -/
def leavesOf (f : List Nat) : List Leaf :=
  f.zipIdx.filterMap fun (count, b) =>
    if 0 < count then some { code := ⟨[], 0⟩, sym := BitVec.ofNat 8 b, id := BitVec.ofNat 8 b, weight := count } else none

/-- The stable sort of the leaves by weight (R232). -/
def sortLeaves (ls : List Leaf) : List Leaf := ls.insertionSort (fun a b => a.weight ≤ b.weight)

/-- The first leaf, in order, of minimum weight (R233, R234). -/
def firstLightest : List Leaf → Option Leaf
  | [] => none
  | l :: ls =>
    match firstLightest ls with
    | none => some l
    | some m => if l.weight ≤ m.weight then some l else some m

/-- Loading a frequency table (R240), with the check of R238. -/
def Hft.load (f : List Nat) : Except Raise Hft :=
  if f.sum = 0 then .error ⟨.degenerateTree, 0⟩
  else .ok { mode := .building, leaves := sortLeaves (leavesOf f), total := f.sum, merges := 0 }

/-- What one merge does to a leaf (R235). -/
def mergeLeaf (wb : Nat) (lo hi : Byte) (w : Nat) (l : Leaf) : Leaf :=
  if l.id = lo then { l with code := bbPushLeadingBit wb false l.code, weight := w }
  else if l.id = hi then { l with code := bbPushLeadingBit wb true l.code, id := lo, weight := w }
  else l

/-- The two subtrees the next merge joins: their first lightest leaves (R233, R234), or none where construction is finished
by the tests of R236. -/
def Hft.select (h : Hft) : Option (Leaf × Leaf) :=
  if h.leaves.any (fun l => l.weight == h.total) then none
  else
    match firstLightest h.leaves with
    | none => none
    | some m1 =>
      match firstLightest (h.leaves.filter (fun l => l.id ≠ m1.id)) with
      | none => none
      | some m2 => if m1.weight + m2.weight = 0 then none else some (m1, m2)

/-- One step of a loaded tree (R241): the engine after it, and whether it is DONE. -/
def Hft.step (wb : Nat) (h : Hft) : Hft × Bool :=
  match h.select with
  | none => ({ h with mode := .done }, true)
  | some (m1, m2) =>
    ({ h with leaves := h.leaves.map (mergeLeaf wb m1.id m2.id (m1.weight + m2.weight)), merges := h.merges + 1 }, false)

/-- Steps until DONE. A tree of `k` leaves takes `k` steps (R241), so the fuel never runs out. -/
def Hft.finish (wb : Nat) : Nat → Hft → Hft
  | 0, h => h
  | fuel + 1, h =>
    match h.step wb with
    | (h', true) => h'
    | (h', false) => Hft.finish wb fuel h'

/-- The codeword of a byte, or the absent entry `([], 0)`; the only symbol of a table gets the 1-bit codeword "0"
(R239, R242). -/
def Hft.codeword (h : Hft) (b : Byte) : BitBuffer :=
  match h.leaves.find? (fun l => l.sym == b) with
  | none => ⟨[], 0⟩
  | some l => if 0 < l.code.bitCount then l.code else ⟨[0], 1⟩

/-- The codeword table (R242). -/
def Hft.table (h : Hft) : List BitBuffer := (List.range 256).map fun b => h.codeword (BitVec.ofNat 8 b)

/-- `build(f)` (R243): the engine, DONE with the tree of `f`. Its table is `Hft.table`. -/
def buildTree (wb : Nat) (f : List Nat) : Except Raise Hft := do
  let h ← Hft.load f
  .ok (h.finish wb h.leaves.length)

/-! ## The commands -/

/-- HFT_LOAD (R240). -/
def execHftLoad (f : List Nat) (s : State) : Outcome :=
  command .hftLoad s do
    let h ← Hft.load f
    .ok (s.withHft h, ⟨0x0000, .none⟩)

/-- HFT_STEP (R241). -/
def execHftStep (s : State) : Outcome :=
  command .hftStep s
    (match s.hft.mode with
    | .idle => .error (sequenceError .hftStep)
    | .done => .ok (s, ⟨0x0001, .none⟩)
    | .building =>
      let (h, done) := s.hft.step s.cfg.wordBits
      .ok (s.withHft h, ⟨if done then 0x0001 else 0x0000, .none⟩))

/-- HFT_TABLE (R242). -/
def execHftTable (s : State) : Outcome :=
  command .hftTable s
    (if s.hft.mode = .done then .ok (s, ⟨0x0000, .table s.hft.table⟩) else .error (sequenceError .hftTable))

end Sys2Proof.Machine
end

