-- ==== Sys2Proof/Machine/HuffmanDecoder.lean ====
section
/-! DEFINITION. The bit-matcher decoder (45_huffman_codec.md R265 to R276): the instance's operations, then the HFD
commands. -/

namespace Sys2Proof.Machine

/-! ## The instance -/

/-- The counts of a container's first 512 bytes (R265; 20_memory.md R74). -/
def containerCounts (container : List Byte) : List Nat := (chunks 2 256 (container.take 512)).map natOfBytes

/-- The reverse table of a finished tree (R266): the bit string of each present byte's codeword, in byte order. -/
def reverseTable (wb : Nat) (h : Hft) : List (Bits × Byte) :=
  (List.range 256).filterMap fun b =>
    let code := h.codeword (BitVec.ofNat 8 b)
    if 0 < code.bitCount then some (vbits wb code, BitVec.ofNat 8 b) else none

/-- The least codeword length of a reverse table (R266). -/
def minLength (rev : List (Bits × Byte)) : Nat := ((rev.map (fun e => e.1.length)).min?).getD 0

/-- The greatest codeword length of a reverse table (R266). -/
def maxLength (rev : List (Bits × Byte)) : Nat := ((rev.map (fun e => e.1.length)).max?).getD 0

/-- Construction of an instance (R265, R271): the instance, and the HFT engine as `build` leaves it. -/
def Hfd.init (wb : Nat) (lit : Bool) (container : List Byte) : Except Raise (Hfd × Hft) :=
  if container.length < 512 then .error ⟨.corruptStream, container.length⟩
  else do
    let f := containerCounts container
    let h ← buildTree wb f
    let rev := reverseTable wb h
    let stream := container.drop 512
    .ok ({ mode := .active, lit, total := f.sum, rev, minlen := minLength rev, maxlen := maxLength rev, stream,
           nbits := 8 * stream.length, pos := 0, trial := minLength rev, emitted := 0, out := [] }, h)

/-- What one trial did (R269). -/
inductive Trial where
  | miss
  | hit (b : Byte)
  | ended
  deriving DecidableEq, Repr

/-- The end of the input, or a trial longer than every codeword: END in literal mode, CORRUPT_STREAM otherwise
(R269, R270). -/
def Hfd.malformed (u : Hfd) : Except Raise (Hfd × Trial) :=
  if u.lit then .ok ({ u with mode := .ended }, .ended) else .error ⟨.corruptStream, u.pos⟩

/-- One trial of an active instance (R269). -/
def Hfd.trialStep (u : Hfd) : Except Raise (Hfd × Trial) :=
  if u.lit = false ∧ u.emitted = u.total then .ok ({ u with mode := .ended }, .ended)
  else if u.nbits < u.pos + u.trial then u.malformed
  else
    match mapGet u.rev (((bitsOfBytes u.stream).drop u.pos).take u.trial) with
    | some b =>
      .ok ({ u with out := u.out ++ [b], pos := u.pos + u.trial, trial := u.minlen, emitted := u.emitted + 1 }, .hit b)
    | none =>
      if u.maxlen < u.trial + 1 then Hfd.malformed { u with trial := u.trial + 1 }
      else .ok ({ u with trial := u.trial + 1 }, .miss)

/-- Trials until END (R273). `(nbits + 1) * (maxlen + 1)` of them are enough (70_reset_and_hazards.md R366), so the fuel
never runs out. -/
def Hfd.run : Nat → Hfd → Except Raise Hfd
  | 0, u => .ok u
  | fuel + 1, u =>
    match u.trialStep with
    | .error r => .error r
    | .ok (v, .ended) => .ok v
    | .ok (v, _) => Hfd.run fuel v

/-- The result tag of a trial (30_encoding.md R122). -/
def Trial.tag : Trial → BitVec 16
  | .miss => 0x0000
  | .hit b => BitVec.ofNat 16 (0x0100 + b.toNat)
  | .ended => 0x0200

/-! ## The commands -/

/-- HFD_INIT (R271). -/
def execHfdInit (lit : Bool) (container : List Byte) (s : State) : Outcome :=
  command (.hfdInit lit) s do
    let (u, h) ← Hfd.init s.cfg.wordBits lit container
    .ok ((s.withHft h).withHfd u, ⟨0x0000, .none⟩)

/-- HFD_STEP (R272). -/
def execHfdStep (s : State) : Outcome :=
  command .hfdStep s
    (match s.hfd.mode with
    | .idle => .error (sequenceError .hfdStep)
    | .ended => .ok (s, ⟨Trial.tag .ended, .none⟩)
    | .active => do
      let (u, t) ← s.hfd.trialStep
      .ok (s.withHfd u, ⟨t.tag, .none⟩))

/-- HFD_DECODE (R273): HFD_INIT and the whole loop, as one command. -/
def execHfdDecode (lit : Bool) (container : List Byte) (s : State) : Outcome :=
  command (.hfdDecode lit) s do
    let (u, h) ← Hfd.init s.cfg.wordBits lit container
    let u ← Hfd.run ((u.nbits + 1) * (u.maxlen + 1)) u
    .ok ((s.withHft h).withHfd u, ⟨0x0000, .bytes u.out⟩)

end Sys2Proof.Machine
end

