-- ==== Sys2Proof/Machine/HuffmanEncoder.lean ====
section
/-! DEFINITION. The Huffman encoder's commands (45_huffman_codec.md R260 to R264). The unit has no state of its own
(10_state.md R37). -/

namespace Sys2Proof.Machine

/-- The number of positions of the data that hold each byte value (R260). -/
def byteCounts (data : List Byte) : List Nat := (List.range 256).map fun b => data.count (BitVec.ofNat 8 b)

/-- `hist(data)` (R260): COUNT_OVERFLOW at the lowest byte value whose count does not fit `COUNT_BITS`. -/
def hist (data : List Byte) : Except Raise (List Nat) :=
  match (byteCounts data).findIdx? (fun c => 65535 < c) with
  | some b => .error ⟨.countOverflow, b⟩
  | none => .ok (byteCounts data)

/-- The codeword stream of the data (R263). -/
def codewordStream (wb : Nat) (h : Hft) (data : List Byte) : List Byte :=
  bbToBytes wb (data.foldl (fun out b => bbAppend wb out (h.codeword b)) ⟨[], 0⟩)

/-- HFE_ENCODE (R264): the container, with the tree left in the HFT engine. -/
def execHfeEncode (data : List Byte) (s : State) : Outcome :=
  command .hfeEncode s do
    let f ← hist data
    let h ← buildTree s.cfg.wordBits f
    .ok (s.withHft h, ⟨0x0000, .bytes (encodeFreq f ++ codewordStream s.cfg.wordBits h data)⟩)

/-- HFE_HIST (R262). -/
def execHfeHist (data : List Byte) (s : State) : Outcome :=
  command .hfeHist s do
    let f ← hist data
    .ok (s, ⟨0x0000, .freq f⟩)

end Sys2Proof.Machine
end

