-- ==== Sys2Proof/Machine/LzwDecoder.lean ====
section
/-! DEFINITION. The LZW decoder unit (43_lzw_decoder.md): the decoder instance's operations, then the LZD commands. -/

namespace Sys2Proof.Machine

/-! ## The instance -/

/-- Insertion of a sequence under the next codeword, and the counter step (R200, R204). -/
def Lzd.insert (cfg : Config) (u : Lzd) (seq : List Byte) : Lzd :=
  { u with dict := mapPut u.dict (ctrValue cfg.wordBits u.ctr) seq, ctr := inc cfg.wordBits u.ctr }

/-- Construction of an instance (R200, R210, R211), after the checks of 30_encoding.md R113. -/
def Lzd.init (cfg : Config) (alpha input : List Byte) (limit : Option Nat) : Except Raise Lzd := do
  checkAlphabet alpha
  let ws := (bbFromBytes cfg.wordBits input).words
  checkLimit limit (ws.length * cfg.wordBits)
  if overCap cfg alpha.length then .error ⟨.capacityExceeded, 3⟩
  else
    let fresh : Lzd :=
      { mode := .active, alpha, dict := [], ctr := [0], width := bitlen (alpha.length - 1), words := ws,
        limit := limit.getD (ws.length * cfg.wordBits), pos := 0, pending := none, out := [] }
    .ok (alpha.foldl (fun u a => u.insert cfg [a]) fresh)

/-- The sequence of codeword `c` (R203): a key of the dictionary below the counter, or the self-referential miss. Any other
code is CORRUPT_STREAM ("neither a key nor the self-referential code", 60_exceptions.md R311). -/
def Lzd.resolve (cfg : Config) (u : Lzd) (c : Nat) : Except Raise (List Byte) :=
  if c < ctrValue cfg.wordBits u.ctr then
    match mapGet u.dict c with
    | some seq => .ok seq
    | none => .error ⟨.corruptStream, c⟩
  else
    match u.pending with
    | some p => if c = ctrValue cfg.wordBits u.ctr then .ok (p ++ p.take 1) else .error ⟨.corruptStream, c⟩
    | none => .error ⟨.corruptStream, c⟩

/-- The pending insertion, where there is one (R204). -/
def Lzd.insertPending (cfg : Config) (u : Lzd) (seq : List Byte) : Except Raise Lzd :=
  match u.pending with
  | none => .ok u
  | some p =>
    if overCap cfg (u.dict.length + 1) then .error ⟨.capacityExceeded, 3⟩
    else .ok (u.insert cfg (p ++ seq.take 1))

/-- One iteration of an active instance (R206): the sequence emitted, or none at the end of the stream (R201). The cursor
advances by the width the iteration extracted with (R205). -/
def Lzd.iterate (cfg : Config) (u : Lzd) : Except Raise (Lzd × Option (List Byte)) :=
  let w := u.width
  if u.limit < u.pos + w then .ok ({ u with mode := .ended }, none)
  else do
    let seq ← u.resolve cfg (extract (cat cfg.wordBits u.words) u.pos w)
    let v ← u.insertPending cfg seq
    .ok ({ v with out := u.out ++ seq, width := bitlen v.dict.length, pending := some seq, pos := u.pos + w }, some seq)

/-- Iterations until END (R213). `limit + 2` of them are enough (70_reset_and_hazards.md R366), so the fuel never runs
out. -/
def Lzd.run (cfg : Config) : Nat → Lzd → Except Raise Lzd
  | 0, u => .ok u
  | fuel + 1, u =>
    match u.iterate cfg with
    | .error r => .error r
    | .ok (v, none) => .ok v
    | .ok (v, some _) => Lzd.run cfg fuel v

/-! ## The commands -/

/-- LZD_INIT (R211). -/
def execLzdInit (alpha input : List Byte) (limit : Option Nat) (s : State) : Outcome :=
  command (.lzdInit limit.isSome) s do
    let u ← Lzd.init s.cfg alpha input limit
    .ok (s.withLzd u, ⟨0x0000, .none⟩)

/-- LZD_STEP (R212). -/
def execLzdStep (s : State) : Outcome :=
  command .lzdStep s
    (match s.lzd.mode with
    | .idle => .error (sequenceError .lzdStep)
    | .ended => .ok (s, ⟨0x0001, .none⟩)
    | .active => do
      match ← s.lzd.iterate s.cfg with
      | (u, none) => .ok (s.withLzd u, ⟨0x0001, .none⟩)
      | (u, some seq) => .ok (s.withLzd u, ⟨0x0000, .bytes seq⟩))

/-- LZD_DECODE (R213): LZD_INIT and the whole loop, as one command. -/
def execLzdDecode (alpha input : List Byte) (limit : Option Nat) (s : State) : Outcome :=
  command (.lzdDecode limit.isSome) s do
    let u ← Lzd.init s.cfg alpha input limit
    let u ← Lzd.run s.cfg (u.limit + 2) u
    .ok (s.withLzd u, ⟨0x0000, .bytes u.out⟩)

end Sys2Proof.Machine
end

