-- ==== Sys2Proof/Machine/LzwEncoder.lean ====
section
/-! DEFINITION. The LZW encoder unit (42_lzw_encoder.md): the encoder instance's operations, then the LZE commands. -/

namespace Sys2Proof.Machine

/-! ## The instance -/

/-- Insertion of a phrase that is not yet a key, with the counter step and the width law (R170, R172, R173). -/
def Lze.insert (cfg : Config) (u : Lze) (p : List Byte) : Lze :=
  let dict := mapPut u.dict p (ctrValue cfg.wordBits u.ctr)
  { u with dict, ctr := inc cfg.wordBits u.ctr, width := bitlen (dict.length - 1) }

/-- Seeding, one symbol at a time (R171). -/
def Lze.seed (cfg : Config) (u : Lze) (alpha : List Byte) : Lze := alpha.foldl (fun u a => u.insert cfg [a]) u

/-- Construction of an instance (R180), after the alphabet check of 30_encoding.md R113. -/
def Lze.init (cfg : Config) (alpha : List Byte) : Except Raise Lze := do
  checkAlphabet alpha
  if overCap cfg alpha.length then .error ⟨.capacityExceeded, 2⟩
  else .ok (Lze.seed cfg { live := true, alpha, dict := [], ctr := [0], width := 0, phrase := [], out := ⟨[], 0⟩ } alpha)

/-- Emission of codeword `c` at width `w` (R175). -/
def Lze.emit (cfg : Config) (u : Lze) (c w : Nat) : Lze :=
  { u with out := bbAppend cfg.wordBits u.out (valueBB cfg.wordBits c w) }

/-- The phrase step of one symbol (R174): the instance after it, and whether it emitted. The emission uses the width before
the insertion. -/
def Lze.step (cfg : Config) (u : Lze) (sym : Byte) : Except Raise (Lze × Bool) :=
  let p := u.phrase ++ [sym]
  match mapGet u.dict p with
  | some _ => .ok ({ u with phrase := p }, false)
  | none =>
    if overCap cfg (u.dict.length + 1) then .error ⟨.capacityExceeded, 2⟩
    else
      match mapGet u.dict u.phrase with
      | none => .error ⟨.alphabetCoverage, (p.headD 0).toNat⟩
      | some c => .ok ({ (u.insert cfg p).emit cfg c u.width with phrase := [sym] }, true)

/-- The steps of a whole input, in order (R183). -/
def Lze.feed (cfg : Config) (u : Lze) : List Byte → Except Raise Lze
  | [] => .ok u
  | sym :: syms =>
    match u.step cfg sym with
    | .error r => .error r
    | .ok (v, _) => v.feed cfg syms

/-- Flush at the end of the input (R176), which ends the instance (R182). -/
def Lze.flush (cfg : Config) (u : Lze) : Except Raise Lze :=
  match u.phrase with
  | [] => .ok { u with live := false }
  | z :: _ =>
    match mapGet u.dict u.phrase with
    | none => .error ⟨.alphabetCoverage, z.toNat⟩
    | some c => .ok { u.emit cfg c u.width with live := false }

/-! ## The commands -/

/-- LZE_INIT (R180). -/
def execLzeInit (alpha : List Byte) (s : State) : Outcome :=
  command .lzeInit s do
    let u ← Lze.init s.cfg alpha
    .ok (s.withLze u, ⟨0x0000, .none⟩)

/-- LZE_SYMBOL (R181). -/
def execLzeSymbol (sym : Byte) (s : State) : Outcome :=
  command (.lzeSymbol sym) s
    (if s.lze.live then do
      let (u, emitted) ← s.lze.step s.cfg sym
      .ok (s.withLze u, ⟨if emitted then 0x0001 else 0x0000, .none⟩)
    else .error (sequenceError (.lzeSymbol sym)))

/-- LZE_FLUSH (R182). -/
def execLzeFlush (s : State) : Outcome :=
  command .lzeFlush s
    (if s.lze.live then do
      let u ← s.lze.flush s.cfg
      .ok (s.withLze u, ⟨0x0000, .bb u.out⟩)
    else .error (sequenceError .lzeFlush))

/-- LZE_ENCODE (R183): LZE_INIT, one step per symbol, and the flush, as one command. -/
def execLzeEncode (alpha syms : List Byte) (s : State) : Outcome :=
  command .lzeEncode s do
    let u ← Lze.init s.cfg alpha
    let u ← u.feed s.cfg syms
    let u ← u.flush s.cfg
    .ok (s.withLze u, ⟨0x0000, .bb u.out⟩)

end Sys2Proof.Machine
end

