-- ==== Sys2Proof/Machine/Dispatch.lean ====
section
/-! DEFINITION. One arm per command of the opcode map (30_encoding.md R105). -/

namespace Sys2Proof.Machine

def exec (i : Instr) (s : State) : Host.Outcome State Fault Refusal :=
  match i with
  | .ctlNop => Sys2Proof.Machine.execCtlNop s
  | .ctlReset => Sys2Proof.Machine.execCtlReset s
  | .ctlRead reg => Sys2Proof.Machine.execCtlRead reg s
  | .bbNew ws n => Sys2Proof.Machine.execBbNew ws n s
  | .bbUnused b => Sys2Proof.Machine.execBbUnused b s
  | .bbAppend a v => Sys2Proof.Machine.execBbAppend a v s
  | .bbShiftLeft b => Sys2Proof.Machine.execBbShiftLeft b s
  | .bbPushLeadingBit bit b => Sys2Proof.Machine.execBbPushLeadingBit bit b s
  | .bbToBytes b => Sys2Proof.Machine.execBbToBytes b s
  | .bbFromBytes bytes => Sys2Proof.Machine.execBbFromBytes bytes s
  | .lzeInit alpha => Sys2Proof.Machine.execLzeInit alpha s
  | .lzeSymbol sym => Sys2Proof.Machine.execLzeSymbol sym s
  | .lzeFlush => Sys2Proof.Machine.execLzeFlush s
  | .lzeEncode alpha syms => Sys2Proof.Machine.execLzeEncode alpha syms s
  | .lzdInit alpha input limit => Sys2Proof.Machine.execLzdInit alpha input limit s
  | .lzdStep => Sys2Proof.Machine.execLzdStep s
  | .lzdDecode alpha input limit => Sys2Proof.Machine.execLzdDecode alpha input limit s
  | .hftLoad freq => Sys2Proof.Machine.execHftLoad freq s
  | .hftStep => Sys2Proof.Machine.execHftStep s
  | .hftTable => Sys2Proof.Machine.execHftTable s
  | .hfeEncode data => Sys2Proof.Machine.execHfeEncode data s
  | .hfeHist data => Sys2Proof.Machine.execHfeHist data s
  | .hfdInit lit container => Sys2Proof.Machine.execHfdInit lit container s
  | .hfdStep => Sys2Proof.Machine.execHfdStep s
  | .hfdDecode lit container => Sys2Proof.Machine.execHfdDecode lit container s

end Sys2Proof.Machine
end

