-- ==== Sys2Proof/Machine/Deliver.lean ====
section
/-! DEFINITION. What the CORE does with one whole message (60_exceptions.md R314): decode it, and run it or report why not. -/

namespace Sys2Proof.Machine

/-- A message that is no instruction. A faulted CORE refuses it (60_exceptions.md R322: an illegal header too, and no second
fault is ever recorded; log entry 4 for a payload that does not frame). Otherwise it is ILLEGAL_COMMAND with the header as
information, or BAD_OPERAND with the operand index (R311, R312, R314 checks 2 and 3). -/
def State.rejectMessage (s : State) (h : BitVec 32) (e : DecodeError) : State :=
  if s.fault.faulted then s.respondRefused
  else
    match e with
    | .illegalCommand => s.takeFault none h ⟨.illegalCommand, h.toNat⟩
    | .badOperand hd n => s.takeFault (some hd.unit) h ⟨.badOperand, n⟩

/-- One transaction of the command port: the CORE reads the whole message, executes it and answers (30_encoding.md R100,
R120). -/
def deliver (m : Message) (s : State) : Outcome :=
  match decode s.cfg.wordBits m with
  | .ok i => exec i s
  | .error e => .next (s.rejectMessage m.header e)

/-- The machine with one more message for the HOST to send, before all others. -/
def State.sendNext (s : State) (m : Message) : State := s.withCommands (m :: s.commands)

end Sys2Proof.Machine
end

