-- ==== Sys2Proof/Machine/Step.lean ====
section
/-! DEFINITION. One step of the machine: one command, run to completion (00_scope.md R4; 20_memory.md R85). -/

namespace Sys2Proof.Machine

/-- The HOST sends its next message and the CORE answers it; with none to send, the CORE holds its state
(60_exceptions.md R345). An instance whose `WB` the spec gives no meaning is refused (00_scope.md R8). -/
def step (s : State) : Host.Outcome State Fault Refusal :=
  if s.cfg.Valid then
    match s.commands with
    | [] => .next s
    | m :: ms => deliver m (s.withCommands ms)
  else .refused (.wordBits s.cfg.wordBits)

/-- `s` with the message of a table row's word, its operands all zero, as the next one the HOST sends (log entry 3). -/
def State.withFetchWord (s : State) (nbits w : Nat) : State := s.sendNext (tableMessage nbits w)

end Sys2Proof.Machine
end

