-- ==== Sys2Proof/Safety.lean ====
section
/-! DEFINITION. What counts as a safe run, in the spec's terms: the invariants of 10_state.md R53 and of the units' own
property sections, and the successful run of 70_reset_and_hazards.md R368. Each holds at reset and is kept by every step. -/

namespace Sys2Proof.Machine

/-! ## The pieces of R53 -/

/-- A Counter in canonical form (41_bitbuffer.md R144; 10_state.md R53): at least one Word, and a first Word that is nonzero
unless the Counter is `[0]`. -/
def CounterOk (wb : Nat) (c : List Nat) : Prop := c ≠ [] ∧ (∀ w ∈ c, w < 2 ^ wb) ∧ (c.head? = some 0 → c = [0])

/-- A stream the CORE produces (20_memory.md R71; 41_bitbuffer.md R142; 10_state.md R53): `ceil(bit_count / WB)` Words and zero
bits after `bit_count`. -/
def StreamOk (wb : Nat) (b : BitBuffer) : Prop :=
  b.words.length = ceilDiv b.bitCount wb ∧ (∀ w ∈ b.words, w < 2 ^ wb) ∧
    (cat wb b.words).drop b.bitCount = List.replicate (unused wb b) false

/-- A codeword the tree engine grows (41_bitbuffer.md R155): `ceil(bit_count / WB)` Words and zero unused high bits. -/
def CodeOk (wb : Nat) (b : BitBuffer) : Prop :=
  b.words.length = ceilDiv b.bitCount wb ∧ (∀ w ∈ b.words, w < 2 ^ wb) ∧
    (cat wb b.words).take (unused wb b) = List.replicate (unused wb b) false

/-- `DICT_CAP` bounds a dictionary (00_scope.md R9). -/
def WithinCap (cfg : Config) (n : Nat) : Prop := cfg.dictCap = 0 ∨ n ≤ cfg.dictCap

/-! ## Unit invariants -/

/-- The encoder (10_state.md R53; 42_lzw_encoder.md R185): the dictionary holds exactly the codewords below the counter, in
order, under distinct non-empty phrases, the seed symbols among them; the width law; where the phrase can be. -/
structure Lze.Ok (cfg : Config) (u : Lze) : Prop where
  ctr : CounterOk cfg.wordBits u.ctr
  codes : u.dict.map Prod.snd = List.range (ctrValue cfg.wordBits u.ctr)
  keys : (u.dict.map Prod.fst).Nodup
  nonempty : [] ∉ u.dict.map Prod.fst
  seeds : ∀ a ∈ u.alpha, [a] ∈ u.dict.map Prod.fst
  width : u.width = bitlen (u.dict.length - 1)
  phrase : u.phrase = [] ∨ u.phrase ∈ u.dict.map Prod.fst ∨ ∃ z, z ∉ u.alpha ∧ u.phrase = [z]
  out : StreamOk cfg.wordBits u.out
  cap : WithinCap cfg u.dict.length

/-- The decoder (10_state.md R53; 43_lzw_decoder.md R217): the keys are exactly the codewords below the counter, in order;
no sequence is empty; cursor, limit and input; the width law before and after the first iteration. -/
structure Lzd.Ok (cfg : Config) (u : Lzd) : Prop where
  ctr : CounterOk cfg.wordBits u.ctr
  keys : u.dict.map Prod.fst = List.range (ctrValue cfg.wordBits u.ctr)
  nonempty : [] ∉ u.dict.map Prod.snd
  words : ∀ w ∈ u.words, w < 2 ^ cfg.wordBits
  limit : u.limit ≤ u.words.length * cfg.wordBits
  pos : u.pos ≤ u.limit
  pendingNonempty : u.pending ≠ some []
  before : u.pending = none →
    u.width = bitlen (u.alpha.length - 1) ∧ u.pos = 0 ∧ u.out = [] ∧ u.dict.length = u.alpha.length
  after : u.pending ≠ none → u.width = bitlen u.dict.length ∧ u.out ≠ []
  cap : WithinCap cfg u.dict.length

/-- The weight of the subtree with an id (R230: every leaf of a subtree carries it). -/
def subtreeWeight (leaves : List Leaf) (i : Byte) : Nat := ((leaves.find? (fun l => l.id == i)).map (·.weight)).getD 0

/-- The tree engine (10_state.md R46, R53; 44_huffman_tree.md R231, R235, R245): leaves of distinct symbols and positive
weight; the leaves of one subtree have one weight, and codewords that are the leaf paths of a full binary tree, each bit
of them from a merge; the subtrees' weights sum to the total; one merge per subtree joined, and one subtree when DONE. -/
structure Hft.Ok (wb : Nat) (h : Hft) : Prop where
  symbols : (h.leaves.map (·.sym)).Nodup
  positive : ∀ l ∈ h.leaves, 0 < l.weight
  sameWeight : ∀ l ∈ h.leaves, ∀ m ∈ h.leaves, l.id = m.id → l.weight = m.weight
  total : ((subtreeIds h.leaves).map (subtreeWeight h.leaves)).sum = h.total
  merges : (subtreeIds h.leaves).length + h.merges = h.leaves.length
  codes : ∀ l ∈ h.leaves, CodeOk wb l.code
  prefixFree : ∀ l ∈ h.leaves, ∀ m ∈ h.leaves, l.id = m.id → l.sym ≠ m.sym → ¬ vbits wb l.code <+: vbits wb m.code
  depth : ∀ l ∈ h.leaves, l.code.bitCount ≤ h.merges
  full : ∀ l ∈ h.leaves, ∀ bits : Bits,
    (∀ m ∈ h.leaves, m.id = l.id → (vbits wb m.code).length ≤ bits.length) →
    ∃ m ∈ h.leaves, m.id = l.id ∧ vbits wb m.code <+: bits
  loaded : h.mode ≠ .idle → h.leaves ≠ []
  finished : h.mode = .done → (subtreeIds h.leaves).length = 1

/-- The bit matcher (10_state.md R36; 45_huffman_codec.md R266 to R269): cursor, trial and counts, and a reverse table of
non-empty codewords with lengths between `minlen` and `maxlen`, none a prefix of another. -/
structure Hfd.Ok (u : Hfd) : Prop where
  nbits : u.nbits = 8 * u.stream.length
  pos : u.pos ≤ u.nbits
  emitted : u.emitted = u.out.length
  counted : u.lit = false → u.emitted ≤ u.total
  trial : u.mode = .active → u.minlen ≤ u.trial ∧ u.trial ≤ u.maxlen
  lengths : ∀ e ∈ u.rev, u.minlen ≤ e.1.length ∧ e.1.length ≤ u.maxlen
  nonempty : u.mode ≠ .idle → 1 ≤ u.minlen
  prefixFree : u.rev.Pairwise (fun d e => ¬ d.1 <+: e.1 ∧ ¬ e.1 <+: d.1)

/-- The global fault state (10_state.md R42; 60_exceptions.md R310): nothing recorded with no fault, a raised code with
one. -/
structure FaultState.Ok (f : FaultState) : Prop where
  clear : f.faulted = false → f.code = 0x00 ∧ f.info = 0 ∧ f.cmd = 0x00000000
  raised : f.faulted = true → 1 ≤ f.code.toNat ∧ f.code.toNat ≤ 8

/-- The whole machine. -/
structure State.Ok (s : State) : Prop where
  fault : s.fault.Ok
  lze : s.lze.Ok s.cfg
  lzd : s.lzd.Ok s.cfg
  hft : s.hft.Ok s.cfg.wordBits
  hfd : s.hfd.Ok

/-! ## What a response carries (30_encoding.md R110, R123). A length above 2^64 - 1 cannot be expressed (92_eei_decisions.md
D24): there the payload is the free value of log entry 2, so each of these speaks of lengths that fit. -/

/-- The NAT form of a number (R110): at least one Word, and word 0 nonzero unless it is the only one. -/
def NatForm (wb n : Nat) (ws : List Nat) : Prop := CounterOk wb ws ∧ ctrValue wb ws = n

/-- `p` is the NAT payload of `n`. -/
def SendsNat (wb n : Nat) (p : List Byte) : Prop := ∀ ws, NatForm wb n ws → ws.length < 2 ^ 64 → p = encodeWords wb ws

/-- `p` is the BB payload of `b`. -/
def SendsBB (wb : Nat) (b : BitBuffer) (p : List Byte) : Prop :=
  b.bitCount < 2 ^ 64 → b.words.length < 2 ^ 64 → p = encodeBB wb b

/-- `p` is the BYTES payload of `bs`. -/
def SendsBytes (bs p : List Byte) : Prop := bs.length < 2 ^ 64 → p = encodeBytes bs

/-! ## Runs -/

/-- The HOST's commands one after another, each after the answer to the one before (70_reset_and_hazards.md R361). -/
def execAll : List Instr → State → Outcome
  | [], s => .next s
  | i :: is, s =>
    match exec i s with
    | .next t => execAll is t
    | .fault r => .fault r
    | .refused r => .refused r

/-- A run that ended here was successful (70_reset_and_hazards.md R368): no fault is recorded. -/
def State.Successful (s : State) : Prop := s.fault.faulted = false

end Sys2Proof.Machine
end

