-- ==== Sys2Proof/Certificates/Slice0/Obligations.lean ====
section
/-! DEFINITION. The statements for the provers, from the numbered rules of spec/. Each docstring names the rules it
formalises. `s.send ⟨h, p⟩` is `s` with one more response of header `h` and payload `p`, and nothing else changed. -/

open Sys2Proof Sys2Proof.Machine

/-! ## Encoding (30_encoding.md) -/

/-- Decoding the encoding of any well-formed instruction, as a message and as the bytes sent, gives the instruction with
every operand (R100, R101, R105, R110, R111). -/
def Obligations.DecodeOfEncodeIsTheInstruction : Prop :=
  ∀ wb : Nat, 8 ≤ wb → wb % 8 = 0 → ∀ i : Instr, i.wf wb = true →
    decode wb (encode wb i) = .ok i ∧ decodeBytes wb (messageBytes (encode wb i)) = .ok i

/-- A message that decodes is the encoding of the instruction it decodes to, which is well formed: decoding drops no bit,
and a message has one meaning (R100, R105, R107, R110 to R112). -/
def Obligations.DecodedMessageIsItsEncoding : Prop :=
  ∀ wb : Nat, 8 ≤ wb → wb % 8 = 0 → ∀ (m : Message) (i : Instr), decode wb m = .ok i →
    i.wf wb = true ∧ encode wb i = m

/-- R105: the opcode map, row by row, each header value with the one command it selects. -/
def Obligations.OpcodeMapHeaders : Prop :=
  ∀ h : BitVec 32,
    (decodeHeader h = some .ctlNop ↔ h = 0x00000000#32) ∧
    (decodeHeader h = some .ctlReset ↔ h = 0x01000000#32) ∧
    (∀ r : Reg, decodeHeader h = some (.ctlRead r) ↔ h = 0x02000000#32 + r.number.setWidth 32) ∧
    (decodeHeader h = some .bbNew ↔ h = 0x10000000#32) ∧
    (decodeHeader h = some .bbUnused ↔ h = 0x11000000#32) ∧
    (decodeHeader h = some .bbAppend ↔ h = 0x12000000#32) ∧
    (decodeHeader h = some .bbShiftLeft ↔ h = 0x13000000#32) ∧
    (∀ b : Bool, decodeHeader h = some (.bbPushLeadingBit b) ↔ h = if b then 0x14000001#32 else 0x14000000#32) ∧
    (decodeHeader h = some .bbToBytes ↔ h = 0x15000000#32) ∧
    (decodeHeader h = some .bbFromBytes ↔ h = 0x16000000#32) ∧
    (decodeHeader h = some .lzeInit ↔ h = 0x20000000#32) ∧
    (∀ ss : Byte, decodeHeader h = some (.lzeSymbol ss) ↔ h = 0x21000000#32 + ss.setWidth 32) ∧
    (decodeHeader h = some .lzeFlush ↔ h = 0x22000000#32) ∧
    (decodeHeader h = some .lzeEncode ↔ h = 0x23000000#32) ∧
    (∀ f : Bool, decodeHeader h = some (.lzdInit f) ↔ h = if f then 0x30010000#32 else 0x30000000#32) ∧
    (decodeHeader h = some .lzdStep ↔ h = 0x31000000#32) ∧
    (∀ f : Bool, decodeHeader h = some (.lzdDecode f) ↔ h = if f then 0x32010000#32 else 0x32000000#32) ∧
    (decodeHeader h = some .hftLoad ↔ h = 0x40000000#32) ∧
    (decodeHeader h = some .hftStep ↔ h = 0x41000000#32) ∧
    (decodeHeader h = some .hftTable ↔ h = 0x42000000#32) ∧
    (decodeHeader h = some .hfeEncode ↔ h = 0x50000000#32) ∧
    (decodeHeader h = some .hfeHist ↔ h = 0x51000000#32) ∧
    (∀ f : Bool, decodeHeader h = some (.hfdInit f) ↔ h = if f then 0x60010000#32 else 0x60000000#32) ∧
    (decodeHeader h = some .hfdStep ↔ h = 0x61000000#32) ∧
    (∀ f : Bool, decodeHeader h = some (.hfdDecode f) ↔ h = if f then 0x62010000#32 else 0x62000000#32)

/-- R106: a header is illegal exactly in the ways (a) to (f), and an illegal header, whatever follows it, raises
ILLEGAL_COMMAND with the header as information and ends no instance. -/
def Obligations.IllegalHeadersAreRefused : Prop :=
  (∀ h : BitVec 32,
    let unit := (h.extractLsb' 28 4).toNat
    let op := (h.extractLsb' 24 4).toNat
    decodeHeader h = none ↔
      -- (a)
      7 ≤ unit ∨
      -- (b)
      (unit = 0 ∧ 3 ≤ op) ∨ (unit = 1 ∧ 7 ≤ op) ∨ (unit = 2 ∧ 4 ≤ op) ∨ (unit = 3 ∧ 3 ≤ op) ∨ (unit = 4 ∧ 3 ≤ op) ∨
      (unit = 5 ∧ 2 ≤ op) ∨ (unit = 6 ∧ 3 ≤ op) ∨
      -- (c)
      h.extractLsb' 17 7 ≠ 0#7 ∨
      -- (d)
      (h.getLsbD 16 = true ∧ ¬ ((unit = 3 ∨ unit = 6) ∧ (op = 0 ∨ op = 2))) ∨
      -- (e)
      (if (unit = 0 ∧ op = 2) ∨ (unit = 2 ∧ op = 1) then h.extractLsb' 8 8 ≠ 0#8
        else if unit = 1 ∧ op = 4 then h.extractLsb' 1 15 ≠ 0#15
        else h.extractLsb' 0 16 ≠ 0#16) ∨
      -- (f)
      (unit = 0 ∧ op = 2 ∧ (h.extractLsb' 0 8).toNat ∉
        [0x00, 0x01, 0x02, 0x03, 0x04, 0x05, 0x10, 0x11, 0x12, 0x13, 0x14, 0x15, 0x16, 0x20, 0x21, 0x22, 0x23, 0x24, 0x25,
         0x26, 0x27, 0x28, 0x30, 0x31, 0x32, 0x33, 0x40, 0x41, 0x42, 0x43, 0x44, 0x45, 0x46, 0x47])) ∧
  (∀ (h : BitVec 32) (payload : List Byte) (s : State), decodeHeader h = none → s.fault.faulted = false →
    deliver ⟨h, payload⟩ s
      = .next ((s.withFault { faulted := true, code := 0x04, info := h.toNat, cmd := h }).send ⟨0x01040000#32, []⟩))

/-- Words written out from the encodings of R101 to R105, one for every command, decode to the command they stand for. -/
def Obligations.HeaderWordsOfTheSpecDecode : Prop :=
  [0x00000000#32, 0x01000000#32, 0x02000024#32, 0x10000000#32, 0x11000000#32, 0x12000000#32, 0x13000000#32, 0x14000001#32,
    0x15000000#32, 0x16000000#32, 0x20000000#32, 0x21000061#32, 0x22000000#32, 0x23000000#32, 0x30010000#32, 0x31000000#32,
    0x32000000#32, 0x40000000#32, 0x41000000#32, 0x42000000#32, 0x50000000#32, 0x51000000#32, 0x60010000#32, 0x61000000#32,
    0x62000000#32].map decodeHeader
  = [some .ctlNop, some .ctlReset, some (.ctlRead .lzdPos), some .bbNew, some .bbUnused, some .bbAppend, some .bbShiftLeft,
    some (.bbPushLeadingBit true), some .bbToBytes, some .bbFromBytes, some .lzeInit, some (.lzeSymbol 0x61),
    some .lzeFlush, some .lzeEncode, some (.lzdInit true), some .lzdStep, some (.lzdDecode false), some .hftLoad,
    some .hftStep, some .hftTable, some .hfeEncode, some .hfeHist, some (.hfdInit true), some .hfdStep,
    some (.hfdDecode false)]

/-- R112: a message that ends inside operand `i` is BAD_OPERAND with information `i`; bytes after the last operand are
BAD_OPERAND with the number of operands; a BB operand whose words do not cover its bit count is BAD_OPERAND with its index,
whatever follows; BB_NEW's operands need not cover its bit count; and BAD_OPERAND is entered with that information by the
command's unit. -/
def Obligations.PayloadFramingFaults : Prop :=
  (∀ wb : Nat, 8 ≤ wb → wb % 8 = 0 → ∀ i : Instr, i.wf wb = true →
    (∀ (before : List (List Byte)) (field : List Byte) (after : List (List Byte)) (part : List Byte),
      i.fields wb = before ++ field :: after → part <+: field → part ≠ field →
      decode wb ⟨i.head.word, before.flatten ++ part⟩ = .error (.badOperand i.head before.length)) ∧
    (∀ extra : List Byte, extra ≠ [] →
      decode wb ⟨i.head.word, encodePayload wb i ++ extra⟩ = .error (.badOperand i.head (i.fields wb).length)) ∧
    (∀ (before : List (List Byte)) (field : List Byte) (after : List (List Byte)) (n : Nat) (ws : List Nat)
        (rest : List Byte),
      i.fields wb = before ++ field :: after → i.head.unit = .bb → i.head ≠ .bbNew → i.head ≠ .bbFromBytes →
      n < 2 ^ 64 → wordsWf wb ws = true → ws.length * wb < n →
      decode wb ⟨i.head.word, before.flatten ++ (encodeU64 n ++ encodeWords wb ws ++ rest)⟩
        = .error (.badOperand i.head before.length))) ∧
  (∀ wb : Nat, 8 ≤ wb → wb % 8 = 0 → ∀ (ws : List Nat) (n : Nat), wordsWf wb ws = true → n < 2 ^ 64 →
    decode wb ⟨0x10000000#32, encodeWords wb ws ++ encodeU64 n⟩ = .ok (.bbNew ws n)) ∧
  (∀ (m : Message) (s : State) (hd : Head) (n : Nat), s.fault.faulted = false →
    decode s.cfg.wordBits m = .error (.badOperand hd n) →
    deliver m s = .next (s.takeFault (some hd.unit) m.header ⟨.badOperand, n⟩))

/-- R113: a bad alphabet is BAD_OPERAND(0), and a limit past the padded input is BAD_OPERAND(2), in that order; the unit's
instance ends and nothing else of it changes. -/
def Obligations.OperandValueFaults : Prop :=
  ∀ (s : State) (alpha syms input : List Byte) (limit : Option Nat), s.fault.faulted = false →
    (¬ (1 ≤ alpha.length ∧ alpha.length ≤ 256 ∧ alpha.Nodup) →
      exec (.lzeInit alpha) s = .next (((s.withLze { s.lze with live := false }).withFault
        ⟨true, 0x06, 0, 0x20000000#32⟩).send ⟨0x01060000#32, []⟩) ∧
      exec (.lzeEncode alpha syms) s = .next (((s.withLze { s.lze with live := false }).withFault
        ⟨true, 0x06, 0, 0x23000000#32⟩).send ⟨0x01060000#32, []⟩) ∧
      exec (.lzdInit alpha input limit) s = .next (((s.withLzd { s.lzd with mode := .idle }).withFault
        ⟨true, 0x06, 0, if limit.isSome then 0x30010000#32 else 0x30000000#32⟩).send ⟨0x01060000#32, []⟩) ∧
      exec (.lzdDecode alpha input limit) s = .next (((s.withLzd { s.lzd with mode := .idle }).withFault
        ⟨true, 0x06, 0, if limit.isSome then 0x32010000#32 else 0x32000000#32⟩).send ⟨0x01060000#32, []⟩)) ∧
    (∀ l : Nat, (1 ≤ alpha.length ∧ alpha.length ≤ 256 ∧ alpha.Nodup) →
      ceilDiv input.length (s.cfg.wordBits / 8) * s.cfg.wordBits < l →
      exec (.lzdInit alpha input (some l)) s = .next (((s.withLzd { s.lzd with mode := .idle }).withFault
        ⟨true, 0x06, 2, 0x30010000#32⟩).send ⟨0x01060000#32, []⟩) ∧
      exec (.lzdDecode alpha input (some l)) s = .next (((s.withLzd { s.lzd with mode := .idle }).withFault
        ⟨true, 0x06, 2, 0x32010000#32⟩).send ⟨0x01060000#32, []⟩))

/-! ## The machine (00_scope.md, 10_state.md, 60_exceptions.md, 70_reset_and_hazards.md) -/

/-- A step runs the instruction the next message decodes to, on the state with that message taken; with no message to send
the CORE holds its state and does nothing (00_scope.md R4, 20_memory.md R85, 60_exceptions.md R345). -/
def Obligations.StepRunsTheDecodedInstruction : Prop :=
  ∀ s : State, s.cfg.Valid →
    (∀ (m : Message) (ms : List Message) (i : Instr), s.commands = m :: ms → decode s.cfg.wordBits m = .ok i →
      step s = exec i (s.withCommands ms)) ∧
    (s.commands = [] → step s = .next s)

/-- A Word width that is a multiple of 8 and at least 8 always has a next state: every command is answered (R120) and
terminates (R366). Any other width is refused (R8); that `step` refuses it, by name, is the model's reading (log entry 6). -/
def Obligations.WordWidthDecidesWhetherAStepRuns : Prop :=
  ∀ s : State,
    (8 ≤ s.cfg.wordBits ∧ s.cfg.wordBits % 8 = 0 → ∃ t, step s = .next t) ∧
    (¬ (8 ≤ s.cfg.wordBits ∧ s.cfg.wordBits % 8 = 0) → step s = .refused (.wordBits s.cfg.wordBits))

/-- Every message is answered by exactly one response, whose header is OK with RFAULT 0 and the command's tag, or FAULT with
the code just recorded and nothing else, or REFUSED with the code recorded before and nothing else (R120, R121, R122, R322).
That a CTL_READ or CTL_RESET whose payload does not frame is REFUSED, not FAULT, on a faulted CORE is the model's choice
between R314 and R322 (log entry 4). -/
def Obligations.EveryCommandGetsOneResponse : Prop :=
  ∀ (s t : State) (m : Message) (ms : List Message), s.commands = m :: ms → step s = .next t →
    t.commands = ms ∧ t.cfg = s.cfg ∧ ∃ r : Response, t.responses = s.responses ++ [r] ∧
      let rstatus := r.header.extractLsb' 24 8
      let rfault := r.header.extractLsb' 16 8
      let tag := r.header.extractLsb' 0 16
      (rstatus = 0x00#8 ∧ rfault = 0x00#8 ∧ t.fault.faulted = (s.fault.faulted && decide (decodeHeader m.header ≠ some .ctlReset)) ∧
        ∃ i, decode s.cfg.wordBits m = .ok i ∧
          match i with
          | .lzeSymbol _ => tag = 0x0000#16 ∨ tag = 0x0001#16
          | .lzdStep => tag = 0x0000#16 ∨ tag = 0x0001#16
          | .hftStep => tag = 0x0000#16 ∨ tag = 0x0001#16
          | .hfdStep => tag = 0x0000#16 ∨ tag.extractLsb' 8 8 = 0x01#8 ∨ tag = 0x0200#16
          | _ => tag = 0x0000#16) ∨
      (rstatus = 0x01#8 ∧ s.fault.faulted = false ∧ t.fault.faulted = true ∧ rfault = t.fault.code ∧ tag = 0x0000#16 ∧
        r.payload = []) ∨
      (rstatus = 0x02#8 ∧ s.fault.faulted = true ∧ rfault = s.fault.code ∧ tag = 0x0000#16 ∧ r.payload = [] ∧
        t.fault = s.fault)

/-- R320, R321: entering a fault records it, ends the instance of the unit the command belongs to, answers FAULT, and leaves
every other piece of state as it was before the command. -/
def Obligations.FaultEntryKeepsTheRest : Prop :=
  ∀ (s t : State) (m : Message) (ms : List Message), s.commands = m :: ms → step s = .next t →
    s.fault.faulted = false → t.fault.faulted = true →
    ∃ (code : Byte) (info : Nat), 1 ≤ code.toNat ∧ code.toNat ≤ 8 ∧
      let unit := (decodeHeader m.header).map Head.unit
      t = { cfg := s.cfg
            fault := { faulted := true, code := code, info := info, cmd := m.header }
            lze := if unit = some .lze then { s.lze with live := false } else s.lze
            lzd := if unit = some .lzd then { s.lzd with mode := .idle } else s.lzd
            hft := if unit = some .hft then { s.hft with mode := .idle } else s.hft
            hfd := if unit = some .hfd then { s.hfd with mode := .idle } else s.hfd
            commands := ms
            responses := s.responses ++ [⟨0x01000000#32 + code.setWidth 32 * 0x00010000#32, []⟩] }

/-- R322: while faulted, every message whose header is not a legal CTL_RESET or CTL_READ is refused with no other effect,
an illegal header and any payload included; CTL_RESET and CTL_READ of every assigned register run; and the recorded fault is
never replaced. -/
def Obligations.RefusalWhileFaulted : Prop :=
  ∀ (s : State) (m : Message) (ms : List Message), s.cfg.Valid → s.commands = m :: ms → s.fault.faulted = true →
    (decodeHeader m.header ≠ some .ctlReset → (∀ r, decodeHeader m.header ≠ some (.ctlRead r)) →
      step s = .next ((s.withCommands ms).send ⟨0x02000000#32 + s.fault.code.setWidth 32 * 0x00010000#32, []⟩)) ∧
    (m = ⟨0x01000000#32, []⟩ → ∃ t, step s = .next t ∧ t.fault.faulted = false ∧
      t.responses = s.responses ++ [⟨0x00000000#32, []⟩]) ∧
    (∀ r : Reg, m = ⟨0x02000000#32 + r.number.setWidth 32, []⟩ →
      ∃ p, step s = .next ((s.withCommands ms).send ⟨0x00000000#32, p⟩)) ∧
    (∀ t, step s = .next t → t.fault.faulted = true → t.fault = s.fault)

/-- R323: only CTL_RESET leaves the faulted state, and it leaves every piece of state at its reset value. -/
def Obligations.OnlyResetLeavesTheFaultedState : Prop :=
  ∀ s t : State, step s = .next t → s.fault.faulted = true → t.fault.faulted = false →
    ∃ ms, s.commands = ⟨0x01000000#32, []⟩ :: ms ∧
      t = { State.powerOn s.cfg with commands := ms, responses := s.responses ++ [⟨0x00000000#32, []⟩] }

/-- R310: the codes each command can raise, by its header; no other code is ever recorded. (BAD_OPERAND, 0x06, stands in every
row: a message with bytes after its operands raises it, R112.) -/
def Obligations.FaultCodesOfEachCommand : Prop :=
  ∀ (s t : State) (m : Message) (ms : List Message), s.commands = m :: ms → step s = .next t →
    s.fault.faulted = false → t.fault.faulted = true →
    match decodeHeader m.header with
    | none => t.fault.code = 0x04#8
    | some hd => t.fault.code ∈
      match hd with
      | .ctlNop | .ctlReset | .ctlRead _ => [0x06#8]
      | .bbNew | .bbUnused | .bbAppend | .bbShiftLeft | .bbPushLeadingBit _ | .bbToBytes | .bbFromBytes => [0x06#8]
      | .lzeInit => [0x06#8, 0x08#8]
      | .lzeSymbol _ => [0x06#8, 0x01#8, 0x05#8, 0x08#8]
      | .lzeFlush => [0x06#8, 0x01#8, 0x05#8]
      | .lzeEncode => [0x06#8, 0x01#8, 0x08#8]
      | .lzdInit _ => [0x06#8, 0x08#8]
      | .lzdStep => [0x06#8, 0x02#8, 0x05#8, 0x08#8]
      | .lzdDecode _ => [0x06#8, 0x02#8, 0x08#8]
      | .hftLoad => [0x06#8, 0x03#8]
      | .hftStep | .hftTable => [0x06#8, 0x05#8]
      | .hfeEncode => [0x06#8, 0x03#8, 0x07#8]
      | .hfeHist => [0x06#8, 0x07#8]
      | .hfdInit _ => [0x06#8, 0x02#8, 0x03#8]
      | .hfdStep => [0x06#8, 0x02#8, 0x05#8]
      | .hfdDecode _ => [0x06#8, 0x02#8, 0x03#8]

/-- R311 (SEQUENCE_ERROR), R312, R314 check 4: a command that needs an instance its unit does not hold faults, with its
header as information and the unit's instance ended. -/
def Obligations.CommandsWithoutAnInstanceFault : Prop :=
  ∀ s : State, s.fault.faulted = false →
    (s.lze.live = false → ∀ ss : Byte, exec (.lzeSymbol ss) s = .next ((s.withFault
      ⟨true, 0x05, 0x21000000 + ss.toNat, 0x21000000#32 + ss.setWidth 32⟩).send ⟨0x01050000#32, []⟩)) ∧
    (s.lze.live = false → exec .lzeFlush s = .next ((s.withFault ⟨true, 0x05, 0x22000000, 0x22000000#32⟩).send
      ⟨0x01050000#32, []⟩)) ∧
    (s.lzd.mode = .idle → exec .lzdStep s = .next ((s.withFault ⟨true, 0x05, 0x31000000, 0x31000000#32⟩).send
      ⟨0x01050000#32, []⟩)) ∧
    (s.hft.mode = .idle → exec .hftStep s = .next ((s.withFault ⟨true, 0x05, 0x41000000, 0x41000000#32⟩).send
      ⟨0x01050000#32, []⟩)) ∧
    (s.hft.mode ≠ .done → exec .hftTable s = .next (((s.withHft { s.hft with mode := .idle }).withFault
      ⟨true, 0x05, 0x42000000, 0x42000000#32⟩).send ⟨0x01050000#32, []⟩)) ∧
    (s.hfd.mode = .idle → exec .hfdStep s = .next ((s.withFault ⟨true, 0x05, 0x61000000, 0x61000000#32⟩).send
      ⟨0x01050000#32, []⟩))

/-- R52: the reset value of every piece of CORE state, for any parameters, which stay as they are. -/
def Obligations.ResetValues : Prop :=
  ∀ cfg : Config,
    (State.powerOn cfg).cfg = cfg ∧
    (State.powerOn cfg).fault = { faulted := false, code := 0x00, info := 0, cmd := 0x00000000#32 } ∧
    (State.powerOn cfg).lze =
      { live := false, alpha := [], dict := [], ctr := [0], width := 0, phrase := [], out := ⟨[], 0⟩ } ∧
    (State.powerOn cfg).lzd =
      { mode := .idle, alpha := [], dict := [], ctr := [0], width := 0, words := [], limit := 0, pos := 0, pending := none,
        out := [] } ∧
    (State.powerOn cfg).hft = { mode := .idle, leaves := [], total := 0, merges := 0 } ∧
    (State.powerOn cfg).hfd =
      { mode := .idle, lit := false, total := 0, rev := [], minlen := 0, maxlen := 0, stream := [], nbits := 0, pos := 0,
        trial := 0, emitted := 0, out := [] }

/-- R291, R350: CTL_RESET, faulted or not, sets every piece of CORE state to its power-on value, keeps the parameters, and
answers OK; every STATUS bit is then 0. -/
def Obligations.CtlResetIsThePowerOnState : Prop :=
  ∀ s : State, ∃ t, exec .ctlReset s = .next t ∧
    t = { State.powerOn s.cfg with
            commands := s.commands, responses := s.responses ++ [⟨0x00000000#32, []⟩] } ∧
    statusWord t = 0x00000000#32

/-- R41: the STATUS register, bit by bit, and its value at reset. -/
def Obligations.StatusBits : Prop :=
  (∀ cfg : Config, statusWord (State.powerOn cfg) = 0x00000000#32) ∧
  ∀ s : State,
    (statusWord s).getLsbD 0 = s.fault.faulted ∧
    (statusWord s).getLsbD 1 = s.lze.live ∧
    ((statusWord s).getLsbD 2 = true ↔ s.lzd.mode = .active) ∧
    ((statusWord s).getLsbD 3 = true ↔ s.lzd.mode = .ended) ∧
    ((statusWord s).getLsbD 4 = true ↔ s.hft.mode = .building) ∧
    ((statusWord s).getLsbD 5 = true ↔ s.hft.mode = .done) ∧
    ((statusWord s).getLsbD 6 = true ↔ s.hfd.mode = .active) ∧
    ((statusWord s).getLsbD 7 = true ↔ s.hfd.mode = .ended) ∧
    (statusWord s).extractLsb' 8 8 = s.fault.code ∧
    (statusWord s).extractLsb' 16 16 = 0x0000#16

/-- R40, R292: CTL_READ of each assigned register number, faulted or not, answers OK with the register's value as a NAT and
changes nothing. -/
def Obligations.RegisterMapReads : Prop :=
  ∀ s : State, s.cfg.Valid → ∀ r : Reg,
    let row : Byte × Nat :=
      match r with
      | .status => (0x00, (statusWord s).toNat)
      | .faultInfo => (0x01, s.fault.info)
      | .faultCmd => (0x02, s.fault.cmd.toNat)
      | .cfgWordBits => (0x03, s.cfg.wordBits)
      | .cfgCountBits => (0x04, 16)
      | .cfgDictCap => (0x05, s.cfg.dictCap)
      | .lzeWidth => (0x10, s.lze.width)
      | .lzeDictSize => (0x11, s.lze.dict.length)
      | .lzeCtr => (0x12, natOf (cat s.cfg.wordBits s.lze.ctr))
      | .lzeCtrWords => (0x13, s.lze.ctr.length)
      | .lzePhraseLen => (0x14, s.lze.phrase.length)
      | .lzeOutBits => (0x15, s.lze.out.bitCount)
      | .lzeAlphaSize => (0x16, s.lze.alpha.length)
      | .lzdWidth => (0x20, s.lzd.width)
      | .lzdDictSize => (0x21, s.lzd.dict.length)
      | .lzdCtr => (0x22, natOf (cat s.cfg.wordBits s.lzd.ctr))
      | .lzdCtrWords => (0x23, s.lzd.ctr.length)
      | .lzdPos => (0x24, s.lzd.pos)
      | .lzdLimit => (0x25, s.lzd.limit)
      | .lzdPendingLen => (0x26, match s.lzd.pending with | none => 0 | some seq => seq.length)
      | .lzdOutLen => (0x27, s.lzd.out.length)
      | .lzdAlphaSize => (0x28, s.lzd.alpha.length)
      | .hftLeaves => (0x30, s.hft.leaves.length)
      | .hftTotal => (0x31, s.hft.total)
      | .hftMerges => (0x32, s.hft.merges)
      | .hftSubtrees => (0x33, (s.hft.leaves.map (·.id)).toFinset.card)
      | .hfdPos => (0x40, s.hfd.pos)
      | .hfdTrial => (0x41, s.hfd.trial)
      | .hfdMinlen => (0x42, s.hfd.minlen)
      | .hfdMaxlen => (0x43, s.hfd.maxlen)
      | .hfdEmitted => (0x44, s.hfd.emitted)
      | .hfdTotal => (0x45, s.hfd.total)
      | .hfdNbits => (0x46, s.hfd.nbits)
      | .hfdLit => (0x47, if s.hfd.lit then 1 else 0)
    r.number = row.1 ∧
    ∃ p, exec (.ctlRead r) s = .next (s.send ⟨0x00000000#32, p⟩) ∧ SendsNat s.cfg.wordBits row.2 p

/-- R37, R48, R54: what a command leaves unchanged. A command that does not enter a fault writes its own unit's state only
(HFE and HFD commands also the HFT engine's), and the fault state never; only CTL_RESET writes more. The parameters and the
messages still to be sent never change, and the responses only grow. -/
def Obligations.CommandsWriteTheirOwnUnitOnly : Prop :=
  ∀ (i : Instr) (s t : State), exec i s = .next t → i ≠ .ctlReset →
    t.cfg = s.cfg ∧ t.commands = s.commands ∧ (∃ r, t.responses = s.responses ++ [r]) ∧
    (i.head.unit ≠ .lze → t.lze = s.lze) ∧
    (i.head.unit ≠ .lzd → t.lzd = s.lzd) ∧
    (i.head.unit ≠ .hft → i.head.unit ≠ .hfe → i.head.unit ≠ .hfd → t.hft = s.hft) ∧
    (i.head.unit ≠ .hfd → t.hfd = s.hfd) ∧
    (t.fault = s.fault ∨ (s.fault.faulted = false ∧ t.fault.faulted = true))

/-- R352: each unit moves between its modes exactly as the table lists. While faulted only CTL_RESET moves a mode; a command
that enters a fault ends its own unit's instance; and a command that ends without a fault moves the modes of its row. -/
def Obligations.ModesMoveAsListed : Prop :=
  ∀ (i : Instr) (s t : State), s.cfg.Valid → exec i s = .next t →
    (s.fault.faulted = true → i ≠ .ctlReset →
      t.lze.live = s.lze.live ∧ t.lzd.mode = s.lzd.mode ∧ t.hft.mode = s.hft.mode ∧ t.hfd.mode = s.hfd.mode) ∧
    (s.fault.faulted = false → t.fault.faulted = true →
      t.lze.live = (if i.head.unit = .lze then false else s.lze.live) ∧
      t.lzd.mode = (if i.head.unit = .lzd then .idle else s.lzd.mode) ∧
      t.hft.mode = (if i.head.unit = .hft then .idle else s.hft.mode) ∧
      t.hfd.mode = (if i.head.unit = .hfd then .idle else s.hfd.mode)) ∧
    (t.fault.faulted = false →
      t.lze.live = (match i with
        | .lzeInit _ => true
        | .lzeFlush | .lzeEncode _ _ | .ctlReset => false
        | _ => s.lze.live) ∧
      (match i with
        | .lzdInit _ _ _ => t.lzd.mode = .active
        | .lzdDecode _ _ _ => t.lzd.mode = .ended
        | .lzdStep => (s.lzd.mode = .active ∧ t.lzd.mode = .ended ∧ t.responses = s.responses ++ [⟨0x00000001#32, []⟩]) ∨
            (t.lzd.mode = s.lzd.mode ∧
              (s.lzd.mode = .active → ∃ p, t.responses = s.responses ++ [⟨0x00000000#32, p⟩]))
        | .ctlReset => t.lzd.mode = .idle
        | _ => t.lzd.mode = s.lzd.mode) ∧
      (match i with
        | .hftLoad _ => t.hft.mode = .building
        | .hftStep =>
            (s.hft.mode = .building ∧ t.hft.mode = .done ∧ t.responses = s.responses ++ [⟨0x00000001#32, []⟩]) ∨
            (t.hft.mode = s.hft.mode ∧
              (s.hft.mode = .building → t.responses = s.responses ++ [⟨0x00000000#32, []⟩]))
        | .hfeEncode _ | .hfdInit _ _ | .hfdDecode _ _ => t.hft.mode = .done
        | .ctlReset => t.hft.mode = .idle
        | _ => t.hft.mode = s.hft.mode) ∧
      (match i with
        | .hfdInit _ _ => t.hfd.mode = .active
        | .hfdDecode _ _ => t.hfd.mode = .ended
        | .hfdStep => (s.hfd.mode = .active ∧ t.hfd.mode = .ended ∧ t.responses = s.responses ++ [⟨0x00000200#32, []⟩]) ∨
            (t.hfd.mode = s.hfd.mode ∧
              (s.hfd.mode = .active → ∃ h, h ≠ 0x00000200#32 ∧ t.responses = s.responses ++ [⟨h, []⟩]))
        | .ctlReset => t.hfd.mode = .idle
        | _ => t.hfd.mode = s.hfd.mode))

/-! ## The control unit's no-operation, and the BitBuffer unit (46_control.md, 41_bitbuffer.md). A BitBuffer command answers
with a buffer `r` and writes no state. -/

/-- R290: CTL_NOP answers OK, and does nothing. -/
def Obligations.NopAnswersAndDoesNothing : Prop :=
  ∀ s : State, s.fault.faulted = false → exec .ctlNop s = .next (s.send ⟨0x00000000#32, []⟩)

/-- R150: BB_NEW declares the bit count, and pads at the front with whole zero words up to the count's capacity. -/
def Obligations.NewPadsAtTheFront : Prop :=
  ∀ s : State, s.fault.faulted = false → s.cfg.Valid → ∀ (ws : List Nat) (n : Nat), ∃ (r : BitBuffer) (p : List Byte),
    exec (.bbNew ws n) s = .next (s.send ⟨0x00000000#32, p⟩) ∧ SendsBB s.cfg.wordBits r p ∧
    r.bitCount = n ∧ n ≤ r.words.length * s.cfg.wordBits ∧
    (n ≤ ws.length * s.cfg.wordBits → r.words = ws) ∧
    (∃ k, r.words = List.replicate k 0 ++ ws ∧ (0 < k → (r.words.length - 1) * s.cfg.wordBits < n)) ∧
    natOf (cat s.cfg.wordBits r.words) = natOf (cat s.cfg.wordBits ws)

/-- R141, R151: BB_UNUSED answers the number of unused bits as a NAT. -/
def Obligations.UnusedBitsOfABuffer : Prop :=
  ∀ s : State, s.fault.faulted = false → s.cfg.Valid → ∀ (b : BitBuffer) (u : Nat),
    b.bitCount + u = b.words.length * s.cfg.wordBits →
    ∃ p, exec (.bbUnused b) s = .next (s.send ⟨0x00000000#32, p⟩) ∧ SendsNat s.cfg.wordBits u p

/-- R152: BB_APPEND answers a stream of the bits of `a` followed by the last `bit_count` bits of the value `v`, in exactly
`ceil(bit_count / WB)` words with zero padding. -/
def Obligations.AppendConcatenatesBits : Prop :=
  ∀ s : State, s.fault.faulted = false → s.cfg.Valid → ∀ a v : BitBuffer,
    a.bitCount ≤ a.words.length * s.cfg.wordBits → v.bitCount ≤ v.words.length * s.cfg.wordBits →
    ∃ (r : BitBuffer) (p : List Byte),
      exec (.bbAppend a v) s = .next (s.send ⟨0x00000000#32, p⟩) ∧ SendsBB s.cfg.wordBits r p ∧
      r.bitCount = a.bitCount + v.bitCount ∧ r.words.length = ceilDiv r.bitCount s.cfg.wordBits ∧
      (∀ w ∈ r.words, w < 2 ^ s.cfg.wordBits) ∧
      cat s.cfg.wordBits r.words
        = (cat s.cfg.wordBits a.words).take a.bitCount
          ++ (cat s.cfg.wordBits v.words).drop (v.words.length * s.cfg.wordBits - v.bitCount)
          ++ List.replicate (r.words.length * s.cfg.wordBits - r.bitCount) false

/-- R153: BB_SHIFT_LEFT moves the value's bits to the front, with zero bits after them; words and count are as many. -/
def Obligations.ShiftLeftRealignsAValue : Prop :=
  ∀ s : State, s.fault.faulted = false → s.cfg.Valid → ∀ b : BitBuffer,
    b.bitCount ≤ b.words.length * s.cfg.wordBits → ∃ (r : BitBuffer) (p : List Byte),
      exec (.bbShiftLeft b) s = .next (s.send ⟨0x00000000#32, p⟩) ∧ SendsBB s.cfg.wordBits r p ∧
      r.bitCount = b.bitCount ∧ r.words.length = b.words.length ∧ (∀ w ∈ r.words, w < 2 ^ s.cfg.wordBits) ∧
      cat s.cfg.wordBits r.words
        = (cat s.cfg.wordBits b.words).drop (b.words.length * s.cfg.wordBits - b.bitCount)
          ++ List.replicate (b.words.length * s.cfg.wordBits - b.bitCount) false

/-- R154: BB_PUSH_LEADING_BIT puts the bit before the value's bits and keeps the bits above it; a new word is added exactly
when the words are full. -/
def Obligations.PushedBitLeadsTheValue : Prop :=
  ∀ s : State, s.fault.faulted = false → s.cfg.Valid → ∀ (bit : Bool) (b : BitBuffer),
    b.bitCount ≤ b.words.length * s.cfg.wordBits → ∃ (r : BitBuffer) (p : List Byte),
      exec (.bbPushLeadingBit bit b) s = .next (s.send ⟨0x00000000#32, p⟩) ∧ SendsBB s.cfg.wordBits r p ∧
      r.bitCount = b.bitCount + 1 ∧
      r.words.length = (if b.words.length * s.cfg.wordBits = b.bitCount then b.words.length + 1 else b.words.length) ∧
      (∀ w ∈ r.words, w < 2 ^ s.cfg.wordBits) ∧
      vbits s.cfg.wordBits r = bit :: vbits s.cfg.wordBits b ∧
      natOf (cat s.cfg.wordBits r.words) / 2 ^ (b.bitCount + 1)
        = natOf (cat s.cfg.wordBits b.words) / 2 ^ (b.bitCount + 1)

/-- R156: BB_TO_BYTES answers the first `ceil(bit_count / 8)` bytes of the words, each word most significant byte first. -/
def Obligations.ToBytesSerializesAStream : Prop :=
  ∀ s : State, s.fault.faulted = false → s.cfg.Valid → ∀ b : BitBuffer,
    b.bitCount ≤ b.words.length * s.cfg.wordBits → ∃ bs p : List Byte,
      exec (.bbToBytes b) s = .next (s.send ⟨0x00000000#32, p⟩) ∧ SendsBytes bs p ∧
      bs.length = ceilDiv b.bitCount 8 ∧ bitsOfBytes bs = (cat s.cfg.wordBits b.words).take (8 * bs.length)

/-- R157: BB_FROM_BYTES answers the stream of the bytes, most significant bit first, in words padded with zeros. -/
def Obligations.FromBytesMakesAStream : Prop :=
  ∀ s : State, s.fault.faulted = false → s.cfg.Valid → ∀ bs : List Byte, ∃ (r : BitBuffer) (p : List Byte),
    exec (.bbFromBytes bs) s = .next (s.send ⟨0x00000000#32, p⟩) ∧ SendsBB s.cfg.wordBits r p ∧
    r.bitCount = 8 * bs.length ∧ r.words.length = ceilDiv bs.length (s.cfg.wordBits / 8) ∧
    (∀ w ∈ r.words, w < 2 ^ s.cfg.wordBits) ∧
    cat s.cfg.wordBits r.words
      = bitsOfBytes bs ++ List.replicate (r.words.length * s.cfg.wordBits - r.bitCount) false

/-- R158: bytes survive a stream, and a stream survives bytes up to the zero bits that fill its last byte. -/
def Obligations.SerializationRoundTrips : Prop :=
  ∀ wb : Nat, 8 ≤ wb → wb % 8 = 0 →
    (∀ bs : List Byte, bbToBytes wb (bbFromBytes wb bs) = bs) ∧
    (∀ b : BitBuffer, StreamOk wb b →
      sbits wb (bbFromBytes wb (bbToBytes wb b))
        = sbits wb b ++ List.replicate ((8 - b.bitCount % 8) % 8) false ∧
      (bbFromBytes wb (bbToBytes wb b) = b ↔ b.bitCount % 8 = 0))

/-- Append is associative on bit content (R159), and appending the value buffer of codeword `v` at width `n` appends the `n`
bits of `v`, however many words `v` has (R160). R159 writes its right side as an append of the stream buffer
`frombits(vbits(b) ++ vbits(c))`, which R152 reads by value convention, so that its padding bits would be appended. Reading
that right side as the append of any buffer `v` whose value bits are those bits is the model's choice (log entry 14). -/
def Obligations.AppendIsAssociativeOnBits : Prop :=
  ∀ wb : Nat, 8 ≤ wb → wb % 8 = 0 →
    (∀ a b c : BitBuffer,
      sbits wb (bbAppend wb (bbAppend wb a b) c) = sbits wb a ++ vbits wb b ++ vbits wb c ∧
      ∀ v : BitBuffer, vbits wb v = sbits wb (frombits wb (vbits wb b ++ vbits wb c)) →
        sbits wb (bbAppend wb a v) = sbits wb (bbAppend wb (bbAppend wb a b) c)) ∧
    (∀ (out : BitBuffer) (v n : Nat),
      sbits wb (bbAppend wb out (valueBB wb v n)) = sbits wb out ++ bitsOf v n)

/-- R144 to R146: a Counter is determined by its value and has the fewest words for it; the ripple increment adds one,
keeps the canonical form, and adds a word exactly when every word is `2^WB - 1`. -/
def Obligations.CounterIncrementCarries : Prop :=
  ∀ wb : Nat, 8 ≤ wb → wb % 8 = 0 → ∀ c : List Nat, CounterOk wb c →
    CounterOk wb (inc wb c) ∧ ctrValue wb (inc wb c) = ctrValue wb c + 1 ∧
    c.length = max 1 (ceilDiv (bitlen (ctrValue wb c)) wb) ∧
    (inc wb c).length = (if ∀ w ∈ c, w = 2 ^ wb - 1 then c.length + 1 else c.length) ∧
    (∀ d : List Nat, CounterOk wb d → ctrValue wb d = ctrValue wb c → d = c)

/-! ## The LZW encoder (42_lzw_encoder.md) -/

/-- R171, R180: LZE_INIT seeds the dictionary with codeword `i` for symbol `i` of the alphabet, the counter at the next
codeword and the width of R170; an alphabet past `DICT_CAP` is CAPACITY_EXCEEDED with the unit's number. -/
def Obligations.InitSeedsTheEncoder : Prop :=
  ∀ s : State, s.fault.faulted = false → s.cfg.Valid → ∀ alpha : List Byte,
    1 ≤ alpha.length → alpha.length ≤ 256 → alpha.Nodup →
    (WithinCap s.cfg alpha.length →
      exec (.lzeInit alpha) s = .next ((s.withLze
        { live := true, alpha, dict := alpha.zipIdx.map fun e => ([e.1], e.2),
          ctr := canon s.cfg.wordBits alpha.length, width := bitlen (alpha.length - 1), phrase := [],
          out := ⟨[], 0⟩ }).send ⟨0x00000000#32, []⟩)) ∧
    (¬ WithinCap s.cfg alpha.length →
      exec (.lzeInit alpha) s = .next (((s.withLze { s.lze with live := false }).withFault
        ⟨true, 0x08, 2, 0x20000000#32⟩).send ⟨0x01080000#32, []⟩))

/-- R174, R175, R181 with R170 and R172: the phrase step. A known phrase only grows; an unknown one is inserted under the next
codeword, and the codeword of the phrase before the symbol, which fits its width, is emitted at the width before the
insertion; past `DICT_CAP`, or with a byte outside the alphabet before it, the step faults. -/
def Obligations.SymbolStepOfTheEncoder : Prop :=
  ∀ s : State, s.fault.faulted = false → s.cfg.Valid → s.lze.live = true → s.lze.Ok s.cfg → ∀ sym : Byte,
    let u := s.lze
    let p := u.phrase ++ [sym]
    let n := u.dict.length
    (p ∈ u.dict.map Prod.fst →
      exec (.lzeSymbol sym) s = .next ((s.withLze { u with phrase := p }).send ⟨0x00000000#32, []⟩)) ∧
    (p ∉ u.dict.map Prod.fst → WithinCap s.cfg (n + 1) → ∀ c : Nat, (u.phrase, c) ∈ u.dict →
      c < 2 ^ u.width ∧
      exec (.lzeSymbol sym) s = .next ((s.withLze
        { u with
            dict := u.dict ++ [(p, n)], ctr := canon s.cfg.wordBits (n + 1), width := bitlen n, phrase := [sym],
            out := frombits s.cfg.wordBits (sbits s.cfg.wordBits u.out ++ bitsOf c u.width) }).send
        ⟨0x00000001#32, []⟩)) ∧
    (p ∉ u.dict.map Prod.fst → ¬ WithinCap s.cfg (n + 1) →
      exec (.lzeSymbol sym) s = .next (((s.withLze { u with live := false }).withFault
        ⟨true, 0x08, 2, 0x21000000#32 + sym.setWidth 32⟩).send ⟨0x01080000#32, []⟩)) ∧
    (p ∉ u.dict.map Prod.fst → WithinCap s.cfg (n + 1) → u.phrase ∉ u.dict.map Prod.fst → ∀ z : Byte, p.head? = some z →
      exec (.lzeSymbol sym) s = .next (((s.withLze { u with live := false }).withFault
        ⟨true, 0x01, z.toNat, 0x21000000#32 + sym.setWidth 32⟩).send ⟨0x01010000#32, []⟩))

/-- R176, R182: LZE_FLUSH emits the phrase's codeword at the current width, ends the instance and answers the stream. -/
def Obligations.FlushAnswersTheStream : Prop :=
  ∀ s : State, s.fault.faulted = false → s.cfg.Valid → s.lze.live = true → s.lze.Ok s.cfg →
    let u := s.lze
    (u.phrase = [] → ∃ p, exec .lzeFlush s = .next ((s.withLze { u with live := false }).send ⟨0x00000000#32, p⟩) ∧
      SendsBB s.cfg.wordBits u.out p) ∧
    (∀ c : Nat, (u.phrase, c) ∈ u.dict →
      let out := frombits s.cfg.wordBits (sbits s.cfg.wordBits u.out ++ bitsOf c u.width)
      ∃ p, exec .lzeFlush s = .next ((s.withLze { u with live := false, out := out }).send ⟨0x00000000#32, p⟩) ∧
        SendsBB s.cfg.wordBits out p) ∧
    (u.phrase ∉ u.dict.map Prod.fst → ∀ z : Byte, u.phrase.head? = some z →
      exec .lzeFlush s = .next (((s.withLze { u with live := false }).withFault
        ⟨true, 0x01, z.toNat, 0x22000000#32⟩).send ⟨0x01010000#32, []⟩))

/-- R183: LZE_ENCODE is LZE_INIT, one LZE_SYMBOL for each symbol and LZE_FLUSH: the same instance and stream, or the same
fault. -/
def Obligations.EncodeIsInitSymbolsFlush : Prop :=
  ∀ (s : State) (alpha syms : List Byte), s.fault.faulted = false →
    ∃ t u, exec (.lzeEncode alpha syms) s = .next t ∧
      execAll (.lzeInit alpha :: (syms.map .lzeSymbol ++ [.lzeFlush])) s = .next u ∧
      t.fault.faulted = u.fault.faulted ∧ t.fault.code = u.fault.code ∧ t.fault.info = u.fault.info ∧
      (t.fault.faulted = false → ∃ p q, t = (s.withLze u.lze).send ⟨0x00000000#32, p⟩ ∧
        u.responses.getLast? = some ⟨0x00000000#32, q⟩ ∧ SendsBB s.cfg.wordBits u.lze.out p ∧
        SendsBB s.cfg.wordBits u.lze.out q)

/-- R183, R178: an input over the alphabet is encoded, with room in the dictionary for one entry a symbol; the empty input
gives the empty stream. -/
def Obligations.EncodeOverTheAlphabetCompletes : Prop :=
  ∀ s : State, s.fault.faulted = false → s.cfg.Valid → ∀ alpha syms : List Byte,
    1 ≤ alpha.length → alpha.length ≤ 256 → alpha.Nodup → (∀ a ∈ syms, a ∈ alpha) →
    (s.cfg.dictCap = 0 ∨ alpha.length + syms.length ≤ s.cfg.dictCap) →
    ∃ u p, exec (.lzeEncode alpha syms) s = .next ((s.withLze u).send ⟨0x00000000#32, p⟩) ∧
      SendsBB s.cfg.wordBits u.out p ∧ u.live = false ∧ u.alpha = alpha ∧ u.Ok s.cfg ∧
      (syms = [] → u.out = ⟨[], 0⟩)

/-- R178, R183: an input with a byte outside the alphabet ends in ALPHABET_COVERAGE with the first such byte, and with no
stream. -/
def Obligations.ForeignByteEndsTheEncoding : Prop :=
  ∀ s : State, s.fault.faulted = false → s.cfg.Valid → ∀ (alpha before : List Byte) (z : Byte) (after : List Byte),
    1 ≤ alpha.length → alpha.length ≤ 256 → alpha.Nodup → (∀ a ∈ before, a ∈ alpha) → z ∉ alpha →
    (s.cfg.dictCap = 0 ∨ alpha.length + before.length + 2 ≤ s.cfg.dictCap) →
    exec (.lzeEncode alpha (before ++ z :: after)) s = .next (((s.withLze { s.lze with live := false }).withFault
      ⟨true, 0x01, z.toNat, 0x23000000#32⟩).send ⟨0x01010000#32, []⟩)

/-! ## The LZW decoder (43_lzw_decoder.md) -/

/-- R200, R210, R211: LZD_INIT seeds the decoder, at the start of the padded input; an alphabet past `DICT_CAP` is
CAPACITY_EXCEEDED with the unit's number. -/
def Obligations.InitSeedsTheDecoder : Prop :=
  ∀ s : State, s.fault.faulted = false → s.cfg.Valid → ∀ (alpha input : List Byte) (limit : Option Nat),
    1 ≤ alpha.length → alpha.length ≤ 256 → alpha.Nodup →
    let ws := (bbFromBytes s.cfg.wordBits input).words
    (∀ l, limit = some l → l ≤ ws.length * s.cfg.wordBits) →
    (WithinCap s.cfg alpha.length →
      exec (.lzdInit alpha input limit) s = .next ((s.withLzd
        { mode := .active, alpha, dict := alpha.zipIdx.map fun e => (e.2, [e.1]),
          ctr := canon s.cfg.wordBits alpha.length, width := bitlen (alpha.length - 1), words := ws,
          limit := match limit with | some l => l | none => ws.length * s.cfg.wordBits,
          pos := 0, pending := none, out := [] }).send ⟨0x00000000#32, []⟩)) ∧
    (¬ WithinCap s.cfg alpha.length →
      exec (.lzdInit alpha input limit) s = .next (((s.withLzd { s.lzd with mode := .idle }).withFault
        ⟨true, 0x08, 3, if limit.isSome then 0x30010000#32 else 0x30000000#32⟩).send ⟨0x01080000#32, []⟩))

/-- R201 to R206, R212: one iteration of the decoder. It stops where the next codeword would pass the limit; it resolves the
codeword by the dictionary or as the self-referential miss, inserts the pending entry, and moves the cursor by the width it
read with; any other codeword is CORRUPT_STREAM, and an insertion past `DICT_CAP` is CAPACITY_EXCEEDED. An ended instance
answers END again. -/
def Obligations.IterationOfTheDecoder : Prop :=
  ∀ s : State, s.fault.faulted = false → s.cfg.Valid → s.lzd.Ok s.cfg →
    let u := s.lzd
    let n := u.dict.length
    let c := natOf (((cat s.cfg.wordBits u.words).drop u.pos).take u.width)
    (u.mode = .ended → exec .lzdStep s = .next (s.send ⟨0x00000001#32, []⟩)) ∧
    (u.mode = .active → u.limit < u.pos + u.width →
      exec .lzdStep s = .next ((s.withLzd { u with mode := .ended }).send ⟨0x00000001#32, []⟩)) ∧
    (u.mode = .active → u.pos + u.width ≤ u.limit →
      (∀ seq : List Byte, (c, seq) ∈ u.dict ∨ (c = n ∧ ∃ q, u.pending = some q ∧ seq = q ++ q.take 1) →
        (u.pending = none → ∃ p, SendsBytes seq p ∧
          exec .lzdStep s = .next ((s.withLzd
            { u with out := u.out ++ seq, width := bitlen n, pending := some seq, pos := u.pos + u.width }).send
            ⟨0x00000000#32, p⟩)) ∧
        (∀ q, u.pending = some q → WithinCap s.cfg (n + 1) → ∃ p, SendsBytes seq p ∧
          exec .lzdStep s = .next ((s.withLzd
            { u with
                dict := u.dict ++ [(n, q ++ seq.take 1)], ctr := canon s.cfg.wordBits (n + 1), out := u.out ++ seq,
                width := bitlen (n + 1), pending := some seq, pos := u.pos + u.width }).send ⟨0x00000000#32, p⟩)) ∧
        (u.pending ≠ none → ¬ WithinCap s.cfg (n + 1) →
          exec .lzdStep s = .next (((s.withLzd { u with mode := .idle }).withFault
            ⟨true, 0x08, 3, 0x31000000#32⟩).send ⟨0x01080000#32, []⟩))) ∧
      (n < c ∨ (c = n ∧ u.pending = none) →
        exec .lzdStep s = .next (((s.withLzd { u with mode := .idle }).withFault
          ⟨true, 0x02, c, 0x31000000#32⟩).send ⟨0x01020000#32, []⟩)))

/-- R213, R366: LZD_DECODE is LZD_INIT and then LZD_STEP until END, which two more steps than the input has bits always
reach: the same instance and output, or the same fault. -/
def Obligations.DecodeIsInitAndIterations : Prop :=
  ∀ (s : State) (alpha input : List Byte) (limit : Option Nat) (m : Nat), s.fault.faulted = false → s.cfg.Valid →
    ceilDiv input.length (s.cfg.wordBits / 8) * s.cfg.wordBits + 2 ≤ m →
    ∃ t u, exec (.lzdDecode alpha input limit) s = .next t ∧
      execAll (.lzdInit alpha input limit :: List.replicate m .lzdStep) s = .next u ∧
      t.fault.faulted = u.fault.faulted ∧ t.fault.code = u.fault.code ∧ t.fault.info = u.fault.info ∧
      (t.fault.faulted = false → u.lzd.mode = .ended ∧
        ∃ p, t = (s.withLzd u.lzd).send ⟨0x00000000#32, p⟩ ∧ SendsBytes u.lzd.out p)

/-- R214: decoding what LZE_ENCODE made, with its bit count as the limit, gives the input back, for every alphabet and every
input over it, but for the empty input over a one-symbol alphabet (with room in the dictionary, R9). -/
def Obligations.LzwRoundTrip : Prop :=
  ∀ s s' : State, s.fault.faulted = false → s'.fault.faulted = false → s.cfg.Valid → s'.cfg = s.cfg →
    ∀ alpha x : List Byte, 1 ≤ alpha.length → alpha.length ≤ 256 → alpha.Nodup → (∀ a ∈ x, a ∈ alpha) →
    (alpha.length = 1 → x ≠ []) → (s.cfg.dictCap = 0 ∨ alpha.length + x.length ≤ s.cfg.dictCap) →
    ∃ u p, exec (.lzeEncode alpha x) s = .next ((s.withLze u).send ⟨0x00000000#32, p⟩) ∧
      SendsBB s.cfg.wordBits u.out p ∧
      ∃ v q, exec (.lzdDecode alpha (bbToBytes s.cfg.wordBits u.out) (some u.out.bitCount)) s'
          = .next ((s'.withLzd v).send ⟨0x00000000#32, q⟩) ∧
        v.out = x ∧ SendsBytes x q

/-- R216, R215: without a limit the decoder also reads the padding, as `k` copies of the first symbol, where `k` is the number
of further full-width reads that fit; and over a one-symbol alphabet the empty input decodes as that symbol. -/
def Obligations.DecodingReadsThePadding : Prop :=
  ∀ s s' : State, s.fault.faulted = false → s'.fault.faulted = false → s.cfg.Valid → s'.cfg = s.cfg →
    s.cfg.dictCap = 0 →
    (∀ (a : Byte) (alpha x : List Byte), (a :: alpha).length ≤ 256 → (a :: alpha).Nodup → (∀ b ∈ x, b ∈ a :: alpha) →
      (alpha = [] → x ≠ []) →
      ∃ u p, exec (.lzeEncode (a :: alpha) x) s = .next ((s.withLze u).send ⟨0x00000000#32, p⟩) ∧
        ∃ v q k, exec (.lzdDecode (a :: alpha) (bbToBytes s.cfg.wordBits u.out) none) s'
            = .next ((s'.withLzd v).send ⟨0x00000000#32, q⟩) ∧
          v.out = x ++ List.replicate k a ∧ SendsBytes (x ++ List.replicate k a) q ∧
          let capacity := u.out.words.length * s.cfg.wordBits
          let widths := fun m : Nat => ((List.range m).map fun j => bitlen (u.dict.length + j)).sum
          u.out.bitCount + widths k ≤ capacity ∧ capacity < u.out.bitCount + widths (k + 1)) ∧
    (∀ a : Byte, ∃ v q, exec (.lzdDecode [a] [] none) s' = .next ((s'.withLzd v).send ⟨0x00000000#32, q⟩) ∧
      v.out = [a] ∧ SendsBytes [a] q)

/-! ## The Huffman tree engine (44_huffman_tree.md) -/

/-- R231, R232, R238, R240: HFT_LOAD makes one leaf for each byte with a nonzero count, in rising order of weight and, for equal
weights, of byte; a table of zeros is DEGENERATE_TREE. -/
def Obligations.LoadMakesTheLeaves : Prop :=
  ∀ s : State, s.fault.faulted = false → ∀ f : List Nat, f.length = 256 →
    (f.sum = 0 → exec (.hftLoad f) s = .next (((s.withHft { s.hft with mode := .idle }).withFault
      ⟨true, 0x03, 0, 0x40000000#32⟩).send ⟨0x01030000#32, []⟩)) ∧
    (0 < f.sum → ∃ leaves : List Leaf,
      exec (.hftLoad f) s = .next ((s.withHft { mode := .building, leaves := leaves, total := f.sum, merges := 0 }).send
        ⟨0x00000000#32, []⟩) ∧
      (∀ l : Leaf, l ∈ leaves ↔ ∃ n, f[l.sym.toNat]? = some n ∧ 0 < n ∧ l = ⟨⟨[], 0⟩, l.sym, l.sym, n⟩) ∧
      leaves.Pairwise (fun l m => l.weight < m.weight ∨ (l.weight = m.weight ∧ l.sym.toNat < m.sym.toNat)))

/-- R233 to R236, R241: HFT_STEP ends the construction where a leaf weighs the total, or where there is no second subtree; else
it merges the two lightest subtrees, the first in leaf order on a tie: 0 before the codes of the lighter, 1 before those of
the other, which takes the first's id, and the summed weight on both. A finished tree answers DONE again. -/
def Obligations.MergeStepOfTheTree : Prop :=
  ∀ s : State, s.fault.faulted = false → s.cfg.Valid → s.hft.Ok s.cfg.wordBits →
    let h := s.hft
    (h.mode = .done → exec .hftStep s = .next (s.send ⟨0x00000001#32, []⟩)) ∧
    (h.mode = .building → (∃ l ∈ h.leaves, l.weight = h.total) ∨ (∀ l ∈ h.leaves, ∀ m ∈ h.leaves, l.id = m.id) →
      exec .hftStep s = .next ((s.withHft { h with mode := .done }).send ⟨0x00000001#32, []⟩)) ∧
    (h.mode = .building → (∀ l ∈ h.leaves, l.weight ≠ h.total) → ∀ (before : List Leaf) (m1 : Leaf) (after : List Leaf),
      h.leaves = before ++ m1 :: after → (∀ l ∈ before, m1.weight < l.weight) → (∀ l ∈ after, m1.weight ≤ l.weight) →
      ∀ (before2 : List Leaf) (m2 : Leaf) (after2 : List Leaf),
      h.leaves.filter (fun l => l.id ≠ m1.id) = before2 ++ m2 :: after2 →
      (∀ l ∈ before2, m2.weight < l.weight) → (∀ l ∈ after2, m2.weight ≤ l.weight) →
      ∃ leaves : List Leaf,
        exec .hftStep s = .next ((s.withHft { h with leaves := leaves, merges := h.merges + 1 }).send
          ⟨0x00000000#32, []⟩) ∧
        List.Forall₂ (fun l l' =>
          if l.id = m1.id then
            l'.sym = l.sym ∧ l'.id = m1.id ∧ l'.weight = m1.weight + m2.weight ∧ CodeOk s.cfg.wordBits l'.code ∧
              vbits s.cfg.wordBits l'.code = false :: vbits s.cfg.wordBits l.code
          else if l.id = m2.id then
            l'.sym = l.sym ∧ l'.id = m1.id ∧ l'.weight = m1.weight + m2.weight ∧ CodeOk s.cfg.wordBits l'.code ∧
              vbits s.cfg.wordBits l'.code = true :: vbits s.cfg.wordBits l.code
          else l' = l) h.leaves leaves)

/-- R239, R242: HFT_TABLE answers the 256 codewords of a finished tree, `([0], 1)` for an only symbol and `([], 0)` for an
absent byte, and changes nothing. -/
def Obligations.TableOfTheTree : Prop :=
  ∀ s : State, s.fault.faulted = false → s.cfg.Valid → s.hft.Ok s.cfg.wordBits → s.hft.mode = .done →
    ∃ (table : List BitBuffer) (p : List Byte),
      exec .hftTable s = .next (s.send ⟨0x00000000#32, p⟩) ∧ p = table.flatMap (encodeBB s.cfg.wordBits) ∧
      table.length = 256 ∧
      ∀ b : Byte, ∃ code, table[b.toNat]? = some code ∧
        (∀ l ∈ s.hft.leaves, l.sym = b → code = if 0 < l.code.bitCount then l.code else ⟨[0], 1⟩) ∧
        ((∀ l ∈ s.hft.leaves, l.sym ≠ b) → code = ⟨[], 0⟩)

/-- R241, R243: a table of `k + 1` present bytes takes `k` MERGED steps, and then DONE; the engine then holds what
HFE_ENCODE and HFD_INIT build from that table. -/
def Obligations.MergesOfATable : Prop :=
  ∀ s : State, s.fault.faulted = false → s.cfg.Valid → ∀ (f : List Nat) (k : Nat), f.length = 256 →
    (f.filter (fun n => 0 < n)).length = k + 1 →
    ∃ t, execAll (.hftLoad f :: List.replicate k .hftStep) s = .next t ∧
      t.responses = s.responses ++ List.replicate (k + 1) ⟨0x00000000#32, []⟩ ∧
      t.hft.mode = .building ∧ t.hft.merges = k ∧
      exec .hftStep t = .next ((t.withHft { t.hft with mode := .done }).send ⟨0x00000001#32, []⟩) ∧
      buildTree s.cfg.wordBits f = .ok { t.hft with mode := .done }

/-- R245: the codewords of the present bytes are the leaves of a full binary tree: none is a prefix of another, every bit
string as long as the longest begins with exactly one, each has 1 to `k - 1` bits, and `k - 1` merges were made. A single
present byte has the codeword "0". -/
def Obligations.TableIsAFullTree : Prop :=
  ∀ wb : Nat, 8 ≤ wb → wb % 8 = 0 → ∀ (f : List Nat) (h : Hft), f.length = 256 → buildTree wb f = .ok h →
    let present := fun b : Byte => ∃ n, f[b.toNat]? = some n ∧ 0 < n
    let code := fun b : Byte => vbits wb (h.codeword b)
    let k := (f.filter (fun n => 0 < n)).length
    h.merges = k - 1 ∧
    (∀ b, ¬ present b → h.codeword b = ⟨[], 0⟩) ∧
    (k = 1 → ∀ b, present b → h.codeword b = ⟨[0], 1⟩) ∧
    (2 ≤ k →
      (∀ b c, present b → present c → b ≠ c → ¬ code b <+: code c) ∧
      (∀ bits : Bits, (∀ b, present b → (code b).length ≤ bits.length) → ∃ b, present b ∧ code b <+: bits) ∧
      (∀ b, present b → 1 ≤ (code b).length ∧ (code b).length ≤ k - 1 ∧ (code b).length = (h.codeword b).bitCount))

/-! ## The Huffman codec (45_huffman_codec.md) -/

/-- R260, R262: HFE_HIST answers the count of each byte value, two bytes each, most significant first; a count that does not
fit is COUNT_OVERFLOW with the lowest such value. -/
def Obligations.HistogramOfABuffer : Prop :=
  ∀ s : State, s.fault.faulted = false → ∀ data : List Byte,
    ((∀ b : Byte, data.count b ≤ 65535) → ∃ f : List Nat,
      exec (.hfeHist data) s = .next (s.send ⟨0x00000000#32, f.flatMap (bytesBE 2)⟩) ∧ f.length = 256 ∧
      ∀ b : Byte, f[b.toNat]? = some (data.count b)) ∧
    (∀ b : Byte, 65535 < data.count b → (∀ c : Byte, c.toNat < b.toNat → data.count c ≤ 65535) →
      exec (.hfeHist data) s = .next ((s.withFault ⟨true, 0x07, b.toNat, 0x51000000#32⟩).send ⟨0x01070000#32, []⟩))

/-- R261, R263, R264: HFE_ENCODE answers the frequency table and then the codewords of the data in order, the last byte filled
with zero bits, and leaves the tree in the engine; a count that does not fit, and then the empty buffer, fault, and the
engine keeps its tree. -/
def Obligations.EncodeMakesAContainer : Prop :=
  ∀ s : State, s.fault.faulted = false → s.cfg.Valid → ∀ data : List Byte,
    ((∀ b : Byte, data.count b ≤ 65535) → data ≠ [] → ∃ (f : List Nat) (h : Hft) (container p : List Byte),
      f.length = 256 ∧ (∀ b : Byte, f[b.toNat]? = some (data.count b)) ∧ buildTree s.cfg.wordBits f = .ok h ∧
      h.mode = .done ∧ h.total = data.length ∧
      exec (.hfeEncode data) s = .next ((s.withHft h).send ⟨0x00000000#32, p⟩) ∧ SendsBytes container p ∧
      container.take 512 = f.flatMap (bytesBE 2) ∧
      ∃ pad, pad < 8 ∧ bitsOfBytes (container.drop 512)
        = data.flatMap (fun b => vbits s.cfg.wordBits (h.codeword b)) ++ List.replicate pad false) ∧
    (∀ b : Byte, 65535 < data.count b → (∀ c : Byte, c.toNat < b.toNat → data.count c ≤ 65535) →
      exec (.hfeEncode data) s = .next ((s.withFault ⟨true, 0x07, b.toNat, 0x50000000#32⟩).send ⟨0x01070000#32, []⟩)) ∧
    (data = [] →
      exec (.hfeEncode data) s = .next ((s.withFault ⟨true, 0x03, 0, 0x50000000#32⟩).send ⟨0x01030000#32, []⟩))

/-- R265, R266, R271: HFD_INIT reads the counts of the container's first 512 bytes, builds their tree in the engine, maps the
codeword of each present byte back to it, and stands at the start of the rest; a container that is too short is
CORRUPT_STREAM with its length, and a table of zeros DEGENERATE_TREE. -/
def Obligations.InitBuildsTheReverseTable : Prop :=
  ∀ s : State, s.fault.faulted = false → s.cfg.Valid → ∀ (lit : Bool) (container : List Byte),
    let header := if lit then 0x60010000#32 else 0x60000000#32
    (container.length < 512 →
      exec (.hfdInit lit container) s = .next (((s.withHfd { s.hfd with mode := .idle }).withFault
        ⟨true, 0x02, container.length, header⟩).send ⟨0x01020000#32, []⟩)) ∧
    (512 ≤ container.length → ∀ f : List Nat, f.length = 256 → f.flatMap (bytesBE 2) = container.take 512 →
      (∀ n ∈ f, n ≤ 65535) →
      (f.sum = 0 → exec (.hfdInit lit container) s = .next (((s.withHfd { s.hfd with mode := .idle }).withFault
        ⟨true, 0x03, 0, header⟩).send ⟨0x01030000#32, []⟩)) ∧
      (0 < f.sum → ∃ (h : Hft) (rev : List (Bits × Byte)) (minlen maxlen : Nat), buildTree s.cfg.wordBits f = .ok h ∧
        exec (.hfdInit lit container) s = .next (((s.withHft h).withHfd
          { mode := .active, lit := lit, total := f.sum, rev := rev, minlen := minlen, maxlen := maxlen,
            stream := container.drop 512, nbits := 8 * (container.length - 512), pos := 0, trial := minlen,
            emitted := 0, out := [] }).send ⟨0x00000000#32, []⟩) ∧
        (rev.map Prod.fst).Nodup ∧
        (∀ (bits : Bits) (b : Byte), (bits, b) ∈ rev ↔
          (∃ n, f[b.toNat]? = some n ∧ 0 < n) ∧ bits = vbits s.cfg.wordBits (h.codeword b)) ∧
        (∃ e ∈ rev, e.1.length = minlen) ∧ (∃ e ∈ rev, e.1.length = maxlen) ∧
        (∀ e ∈ rev, minlen ≤ e.1.length ∧ e.1.length ≤ maxlen)))

/-- R267 to R270, R272: one trial. In the default mode it ends after `total` symbols; where the input or the codeword lengths
run out it is CORRUPT_STREAM with the cursor in the default mode and END in literal mode; a hit emits the byte and moves the
cursor, a miss lengthens the trial. An ended instance answers END again. -/
def Obligations.TrialOfTheDecoder : Prop :=
  ∀ s : State, s.fault.faulted = false → s.hfd.Ok →
    let u := s.hfd
    let bits := ((bitsOfBytes u.stream).drop u.pos).take u.trial
    let fault : Outcome := .next (((s.withHfd { u with mode := .idle }).withFault ⟨true, 0x02, u.pos, 0x61000000#32⟩).send
      ⟨0x01020000#32, []⟩)
    (u.mode = .ended → exec .hfdStep s = .next (s.send ⟨0x00000200#32, []⟩)) ∧
    (u.mode = .active → u.lit = false → u.emitted = u.total →
      exec .hfdStep s = .next ((s.withHfd { u with mode := .ended }).send ⟨0x00000200#32, []⟩)) ∧
    (u.mode = .active → (u.lit = true ∨ u.emitted ≠ u.total) →
      (u.nbits < u.pos + u.trial → u.lit = true →
        exec .hfdStep s = .next ((s.withHfd { u with mode := .ended }).send ⟨0x00000200#32, []⟩)) ∧
      (u.nbits < u.pos + u.trial → u.lit = false → exec .hfdStep s = fault) ∧
      (u.pos + u.trial ≤ u.nbits → ∀ b : Byte, (bits, b) ∈ u.rev →
        exec .hfdStep s = .next ((s.withHfd
          { u with out := u.out ++ [b], pos := u.pos + u.trial, trial := u.minlen, emitted := u.emitted + 1 }).send
          ⟨0x00000100#32 + b.setWidth 32, []⟩)) ∧
      (u.pos + u.trial ≤ u.nbits → bits ∉ u.rev.map Prod.fst →
        (u.trial + 1 ≤ u.maxlen →
          exec .hfdStep s = .next ((s.withHfd { u with trial := u.trial + 1 }).send ⟨0x00000000#32, []⟩)) ∧
        (u.maxlen < u.trial + 1 → u.lit = true →
          exec .hfdStep s = .next ((s.withHfd { u with trial := u.trial + 1, mode := .ended }).send
            ⟨0x00000200#32, []⟩)) ∧
        (u.maxlen < u.trial + 1 → u.lit = false → exec .hfdStep s = fault)))

/-- R273, R366: HFD_DECODE is HFD_INIT and then HFD_STEP until END, which `(nbits + 1) * 256` steps always reach: the same
instance and output, or the same fault. -/
def Obligations.DecodeIsInitAndTrials : Prop :=
  ∀ (s : State) (lit : Bool) (container : List Byte) (m : Nat), s.fault.faulted = false → s.cfg.Valid →
    (8 * (container.length - 512) + 1) * 256 ≤ m →
    ∃ t u, exec (.hfdDecode lit container) s = .next t ∧
      execAll (.hfdInit lit container :: List.replicate m .hfdStep) s = .next u ∧
      t.fault.faulted = u.fault.faulted ∧ t.fault.code = u.fault.code ∧ t.fault.info = u.fault.info ∧
      (t.fault.faulted = false → u.hfd.mode = .ended ∧
        ∃ p, t = ((s.withHft u.hft).withHfd u.hfd).send ⟨0x00000000#32, p⟩ ∧ SendsBytes u.hfd.out p)

/-- R274, R276: decoding what HFE_ENCODE made gives the data back, for every non-empty buffer whose counts fit 16 bits, and
whatever bytes follow the container. -/
def Obligations.HuffmanRoundTrip : Prop :=
  ∀ s s' : State, s.fault.faulted = false → s'.fault.faulted = false → s.cfg.Valid → s'.cfg = s.cfg →
    ∀ data : List Byte, data ≠ [] → (∀ b : Byte, data.count b ≤ 65535) →
    ∃ (h : Hft) (container p : List Byte),
      exec (.hfeEncode data) s = .next ((s.withHft h).send ⟨0x00000000#32, p⟩) ∧ SendsBytes container p ∧
      ∀ extra : List Byte, ∃ v q,
        exec (.hfdDecode false (container ++ extra)) s' = .next (((s'.withHft h).withHfd v).send ⟨0x00000000#32, q⟩) ∧
        v.out = data ∧ SendsBytes data q

/-- R276: in the default mode the bytes after the last codeword are not read: a container that decodes still decodes to the
same output with any bytes appended. -/
def Obligations.ExtraBytesAreNotRead : Prop :=
  ∀ (s t : State) (container extra : List Byte), s.fault.faulted = false → s.cfg.Valid →
    exec (.hfdDecode false container) s = .next t → t.fault.faulted = false →
    ∃ t', exec (.hfdDecode false (container ++ extra)) s = .next t' ∧ t'.fault.faulted = false ∧
      t'.hft = t.hft ∧ t'.hfd.out = t.hfd.out ∧ t'.hfd.pos = t.hfd.pos ∧ t'.responses = t.responses

/-- R270, R275: in literal mode any container of 512 bytes or more with a nonzero table decodes; what HFE_ENCODE made decodes
to the data and at most 7 more symbols, from the bits that fill the last byte. -/
def Obligations.LiteralModeNeverFaults : Prop :=
  ∀ s s' : State, s.fault.faulted = false → s'.fault.faulted = false → s.cfg.Valid → s'.cfg = s.cfg →
    (∀ container : List Byte, 512 ≤ container.length → (∃ b ∈ container.take 512, b ≠ 0) →
      ∃ h v q, exec (.hfdDecode true container) s' = .next (((s'.withHft h).withHfd v).send ⟨0x00000000#32, q⟩) ∧
        v.mode = .ended ∧ SendsBytes v.out q) ∧
    (∀ data : List Byte, data ≠ [] → (∀ b : Byte, data.count b ≤ 65535) →
      ∃ (h : Hft) (container p : List Byte),
        exec (.hfeEncode data) s = .next ((s.withHft h).send ⟨0x00000000#32, p⟩) ∧ SendsBytes container p ∧
        ∃ v q more, exec (.hfdDecode true container) s' = .next (((s'.withHft h).withHfd v).send ⟨0x00000000#32, q⟩) ∧
          v.out = data ++ more ∧ more.length ≤ 7 ∧ SendsBytes (data ++ more) q)

/-! ## Invariants (10_state.md R53) -/

/-- R53: every step of a valid instance keeps the machine's invariant. -/
def Obligations.EveryStepKeepsTheInvariant : Prop :=
  ∀ s t : State, s.cfg.Valid → s.Ok → step s = .next t → t.Ok ∧ t.cfg = s.cfg

/-- The machine right after reset meets the invariant, with any parameters, and with those of `State.reset`: `WB = 64`, and
`DICT_CAP = 0`, which is the model's choice (log entry 1). -/
def Obligations.ResetMeetsTheInvariant : Prop :=
  (∀ cfg : Config, cfg.Valid → (State.powerOn cfg).Ok) ∧
    State.reset = State.powerOn ⟨64, 0⟩ ∧ State.reset.Ok ∧ State.reset.cfg.Valid

/-! ## The bytes of the port (20_memory.md R75) -/

/-- R75: the header of a message and of a response goes most significant byte first, and so does every field of more than one
byte: U64, each Word of a WORDS field, both parts of a BB field, the length of a BYTES field and each count of a FREQ field.
A message and a response are read back from their bytes. -/
def Obligations.PortIsBigEndian : Prop :=
  let bigEndian := fun (n v : Nat) => (List.range n).map fun k => BitVec.ofNat 8 (v / 256 ^ (n - 1 - k))
  let headerBytes := fun h : BitVec 32 =>
    [h.extractLsb' 24 8, h.extractLsb' 16 8, h.extractLsb' 8 8, h.extractLsb' 0 8]
  (∀ (h : BitVec 32) (p : List Byte),
    messageBytes ⟨h, p⟩ = headerBytes h ++ p ∧ messageOfBytes (headerBytes h ++ p) = some ⟨h, p⟩ ∧
    responseBytes ⟨h, p⟩ = headerBytes h ++ p ∧ responseOfBytes (headerBytes h ++ p) = some ⟨h, p⟩) ∧
  (∀ n : Nat, encodeU64 n = bigEndian 8 n) ∧
  (∀ (wb : Nat) (ws : List Nat), encodeWords wb ws = bigEndian 8 ws.length ++ ws.flatMap (bigEndian (wb / 8))) ∧
  (∀ (wb : Nat) (b : BitBuffer), encodeBB wb b
    = bigEndian 8 b.bitCount ++ (bigEndian 8 b.words.length ++ b.words.flatMap (bigEndian (wb / 8)))) ∧
  (∀ bs : List Byte, encodeBytes bs = bigEndian 8 bs.length ++ bs) ∧
  (∀ f : List Nat, encodeFreq f = f.flatMap (bigEndian 2))
end

