-- ==== Sys2Proof/Laws/Bits.lean ====
section
/-! SUPPORT. Bit strings, numbers, Words and bytes: how the views of 20_memory.md R70 to R78 relate. -/

namespace Sys2Proof.Machine

/-! ## natOf and bitsOf (00_scope.md R14) -/

@[simp] theorem bitsOf_zero (v : Nat) : bitsOf v 0 = [] := rfl

@[simp] theorem bitsOf_length (v n : Nat) : (bitsOf v n).length = n := by
  induction n with
  | zero => rfl
  | succ n ih => simp [bitsOf, ih]

@[simp] theorem natOf_nil : natOf [] = 0 := rfl

theorem natOf_foldl (bs : Bits) (a : Nat) :
    bs.foldl (fun a b => 2 * a + b.toNat) a = a * 2 ^ bs.length + natOf bs := by
  induction bs generalizing a with
  | nil => simp
  | cons b bs ih =>
    have e : natOf (b :: bs) = bs.foldl (fun a b => 2 * a + b.toNat) b.toNat := by simp [natOf]
    rw [e, List.foldl_cons, ih, ih b.toNat]
    simp only [List.length_cons, pow_succ]
    ring

theorem natOf_cons (b : Bool) (bs : Bits) : natOf (b :: bs) = b.toNat * 2 ^ bs.length + natOf bs := by
  have := natOf_foldl bs b.toNat
  simpa [natOf] using this

theorem natOf_append (as bs : Bits) : natOf (as ++ bs) = natOf as * 2 ^ bs.length + natOf bs := by
  have : natOf (as ++ bs) = bs.foldl (fun a b => 2 * a + b.toNat) (natOf as) := by simp [natOf]
  rw [this, natOf_foldl]

theorem natOf_lt (bs : Bits) : natOf bs < 2 ^ bs.length := by
  induction bs with
  | nil => simp
  | cons b bs ih =>
    rw [natOf_cons, List.length_cons, pow_succ]
    have : b.toNat ≤ 1 := by cases b <;> decide
    nlinarith [Nat.mul_le_mul_right (2 ^ bs.length) this]

theorem natOf_bitsOf (v n : Nat) : natOf (bitsOf v n) = v % 2 ^ n := by
  induction n with
  | zero => simp [Nat.mod_one]
  | succ n ih =>
    have hb : (v.testBit n).toNat = v / 2 ^ n % 2 := by rw [Nat.toNat_testBit]
    rw [bitsOf, natOf_cons, bitsOf_length, ih, Nat.mod_pow_succ, hb]
    ring

theorem bitsOf_congr {v w n : Nat} (h : v % 2 ^ n = w % 2 ^ n) : bitsOf v n = bitsOf w n := by
  induction n with
  | zero => rfl
  | succ n ih =>
    have hb : v.testBit n = w.testBit n := by
      have := congrArg (fun x => x.testBit n) h
      simpa [Nat.testBit_mod_two_pow] using this
    have hm : v % 2 ^ n = w % 2 ^ n := by
      have := congrArg (· % 2 ^ n) h
      simpa [Nat.mod_mod_of_dvd, pow_dvd_pow 2 (Nat.le_succ n)] using this
    rw [bitsOf, bitsOf, hb, ih hm]

theorem bitsOf_natOf (bs : Bits) : bitsOf (natOf bs) bs.length = bs := by
  induction bs with
  | nil => rfl
  | cons b bs ih =>
    rw [List.length_cons, bitsOf]
    have hlt := natOf_lt bs
    have e : natOf (b :: bs) = 2 ^ bs.length * b.toNat + natOf bs := by rw [natOf_cons]; ring
    have h1 : (natOf (b :: bs)).testBit bs.length = b := by
      rw [e, Nat.testBit_two_pow_mul_add _ hlt]
      cases b <;> simp
    have h2 : bitsOf (natOf (b :: bs)) bs.length = bs := by
      rw [bitsOf_congr (w := natOf bs), ih]
      rw [e, Nat.mul_add_mod]
    rw [h1, h2]

/-- Bit strings of one length are equal when their numbers are. -/
theorem natOf_inj {as bs : Bits} (hl : as.length = bs.length) (h : natOf as = natOf bs) : as = bs := by
  rw [← bitsOf_natOf as, ← bitsOf_natOf bs, hl, h]

theorem bitsOf_append (v m n : Nat) : bitsOf v (m + n) = bitsOf (v / 2 ^ n) m ++ bitsOf v n := by
  induction m with
  | zero => simp
  | succ m ih =>
    rw [Nat.succ_add, bitsOf, ih, bitsOf, List.cons_append, Nat.testBit_div_two_pow]

theorem bitsOf_drop (v m n : Nat) : (bitsOf v (m + n)).drop m = bitsOf v n := by
  rw [bitsOf_append, List.drop_left' (bitsOf_length _ _)]

theorem bitsOf_take (v m n : Nat) : (bitsOf v (m + n)).take m = bitsOf (v / 2 ^ n) m := by
  rw [bitsOf_append, List.take_left' (bitsOf_length _ _)]

theorem bitsOf_zero_value (n : Nat) : bitsOf 0 n = List.replicate n false := by
  induction n with
  | zero => rfl
  | succ n ih => simp [bitsOf, ih, List.replicate_succ]

theorem natOf_replicate_false (n : Nat) : natOf (List.replicate n false) = 0 := by
  rw [← bitsOf_zero_value, natOf_bitsOf, Nat.zero_mod]

/-- A bit string of zeros is what the number 0 is written as. -/
theorem natOf_eq_zero {bs : Bits} (h : natOf bs = 0) : bs = List.replicate bs.length false := by
  refine natOf_inj (by simp) ?_
  rw [h, natOf_replicate_false]

/-! ## Word sequences -/

@[simp] theorem cat_nil (wb : Nat) : cat wb [] = [] := rfl

theorem cat_cons (wb : Nat) (w : Nat) (ws : List Nat) : cat wb (w :: ws) = bitsOf w wb ++ cat wb ws := by simp [cat]

theorem cat_append (wb : Nat) (as bs : List Nat) : cat wb (as ++ bs) = cat wb as ++ cat wb bs := by simp [cat]

@[simp] theorem cat_length (wb : Nat) (ws : List Nat) : (cat wb ws).length = ws.length * wb := by
  induction ws with
  | nil => simp
  | cons w ws ih => simp [cat_cons, ih, Nat.succ_mul, Nat.add_comm]

theorem cat_replicate_zero (wb k : Nat) : cat wb (List.replicate k 0) = List.replicate (k * wb) false := by
  induction k with
  | zero => simp
  | succ k ih => rw [List.replicate_succ, cat_cons, ih, bitsOf_zero_value, ← List.replicate_add, Nat.succ_mul, Nat.add_comm]

@[simp] theorem wordsOf_length (wb k v : Nat) : (wordsOf wb k v).length = k := by
  induction k with
  | zero => rfl
  | succ k ih => simp [wordsOf, ih]

theorem wordsOf_lt {wb k v : Nat} : ∀ w ∈ wordsOf wb k v, w < 2 ^ wb := by
  induction k with
  | zero => simp [wordsOf]
  | succ k ih =>
    intro w hw
    rw [wordsOf, List.mem_cons] at hw
    rcases hw with rfl | hw
    · exact Nat.mod_lt _ (by positivity)
    · exact ih w hw

/-- Cutting a value into words keeps its bits. -/
theorem cat_wordsOf (wb k v : Nat) : cat wb (wordsOf wb k v) = bitsOf v (k * wb) := by
  induction k with
  | zero => simp [wordsOf]
  | succ k ih =>
    rw [wordsOf, cat_cons, ih, Nat.succ_mul, Nat.add_comm (k * wb) wb, bitsOf_append]
    congr 1
    rw [bitsOf_congr (Nat.mod_mod _ _), Nat.mul_comm]

theorem cat_inj {wb : Nat} {as bs : List Nat} (ha : ∀ w ∈ as, w < 2 ^ wb) (hb : ∀ w ∈ bs, w < 2 ^ wb)
    (hl : as.length = bs.length) (h : cat wb as = cat wb bs) : as = bs := by
  induction as generalizing bs with
  | nil => cases bs <;> simp_all
  | cons a as ih =>
    cases bs with
    | nil => simp at hl
    | cons b bs =>
      rw [cat_cons, cat_cons] at h
      have h1 := List.append_inj h (by simp)
      have hab : a = b := by
        have := congrArg natOf h1.1
        rwa [natOf_bitsOf, natOf_bitsOf, Nat.mod_eq_of_lt (ha a (by simp)), Nat.mod_eq_of_lt (hb b (by simp))] at this
      rw [hab, ih (fun w hw => ha w (by simp [hw])) (fun w hw => hb w (by simp [hw])) (by simpa using hl) h1.2]

/-! ## Groups -/

@[simp] theorem chunks_length {α : Type} (n k : Nat) (xs : List α) : (chunks n k xs).length = k := by
  induction k generalizing xs with
  | zero => rfl
  | succ k ih => simp [chunks, ih]

theorem chunks_mem_length {α : Type} {n k : Nat} {xs : List α} (h : xs.length = k * n) :
    ∀ c ∈ chunks n k xs, c.length = n := by
  induction k generalizing xs with
  | zero => simp [chunks]
  | succ k ih =>
    intro c hc
    rw [chunks, List.mem_cons] at hc
    rw [Nat.succ_mul] at h
    rcases hc with rfl | hc
    · simp; omega
    · exact ih (xs := xs.drop n) (by simp; omega) c hc

/-- Groups of equal size, joined, are the sequence they were cut from. -/
theorem chunks_flatten {α : Type} {n k : Nat} {xs : List α} (h : xs.length = k * n) : (chunks n k xs).flatten = xs := by
  induction k generalizing xs with
  | zero => simp [chunks]; simpa using h
  | succ k ih =>
    rw [Nat.succ_mul] at h
    rw [chunks, List.flatten_cons, ih (xs := xs.drop n) (by simp; omega), List.take_append_drop]

theorem chunks_flatMap {α β : Type} (g : β → List α) {n : Nat} (hg : ∀ b, (g b).length = n) (bs : List β) :
    chunks n bs.length (bs.flatMap g) = bs.map g := by
  induction bs with
  | nil => rfl
  | cons b bs ih =>
    rw [List.flatMap_cons, List.length_cons, chunks, List.take_left' (hg b), List.drop_left' (hg b), ih, List.map_cons]

theorem cat_map_natOf {wb : Nat} {cs : List Bits} (h : ∀ c ∈ cs, c.length = wb) : cat wb (cs.map natOf) = cs.flatten := by
  induction cs with
  | nil => rfl
  | cons c cs ih =>
    rw [List.map_cons, cat_cons, ih (fun x hx => h x (by simp [hx])), List.flatten_cons]
    congr 1
    have := bitsOf_natOf c
    rwa [h c (by simp)] at this

/-! ## ceilDiv -/

theorem ceilDiv_mul_ge {a b : Nat} (hb : 0 < b) : a ≤ ceilDiv a b * b := by
  unfold ceilDiv
  have h1 := Nat.div_add_mod (a + b - 1) b
  have h2 := Nat.mod_lt (a + b - 1) hb
  rw [Nat.mul_comm] at h1
  omega

theorem ceilDiv_mul_lt {a b : Nat} (hb : 0 < b) : ceilDiv a b * b < a + b := by
  unfold ceilDiv
  have h1 := Nat.div_mul_le_self (a + b - 1) b
  omega

theorem ceilDiv_le_of_le_mul {a b k : Nat} (hb : 0 < b) (h : a ≤ k * b) : ceilDiv a b ≤ k := by
  have := ceilDiv_mul_lt (a := a) hb
  by_contra hk
  have : (k + 1) * b ≤ ceilDiv a b * b := Nat.mul_le_mul_right b (by omega)
  rw [Nat.add_mul] at this
  omega

theorem ceilDiv_mul_self {k b : Nat} (hb : 0 < b) : ceilDiv (k * b) b = k := by
  refine Nat.le_antisymm (ceilDiv_le_of_le_mul hb le_rfl) ?_
  exact Nat.le_of_mul_le_mul_right (ceilDiv_mul_ge hb) hb

theorem ceilDiv_unique {a b k : Nat} (hb : 0 < b) (h1 : a ≤ k * b) (h2 : k * b < a + b) : ceilDiv a b = k := by
  refine Nat.le_antisymm (ceilDiv_le_of_le_mul hb h1) ?_
  have := ceilDiv_mul_ge (a := a) hb
  by_contra hk
  have : (ceilDiv a b + 1) * b ≤ k * b := Nat.mul_le_mul_right b (by omega)
  rw [Nat.add_mul] at this
  omega

@[simp] theorem ceilDiv_zero {b : Nat} (hb : 0 < b) : ceilDiv 0 b = 0 := ceilDiv_unique hb (by simp) (by simpa using hb)

/-- The zero padding of a length to a multiple of `b` (20_memory.md R79). -/
theorem length_add_pad {a b : Nat} (hb : 0 < b) : a + (b - a % b) % b = ceilDiv a b * b := by
  have hlt := Nat.mod_lt a hb
  have hdm := Nat.div_add_mod a b
  by_cases h0 : a % b = 0
  · rw [h0, Nat.sub_zero, Nat.mod_self, Nat.add_zero]
    have : ceilDiv a b = a / b := ceilDiv_unique hb (by rw [Nat.mul_comm]; omega) (by rw [Nat.mul_comm]; omega)
    rw [this, Nat.mul_comm]; omega
  · rw [Nat.mod_eq_of_lt (by omega)]
    have : ceilDiv a b = a / b + 1 :=
      ceilDiv_unique hb (by rw [Nat.add_mul, Nat.mul_comm]; omega) (by rw [Nat.add_mul, Nat.mul_comm]; omega)
    rw [this, Nat.add_mul, Nat.mul_comm]; omega

/-! ## bitlen (00_scope.md R15) -/

@[simp] theorem bitlen_zero : bitlen 0 = 0 := rfl

theorem bitlen_le_iff {x n : Nat} : bitlen x ≤ n ↔ x < 2 ^ n := by
  unfold bitlen
  split
  · subst x; simp
  · rename_i h
    rw [Nat.succ_le_iff, Nat.log2_lt h]

theorem lt_two_pow_bitlen (x : Nat) : x < 2 ^ bitlen x := bitlen_le_iff.1 le_rfl

theorem bitlen_mono {x y : Nat} (h : x ≤ y) : bitlen x ≤ bitlen y := bitlen_le_iff.2 (h.trans_lt (lt_two_pow_bitlen y))

theorem bitlen_pos {x : Nat} (h : 0 < x) : 0 < bitlen x := by
  unfold bitlen; rw [if_neg (by omega)]; omega

/-! ## canon (41_bitbuffer.md R143) -/

theorem canon_length (wb v : Nat) : (canon wb v).length = max 1 (ceilDiv (bitlen v) wb) := by simp [canon]

theorem canon_lt {wb v : Nat} : ∀ w ∈ canon wb v, w < 2 ^ wb := wordsOf_lt

theorem lt_canon_capacity {wb : Nat} (hw : 0 < wb) (v : Nat) : v < 2 ^ ((canon wb v).length * wb) := by
  refine bitlen_le_iff.1 ((ceilDiv_mul_ge hw).trans (Nat.mul_le_mul_right wb ?_))
  rw [canon_length]
  exact le_max_right _ _

theorem cat_canon (wb v : Nat) : cat wb (canon wb v) = bitsOf v ((canon wb v).length * wb) := by
  rw [canon, cat_wordsOf, wordsOf_length]

theorem natOf_cat_canon {wb : Nat} (hw : 0 < wb) (v : Nat) : natOf (cat wb (canon wb v)) = v := by
  rw [cat_canon, natOf_bitsOf, Nat.mod_eq_of_lt (lt_canon_capacity hw v)]

/-! ## Bytes -/

@[simp] theorem bytesBE_length (n v : Nat) : (bytesBE n v).length = n := by
  induction n with
  | zero => rfl
  | succ n ih => simp [bytesBE, ih]

theorem bitsOfBytes_cons (b : Byte) (bs : List Byte) : bitsOfBytes (b :: bs) = bitsOf b.toNat 8 ++ bitsOfBytes bs := by
  simp [bitsOfBytes]

theorem bitsOfBytes_append (as bs : List Byte) : bitsOfBytes (as ++ bs) = bitsOfBytes as ++ bitsOfBytes bs := by
  simp [bitsOfBytes]

@[simp] theorem bitsOfBytes_nil : bitsOfBytes [] = [] := rfl

@[simp] theorem bitsOfBytes_length (bs : List Byte) : (bitsOfBytes bs).length = 8 * bs.length := by
  induction bs with
  | nil => rfl
  | cons b bs ih => simp [bitsOfBytes_cons, ih]; ring

/-- Byte `k` of a big-endian field, counted from the front (20_memory.md R72, R75). -/
theorem bytesBE_eq_map (n v : Nat) :
    bytesBE n v = (List.range n).map fun k => BitVec.ofNat 8 (v / 256 ^ (n - 1 - k)) := by
  induction n with
  | zero => rfl
  | succ n ih =>
    rw [bytesBE, ih, List.range_succ_eq_map, List.map_cons, List.map_map]
    refine congrArg₂ _ (by simp) (List.map_congr_left fun k hk => ?_)
    have := List.mem_range.1 hk
    simp only [Function.comp_apply]
    rw [show n + 1 - 1 - k.succ = n - 1 - k by omega]

theorem bitsOfBytes_bytesBE (n v : Nat) : bitsOfBytes (bytesBE n v) = bitsOf v (8 * n) := by
  induction n with
  | zero => rfl
  | succ n ih =>
    rw [bytesBE, bitsOfBytes_cons, ih, Nat.mul_succ, Nat.add_comm (8 * n) 8, bitsOf_append]
    congr 1
    refine bitsOf_congr ?_
    rw [BitVec.toNat_ofNat, Nat.mod_mod, pow_mul]
    norm_num

theorem natOfBytes_foldl (bs : List Byte) (a : Nat) :
    bs.foldl (fun a b => a * 256 + b.toNat) a = a * 256 ^ bs.length + natOfBytes bs := by
  induction bs generalizing a with
  | nil => simp [natOfBytes]
  | cons b bs ih =>
    have e : natOfBytes (b :: bs) = bs.foldl (fun a b => a * 256 + b.toNat) b.toNat := by simp [natOfBytes]
    rw [e, List.foldl_cons, ih, ih b.toNat]
    simp only [List.length_cons, pow_succ]
    ring

theorem natOfBytes_cons (b : Byte) (bs : List Byte) :
    natOfBytes (b :: bs) = b.toNat * 256 ^ bs.length + natOfBytes bs := by
  have := natOfBytes_foldl bs b.toNat
  simpa [natOfBytes] using this

/-- A byte string and its bit string stand for the same number (20_memory.md R73). -/
theorem natOf_bitsOfBytes (bs : List Byte) : natOf (bitsOfBytes bs) = natOfBytes bs := by
  induction bs with
  | nil => rfl
  | cons b bs ih =>
    rw [bitsOfBytes_cons, natOf_append, ih, natOf_bitsOf, natOfBytes_cons, bitsOfBytes_length, pow_mul,
      Nat.mod_eq_of_lt b.isLt]
    norm_num

theorem natOfBytes_lt (bs : List Byte) : natOfBytes bs < 256 ^ bs.length := by
  have := natOf_lt (bitsOfBytes bs)
  rwa [natOf_bitsOfBytes, bitsOfBytes_length, pow_mul] at this

theorem natOfBytes_bytesBE (n v : Nat) : natOfBytes (bytesBE n v) = v % 256 ^ n := by
  rw [← natOf_bitsOfBytes, bitsOfBytes_bytesBE, natOf_bitsOf, pow_mul]
  norm_num

theorem bitsOfBytes_inj {as bs : List Byte} (h : bitsOfBytes as = bitsOfBytes bs) : as = bs := by
  induction as generalizing bs with
  | nil =>
    cases bs with
    | nil => rfl
    | cons b bs => have := congrArg List.length h; simp at this
  | cons a as ih =>
    cases bs with
    | nil => have := congrArg List.length h; simp at this
    | cons b bs =>
      rw [bitsOfBytes_cons, bitsOfBytes_cons] at h
      have h1 := List.append_inj h (by simp)
      have hab : a = b := by
        have := congrArg natOf h1.1
        rw [natOf_bitsOf, natOf_bitsOf, Nat.mod_eq_of_lt a.isLt, Nat.mod_eq_of_lt b.isLt] at this
        exact BitVec.eq_of_toNat_eq this
      rw [hab, ih h1.2]

theorem bytesBE_natOfBytes (bs : List Byte) : bytesBE bs.length (natOfBytes bs) = bs := by
  refine bitsOfBytes_inj ?_
  rw [bitsOfBytes_bytesBE, ← natOf_bitsOfBytes, ← bitsOfBytes_length, bitsOf_natOf]

theorem bitsOfBytes_replicate_zero (n : Nat) : bitsOfBytes (List.replicate n 0#8) = List.replicate (8 * n) false := by
  induction n with
  | zero => rfl
  | succ n ih =>
    rw [List.replicate_succ, bitsOfBytes_cons, ih, Nat.mul_succ, Nat.add_comm (8 * n) 8, List.replicate_add]
    rfl

end Sys2Proof.Machine
end

