-- ==== Sys2Proof/Laws/Decode.lean ====
section
/-! SUPPORT. Decoding and encoding (30_encoding.md): the header's fields, each operand type's two directions, and what a
successful parse says. -/

namespace Sys2Proof

open Sys2Proof.Machine

/-! ## The header -/

theorem headerWord_toNat (op : BitVec 8) (f : Bool) (imm : BitVec 16) :
    (headerWord op f imm).toNat = op.toNat * 2 ^ 24 + f.toNat * 2 ^ 16 + imm.toNat := by
  have := op.isLt
  have := imm.isLt
  have : f.toNat ≤ 1 := by cases f <;> decide
  rw [headerWord, BitVec.toNat_ofNat, Nat.mod_eq_of_lt]
  omega

theorem field_toNat (h : BitVec 32) (s n : Nat) : (h.extractLsb' s n).toNat = h.toNat / 2 ^ s % 2 ^ n := by
  simp [Nat.shiftRight_eq_div_pow]

theorem bit_toNat {n : Nat} (h : BitVec n) (i : Nat) : (h.getLsbD i).toNat = h.toNat / 2 ^ i % 2 := by
  rw [BitVec.getLsbD, Nat.toNat_testBit]

theorem bool_toNat_inj {a b : Bool} (h : a.toNat = b.toNat) : a = b := by cases a <;> cases b <;> simp_all

theorem headerWord_opcode (op : BitVec 8) (f : Bool) (imm : BitVec 16) :
    (headerWord op f imm).extractLsb' 24 8 = op := by
  have := op.isLt
  have := imm.isLt
  have : f.toNat ≤ 1 := by cases f <;> decide
  apply BitVec.eq_of_toNat_eq
  rw [field_toNat, headerWord_toNat]
  omega

theorem headerWord_zeros (op : BitVec 8) (f : Bool) (imm : BitVec 16) :
    (headerWord op f imm).extractLsb' 17 7 = 0#7 := by
  have := op.isLt
  have := imm.isLt
  have : f.toNat ≤ 1 := by cases f <;> decide
  apply BitVec.eq_of_toNat_eq
  rw [field_toNat, headerWord_toNat, BitVec.toNat_ofNat]
  omega

theorem headerWord_flag (op : BitVec 8) (f : Bool) (imm : BitVec 16) : (headerWord op f imm).getLsbD 16 = f := by
  have := op.isLt
  have := imm.isLt
  have : f.toNat ≤ 1 := by cases f <;> decide
  apply bool_toNat_inj
  rw [bit_toNat, headerWord_toNat]
  omega

theorem headerWord_imm (op : BitVec 8) (f : Bool) (imm : BitVec 16) :
    (headerWord op f imm).extractLsb' 0 16 = imm := by
  have := op.isLt
  have := imm.isLt
  have : f.toNat ≤ 1 := by cases f <;> decide
  apply BitVec.eq_of_toNat_eq
  rw [field_toNat, headerWord_toNat]
  omega

/-- A header is its fields (R101). -/
theorem headerWord_fields {h : BitVec 32} (h0 : h.extractLsb' 17 7 = 0#7) :
    headerWord (h.extractLsb' 24 8) (h.getLsbD 16) (h.extractLsb' 0 16) = h := by
  have h1 := congrArg BitVec.toNat h0
  rw [field_toNat, BitVec.toNat_ofNat] at h1
  have := h.isLt
  apply BitVec.eq_of_toNat_eq
  rw [headerWord_toNat, field_toNat, field_toNat, bit_toNat]
  omega

theorem regOfNumber_number {n : Byte} {r : Reg} (h : regOfNumber n = some r) : r.number = n := by
  have := List.find?_some h
  simpa using this

theorem regOfNumber_of_number (r : Reg) : regOfNumber r.number = some r := by cases r <;> decide

/-- Every row's header decodes to the row (R105, R107). -/
theorem decodeHeader_word (hd : Head) : decodeHeader hd.word = some hd := by
  unfold decodeHeader
  rw [Head.word, headerWord_zeros, headerWord_opcode, headerWord_flag, headerWord_imm]
  cases hd with
  | ctlRead r => cases r <;> decide
  | lzeSymbol b => revert b; decide
  | bbPushLeadingBit b => cases b <;> rfl
  | _ => simp [Head.opcode, Head.flag, Head.imm, decodeFields, plainRow, modeRow]

/-! The header words (R105). -/

theorem word_ctlNop : Head.word .ctlNop = 0x00000000#32 := by decide
theorem word_ctlReset : Head.word .ctlReset = 0x01000000#32 := by decide
theorem word_ctlRead (r : Reg) : Head.word (.ctlRead r) = 0x02000000#32 + r.number.setWidth 32 := by cases r <;> decide
theorem word_bbNew : Head.word .bbNew = 0x10000000#32 := by decide
theorem word_bbUnused : Head.word .bbUnused = 0x11000000#32 := by decide
theorem word_bbAppend : Head.word .bbAppend = 0x12000000#32 := by decide
theorem word_bbShiftLeft : Head.word .bbShiftLeft = 0x13000000#32 := by decide
theorem word_bbPushLeadingBit (b : Bool) :
    Head.word (.bbPushLeadingBit b) = if b then 0x14000001#32 else 0x14000000#32 := by cases b <;> decide
theorem word_bbToBytes : Head.word .bbToBytes = 0x15000000#32 := by decide
theorem word_bbFromBytes : Head.word .bbFromBytes = 0x16000000#32 := by decide
theorem word_lzeInit : Head.word .lzeInit = 0x20000000#32 := by decide
theorem word_lzeSymbol (ss : Byte) : Head.word (.lzeSymbol ss) = 0x21000000#32 + ss.setWidth 32 := by
  revert ss; decide
theorem word_lzeFlush : Head.word .lzeFlush = 0x22000000#32 := by decide
theorem word_lzeEncode : Head.word .lzeEncode = 0x23000000#32 := by decide
theorem word_lzdInit (f : Bool) : Head.word (.lzdInit f) = if f then 0x30010000#32 else 0x30000000#32 := by
  cases f <;> decide
theorem word_lzdStep : Head.word .lzdStep = 0x31000000#32 := by decide
theorem word_lzdDecode (f : Bool) : Head.word (.lzdDecode f) = if f then 0x32010000#32 else 0x32000000#32 := by
  cases f <;> decide
theorem word_hftLoad : Head.word .hftLoad = 0x40000000#32 := by decide
theorem word_hftStep : Head.word .hftStep = 0x41000000#32 := by decide
theorem word_hftTable : Head.word .hftTable = 0x42000000#32 := by decide
theorem word_hfeEncode : Head.word .hfeEncode = 0x50000000#32 := by decide
theorem word_hfeHist : Head.word .hfeHist = 0x51000000#32 := by decide
theorem word_hfdInit (f : Bool) : Head.word (.hfdInit f) = if f then 0x60010000#32 else 0x60000000#32 := by
  cases f <;> decide
theorem word_hfdStep : Head.word .hfdStep = 0x61000000#32 := by decide
theorem word_hfdDecode (f : Bool) : Head.word (.hfdDecode f) = if f then 0x62010000#32 else 0x62000000#32 := by
  cases f <;> decide

theorem plainRow_eq {f : Bool} {imm : BitVec 16} {a hd : Head} (h : plainRow f imm a = some hd) :
    f = false ∧ imm = 0#16 ∧ hd = a := by
  unfold plainRow at h
  split at h
  · rename_i hc
    exact ⟨hc.1, hc.2, by simpa using h.symm⟩
  · simp at h

theorem modeRow_eq {f : Bool} {imm : BitVec 16} {mk : Bool → Head} {hd : Head} (h : modeRow f imm mk = some hd) :
    imm = 0#16 ∧ hd = mk f := by
  unfold modeRow at h
  split at h
  · rename_i hc
    exact ⟨hc, by simpa using h.symm⟩
  · simp at h

theorem byteRow_eq {f : Bool} {imm : BitVec 16} {mk : Byte → Option Head} {hd : Head}
    (h : byteRow f imm mk = some hd) : f = false ∧ ∃ n : Byte, imm = n.setWidth 16 ∧ mk n = some hd := by
  unfold byteRow at h
  split at h
  · rename_i hc
    refine ⟨hc.1, _, ?_, h⟩
    have h1 := congrArg BitVec.toNat hc.2
    have := imm.isLt
    apply BitVec.eq_of_toNat_eq
    simp [Nat.shiftRight_eq_div_pow] at *
    omega
  · simp at h

theorem bitRow_eq {f : Bool} {imm : BitVec 16} {mk : Bool → Head} {hd : Head} (h : bitRow f imm mk = some hd) :
    f = false ∧ ∃ b : Bool, imm = (BitVec.ofBool b).setWidth 16 ∧ hd = mk b := by
  unfold bitRow at h
  split at h
  · rename_i hc
    refine ⟨hc.1, imm.getLsbD 0, ?_, (Option.some.inj h).symm⟩
    have h1 := congrArg BitVec.toNat hc.2
    have := imm.isLt
    have h2 := bit_toNat imm 0
    apply BitVec.eq_of_toNat_eq
    rw [BitVec.toNat_setWidth, BitVec.toNat_ofBool, h2]
    simp [Nat.shiftRight_eq_div_pow] at h1
    omega
  · simp at h

/-- What the fields of a legal header are (R107). -/
theorem decodeFields_eq {op : Nat} {f : Bool} {imm : BitVec 16} {hd : Head} (h : decodeFields op f imm = some hd) :
    hd.opcode.toNat = op ∧ hd.flag = f ∧ hd.imm = imm := by
  unfold decodeFields at h
  split at h
  case h_3 =>
    obtain ⟨rfl, n, rfl, hn⟩ := byteRow_eq h
    obtain ⟨r, hr, rfl⟩ := Option.map_eq_some_iff.1 hn
    simp [Head.opcode, Head.flag, Head.imm, regOfNumber_number hr]
  case h_8 =>
    obtain ⟨rfl, b, rfl, rfl⟩ := bitRow_eq h
    exact ⟨rfl, rfl, rfl⟩
  case h_12 =>
    obtain ⟨rfl, n, rfl, hn⟩ := byteRow_eq h
    obtain rfl := Option.some.inj hn
    exact ⟨rfl, rfl, rfl⟩
  all_goals first
    | (obtain ⟨rfl, rfl, rfl⟩ := plainRow_eq h; exact ⟨rfl, rfl, rfl⟩)
    | (obtain ⟨rfl, rfl⟩ := modeRow_eq h; exact ⟨rfl, rfl, rfl⟩)
    | simp at h

/-- A legal header is its row's header: no bit is dropped (R102, R107). -/
theorem decodeHeader_eq {h : BitVec 32} {hd : Head} (hh : decodeHeader h = some hd) : hd.word = h := by
  unfold decodeHeader at hh
  split at hh
  · simp at hh
  · rename_i h0
    obtain ⟨h1, h2, h3⟩ := decodeFields_eq hh
    rw [Head.word, h2, h3, BitVec.eq_of_toNat_eq h1]
    exact headerWord_fields (by simpa using h0)

/-! ## Operands: decoding what was encoded -/

theorem takeBytes_append {n : Nat} {as : List Byte} (h : as.length = n) (r : List Byte) :
    takeBytes n (as ++ r) = some (as, r) := by
  rw [takeBytes, if_pos (by simp [h]), List.take_left' h, List.drop_left' h]

theorem parseU64_encode {n : Nat} (h : fitsU64 n = true) (r : List Byte) :
    parseU64 (encodeU64 n ++ r) = some (n, r) := by
  rw [parseU64, encodeU64, takeBytes_append (bytesBE_length 8 n), Option.map_some, natOfBytes_bytesBE,
    Nat.mod_eq_of_lt]
  simpa [fitsU64] using h

theorem parseBytes_encode {bs : List Byte} (h : bytesWf bs = true) (r : List Byte) :
    parseBytes (encodeBytes bs ++ r) = some (bs, r) := by
  rw [parseBytes, encodeBytes, List.append_assoc, parseU64_encode h, Option.bind_some, takeBytes_append rfl]

theorem flatMap_bytesBE_length (n : Nat) (ws : List Nat) : (ws.flatMap (bytesBE n)).length = ws.length * n := by
  induction ws with
  | nil => simp
  | cons w ws ih => simp [ih, Nat.succ_mul, Nat.add_comm]

theorem map_natOfBytes_chunks {n : Nat} {ws : List Nat} (h : ∀ w ∈ ws, w < 256 ^ n) :
    (chunks n ws.length (ws.flatMap (bytesBE n))).map natOfBytes = ws := by
  rw [chunks_flatMap _ (bytesBE_length n), List.map_map]
  conv_rhs => rw [← List.map_id ws]
  refine List.map_congr_left fun w hw => ?_
  rw [Function.comp_apply, natOfBytes_bytesBE, Nat.mod_eq_of_lt (h w hw), id]

theorem two_pow_wordBits {wb : Nat} (h8 : wb % 8 = 0) : 256 ^ (wb / 8) = 2 ^ wb := by
  rw [show (256 : Nat) = 2 ^ 8 by norm_num, ← pow_mul, show 8 * (wb / 8) = wb by omega]

theorem parseWords_encode {wb : Nat} (h8 : wb % 8 = 0) {ws : List Nat} (h : wordsWf wb ws = true) (r : List Byte) :
    parseWords wb (encodeWords wb ws ++ r) = some (ws, r) := by
  rw [wordsWf, Bool.and_eq_true] at h
  rw [parseWords, encodeWords, List.append_assoc, parseU64_encode h.1, Option.bind_some,
    takeBytes_append (flatMap_bytesBE_length _ _), Option.map_some, map_natOfBytes_chunks]
  rw [two_pow_wordBits h8]
  simpa using h.2

theorem parseBB_encode {wb : Nat} (h8 : wb % 8 = 0) {b : BitBuffer} (h : b.wf wb = true) (r : List Byte) :
    parseBB wb (encodeBB wb b ++ r) = some (b, r) := by
  simp only [BitBuffer.wf, Bool.and_eq_true, decide_eq_true_eq] at h
  rw [parseBB, encodeBB, List.append_assoc, parseU64_encode h.1.1, Option.bind_some, parseWords_encode h8 h.1.2,
    Option.bind_some, if_pos h.2]

theorem parseFreq_encode {f : List Nat} (h : freqWf f = true) (r : List Byte) :
    parseFreq (encodeFreq f ++ r) = some (f, r) := by
  simp only [freqWf, Bool.and_eq_true, beq_iff_eq, List.all_eq_true, decide_eq_true_eq] at h
  have hl : (encodeFreq f).length = 512 := by rw [encodeFreq, flatMap_bytesBE_length, h.1]
  rw [parseFreq, takeBytes_append hl, Option.map_some, encodeFreq]
  have := map_natOfBytes_chunks (n := 2) (ws := f) fun w hw => by simpa using h.2 w hw
  rw [h.1] at this
  rw [this]

/-- The limit field of LZD_INIT and LZD_DECODE: nothing, or one U64 (R111). -/
def encodeLimit : Option Nat → List Byte
  | none => []
  | some n => encodeU64 n

theorem parseLimit_encode {l : Option Nat} (h : limitWf l = true) (r : List Byte) :
    parseLimit l.isSome (encodeLimit l ++ r) = some (l, r) := by
  cases l with
  | none => rfl
  | some n =>
    have e : parseLimit true (encodeU64 n ++ r) = (parseU64 (encodeU64 n ++ r)).map fun p => (some p.1, p.2) := rfl
    rw [encodeLimit, Option.isSome_some, e, parseU64_encode (by simpa [limitWf] using h), Option.map_some]

/-! ## Operands: what was decoded is an encoding -/

theorem takeBytes_eq {n : Nat} {bs a r : List Byte} (h : takeBytes n bs = some (a, r)) :
    bs = a ++ r ∧ a.length = n := by
  unfold takeBytes at h
  split at h
  · rename_i hn
    obtain ⟨rfl, rfl⟩ := Prod.mk.inj (Option.some.inj h)
    exact ⟨(List.take_append_drop _ _).symm, by simpa using hn⟩
  · simp at h

theorem parseU64_eq {bs r : List Byte} {n : Nat} (h : parseU64 bs = some (n, r)) :
    bs = encodeU64 n ++ r ∧ fitsU64 n = true := by
  obtain ⟨⟨a, r'⟩, ha, he⟩ := Option.map_eq_some_iff.1 h
  obtain ⟨rfl, rfl⟩ := Prod.mk.inj he
  obtain ⟨rfl, hl⟩ := takeBytes_eq ha
  have hb := bytesBE_natOfBytes a
  have hlt := natOfBytes_lt a
  rw [hl] at hb hlt
  exact ⟨by rw [encodeU64, hb], by simpa [fitsU64] using hlt⟩

theorem parseBytes_eq {bs r a : List Byte} (h : parseBytes bs = some (a, r)) :
    bs = encodeBytes a ++ r ∧ bytesWf a = true := by
  obtain ⟨⟨n, r'⟩, hn, ha⟩ := Option.bind_eq_some_iff.1 h
  obtain ⟨rfl, hf⟩ := parseU64_eq hn
  obtain ⟨h1, rfl⟩ := takeBytes_eq ha
  dsimp only at h1
  exact ⟨by rw [h1, encodeBytes, List.append_assoc], hf⟩

theorem flatMap_map_natOfBytes {n k : Nat} {xs : List Byte} (h : xs.length = k * n) :
    ((chunks n k xs).map natOfBytes).flatMap (bytesBE n) = xs := by
  have hm := chunks_mem_length h
  rw [List.flatMap_map]
  conv_rhs => rw [← chunks_flatten h]
  generalize chunks n k xs = cs at hm
  induction cs with
  | nil => rfl
  | cons c cs ih =>
    rw [List.flatMap_cons, ih fun x hx => hm x (by simp [hx]), List.flatten_cons]
    congr 1
    have := bytesBE_natOfBytes c
    rwa [hm c (by simp)] at this

theorem parseWords_eq {wb : Nat} (h8 : wb % 8 = 0) {bs r : List Byte} {ws : List Nat}
    (h : parseWords wb bs = some (ws, r)) : bs = encodeWords wb ws ++ r ∧ wordsWf wb ws = true := by
  obtain ⟨⟨n, r'⟩, hn, ha⟩ := Option.bind_eq_some_iff.1 h
  obtain ⟨rfl, hf⟩ := parseU64_eq hn
  obtain ⟨⟨a, r''⟩, hq, he⟩ := Option.map_eq_some_iff.1 ha
  obtain ⟨rfl, rfl⟩ := Prod.mk.inj he
  obtain ⟨h1, hl⟩ := takeBytes_eq hq
  dsimp only at h1 hl ⊢
  refine ⟨?_, ?_⟩
  · rw [h1, encodeWords, List.length_map, chunks_length, flatMap_map_natOfBytes hl, List.append_assoc]
  · rw [wordsWf, List.length_map, chunks_length, hf, Bool.true_and, List.all_eq_true]
    intro w hw
    obtain ⟨c, hc, rfl⟩ := List.mem_map.1 hw
    have := natOfBytes_lt c
    rw [chunks_mem_length hl c hc, two_pow_wordBits h8] at this
    simpa using this

theorem parseBB_eq {wb : Nat} (h8 : wb % 8 = 0) {bs r : List Byte} {b : BitBuffer}
    (h : parseBB wb bs = some (b, r)) : bs = encodeBB wb b ++ r ∧ b.wf wb = true := by
  obtain ⟨⟨n, r'⟩, hn, ha⟩ := Option.bind_eq_some_iff.1 h
  obtain ⟨rfl, hf⟩ := parseU64_eq hn
  obtain ⟨⟨ws, r''⟩, hw, ha⟩ := Option.bind_eq_some_iff.1 ha
  obtain ⟨h1, h2⟩ := parseWords_eq h8 hw
  dsimp only at h1 ha
  split at ha
  · rename_i hc
    obtain ⟨rfl, rfl⟩ := Prod.mk.inj (Option.some.inj ha)
    exact ⟨by rw [h1, encodeBB, List.append_assoc], by simp [BitBuffer.wf, hf, h2, hc]⟩
  · simp at ha

theorem parseFreq_eq {bs r : List Byte} {f : List Nat} (h : parseFreq bs = some (f, r)) :
    bs = encodeFreq f ++ r ∧ freqWf f = true := by
  obtain ⟨⟨a, r'⟩, ha, he⟩ := Option.map_eq_some_iff.1 h
  obtain ⟨rfl, rfl⟩ := Prod.mk.inj he
  obtain ⟨rfl, hl⟩ := takeBytes_eq ha
  have hl' : a.length = 256 * 2 := hl
  refine ⟨by rw [encodeFreq, flatMap_map_natOfBytes hl'], ?_⟩
  simp only [freqWf, List.length_map, chunks_length, beq_self_eq_true, Bool.true_and, List.all_eq_true]
  intro w hw
  obtain ⟨c, hc, rfl⟩ := List.mem_map.1 hw
  have := natOfBytes_lt c
  rw [chunks_mem_length hl' c hc] at this
  simpa using this

theorem parseLimit_eq {lim : Bool} {bs r : List Byte} {l : Option Nat} (h : parseLimit lim bs = some (l, r)) :
    bs = encodeLimit l ++ r ∧ limitWf l = true ∧ l.isSome = lim := by
  cases lim with
  | false =>
    obtain ⟨rfl, rfl⟩ := Prod.mk.inj (Option.some.inj h)
    exact ⟨rfl, rfl, rfl⟩
  | true =>
    obtain ⟨⟨n, r'⟩, hn, he⟩ := Option.map_eq_some_iff.1 h
    obtain ⟨rfl, rfl⟩ := Prod.mk.inj he
    obtain ⟨rfl, hf⟩ := parseU64_eq hn
    exact ⟨rfl, by simpa [limitWf] using hf, rfl⟩

theorem operand_ok {α β : Type} {i : Nat} {p : Parser α} {bs : List Byte} {k : α → List Byte → Except Nat β} {b : β}
    (h : operand i p bs k = .ok b) : ∃ a r, p bs = some (a, r) ∧ k a r = .ok b := by
  unfold operand at h
  split at h
  · simp at h
  · exact ⟨_, _, ‹_›, h⟩

theorem operand_some {α β : Type} {i : Nat} {p : Parser α} {bs : List Byte} {k : α → List Byte → Except Nat β} {a : α}
    {r : List Byte} (h : p bs = some (a, r)) : operand i p bs k = k a r := by rw [operand, h]

theorem endOfPayload_ok {n : Nat} {i j : Instr} {r : List Byte} (h : endOfPayload n i r = .ok j) : r = [] ∧ j = i := by
  unfold endOfPayload at h
  split at h
  · rename_i hr
    exact ⟨by simpa using hr, (Except.ok.inj h).symm⟩
  · simp at h

/-! ## Whole messages -/

theorem header_bytes (h : BitVec 32) : BitVec.ofNat 32 (natOfBytes (bytesBE 4 h.toNat)) = h := by
  apply BitVec.eq_of_toNat_eq
  rw [natOfBytes_bytesBE, BitVec.toNat_ofNat, show (256 : Nat) ^ 4 = 2 ^ 32 from rfl, Nat.mod_mod,
    Nat.mod_eq_of_lt h.isLt]

/-- The bytes of a header are its four fields of 8 bits, the most significant first (20_memory.md R75). -/
theorem bytesBE_header (h : BitVec 32) :
    bytesBE 4 h.toNat = [h.extractLsb' 24 8, h.extractLsb' 16 8, h.extractLsb' 8 8, h.extractLsb' 0 8] := by
  have byte : ∀ k, BitVec.ofNat 8 (h.toNat / 256 ^ k) = h.extractLsb' (8 * k) 8 := fun k => by
    apply BitVec.eq_of_toNat_eq
    rw [BitVec.extractLsb'_toNat, BitVec.toNat_ofNat, Nat.shiftRight_eq_div_pow, pow_mul,
      show (2 : Nat) ^ 8 = 256 from rfl]
  simp only [bytesBE, byte]

/-- A message read back from its bytes (R100). -/
theorem messageOfBytes_messageBytes (m : Message) : messageOfBytes (messageBytes m) = some m := by
  rw [messageOfBytes, messageBytes, takeBytes_append (bytesBE_length 4 m.header.toNat), Option.map_some]
  exact congrArg some (congrArg (fun x => Message.mk x m.payload) (header_bytes m.header))

/-- What decoding answers for a legal header (R107, R112). Cite this rather than unfold `decode` over a header word, which
the kernel would evaluate. -/
theorem decode_of_header {wb : Nat} {m : Message} {hd : Head} (h : decodeHeader m.header = some hd) :
    (∀ i, parseOperands wb hd m.payload = .ok i → decode wb m = .ok i) ∧
    (∀ n, parseOperands wb hd m.payload = .error n → decode wb m = .error (.badOperand hd n)) := by
  unfold decode
  rw [h]
  constructor <;> intro x hx <;> dsimp only <;> rw [hx]

/-- The same for a row's own header word. -/
theorem decode_word {wb : Nat} {hd : Head} {payload : List Byte} :
    (∀ i, parseOperands wb hd payload = .ok i → decode wb ⟨hd.word, payload⟩ = .ok i) ∧
    (∀ n, parseOperands wb hd payload = .error n → decode wb ⟨hd.word, payload⟩ = .error (.badOperand hd n)) := by
  have hh := decodeHeader_word hd
  generalize hd.word = w at hh ⊢
  exact decode_of_header (m := ⟨w, payload⟩) hh

theorem encode_def (wb : Nat) (i : Instr) : encode wb i = ⟨i.head.word, encodePayload wb i⟩ := rfl

theorem decodeBytes_message {wb : Nat} {m : Message} {i : Instr} (h : decode wb m = .ok i) :
    decodeBytes wb (messageBytes m) = .ok i := by
  unfold decodeBytes
  rw [messageOfBytes_messageBytes]
  dsimp only
  rw [h]

theorem decode_of_illegal {wb : Nat} {m : Message} (h : decodeHeader m.header = none) :
    decode wb m = .error .illegalCommand := by
  unfold decode
  rw [h]

/-! ## A parser reads no further than its operand (R108, R112) -/

/-- Bytes after an operand change nothing about how it parses. -/
def Parser.Local {α : Type} (p : Parser α) : Prop :=
  ∀ bs a r x, p bs = some (a, r) → p (bs ++ x) = some (a, r ++ x)

theorem takeBytes_local (n : Nat) : Parser.Local (takeBytes n) := by
  intro bs a r x h
  obtain ⟨rfl, hl⟩ := takeBytes_eq h
  rw [List.append_assoc, takeBytes_append hl]

theorem parseU64_local : Parser.Local parseU64 := by
  intro bs a r x h
  obtain ⟨p, hp, he⟩ := Option.map_eq_some_iff.1 h
  rw [parseU64, takeBytes_local 8 bs p.1 p.2 x hp, Option.map_some]
  obtain ⟨rfl, rfl⟩ := Prod.mk.inj he
  rfl

theorem parseBytes_local : Parser.Local parseBytes := by
  intro bs a r x h
  obtain ⟨p, hp, he⟩ := Option.bind_eq_some_iff.1 h
  rw [parseBytes, parseU64_local bs p.1 p.2 x hp, Option.bind_some]
  exact takeBytes_local _ _ _ _ _ he

theorem parseWords_local (wb : Nat) : Parser.Local (parseWords wb) := by
  intro bs a r x h
  obtain ⟨p, hp, he⟩ := Option.bind_eq_some_iff.1 h
  obtain ⟨q, hq, he⟩ := Option.map_eq_some_iff.1 he
  rw [parseWords, parseU64_local bs p.1 p.2 x hp, Option.bind_some, takeBytes_local _ _ _ _ _ hq, Option.map_some]
  obtain ⟨rfl, rfl⟩ := Prod.mk.inj he
  rfl

theorem parseBB_local (wb : Nat) : Parser.Local (parseBB wb) := by
  intro bs a r x h
  obtain ⟨p, hp, he⟩ := Option.bind_eq_some_iff.1 h
  obtain ⟨q, hq, he⟩ := Option.bind_eq_some_iff.1 he
  rw [parseBB, parseU64_local bs p.1 p.2 x hp, Option.bind_some, parseWords_local _ _ _ _ _ hq, Option.bind_some]
  split at he
  · rename_i hc
    obtain ⟨rfl, rfl⟩ := Prod.mk.inj (Option.some.inj he)
    exact if_pos hc
  · cases he

theorem parseFreq_local : Parser.Local parseFreq := by
  intro bs a r x h
  obtain ⟨p, hp, he⟩ := Option.map_eq_some_iff.1 h
  rw [parseFreq, takeBytes_local 512 bs p.1 p.2 x hp, Option.map_some]
  obtain ⟨rfl, rfl⟩ := Prod.mk.inj he
  rfl

/-- A proper prefix of an operand does not parse: the message ends inside it. -/
theorem Parser.Local.short {α : Type} {p : Parser α} (hp : p.Local) {field : List Byte} {a : α}
    (h : p field = some (a, [])) {part : List Byte} (h1 : part <+: field) (h2 : part ≠ field) : p part = none := by
  obtain ⟨x, rfl⟩ := h1
  cases hq : p part with
  | none => rfl
  | some q =>
    rw [hp _ q.1 q.2 x hq] at h
    have := (Prod.mk.inj (Option.some.inj h)).2
    rw [List.append_eq_nil_iff] at this
    exact absurd (by rw [this.2, List.append_nil]) h2

theorem operand_none {α β : Type} {i : Nat} {p : Parser α} {bs : List Byte} {k : α → List Byte → Except Nat β}
    (h : p bs = none) : operand i p bs k = .error i := by rw [operand, h]

/-- A BB field whose words do not cover its bit count does not parse, whatever follows it (R112). -/
theorem parseBB_uncovered {wb : Nat} (h8 : wb % 8 = 0) {n : Nat} {ws : List Nat} (hn : n < 2 ^ 64)
    (hw : wordsWf wb ws = true) (hc : ws.length * wb < n) (rest : List Byte) :
    parseBB wb (encodeU64 n ++ encodeWords wb ws ++ rest) = none := by
  rw [parseBB, List.append_assoc, parseU64_encode (by simpa [fitsU64] using hn), Option.bind_some,
    parseWords_encode h8 hw, Option.bind_some, if_neg (by dsimp only; omega)]

theorem endOfPayload_extra {n : Nat} {i : Instr} {r : List Byte} (h : r ≠ []) : endOfPayload n i r = .error n := by
  unfold endOfPayload
  rw [if_neg (by simpa using h)]

theorem encodePayload_lzdInit (wb : Nat) (a x : List Byte) (l : Option Nat) :
    encodePayload wb (.lzdInit a x l) = encodeBytes a ++ (encodeBytes x ++ encodeLimit l) := by
  cases l <;> simp [encodePayload, Instr.fields, encodeLimit]

theorem encodePayload_lzdDecode (wb : Nat) (a x : List Byte) (l : Option Nat) :
    encodePayload wb (.lzdDecode a x l) = encodeBytes a ++ (encodeBytes x ++ encodeLimit l) := by
  cases l <;> simp [encodePayload, Instr.fields, encodeLimit]

@[simp] theorem endOfPayload_nil (n : Nat) (i : Instr) : endOfPayload n i [] = .ok i := rfl

/-! ## The header of a decoded message -/

theorem parseOperands_head {wb : Nat} {hd : Head} {bs : List Byte} {i : Instr} (h : parseOperands wb hd bs = .ok i) :
    i.head = hd := by
  cases hd <;> simp only [parseOperands] at h
  all_goals first
    | (obtain ⟨-, rfl⟩ := endOfPayload_ok h; rfl)
    | (obtain ⟨_, _, -, h⟩ := operand_ok h
       first
       | (obtain ⟨-, rfl⟩ := endOfPayload_ok h; rfl)
       | (obtain ⟨_, _, -, h⟩ := operand_ok h
          first
          | (obtain ⟨-, rfl⟩ := endOfPayload_ok h; rfl)
          | (obtain ⟨_, _, hl, h⟩ := operand_ok h
             obtain ⟨-, rfl⟩ := endOfPayload_ok h
             obtain ⟨-, -, rfl⟩ := parseLimit_eq hl
             rfl)))

theorem decode_head {wb : Nat} {m : Message} {i : Instr} (h : decode wb m = .ok i) : decodeHeader m.header = some i.head := by
  unfold decode at h
  split at h
  · cases h
  · rename_i hd hh
    split at h
    · rename_i j hj
      cases h
      rw [hh, parseOperands_head hj]
    · cases h

theorem decode_illegal {wb : Nat} {m : Message} (h : decode wb m = .error .illegalCommand) :
    decodeHeader m.header = none := by
  unfold decode at h
  split at h
  · assumption
  · split at h <;> cases h

theorem decode_badOperand {wb : Nat} {m : Message} {hd : Head} {n : Nat} (h : decode wb m = .error (.badOperand hd n)) :
    decodeHeader m.header = some hd := by
  unfold decode at h
  split at h
  · cases h
  · rename_i hd' hh
    split at h
    · cases h
    · cases h; exact hh

/-! ## Illegal rows and short operands -/

/-- When a row makes a header illegal (R106). -/
theorem plainRow_none (f : Bool) (imm : BitVec 16) (hd : Head) : plainRow f imm hd = none ↔ f = true ∨
    imm ≠ 0#16 := by
  unfold plainRow; split
  · rename_i h; simp [h]
  · rename_i h; cases f <;> simp_all

theorem modeRow_none (f : Bool) (imm : BitVec 16) (mk) : modeRow f imm mk = none ↔ imm ≠ 0#16 := by
  unfold modeRow; split
  · rename_i h; simp [h]
  · rename_i h; simp_all

theorem byteRow_none (f : Bool) (imm : BitVec 16) (mk) : byteRow f imm mk = none ↔ f = true ∨
    imm.extractLsb' 8 8 ≠ 0#8 ∨ mk (imm.extractLsb' 0 8) = none := by
  unfold byteRow; split
  · rename_i h; simp [h.1, h.2]
  · rename_i h; cases f <;> simp_all

theorem bitRow_none (f : Bool) (imm : BitVec 16) (mk) : bitRow f imm mk = none ↔ f = true ∨
    imm.extractLsb' 1 15 ≠ 0#15 := by
  unfold bitRow; split
  · rename_i h; simp [h.1, h.2]
  · rename_i h; cases f <;> simp_all

/-- The register numbers that are none (R106 (f)). -/
theorem regOfNumber_none : ∀ n : Byte, (regOfNumber n).map Head.ctlRead = none ↔ n.toNat ∉
    [0x00, 0x01, 0x02, 0x03, 0x04, 0x05, 0x10, 0x11, 0x12, 0x13, 0x14, 0x15, 0x16, 0x20, 0x21, 0x22, 0x23, 0x24, 0x25,
      0x26, 0x27, 0x28, 0x30, 0x31, 0x32, 0x33, 0x40, 0x41, 0x42, 0x43, 0x44, 0x45, 0x46, 0x47] := by decide +kernel

/-- An operand cut short is no operand (R112). -/
theorem parseBytes_short {a q : List Byte} (h : bytesWf a = true) (h1 : q <+: encodeBytes a) (h2 : q ≠ encodeBytes a)
    : parseBytes q = none :=
  parseBytes_local.short (by simpa using parseBytes_encode h []) h1 h2

theorem parseBB_short {wb} (h8 : wb % 8 = 0) {b : BitBuffer} {q : List Byte} (h : b.wf wb = true)
    (h1 : q <+: encodeBB wb b) (h2 : q ≠ encodeBB wb b) : parseBB wb q = none :=
  (parseBB_local wb).short (by simpa using parseBB_encode h8 h []) h1 h2

theorem parseWords_short {wb} (h8 : wb % 8 = 0) {b : List Nat} {q : List Byte} (h : wordsWf wb b = true)
    (h1 : q <+: encodeWords wb b) (h2 : q ≠ encodeWords wb b) : parseWords wb q = none :=
  (parseWords_local wb).short (by simpa using parseWords_encode h8 h []) h1 h2

theorem parseU64_short {b : Nat} {q : List Byte} (h : fitsU64 b = true) (h1 : q <+: encodeU64 b)
    (h2 : q ≠ encodeU64 b) : parseU64 q = none :=
  parseU64_local.short (by simpa using parseU64_encode h []) h1 h2

theorem parseFreq_short {b : List Nat} {q : List Byte} (h : freqWf b = true) (h1 : q <+: encodeFreq b)
    (h2 : q ≠ encodeFreq b) : parseFreq q = none :=
  parseFreq_local.short (by simpa using parseFreq_encode h []) h1 h2

end Sys2Proof
end

