-- ==== Sys2Proof/Laws/State.lean ====
section
/-! SUPPORT. One lemma per field per update of the state, all true by rfl, so that no proof unfolds a record update. -/

namespace Sys2Proof.Machine

/-! ## withLze -/

@[simp] theorem State.withLze_cfg (s : State) (u : Lze) : (s.withLze u).cfg = s.cfg := rfl
@[simp] theorem State.withLze_fault (s : State) (u : Lze) : (s.withLze u).fault = s.fault := rfl
@[simp] theorem State.withLze_lze (s : State) (u : Lze) : (s.withLze u).lze = u := rfl
@[simp] theorem State.withLze_lzd (s : State) (u : Lze) : (s.withLze u).lzd = s.lzd := rfl
@[simp] theorem State.withLze_hft (s : State) (u : Lze) : (s.withLze u).hft = s.hft := rfl
@[simp] theorem State.withLze_hfd (s : State) (u : Lze) : (s.withLze u).hfd = s.hfd := rfl
@[simp] theorem State.withLze_commands (s : State) (u : Lze) : (s.withLze u).commands = s.commands := rfl
@[simp] theorem State.withLze_responses (s : State) (u : Lze) : (s.withLze u).responses = s.responses := rfl

/-! ## withLzd -/

@[simp] theorem State.withLzd_cfg (s : State) (u : Lzd) : (s.withLzd u).cfg = s.cfg := rfl
@[simp] theorem State.withLzd_fault (s : State) (u : Lzd) : (s.withLzd u).fault = s.fault := rfl
@[simp] theorem State.withLzd_lze (s : State) (u : Lzd) : (s.withLzd u).lze = s.lze := rfl
@[simp] theorem State.withLzd_lzd (s : State) (u : Lzd) : (s.withLzd u).lzd = u := rfl
@[simp] theorem State.withLzd_hft (s : State) (u : Lzd) : (s.withLzd u).hft = s.hft := rfl
@[simp] theorem State.withLzd_hfd (s : State) (u : Lzd) : (s.withLzd u).hfd = s.hfd := rfl
@[simp] theorem State.withLzd_commands (s : State) (u : Lzd) : (s.withLzd u).commands = s.commands := rfl
@[simp] theorem State.withLzd_responses (s : State) (u : Lzd) : (s.withLzd u).responses = s.responses := rfl

/-! ## withHft -/

@[simp] theorem State.withHft_cfg (s : State) (u : Hft) : (s.withHft u).cfg = s.cfg := rfl
@[simp] theorem State.withHft_fault (s : State) (u : Hft) : (s.withHft u).fault = s.fault := rfl
@[simp] theorem State.withHft_lze (s : State) (u : Hft) : (s.withHft u).lze = s.lze := rfl
@[simp] theorem State.withHft_lzd (s : State) (u : Hft) : (s.withHft u).lzd = s.lzd := rfl
@[simp] theorem State.withHft_hft (s : State) (u : Hft) : (s.withHft u).hft = u := rfl
@[simp] theorem State.withHft_hfd (s : State) (u : Hft) : (s.withHft u).hfd = s.hfd := rfl
@[simp] theorem State.withHft_commands (s : State) (u : Hft) : (s.withHft u).commands = s.commands := rfl
@[simp] theorem State.withHft_responses (s : State) (u : Hft) : (s.withHft u).responses = s.responses := rfl

/-! ## withHfd -/

@[simp] theorem State.withHfd_cfg (s : State) (u : Hfd) : (s.withHfd u).cfg = s.cfg := rfl
@[simp] theorem State.withHfd_fault (s : State) (u : Hfd) : (s.withHfd u).fault = s.fault := rfl
@[simp] theorem State.withHfd_lze (s : State) (u : Hfd) : (s.withHfd u).lze = s.lze := rfl
@[simp] theorem State.withHfd_lzd (s : State) (u : Hfd) : (s.withHfd u).lzd = s.lzd := rfl
@[simp] theorem State.withHfd_hft (s : State) (u : Hfd) : (s.withHfd u).hft = s.hft := rfl
@[simp] theorem State.withHfd_hfd (s : State) (u : Hfd) : (s.withHfd u).hfd = u := rfl
@[simp] theorem State.withHfd_commands (s : State) (u : Hfd) : (s.withHfd u).commands = s.commands := rfl
@[simp] theorem State.withHfd_responses (s : State) (u : Hfd) : (s.withHfd u).responses = s.responses := rfl

/-! ## withFault -/

@[simp] theorem State.withFault_cfg (s : State) (f : FaultState) : (s.withFault f).cfg = s.cfg := rfl
@[simp] theorem State.withFault_fault (s : State) (f : FaultState) : (s.withFault f).fault = f := rfl
@[simp] theorem State.withFault_lze (s : State) (f : FaultState) : (s.withFault f).lze = s.lze := rfl
@[simp] theorem State.withFault_lzd (s : State) (f : FaultState) : (s.withFault f).lzd = s.lzd := rfl
@[simp] theorem State.withFault_hft (s : State) (f : FaultState) : (s.withFault f).hft = s.hft := rfl
@[simp] theorem State.withFault_hfd (s : State) (f : FaultState) : (s.withFault f).hfd = s.hfd := rfl
@[simp] theorem State.withFault_commands (s : State) (f : FaultState) : (s.withFault f).commands = s.commands := rfl
@[simp] theorem State.withFault_responses (s : State) (f : FaultState) : (s.withFault f).responses = s.responses := rfl

/-! ## withCommands -/

@[simp] theorem State.withCommands_cfg (s : State) (ms : List Message) : (s.withCommands ms).cfg = s.cfg := rfl
@[simp] theorem State.withCommands_fault (s : State) (ms : List Message) : (s.withCommands ms).fault = s.fault := rfl
@[simp] theorem State.withCommands_lze (s : State) (ms : List Message) : (s.withCommands ms).lze = s.lze := rfl
@[simp] theorem State.withCommands_lzd (s : State) (ms : List Message) : (s.withCommands ms).lzd = s.lzd := rfl
@[simp] theorem State.withCommands_hft (s : State) (ms : List Message) : (s.withCommands ms).hft = s.hft := rfl
@[simp] theorem State.withCommands_hfd (s : State) (ms : List Message) : (s.withCommands ms).hfd = s.hfd := rfl
@[simp] theorem State.withCommands_commands (s : State) (ms : List Message) : (s.withCommands ms).commands = ms := rfl
@[simp] theorem State.withCommands_responses (s : State) (ms : List Message) : (s.withCommands ms).responses = s.responses := rfl

/-! ## send -/

@[simp] theorem State.send_cfg (s : State) (r : Response) : (s.send r).cfg = s.cfg := rfl
@[simp] theorem State.send_fault (s : State) (r : Response) : (s.send r).fault = s.fault := rfl
@[simp] theorem State.send_lze (s : State) (r : Response) : (s.send r).lze = s.lze := rfl
@[simp] theorem State.send_lzd (s : State) (r : Response) : (s.send r).lzd = s.lzd := rfl
@[simp] theorem State.send_hft (s : State) (r : Response) : (s.send r).hft = s.hft := rfl
@[simp] theorem State.send_hfd (s : State) (r : Response) : (s.send r).hfd = s.hfd := rfl
@[simp] theorem State.send_commands (s : State) (r : Response) : (s.send r).commands = s.commands := rfl
@[simp] theorem State.send_responses (s : State) (r : Response) : (s.send r).responses = s.responses ++ [r] := rfl

/-! ## Responses -/

@[simp] theorem State.respondOk_cfg (s : State) (a : Answer) : (s.respondOk a).cfg = s.cfg := rfl
@[simp] theorem State.respondOk_fault (s : State) (a : Answer) : (s.respondOk a).fault = s.fault := rfl
@[simp] theorem State.respondOk_lze (s : State) (a : Answer) : (s.respondOk a).lze = s.lze := rfl
@[simp] theorem State.respondOk_lzd (s : State) (a : Answer) : (s.respondOk a).lzd = s.lzd := rfl
@[simp] theorem State.respondOk_hft (s : State) (a : Answer) : (s.respondOk a).hft = s.hft := rfl
@[simp] theorem State.respondOk_hfd (s : State) (a : Answer) : (s.respondOk a).hfd = s.hfd := rfl
@[simp] theorem State.respondOk_commands (s : State) (a : Answer) : (s.respondOk a).commands = s.commands := rfl
@[simp] theorem State.respondOk_responses (s : State) (a : Answer) :
    (s.respondOk a).responses = s.responses ++ [⟨responseHeader 0x00 0x00 a.tag, s.payload a.result⟩] := rfl
@[simp] theorem State.respondRefused_cfg (s : State) : s.respondRefused.cfg = s.cfg := rfl
@[simp] theorem State.respondRefused_fault (s : State) : s.respondRefused.fault = s.fault := rfl
@[simp] theorem State.respondRefused_lze (s : State) : s.respondRefused.lze = s.lze := rfl
@[simp] theorem State.respondRefused_lzd (s : State) : s.respondRefused.lzd = s.lzd := rfl
@[simp] theorem State.respondRefused_hft (s : State) : s.respondRefused.hft = s.hft := rfl
@[simp] theorem State.respondRefused_hfd (s : State) : s.respondRefused.hfd = s.hfd := rfl
@[simp] theorem State.respondRefused_commands (s : State) : s.respondRefused.commands = s.commands := rfl
@[simp] theorem State.respondRefused_responses (s : State) :
    s.respondRefused.responses = s.responses ++ [⟨responseHeader 0x02 s.fault.code 0x0000, []⟩] := rfl

/-! ## Ending an instance, and fault entry (60_exceptions.md R320, R321) -/

@[simp] theorem State.endInstance_cfg (s : State) (u : Option FUnit) : (s.endInstance u).cfg = s.cfg := by
  rcases u with _ | u <;> first | rfl | (cases u <;> rfl)
@[simp] theorem State.endInstance_fault (s : State) (u : Option FUnit) : (s.endInstance u).fault = s.fault := by
  rcases u with _ | u <;> first | rfl | (cases u <;> rfl)
@[simp] theorem State.endInstance_commands (s : State) (u : Option FUnit) : (s.endInstance u).commands = s.commands := by
  rcases u with _ | u <;> first | rfl | (cases u <;> rfl)
@[simp] theorem State.endInstance_responses (s : State) (u : Option FUnit) : (s.endInstance u).responses = s.responses := by
  rcases u with _ | u <;> first | rfl | (cases u <;> rfl)
theorem State.endInstance_lze (s : State) (u : Option FUnit) :
    (s.endInstance u).lze = if u = some .lze then { s.lze with live := false } else s.lze := by
  rcases u with _ | u <;> first | rfl | (cases u <;> rfl)
theorem State.endInstance_lzd (s : State) (u : Option FUnit) :
    (s.endInstance u).lzd = if u = some .lzd then { s.lzd with mode := .idle } else s.lzd := by
  rcases u with _ | u <;> first | rfl | (cases u <;> rfl)
theorem State.endInstance_hft (s : State) (u : Option FUnit) :
    (s.endInstance u).hft = if u = some .hft then { s.hft with mode := .idle } else s.hft := by
  rcases u with _ | u <;> first | rfl | (cases u <;> rfl)
theorem State.endInstance_hfd (s : State) (u : Option FUnit) :
    (s.endInstance u).hfd = if u = some .hfd then { s.hfd with mode := .idle } else s.hfd := by
  rcases u with _ | u <;> first | rfl | (cases u <;> rfl)

@[simp] theorem State.takeFault_cfg (s : State) (u : Option FUnit) (h : BitVec 32) (r : Raise) :
    (s.takeFault u h r).cfg = s.cfg := by simp [State.takeFault]
@[simp] theorem State.takeFault_commands (s : State) (u : Option FUnit) (h : BitVec 32) (r : Raise) :
    (s.takeFault u h r).commands = s.commands := by simp [State.takeFault]
@[simp] theorem State.takeFault_fault (s : State) (u : Option FUnit) (h : BitVec 32) (r : Raise) :
    (s.takeFault u h r).fault = { faulted := true, code := r.code.byte, info := r.info, cmd := h } := rfl
@[simp] theorem State.takeFault_responses (s : State) (u : Option FUnit) (h : BitVec 32) (r : Raise) :
    (s.takeFault u h r).responses = s.responses ++ [⟨responseHeader 0x01 r.code.byte 0x0000, []⟩] := by
  simp [State.takeFault]
@[simp] theorem State.takeFault_lze (s : State) (u : Option FUnit) (h : BitVec 32) (r : Raise) :
    (s.takeFault u h r).lze = (s.endInstance u).lze := rfl
@[simp] theorem State.takeFault_lzd (s : State) (u : Option FUnit) (h : BitVec 32) (r : Raise) :
    (s.takeFault u h r).lzd = (s.endInstance u).lzd := rfl
@[simp] theorem State.takeFault_hft (s : State) (u : Option FUnit) (h : BitVec 32) (r : Raise) :
    (s.takeFault u h r).hft = (s.endInstance u).hft := rfl
@[simp] theorem State.takeFault_hfd (s : State) (u : Option FUnit) (h : BitVec 32) (r : Raise) :
    (s.takeFault u h r).hfd = (s.endInstance u).hfd := rfl

/-! ## Reset (70_reset_and_hazards.md R350) -/

@[simp] theorem State.resetCore_cfg (s : State) : s.resetCore.cfg = s.cfg := rfl
@[simp] theorem State.resetCore_fault (s : State) : s.resetCore.fault = .reset := rfl
@[simp] theorem State.resetCore_lze (s : State) : s.resetCore.lze = .reset := rfl
@[simp] theorem State.resetCore_lzd (s : State) : s.resetCore.lzd = .reset := rfl
@[simp] theorem State.resetCore_hft (s : State) : s.resetCore.hft = .reset := rfl
@[simp] theorem State.resetCore_hfd (s : State) : s.resetCore.hfd = .reset := rfl
@[simp] theorem State.resetCore_commands (s : State) : s.resetCore.commands = s.commands := rfl
@[simp] theorem State.resetCore_responses (s : State) : s.resetCore.responses = s.responses := rfl

/-! ## The next message -/

@[simp] theorem State.sendNext_cfg (s : State) (m : Message) : (s.sendNext m).cfg = s.cfg := rfl
@[simp] theorem State.sendNext_fault (s : State) (m : Message) : (s.sendNext m).fault = s.fault := rfl
@[simp] theorem State.sendNext_lze (s : State) (m : Message) : (s.sendNext m).lze = s.lze := rfl
@[simp] theorem State.sendNext_lzd (s : State) (m : Message) : (s.sendNext m).lzd = s.lzd := rfl
@[simp] theorem State.sendNext_hft (s : State) (m : Message) : (s.sendNext m).hft = s.hft := rfl
@[simp] theorem State.sendNext_hfd (s : State) (m : Message) : (s.sendNext m).hfd = s.hfd := rfl
@[simp] theorem State.sendNext_commands (s : State) (m : Message) : (s.sendNext m).commands = m :: s.commands := rfl
@[simp] theorem State.sendNext_responses (s : State) (m : Message) : (s.sendNext m).responses = s.responses := rfl

end Sys2Proof.Machine
end

