-- ==== Sys2Proof/Laws/Exec.lean ====
section
/-! SUPPORT. Everything a command can do, said once: refuse, reset, read, take a fault, or complete with writes to its own
unit only. Later proofs cite `exec_cases` and `step_cases` and unfold no meaning. -/

namespace Sys2Proof.Machine

/-! ## The frame of a command -/

/-- Everything `command` can answer. -/
theorem command_cases {hd : Head} {s t : State} {body : Except Raise (State × Answer)}
    (h : command hd s body = .next t) :
    (s.fault.faulted = true ∧ t = s.respondRefused) ∨
    (s.fault.faulted = false ∧ ∃ u a, body = .ok (u, a) ∧ t = u.respondOk a) ∨
    (s.fault.faulted = false ∧ ∃ r, body = .error r ∧ t = s.takeFault (some hd.unit) hd.word r) := by
  unfold command at h
  split at h
  · exact .inl ⟨‹_›, (Host.Outcome.next.inj h).symm⟩
  · rename_i hf
    have hf : s.fault.faulted = false := by simpa using hf
    have h := (Host.Outcome.next.inj h).symm
    rcases body with r | ⟨u, a⟩
    · exact .inr (.inr ⟨hf, r, rfl, h⟩)
    · exact .inr (.inl ⟨hf, u, a, rfl, h⟩)

theorem command_faulted {hd : Head} {s : State} (h : s.fault.faulted = true) (body : Except Raise (State × Answer)) :
    command hd s body = .next s.respondRefused := by simp [command, h]

theorem command_ok {hd : Head} {s : State} (h : s.fault.faulted = false) (u : State) (a : Answer) :
    command hd s (.ok (u, a)) = .next (u.respondOk a) := by simp [command, h, complete]

theorem command_error {hd : Head} {s : State} (h : s.fault.faulted = false) (r : Raise) :
    command hd s (.error r) = .next (s.takeFault (some hd.unit) hd.word r) := by simp [command, h, complete]

theorem command_next (hd : Head) (s : State) (body : Except Raise (State × Answer)) :
    ∃ t, command hd s body = .next t := by
  unfold command; split <;> exact ⟨_, rfl⟩

theorem bind_ok {ε α β : Type} {x : Except ε α} {f : α → Except ε β} {b : β} (h : (x >>= f) = .ok b) :
    ∃ a, x = .ok a ∧ f a = .ok b := by
  cases x with
  | error e => simp [bind, Except.bind] at h
  | ok a => exact ⟨a, rfl, h⟩

theorem bind_error {ε α β : Type} {x : Except ε α} {f : α → Except ε β} {e : ε} (h : (x >>= f) = .error e) :
    x = .error e ∨ ∃ a, x = .ok a ∧ f a = .error e := by
  cases x with
  | error e' => exact .inl (by simpa [bind, Except.bind] using h)
  | ok a => exact .inr ⟨a, rfl, h⟩

@[simp] theorem ok_bind {ε α β : Type} (a : α) (f : α → Except ε β) : ((Except.ok a : Except ε α) >>= f) = f a := rfl

@[simp] theorem error_bind {ε α β : Type} (e : ε) (f : α → Except ε β) :
    ((Except.error e : Except ε α) >>= f) = .error e := rfl

/-! ## Response headers (30_encoding.md R121) and fault codes (60_exceptions.md R310) -/

theorem responseHeader_rstatus (a b : Byte) (t : BitVec 16) : (responseHeader a b t).extractLsb' 24 8 = a := by
  have := a.isLt
  have := b.isLt
  have := t.isLt
  apply BitVec.eq_of_toNat_eq
  rw [field_toNat, responseHeader, BitVec.toNat_ofNat]
  omega

theorem responseHeader_rfault (a b : Byte) (t : BitVec 16) : (responseHeader a b t).extractLsb' 16 8 = b := by
  have := a.isLt
  have := b.isLt
  have := t.isLt
  apply BitVec.eq_of_toNat_eq
  rw [field_toNat, responseHeader, BitVec.toNat_ofNat]
  omega

theorem responseHeader_tag (a b : Byte) (t : BitVec 16) : (responseHeader a b t).extractLsb' 0 16 = t := by
  have := a.isLt
  have := b.isLt
  have := t.isLt
  apply BitVec.eq_of_toNat_eq
  rw [field_toNat, responseHeader, BitVec.toNat_ofNat]
  omega

theorem responseHeader_fault (c : Byte) :
    responseHeader 0x01 c 0x0000 = 0x01000000#32 + c.setWidth 32 * 0x00010000#32 := by revert c; decide

theorem responseHeader_refused (c : Byte) :
    responseHeader 0x02 c 0x0000 = 0x02000000#32 + c.setWidth 32 * 0x00010000#32 := by revert c; decide

theorem FaultCode.byte_range (c : FaultCode) : 1 ≤ c.byte.toNat ∧ c.byte.toNat ≤ 8 := by cases c <;> decide

/-! ## What a completed command writes -/

/-- The writes of a completed command of a unit (10_state.md R37, R48): its own unit's state, and the HFT engine's where
HFE or HFD builds a tree. -/
def Wrote (s : State) : FUnit → State → Prop
  | .ctl, t => t = s
  | .bb, t => t = s
  | .lze, t => t = s.withLze t.lze
  | .lzd, t => t = s.withLzd t.lzd
  | .hft, t => t = s.withHft t.hft
  | .hfe, t => t = s.withHft t.hft
  | .hfd, t => t = (s.withHft t.hft).withHfd t.hfd

/-- Every instruction but CTL_RESET and CTL_READ runs in the frame `command` of its own row, and what it writes when it
completes is its unit's. -/
theorem exec_eq_command (i : Instr) (s : State) (h1 : i ≠ .ctlReset) (h2 : ∀ r, i ≠ .ctlRead r) :
    ∃ body, exec i s = command i.head s body ∧ ∀ t a, body = .ok (t, a) → Wrote s i.head.unit t := by
  cases i with
  | ctlReset => exact absurd rfl h1
  | ctlRead r => exact absurd rfl (h2 r)
  | lzeInit alpha =>
    refine ⟨_, rfl, fun t a h => ?_⟩
    obtain ⟨u, -, h⟩ := bind_ok h
    cases h; rfl
  | lzeSymbol sym =>
    refine ⟨_, rfl, fun t a h => ?_⟩
    split at h
    · obtain ⟨u, -, h⟩ := bind_ok h
      cases h; rfl
    · cases h
  | lzeFlush =>
    refine ⟨_, rfl, fun t a h => ?_⟩
    split at h
    · obtain ⟨u, -, h⟩ := bind_ok h
      cases h; rfl
    · cases h
  | lzeEncode alpha syms =>
    refine ⟨_, rfl, fun t a h => ?_⟩
    obtain ⟨u, -, h⟩ := bind_ok h
    obtain ⟨v, -, h⟩ := bind_ok h
    obtain ⟨w, -, h⟩ := bind_ok h
    cases h; rfl
  | lzdInit alpha input limit =>
    refine ⟨_, rfl, fun t a h => ?_⟩
    obtain ⟨u, -, h⟩ := bind_ok h
    cases h; rfl
  | lzdStep =>
    refine ⟨_, rfl, fun t a h => ?_⟩
    split at h
    · cases h
    · cases h; rfl
    · obtain ⟨⟨u, r⟩, -, h⟩ := bind_ok h
      cases r <;> (cases h; rfl)
  | lzdDecode alpha input limit =>
    refine ⟨_, rfl, fun t a h => ?_⟩
    obtain ⟨u, -, h⟩ := bind_ok h
    obtain ⟨v, -, h⟩ := bind_ok h
    cases h; rfl
  | hftLoad f =>
    refine ⟨_, rfl, fun t a h => ?_⟩
    obtain ⟨u, -, h⟩ := bind_ok h
    cases h; rfl
  | hftStep =>
    refine ⟨_, rfl, fun t a h => ?_⟩
    split at h <;> cases h <;> rfl
  | hftTable =>
    refine ⟨_, rfl, fun t a h => ?_⟩
    split at h <;> cases h
    rfl
  | hfeEncode data =>
    refine ⟨_, rfl, fun t a h => ?_⟩
    obtain ⟨f, -, h⟩ := bind_ok h
    obtain ⟨u, -, h⟩ := bind_ok h
    cases h; rfl
  | hfeHist data =>
    refine ⟨_, rfl, fun t a h => ?_⟩
    obtain ⟨f, -, h⟩ := bind_ok h
    cases h; rfl
  | hfdInit lit container =>
    refine ⟨_, rfl, fun t a h => ?_⟩
    obtain ⟨⟨u, v⟩, -, h⟩ := bind_ok h
    cases h; rfl
  | hfdStep =>
    refine ⟨_, rfl, fun t a h => ?_⟩
    split at h
    · cases h
    · cases h; rfl
    · obtain ⟨⟨u, r⟩, -, h⟩ := bind_ok h
      cases h; rfl
  | hfdDecode lit container =>
    refine ⟨_, rfl, fun t a h => ?_⟩
    obtain ⟨⟨u, v⟩, -, h⟩ := bind_ok h
    obtain ⟨w, -, h⟩ := bind_ok h
    cases h; rfl
  | _ => exact ⟨_, rfl, fun t a h => by cases h; rfl⟩

/-- Everything an instruction can do. -/
theorem exec_cases {i : Instr} {s t : State} (h : exec i s = .next t) :
    (i = .ctlReset ∧ t = s.resetCore.respondOk ⟨0x0000, .none⟩) ∨
    (∃ r, i = .ctlRead r ∧ t = s.respondOk ⟨0x0000, .nat (readReg s r)⟩) ∨
    (s.fault.faulted = true ∧ t = s.respondRefused) ∨
    (s.fault.faulted = false ∧ ∃ u a, Wrote s i.head.unit u ∧ t = u.respondOk a) ∨
    (s.fault.faulted = false ∧ ∃ r, t = s.takeFault (some i.head.unit) i.head.word r) := by
  by_cases h1 : i = .ctlReset
  · subst h1; exact .inl ⟨rfl, (Host.Outcome.next.inj h).symm⟩
  by_cases h2 : ∃ r, i = .ctlRead r
  · obtain ⟨r, rfl⟩ := h2
    exact .inr (.inl ⟨r, rfl, (Host.Outcome.next.inj h).symm⟩)
  obtain ⟨body, hb, hw⟩ := exec_eq_command i s h1 (fun r e => h2 ⟨r, e⟩)
  rw [hb] at h
  rcases command_cases h with ⟨hf, rfl⟩ | ⟨hf, u, a, hu, rfl⟩ | ⟨hf, r, -, rfl⟩
  · exact .inr (.inr (.inl ⟨hf, rfl⟩))
  · exact .inr (.inr (.inr (.inl ⟨hf, u, a, hw u a hu, rfl⟩)))
  · exact .inr (.inr (.inr (.inr ⟨hf, r, rfl⟩)))

/-- Every instruction answers a next state, from every state. -/
theorem exec_next (i : Instr) (s : State) : ∃ t, exec i s = .next t := by
  by_cases h1 : i = .ctlReset
  · subst h1; exact ⟨_, rfl⟩
  by_cases h2 : ∃ r, i = .ctlRead r
  · obtain ⟨r, rfl⟩ := h2; exact ⟨_, rfl⟩
  obtain ⟨body, hb, -⟩ := exec_eq_command i s h1 (fun r e => h2 ⟨r, e⟩)
  rw [hb]
  exact command_next _ _ _

/-! ## The step -/

/-- Everything a message that is no instruction can do. -/
theorem rejectMessage_cases (s : State) (h : BitVec 32) (e : DecodeError) :
    (s.fault.faulted = true ∧ s.rejectMessage h e = s.respondRefused) ∨
    (s.fault.faulted = false ∧ e = .illegalCommand ∧
      s.rejectMessage h e = s.takeFault none h ⟨.illegalCommand, h.toNat⟩) ∨
    (s.fault.faulted = false ∧ ∃ hd n, e = .badOperand hd n ∧
      s.rejectMessage h e = s.takeFault (some hd.unit) h ⟨.badOperand, n⟩) := by
  unfold State.rejectMessage
  cases hf : s.fault.faulted
  · cases e with
    | illegalCommand => exact .inr (.inl ⟨rfl, rfl, rfl⟩)
    | badOperand hd n => exact .inr (.inr ⟨rfl, hd, n, rfl, rfl⟩)
  · exact .inl ⟨rfl, rfl⟩

/-- Everything a step that answers a next state can do. -/
theorem step_cases {s t : State} (h : step s = .next t) :
    s.cfg.Valid ∧
    ((s.commands = [] ∧ t = s) ∨
     (∃ m ms i, s.commands = m :: ms ∧ decode s.cfg.wordBits m = .ok i ∧ exec i (s.withCommands ms) = .next t) ∨
     (∃ m ms e, s.commands = m :: ms ∧ decode s.cfg.wordBits m = .error e ∧
       t = (s.withCommands ms).rejectMessage m.header e)) := by
  unfold step at h
  split at h
  · rename_i hv
    refine ⟨hv, ?_⟩
    split at h
    · exact .inl ⟨‹_›, (Host.Outcome.next.inj h).symm⟩
    · rename_i m ms hc
      unfold deliver at h
      split at h
      · rename_i i hd
        exact .inr (.inl ⟨m, ms, i, hc, hd, h⟩)
      · rename_i e hd
        exact .inr (.inr ⟨m, ms, e, hc, hd, (Host.Outcome.next.inj h).symm⟩)
  · cases h

/-- Everything a step with a message can do. -/
theorem step_message {s t : State} {m : Message} {ms : List Message} (hc : s.commands = m :: ms) (h : step s = .next t) :
    s.cfg.Valid ∧
    ((decode s.cfg.wordBits m = .ok .ctlReset ∧ t = (s.withCommands ms).resetCore.respondOk ⟨0x0000, .none⟩) ∨
     (∃ r, decode s.cfg.wordBits m = .ok (.ctlRead r) ∧
       t = (s.withCommands ms).respondOk ⟨0x0000, .nat (readReg (s.withCommands ms) r)⟩) ∨
     (s.fault.faulted = true ∧ t = (s.withCommands ms).respondRefused) ∨
     (s.fault.faulted = false ∧ ∃ i u a, decode s.cfg.wordBits m = .ok i ∧ i ≠ .ctlReset ∧ (∀ r, i ≠ .ctlRead r) ∧
       Wrote (s.withCommands ms) i.head.unit u ∧ t = u.respondOk a ∧ exec i (s.withCommands ms) = .next t) ∨
     (s.fault.faulted = false ∧ ∃ r,
       t = (s.withCommands ms).takeFault ((decodeHeader m.header).map Head.unit) m.header r ∧
       ((decodeHeader m.header = none ∧ r = ⟨.illegalCommand, m.header.toNat⟩) ∨
        (∃ hd n, decodeHeader m.header = some hd ∧ r = ⟨.badOperand, n⟩) ∨
        (∃ i, decode s.cfg.wordBits m = .ok i ∧ exec i (s.withCommands ms) = .next t)))) := by
  obtain ⟨hv, h⟩ := step_cases h
  refine ⟨hv, ?_⟩
  rcases h with ⟨hn, -⟩ | ⟨m', ms', i, hc', hd, he⟩ | ⟨m', ms', e, hc', hd, ht⟩
  · rw [hn] at hc; cases hc
  · rw [hc] at hc'; cases hc'
    by_cases h1 : i = .ctlReset
    · subst h1; exact .inl ⟨hd, (Host.Outcome.next.inj he).symm⟩
    by_cases h2 : ∃ r, i = .ctlRead r
    · obtain ⟨r, rfl⟩ := h2; exact .inr (.inl ⟨r, hd, (Host.Outcome.next.inj he).symm⟩)
    have h2 : ∀ r, i ≠ .ctlRead r := fun r e => h2 ⟨r, e⟩
    rcases exec_cases he with ⟨e, -⟩ | ⟨r, e, -⟩ | ⟨hf, ht⟩ | ⟨hf, u, a, hu, ht⟩ | ⟨hf, r, ht⟩
    · exact absurd e h1
    · exact absurd e (h2 r)
    · exact .inr (.inr (.inl ⟨hf, ht⟩))
    · exact .inr (.inr (.inr (.inl ⟨hf, i, u, a, hd, h1, h2, hu, ht, he⟩)))
    · have hh := decode_head hd
      refine .inr (.inr (.inr (.inr ⟨hf, r, ?_, .inr (.inr ⟨i, hd, he⟩)⟩)))
      rw [hh, Option.map_some, ht, decodeHeader_eq hh]
  · rw [hc] at hc'; cases hc'
    rcases rejectMessage_cases (s.withCommands ms) m.header e with ⟨hf, he⟩ | ⟨hf, rfl, he⟩ | ⟨hf, hd', n, rfl, he⟩
    · exact .inr (.inr (.inl ⟨hf, ht.trans he⟩))
    · have hh := decode_illegal hd
      exact .inr (.inr (.inr (.inr ⟨hf, _, by rw [hh]; exact ht.trans he, .inl ⟨hh, rfl⟩⟩)))
    · have hh := decode_badOperand hd
      exact .inr (.inr (.inr (.inr ⟨hf, _, by rw [hh]; exact ht.trans he, .inr (.inl ⟨hd', n, hh, rfl⟩)⟩)))

/-- A step of a valid instance answers a next state. -/
theorem step_next {s : State} (h : s.cfg.Valid) : ∃ t, step s = .next t := by
  unfold step
  rw [if_pos h]
  split
  · exact ⟨_, rfl⟩
  · unfold deliver
    split
    · exact exec_next _ _
    · exact ⟨_, rfl⟩

end Sys2Proof.Machine
end

