-- ==== Sys2Proof/Laws/BitBuffer.lean ====
section
/-! SUPPORT. What each BitBuffer operation does to the bits it holds (41_bitbuffer.md R142 to R160). -/

namespace Sys2Proof.Machine

variable {wb : Nat}

/-! ## frombits (R142) -/

@[simp] theorem frombits_bitCount (bs : Bits) : (frombits wb bs).bitCount = bs.length := rfl

@[simp] theorem frombits_words_length (bs : Bits) : (frombits wb bs).words.length = ceilDiv bs.length wb := by
  simp [frombits]

theorem cat_frombits (hw : 0 < wb) (bs : Bits) :
    cat wb (frombits wb bs).words = bs ++ List.replicate ((wb - bs.length % wb) % wb) false := by
  have hl : (bs ++ List.replicate ((wb - bs.length % wb) % wb) false).length = ceilDiv bs.length wb * wb := by
    simp [length_add_pad hw]
  unfold frombits
  rw [cat_map_natOf (chunks_mem_length hl), chunks_flatten hl]

theorem frombits_words_lt (hw : 0 < wb) (bs : Bits) : ∀ w ∈ (frombits wb bs).words, w < 2 ^ wb := by
  have hl : (bs ++ List.replicate ((wb - bs.length % wb) % wb) false).length = ceilDiv bs.length wb * wb := by
    simp [length_add_pad hw]
  intro w hwm
  simp only [frombits, List.mem_map] at hwm
  obtain ⟨c, hc, rfl⟩ := hwm
  have := natOf_lt c
  rwa [chunks_mem_length hl c hc] at this

@[simp] theorem sbits_frombits (hw : 0 < wb) (bs : Bits) : sbits wb (frombits wb bs) = bs := by
  rw [sbits, cat_frombits hw, frombits_bitCount, List.take_left]

/-! ## Lengths -/

theorem sbits_length {b : BitBuffer} (h : b.bitCount ≤ b.words.length * wb) : (sbits wb b).length = b.bitCount := by
  simp [sbits, h]

theorem vbits_length {b : BitBuffer} (h : b.bitCount ≤ b.words.length * wb) : (vbits wb b).length = b.bitCount := by
  simp [vbits, unused]; omega

theorem cat_eq_bitsOf (ws : List Nat) : cat wb ws = bitsOf (natOf (cat wb ws)) (ws.length * wb) := by
  have := bitsOf_natOf (cat wb ws)
  rw [cat_length] at this
  exact this.symm

/-- The value bits of a well-formed buffer are its number's low bits (20_memory.md R70). -/
theorem vbits_eq_bitsOf {b : BitBuffer} (h : b.bitCount ≤ b.words.length * wb) :
    vbits wb b = bitsOf (natOf (cat wb b.words)) b.bitCount := by
  rw [vbits, cat_eq_bitsOf, unused]
  have e : b.words.length * wb = (b.words.length * wb - b.bitCount) + b.bitCount := by omega
  conv_lhs => rw [e]
  rw [Nat.add_sub_cancel, bitsOf_drop, ← cat_eq_bitsOf]

/-! ## new and append (R150, R152, R159, R160) -/

theorem bbNew_capacity (hw : 0 < wb) (ws : List Nat) (n : Nat) :
    n ≤ (bbNew wb ws n).words.length * wb := by
  refine (ceilDiv_mul_ge hw).trans (Nat.mul_le_mul_right wb ?_)
  unfold bbNew
  dsimp only
  split
  · simp; omega
  · omega

theorem natOf_cat_replicate_append (k : Nat) (ws : List Nat) :
    natOf (cat wb (List.replicate k 0 ++ ws)) = natOf (cat wb ws) := by
  rw [cat_append, cat_replicate_zero, natOf_append, natOf_replicate_false, Nat.zero_mul, Nat.zero_add]

/-- Padding with zero words keeps the number (R150). -/
theorem natOf_cat_bbNew (ws : List Nat) (n : Nat) : natOf (cat wb (bbNew wb ws n).words) = natOf (cat wb ws) := by
  unfold bbNew
  dsimp only
  split
  · exact natOf_cat_replicate_append _ _
  · rfl

/-- The value bits of a codeword at a declared width (R143, R160). -/
theorem vbits_valueBB (hw : 0 < wb) (v n : Nat) : vbits wb (valueBB wb v n) = bitsOf v n := by
  have h := vbits_eq_bitsOf (wb := wb) (b := valueBB wb v n) (bbNew_capacity hw _ _)
  rw [h, valueBB, natOf_cat_bbNew, natOf_cat_canon hw]
  rfl

@[simp] theorem sbits_bbAppend (hw : 0 < wb) (s v : BitBuffer) :
    sbits wb (bbAppend wb s v) = sbits wb s ++ vbits wb v := sbits_frombits hw _

/-! ## shift_left (R153) -/

theorem bitsOf_mul_two_pow (x u n : Nat) : bitsOf (x * 2 ^ u) (n + u) = bitsOf x n ++ List.replicate u false := by
  rw [bitsOf_append, Nat.mul_div_cancel _ (by positivity)]
  congr 1
  rw [bitsOf_congr (w := 0) (by simp), bitsOf_zero_value]

theorem cat_bbShiftLeft {b : BitBuffer} (h : b.bitCount ≤ b.words.length * wb) :
    cat wb (bbShiftLeft wb b).words = vbits wb b ++ List.replicate (unused wb b) false := by
  unfold bbShiftLeft
  dsimp only
  rw [cat_wordsOf, bitsOf_congr (Nat.mod_mod _ _)]
  have e : b.words.length * wb = b.bitCount + unused wb b := by unfold unused; omega
  conv_lhs => rw [e]
  rw [bitsOf_mul_two_pow, vbits_eq_bitsOf h]

/-! ## push_leading_bit (R154, R155) -/

/-- The words a bit is pushed onto: a new leading word exactly when no free bit is left. -/
theorem push_words_length (bit : Bool) (b : BitBuffer) :
    (bbPushLeadingBit wb bit b).words.length = b.words.length + if b.words.length * wb = b.bitCount then 1 else 0 := by
  unfold bbPushLeadingBit
  dsimp only
  split <;> simp

theorem setBit_testBit (x p : Nat) (bit : Bool) (i : Nat) :
    (x - (x.testBit p).toNat * 2 ^ p + bit.toNat * 2 ^ p).testBit i = if i = p then bit else x.testBit i := by
  have hx : x = 2 ^ (p + 1) * (x / 2 ^ (p + 1)) + (2 ^ p * (x.testBit p).toNat + x % 2 ^ p) := by
    have h1 := Nat.div_add_mod x (2 ^ (p + 1))
    have h2 := Nat.mod_pow_succ (x := x) (b := 2) (k := p)
    rw [Nat.toNat_testBit]
    omega
  have hy : x - (x.testBit p).toNat * 2 ^ p + bit.toNat * 2 ^ p
      = 2 ^ (p + 1) * (x / 2 ^ (p + 1)) + (2 ^ p * bit.toNat + x % 2 ^ p) := by
    rw [Nat.mul_comm (x.testBit p).toNat, Nat.mul_comm bit.toNat]
    omega
  have hlow : x % 2 ^ p < 2 ^ p := Nat.mod_lt _ (by positivity)
  have key : ∀ c : Bool, ∀ i, (2 ^ (p + 1) * (x / 2 ^ (p + 1)) + (2 ^ p * c.toNat + x % 2 ^ p)).testBit i
      = if i < p then x.testBit i else if i = p then c else x.testBit i := by
    intro c i
    have hc : 2 ^ p * c.toNat + x % 2 ^ p < 2 ^ (p + 1) := by
      rw [pow_succ]
      have : 2 ^ p * c.toNat ≤ 2 ^ p * 1 := Nat.mul_le_mul_left _ (by cases c <;> decide)
      omega
    rw [Nat.testBit_two_pow_mul_add _ hc]
    split
    · rename_i hi
      rw [Nat.testBit_two_pow_mul_add _ hlow]
      split
      · rename_i hip
        rw [Nat.testBit_mod_two_pow, decide_eq_true hip, Bool.true_and]
      · have : i = p := by omega
        subst this; cases c <;> simp
    · rename_i hi
      rw [if_neg (by omega), if_neg (by omega), Nat.testBit_div_two_pow]
      congr 1; omega
  rw [hy, key]
  by_cases hi : i = p
  · simp [hi]
  · simp [hi]

theorem bitsOf_congr_testBit {x y n : Nat} (h : ∀ i < n, x.testBit i = y.testBit i) : bitsOf x n = bitsOf y n := by
  induction n with
  | zero => rfl
  | succ n ih => rw [bitsOf, bitsOf, h n (by omega), ih fun i hi => h i (by omega)]

theorem vbits_push (hw : 0 < wb) (bit : Bool) {b : BitBuffer} (h : b.bitCount ≤ b.words.length * wb) :
    vbits wb (bbPushLeadingBit wb bit b) = bit :: vbits wb b := by
  have hcap : (bbPushLeadingBit wb bit b).bitCount ≤ (bbPushLeadingBit wb bit b).words.length * wb := by
    rw [push_words_length]
    show b.bitCount + 1 ≤ _
    split
    · rename_i he; rw [Nat.add_mul]; omega
    · simp only [Nat.add_zero]; omega
  rw [vbits_eq_bitsOf hcap, vbits_eq_bitsOf h]
  have hx : natOf (cat wb (if b.words.length * wb = b.bitCount then 0 :: b.words else b.words))
      = natOf (cat wb b.words) := by
    split
    · exact natOf_cat_replicate_append 1 b.words
    · rfl
  have hlen : (bbPushLeadingBit wb bit b).words.length
      = (if b.words.length * wb = b.bitCount then 0 :: b.words else b.words).length := by
    rw [push_words_length]; split <;> simp
  have hv : cat wb (bbPushLeadingBit wb bit b).words
      = bitsOf (natOf (cat wb b.words) - ((natOf (cat wb b.words)).testBit b.bitCount).toNat * 2 ^ b.bitCount
          + bit.toNat * 2 ^ b.bitCount) ((bbPushLeadingBit wb bit b).words.length * wb) := by
    rw [hlen, ← hx]
    unfold bbPushLeadingBit
    dsimp only
    rw [cat_wordsOf]
  rw [hv, natOf_bitsOf]
  show bitsOf _ (b.bitCount + 1) = _
  rw [bitsOf_congr_testBit (y := natOf (cat wb b.words) - ((natOf (cat wb b.words)).testBit b.bitCount).toNat
      * 2 ^ b.bitCount + bit.toNat * 2 ^ b.bitCount)]
  · rw [bitsOf, setBit_testBit, if_pos rfl]
    congr 1
    exact bitsOf_congr_testBit fun i hi => by rw [setBit_testBit, if_neg (by omega)]
  · intro i hi
    rw [Nat.testBit_mod_two_pow]
    have : i < (bbPushLeadingBit wb bit b).words.length * wb :=
      lt_of_lt_of_le (by exact hi) hcap
    simp [this]

/-! ## Bytes (R156 to R158) -/

theorem bytesOfWords_length (ws : List Nat) : (bytesOfWords wb ws).length = ws.length * (wb / 8) := by
  induction ws with
  | nil => simp [bytesOfWords]
  | cons w ws ih =>
    have e : bytesOfWords wb (w :: ws) = bytesBE (wb / 8) w ++ bytesOfWords wb ws := by simp [bytesOfWords]
    rw [e, List.length_append, ih, bytesBE_length, List.length_cons]
    ring

/-- The byte string of a word sequence has the bits of `cat` (20_memory.md R72, R73). -/
theorem bitsOfBytes_bytesOfWords (h8 : wb % 8 = 0) (ws : List Nat) : bitsOfBytes (bytesOfWords wb ws) = cat wb ws := by
  induction ws with
  | nil => rfl
  | cons w ws ih =>
    have e : bytesOfWords wb (w :: ws) = bytesBE (wb / 8) w ++ bytesOfWords wb ws := by simp [bytesOfWords]
    rw [e, bitsOfBytes_append, ih, cat_cons, bitsOfBytes_bytesBE, show 8 * (wb / 8) = wb by omega]

theorem bbToBytes_length (h8 : wb % 8 = 0) {b : BitBuffer} (h : b.bitCount ≤ b.words.length * wb) :
    (bbToBytes wb b).length = ceilDiv b.bitCount 8 := by
  rw [bbToBytes, List.length_take, bytesOfWords_length, Nat.min_eq_left]
  refine ceilDiv_le_of_le_mul (by decide) (h.trans (le_of_eq ?_))
  rw [Nat.mul_assoc, show wb / 8 * 8 = wb by omega]

theorem bitsOfBytes_take (n : Nat) (bs : List Byte) : bitsOfBytes (bs.take n) = (bitsOfBytes bs).take (8 * n) := by
  induction n generalizing bs with
  | zero => simp
  | succ n ih =>
    cases bs with
    | nil => simp
    | cons b bs =>
      rw [List.take_succ_cons, bitsOfBytes_cons, ih, bitsOfBytes_cons, Nat.mul_succ, Nat.add_comm (8 * n) 8,
        List.take_append, List.take_of_length_le (i := 8 + 8 * n) (by simp)]
      simp

theorem bitsOfBytes_drop (n : Nat) (bs : List Byte) : bitsOfBytes (bs.drop n) = (bitsOfBytes bs).drop (8 * n) := by
  induction n generalizing bs with
  | zero => simp
  | succ n ih =>
    cases bs with
    | nil => simp
    | cons b bs =>
      rw [List.drop_succ_cons, ih, bitsOfBytes_cons, Nat.mul_succ, Nat.add_comm (8 * n) 8, List.drop_append,
        List.drop_of_length_le (i := 8 + 8 * n) (by simp)]
      simp

/-- The bits of a serialized stream (R156): the stream's, then the padding of the last byte as the buffer holds it. -/
theorem bitsOfBytes_bbToBytes (h8 : wb % 8 = 0) (b : BitBuffer) :
    bitsOfBytes (bbToBytes wb b) = (cat wb b.words).take (8 * ceilDiv b.bitCount 8) := by
  rw [bbToBytes, bitsOfBytes_take, bitsOfBytes_bytesOfWords h8]

theorem bbFromBytes_pad_length (hw : 8 ≤ wb) (bs : List Byte) :
    (bs ++ List.replicate ((wb / 8 - bs.length % (wb / 8)) % (wb / 8)) (0x00 : Byte)).length
      = ceilDiv bs.length (wb / 8) * (wb / 8) := by
  simp [length_add_pad (show 0 < wb / 8 by omega)]

@[simp] theorem bbFromBytes_words_length (bs : List Byte) :
    (bbFromBytes wb bs).words.length = ceilDiv bs.length (wb / 8) := by simp [bbFromBytes]

@[simp] theorem bbFromBytes_bitCount (bs : List Byte) : (bbFromBytes wb bs).bitCount = 8 * bs.length := rfl

theorem map_natOfBytes (n : Nat) (cs : List (List Byte)) (h : ∀ c ∈ cs, c.length = n) :
    cs.flatMap (fun c => bytesBE n (natOfBytes c)) = cs.flatten := by
  induction cs with
  | nil => rfl
  | cons c cs ih =>
    rw [List.flatMap_cons, ih fun x hx => h x (by simp [hx]), List.flatten_cons]
    congr 1
    have := bytesBE_natOfBytes c
    rwa [h c (by simp)] at this

theorem bytesOfWords_bbFromBytes (hw : 8 ≤ wb) (bs : List Byte) :
    bytesOfWords wb (bbFromBytes wb bs).words
      = bs ++ List.replicate ((wb / 8 - bs.length % (wb / 8)) % (wb / 8)) 0x00 := by
  have hl := bbFromBytes_pad_length hw bs
  unfold bytesOfWords bbFromBytes
  dsimp only
  rw [List.flatMap_map, map_natOfBytes _ _ (chunks_mem_length hl), chunks_flatten hl]

theorem bbFromBytes_words_lt (hw : 8 ≤ wb) (h8 : wb % 8 = 0) (bs : List Byte) :
    ∀ w ∈ (bbFromBytes wb bs).words, w < 2 ^ wb := by
  intro w hwm
  simp only [bbFromBytes, List.mem_map] at hwm
  obtain ⟨c, hc, rfl⟩ := hwm
  have := natOfBytes_lt c
  rw [chunks_mem_length (bbFromBytes_pad_length hw bs) c hc, show (256 : Nat) = 2 ^ 8 by norm_num, ← pow_mul,
    show 8 * (wb / 8) = wb by omega] at this
  exact this

/-- The bits of a deserialized byte string (R157): its own, then zeros. -/
theorem cat_bbFromBytes (hw : 8 ≤ wb) (h8 : wb % 8 = 0) (bs : List Byte) :
    cat wb (bbFromBytes wb bs).words
      = bitsOfBytes bs ++ List.replicate (8 * ((wb / 8 - bs.length % (wb / 8)) % (wb / 8))) false := by
  rw [← bitsOfBytes_bytesOfWords h8, bytesOfWords_bbFromBytes hw, bitsOfBytes_append]
  exact congrArg _ (bitsOfBytes_replicate_zero _)

theorem sbits_bbFromBytes (hw : 8 ≤ wb) (h8 : wb % 8 = 0) (bs : List Byte) :
    sbits wb (bbFromBytes wb bs) = bitsOfBytes bs := by
  rw [sbits, cat_bbFromBytes hw h8, List.take_left']
  simp

end Sys2Proof.Machine
end

