-- ==== Sys2Proof/Laws/HuffmanTree.lean ====
section
/-! SUPPORT. The Huffman tree engine (44_huffman_tree.md): what a load makes, what one merge does to the subtrees and their
codewords, that every operation keeps `Hft.Ok`, and that construction ends after one merge per leaf but one. -/

namespace Sys2Proof.Machine

variable {wb : Nat}

/-! ## Codewords under PUSH_LEADING_BIT (41_bitbuffer.md R155) -/

theorem CodeOk.capacity (hv : 0 < wb) {b : BitBuffer} (h : CodeOk wb b) : b.bitCount ≤ b.words.length * wb := by
  rw [h.1]; exact ceilDiv_mul_ge hv

theorem codeOk_nil (hv : 0 < wb) : CodeOk wb ⟨[], 0⟩ := by
  refine ⟨?_, by simp, by simp [unused]⟩
  rw [ceilDiv_zero hv]; rfl

theorem codeOk_zero (hv : 0 < wb) : CodeOk wb ⟨[0], 1⟩ := by
  refine ⟨?_, by simp, ?_⟩
  · show 1 = ceilDiv 1 wb
    exact (ceilDiv_unique hv (by omega) (by omega)).symm
  · simp [unused, cat_cons, bitsOf_zero_value]

/-- The number a codeword's words hold is below `2^bit_count`. -/
theorem CodeOk.natOf_lt (hv : 0 < wb) {b : BitBuffer} (h : CodeOk wb b) : natOf (cat wb b.words) < 2 ^ b.bitCount := by
  have hc := h.capacity hv
  have e := List.take_append_drop (unused wb b) (cat wb b.words)
  rw [h.2.2] at e
  rw [← e, natOf_append, natOf_replicate_false, Nat.zero_mul, Nat.zero_add]
  have := Machine.natOf_lt ((cat wb b.words).drop (unused wb b))
  rw [List.length_drop, cat_length, unused] at this
  rwa [show b.words.length * wb - (b.words.length * wb - b.bitCount) = b.bitCount by omega] at this

theorem codeOk_of_natOf_lt {b : BitBuffer} (hl : b.words.length = ceilDiv b.bitCount wb) (hv : 0 < wb)
    (hw : ∀ w ∈ b.words, w < 2 ^ wb) (hn : natOf (cat wb b.words) < 2 ^ b.bitCount) : CodeOk wb b := by
  refine ⟨hl, hw, ?_⟩
  have hc : b.bitCount ≤ b.words.length * wb := by rw [hl]; exact ceilDiv_mul_ge hv
  have e : b.words.length * wb = unused wb b + b.bitCount := by unfold unused; omega
  rw [cat_eq_bitsOf, e, bitsOf_take, Nat.div_eq_of_lt hn, bitsOf_zero_value]

theorem CodeOk.push (hv : 0 < wb) {b : BitBuffer} (h : CodeOk wb b) (bit : Bool) :
    CodeOk wb (bbPushLeadingBit wb bit b) := by
  have hcap := h.capacity hv
  have hlt := h.natOf_lt hv
  have hlen := push_words_length (wb := wb) bit b
  have hceil := ceilDiv_mul_lt (a := b.bitCount) hv
  rw [← h.1] at hceil
  have hwords : (bbPushLeadingBit wb bit b).words.length = ceilDiv (b.bitCount + 1) wb := by
    rw [hlen]
    symm
    split
    · rename_i he
      refine ceilDiv_unique hv ?_ ?_ <;> rw [Nat.add_mul] <;> omega
    · exact ceilDiv_unique hv (by simp only [Nat.add_zero]; omega) (by simp only [Nat.add_zero]; omega)
  refine codeOk_of_natOf_lt hwords hv ?_ ?_
  · intro w hw
    unfold bbPushLeadingBit at hw
    exact wordsOf_lt w hw
  · have hc2 : b.bitCount + 1 ≤ (bbPushLeadingBit wb bit b).words.length * wb := by
      rw [hwords]; exact ceilDiv_mul_ge hv
    have hx : natOf (cat wb (if b.words.length * wb = b.bitCount then 0 :: b.words else b.words))
        = natOf (cat wb b.words) := by
      split
      · exact natOf_cat_replicate_append 1 b.words
      · rfl
    have hb : (natOf (cat wb b.words)).testBit b.bitCount = false := Nat.testBit_lt_two_pow hlt
    show natOf (cat wb (bbPushLeadingBit wb bit b).words) < 2 ^ (b.bitCount + 1)
    unfold bbPushLeadingBit
    dsimp only
    rw [cat_wordsOf, natOf_bitsOf, hx, hb]
    refine lt_of_le_of_lt (Nat.mod_le _ _) ?_
    have : bit.toNat ≤ 1 := by cases bit <;> decide
    have := Nat.mul_le_mul_right (2 ^ b.bitCount) this
    rw [pow_succ]
    simp only [Bool.toNat_false, Nat.zero_mul, Nat.sub_zero]
    omega

/-! ## What one merge does to a leaf (R235) -/

theorem mergeLeaf_sym (lo hi : Byte) (w : Nat) (l : Leaf) : (mergeLeaf wb lo hi w l).sym = l.sym := by
  unfold mergeLeaf; split
  · rfl
  · split <;> rfl

theorem mergeLeaf_id (lo hi : Byte) (w : Nat) (l : Leaf) :
    (mergeLeaf wb lo hi w l).id = if l.id = hi then lo else l.id := by
  unfold mergeLeaf
  split
  · rename_i h
    show l.id = _
    split
    · exact h
    · rfl
  · split <;> rfl

theorem mergeLeaf_weight (lo hi : Byte) (w : Nat) (l : Leaf) :
    (mergeLeaf wb lo hi w l).weight = if l.id = lo ∨ l.id = hi then w else l.weight := by
  unfold mergeLeaf
  split
  · rename_i h; rw [if_pos (.inl h)]
  · rename_i h
    split
    · rename_i h'; rw [if_pos (.inr h')]
    · rename_i h'; rw [if_neg (by tauto)]

/-- The codeword bits after a merge. -/
theorem mergeLeaf_bits (hv : 0 < wb) {lo hi : Byte} (w : Nat) {l : Leaf} (hc : CodeOk wb l.code) :
    vbits wb (mergeLeaf wb lo hi w l).code
      = if l.id = lo then false :: vbits wb l.code else if l.id = hi then true :: vbits wb l.code
        else vbits wb l.code := by
  unfold mergeLeaf
  split
  · exact vbits_push hv false (hc.capacity hv)
  · split
    · exact vbits_push hv true (hc.capacity hv)
    · rfl

theorem mergeLeaf_codeOk (hv : 0 < wb) {lo hi : Byte} (w : Nat) {l : Leaf} (hc : CodeOk wb l.code) :
    CodeOk wb (mergeLeaf wb lo hi w l).code := by
  unfold mergeLeaf
  split
  · exact hc.push hv false
  · split
    · exact hc.push hv true
    · exact hc

/-! ## Selection (R233, R234) -/

theorem firstLightest_none {ls : List Leaf} : firstLightest ls = none ↔ ls = [] := by
  cases ls with
  | nil => simp [firstLightest]
  | cons l ls =>
    simp only [firstLightest, reduceCtorEq, iff_false]
    split
    · simp
    · split <;> simp

/-- The leaf selected is the first one of minimum weight. -/
theorem firstLightest_some {ls : List Leaf} {m : Leaf} (h : firstLightest ls = some m) :
    ∃ pre post, ls = pre ++ m :: post ∧ (∀ l ∈ pre, m.weight < l.weight) ∧ (∀ l ∈ ls, m.weight ≤ l.weight) := by
  induction ls generalizing m with
  | nil => simp [firstLightest] at h
  | cons l ls ih =>
    rw [firstLightest] at h
    cases hf : firstLightest ls with
    | none =>
      rw [hf] at h
      rw [firstLightest_none] at hf
      subst hf
      obtain rfl := Option.some.inj h
      exact ⟨[], [], rfl, by simp, by simp⟩
    | some x =>
      rw [hf] at h
      dsimp only at h
      obtain ⟨pre, post, he, h1, h2⟩ := ih hf
      split at h
      · rename_i hle
        obtain rfl := Option.some.inj h
        refine ⟨[], ls, rfl, by simp, ?_⟩
        intro y hy
        rcases List.mem_cons.1 hy with rfl | hy
        · exact le_rfl
        · exact hle.trans (h2 y hy)
      · rename_i hgt
        obtain rfl := Option.some.inj h
        refine ⟨l :: pre, post, by rw [he]; rfl, ?_, ?_⟩
        · intro y hy
          rcases List.mem_cons.1 hy with rfl | hy
          · omega
          · exact h1 y hy
        · intro y hy
          rcases List.mem_cons.1 hy with rfl | hy
          · omega
          · exact h2 y hy

theorem firstLightest_mem {ls : List Leaf} {m : Leaf} (h : firstLightest ls = some m) : m ∈ ls := by
  obtain ⟨pre, post, rfl, -⟩ := firstLightest_some h
  simp

/-! ## Subtrees -/

/-- The subtree ids as a set. -/
def idSet (ls : List Leaf) : Finset Byte := (ls.map (·.id)).toFinset

theorem mem_idSet {ls : List Leaf} {i : Byte} : i ∈ idSet ls ↔ ∃ l ∈ ls, l.id = i := by simp [idSet]

theorem subtreeIds_length (ls : List Leaf) : (subtreeIds ls).length = (idSet ls).card := by
  rw [subtreeIds, idSet, List.card_toFinset]

theorem subtreeIds_sum (ls : List Leaf) (f : Byte → Nat) : ((subtreeIds ls).map f).sum = ∑ i ∈ idSet ls, f i := by
  rw [subtreeIds, idSet, ← List.sum_toFinset f (List.nodup_dedup _)]
  congr 1
  ext i; simp

/-- The weight of a subtree is that of any of its leaves. -/
theorem subtreeWeight_eq {ls : List Leaf} (h : ∀ l ∈ ls, ∀ m ∈ ls, l.id = m.id → l.weight = m.weight) {l : Leaf}
    (hl : l ∈ ls) : subtreeWeight ls l.id = l.weight := by
  unfold subtreeWeight
  cases hf : ls.find? (fun m => m.id == l.id) with
  | none =>
    have := List.find?_eq_none.1 hf l hl
    simp at this
  | some m =>
    have h1 := List.mem_of_find?_eq_some hf
    have h2 := List.find?_some hf
    simp only [beq_iff_eq] at h2
    exact h m h1 l hl h2

/-! ## Loading (R231, R232, R240) -/

theorem mem_leavesOf {f : List Nat} {l : Leaf} :
    l ∈ leavesOf f ↔ ∃ b n, f[b]? = some n ∧ 0 < n ∧
      l = { code := ⟨[], 0⟩, sym := BitVec.ofNat 8 b, id := BitVec.ofNat 8 b, weight := n } := by
  unfold leavesOf
  simp only [List.mem_filterMap, Prod.exists, List.mem_zipIdx_iff_getElem?]
  constructor
  · rintro ⟨n, b, hb, h⟩
    split at h
    · exact ⟨b, n, hb, ‹_›, (Option.some.inj h).symm⟩
    · cases h
  · rintro ⟨b, n, hb, hn, rfl⟩
    exact ⟨n, b, hb, by rw [if_pos hn]⟩

theorem leavesOf_id {f : List Nat} {l : Leaf} (h : l ∈ leavesOf f) : l.id = l.sym ∧ l.code = ⟨[], 0⟩ ∧ 0 < l.weight := by
  obtain ⟨b, n, -, hn, rfl⟩ := mem_leavesOf.1 h
  exact ⟨rfl, rfl, hn⟩

/-- The symbols of the leaves, in ascending byte order. -/
theorem leavesOf_sorted {f : List Nat} (hf : f.length ≤ 256) :
    (leavesOf f).Pairwise (fun l m => l.sym.toNat < m.sym.toNat) := by
  unfold leavesOf
  rw [List.pairwise_filterMap]
  have hz : f.zipIdx.Pairwise (fun a b => a.2 < b.2) := by
    rw [List.pairwise_iff_getElem]
    intro i j hi hj hij
    simpa using hij
  have hm : ∀ e ∈ f.zipIdx, e.2 < 256 := by
    rintro ⟨n, b⟩ he
    rw [List.mem_zipIdx_iff_getElem?] at he
    have := (List.getElem?_eq_some_iff.1 he).1
    dsimp only at this ⊢
    omega
  refine List.Pairwise.imp_of_mem ?_ hz
  rintro ⟨n, a⟩ ⟨m, b⟩ ha hb hab l hl k hk
  dsimp only at hl hk hab
  have h1 := hm _ ha
  have h2 := hm _ hb
  dsimp only at h1 h2
  split at hl <;> simp only [Option.some.injEq, reduceCtorEq] at hl
  split at hk <;> simp only [Option.some.injEq, reduceCtorEq] at hk
  subst hl hk
  simp only [BitVec.toNat_ofNat]
  omega

theorem leavesOf_nodup {f : List Nat} (hf : f.length ≤ 256) : ((leavesOf f).map (·.sym)).Nodup := by
  rw [List.Nodup, List.pairwise_map]
  exact (leavesOf_sorted hf).imp fun h e => by rw [e] at h; omega

theorem leavesOf_weight_aux (f : List Nat) (k : Nat) :
    (((f.zipIdx k).filterMap fun e : Nat × Nat => if 0 < e.1 then
      some (Leaf.mk ⟨[], 0⟩ (BitVec.ofNat 8 e.2) (BitVec.ofNat 8 e.2) e.1) else none).map (·.weight)).sum = f.sum := by
  induction f generalizing k with
  | nil => rfl
  | cons n f ih =>
    rw [List.zipIdx_cons, List.filterMap_cons]
    dsimp only
    by_cases hn : 0 < n
    · rw [if_pos hn]
      simp only [List.map_cons, List.sum_cons, ih]
    · rw [if_neg hn]
      simp only [List.sum_cons, ih]
      omega

theorem leavesOf_weight (f : List Nat) : ((leavesOf f).map (·.weight)).sum = f.sum := leavesOf_weight_aux f 0

theorem sortLeaves_perm (ls : List Leaf) : (sortLeaves ls).Perm ls := List.perm_insertionSort _ _

theorem mem_sortLeaves {ls : List Leaf} {l : Leaf} : l ∈ sortLeaves ls ↔ l ∈ ls := (sortLeaves_perm ls).mem_iff

/-- Where every leaf is its own subtree, the ids are the symbols. -/
theorem subtreeIds_of_nodup {ls : List Leaf} (h : (ls.map (·.id)).Nodup) : subtreeIds ls = ls.map (·.id) :=
  h.dedup

theorem Hft.load_ok {f : List Nat} {h : Hft} (hl : Hft.load f = .ok h) :
    0 < f.sum ∧ h = { mode := .building, leaves := sortLeaves (leavesOf f), total := f.sum, merges := 0 } := by
  unfold Hft.load at hl
  split at hl
  · cases hl
  · cases hl; exact ⟨by omega, rfl⟩

/-- The engine a frequency table loads. -/
def Hft.loaded (f : List Nat) : Hft :=
  { mode := .building, leaves := sortLeaves (leavesOf f), total := f.sum, merges := 0 }

theorem Hft.load_eq {f : List Nat} (h : 0 < f.sum) : Hft.load f = .ok (Hft.loaded f) := by
  unfold Hft.load
  rw [if_neg (by omega)]
  rfl

theorem Hft.loaded_ids {f : List Nat} (hf : f.length ≤ 256) : ((Hft.loaded f).leaves.map (·.id)).Nodup := by
  have e : (sortLeaves (leavesOf f)).map (·.id) = (sortLeaves (leavesOf f)).map (·.sym) :=
    List.map_congr_left fun l hl => (leavesOf_id (mem_sortLeaves.1 hl)).1
  show ((sortLeaves (leavesOf f)).map (·.id)).Nodup
  rw [e, ((sortLeaves_perm _).map _).nodup_iff]
  exact leavesOf_nodup hf

theorem Hft.loaded_ok (hv : 0 < wb) {f : List Nat} (hf : f.length ≤ 256) (hs : 0 < f.sum) : (Hft.loaded f).Ok wb := by
  have hn := Hft.loaded_ids hf
  have hmem : ∀ l ∈ (Hft.loaded f).leaves, l ∈ leavesOf f := fun l hl => mem_sortLeaves.1 hl
  have hinj : ∀ l ∈ (Hft.loaded f).leaves, ∀ m ∈ (Hft.loaded f).leaves, l.id = m.id → l = m :=
    fun l hl m hm e => List.inj_on_of_nodup_map hn hl hm e
  have hsame : ∀ l ∈ (Hft.loaded f).leaves, ∀ m ∈ (Hft.loaded f).leaves, l.id = m.id → l.weight = m.weight :=
    fun l hl m hm e => by rw [hinj l hl m hm e]
  refine ⟨?_, fun l hl => (leavesOf_id (hmem l hl)).2.2, hsame, ?_, ?_, ?_, ?_, ?_, ?_, ?_, ?_⟩
  · show ((sortLeaves (leavesOf f)).map (·.sym)).Nodup
    rw [((sortLeaves_perm _).map _).nodup_iff]
    exact leavesOf_nodup hf
  · rw [subtreeIds_of_nodup hn, List.map_map]
    have e : (Hft.loaded f).leaves.map (subtreeWeight (Hft.loaded f).leaves ∘ (·.id))
        = (Hft.loaded f).leaves.map (·.weight) :=
      List.map_congr_left fun l hl => subtreeWeight_eq hsame hl
    rw [e]
    show ((sortLeaves (leavesOf f)).map (·.weight)).sum = f.sum
    rw [((sortLeaves_perm _).map _).sum_eq, leavesOf_weight]
  · rw [subtreeIds_of_nodup hn]
    show ((Hft.loaded f).leaves.map (·.id)).length + 0 = _
    simp
  · intro l hl
    rw [(leavesOf_id (hmem l hl)).2.1]
    exact codeOk_nil hv
  · intro l hl m hm e hne
    exact absurd (congrArg Leaf.sym (hinj l hl m hm e)) hne
  · intro l hl
    rw [(leavesOf_id (hmem l hl)).2.1]
    exact Nat.zero_le _
  · intro l hl bits _
    refine ⟨l, hl, rfl, ?_⟩
    rw [(leavesOf_id (hmem l hl)).2.1]
    simp [vbits]
  · intro _ he
    have h1 := leavesOf_weight f
    have h2 : leavesOf f = [] := by
      have := (sortLeaves_perm (leavesOf f)).length_eq
      rw [show sortLeaves (leavesOf f) = [] from he] at this
      exact List.length_eq_zero_iff.1 this.symm
    rw [h2] at h1
    simp at h1
    omega
  · intro h; cases h

/-! ## One merge keeps the invariant (R235) -/

/-- The two subtrees a merge joins. -/
structure Selected (h : Hft) (m1 m2 : Leaf) : Prop where
  mem1 : m1 ∈ h.leaves
  mem2 : m2 ∈ h.leaves
  ne : m2.id ≠ m1.id
  unfinished : ∀ l ∈ h.leaves, l.weight ≠ h.total

theorem Hft.select_some {h : Hft} {m1 m2 : Leaf} (hs : h.select = some (m1, m2)) : Selected h m1 m2 := by
  unfold Hft.select at hs
  split at hs
  · cases hs
  · rename_i hany
    split at hs
    · cases hs
    · rename_i x1 h1
      split at hs
      · cases hs
      · rename_i x2 h2
        split at hs
        · cases hs
        · obtain ⟨rfl, rfl⟩ := Prod.mk.inj (Option.some.inj hs)
          have := firstLightest_mem h2
          rw [List.mem_filter] at this
          refine ⟨firstLightest_mem h1, this.1, by simpa using this.2, ?_⟩
          simpa using hany

/-- The leaves after a merge. -/
def merged (wb : Nat) (m1 m2 : Leaf) (ls : List Leaf) : List Leaf :=
  ls.map (mergeLeaf wb m1.id m2.id (m1.weight + m2.weight))

theorem mem_merged {m1 m2 x : Leaf} {ls : List Leaf} (h : x ∈ merged wb m1 m2 ls) :
    ∃ l ∈ ls, mergeLeaf wb m1.id m2.id (m1.weight + m2.weight) l = x := List.mem_map.1 h

theorem idSet_merged {h : Hft} {m1 m2 : Leaf} (hs : Selected h m1 m2) :
    idSet (merged wb m1 m2 h.leaves) = (idSet h.leaves).erase m2.id := by
  ext i
  rw [Finset.mem_erase, mem_idSet, mem_idSet]
  constructor
  · rintro ⟨x, hx, rfl⟩
    obtain ⟨l, hl, rfl⟩ := mem_merged hx
    rw [mergeLeaf_id]
    split
    · exact ⟨fun e => hs.ne e.symm, m1, hs.mem1, rfl⟩
    · exact ⟨‹_›, l, hl, rfl⟩
  · rintro ⟨hne, l, hl, rfl⟩
    refine ⟨_, List.mem_map_of_mem hl, ?_⟩
    rw [mergeLeaf_id, if_neg hne]

theorem merged_subtrees {h : Hft} {m1 m2 : Leaf} (hs : Selected h m1 m2) :
    (subtreeIds (merged wb m1 m2 h.leaves)).length + 1 = (subtreeIds h.leaves).length := by
  rw [subtreeIds_length, subtreeIds_length, idSet_merged hs, Finset.card_erase_of_mem (mem_idSet.2 ⟨m2, hs.mem2, rfl⟩)]
  have : 0 < (idSet h.leaves).card := Finset.card_pos.2 ⟨_, mem_idSet.2 ⟨m2, hs.mem2, rfl⟩⟩
  omega

theorem Hft.Ok.merge (hv : 0 < wb) {h : Hft} (ho : h.Ok wb) {m1 m2 : Leaf} (hs : Selected h m1 m2)
    (hm : h.mode = .building) :
    ({ h with leaves := merged wb m1 m2 h.leaves, merges := h.merges + 1 } : Hft).Ok wb := by
  have hne := hs.ne
  have hsame : ∀ x ∈ merged wb m1 m2 h.leaves, ∀ y ∈ merged wb m1 m2 h.leaves, x.id = y.id → x.weight = y.weight := by
    intro x hx y hy e
    obtain ⟨l, hl, rfl⟩ := mem_merged hx
    obtain ⟨k, hk, rfl⟩ := mem_merged hy
    rw [mergeLeaf_id, mergeLeaf_id] at e
    rw [mergeLeaf_weight, mergeLeaf_weight]
    have key := ho.sameWeight l hl k hk
    by_cases h1 : l.id = m2.id
    · rw [if_pos h1] at e
      rw [if_pos (.inr h1)]
      by_cases h2 : k.id = m2.id
      · rw [if_pos (.inr h2)]
      · rw [if_neg h2] at e; rw [if_pos (.inl e.symm)]
    · rw [if_neg h1] at e
      by_cases h2 : k.id = m2.id
      · rw [if_pos h2] at e
        rw [if_pos (Or.inl e), if_pos (Or.inr h2)]
      · rw [if_neg h2] at e
        rw [e, key e]
  refine ⟨?_, ?_, hsame, ?_, ?_, ?_, ?_, ?_, ?_, ?_, ?_⟩
  · show ((merged wb m1 m2 h.leaves).map (·.sym)).Nodup
    unfold merged
    rw [List.map_map, show ((·.sym) ∘ mergeLeaf wb m1.id m2.id (m1.weight + m2.weight)) = (·.sym) from
      funext fun l => mergeLeaf_sym _ _ _ l]
    exact ho.symbols
  · intro x hx
    obtain ⟨l, hl, rfl⟩ := mem_merged hx
    rw [mergeLeaf_weight]
    have := ho.positive l hl
    have := ho.positive m1 hs.mem1
    split <;> omega
  · show ((subtreeIds (merged wb m1 m2 h.leaves)).map (subtreeWeight (merged wb m1 m2 h.leaves))).sum = h.total
    have ht := ho.total
    rw [subtreeIds_sum] at ht ⊢
    rw [idSet_merged hs]
    have i1 : m1.id ∈ (idSet h.leaves).erase m2.id :=
      Finset.mem_erase.2 ⟨fun e => hne e.symm, mem_idSet.2 ⟨m1, hs.mem1, rfl⟩⟩
    have i2 : m2.id ∈ idSet h.leaves := mem_idSet.2 ⟨m2, hs.mem2, rfl⟩
    rw [← Finset.add_sum_erase _ _ i2, ← Finset.add_sum_erase _ _ i1] at ht
    rw [← Finset.add_sum_erase _ _ i1]
    have w1 : subtreeWeight h.leaves m1.id = m1.weight := subtreeWeight_eq ho.sameWeight hs.mem1
    have w2 : subtreeWeight h.leaves m2.id = m2.weight := subtreeWeight_eq ho.sameWeight hs.mem2
    have hw : ∀ l ∈ h.leaves, subtreeWeight (merged wb m1 m2 h.leaves) (if l.id = m2.id then m1.id else l.id)
        = if l.id = m1.id ∨ l.id = m2.id then m1.weight + m2.weight else l.weight := by
      intro l hl
      have := subtreeWeight_eq hsame (List.mem_map_of_mem (f := mergeLeaf wb m1.id m2.id (m1.weight + m2.weight)) hl)
      rwa [mergeLeaf_id, mergeLeaf_weight] at this
    have w1' : subtreeWeight (merged wb m1 m2 h.leaves) m1.id = m1.weight + m2.weight := by
      have := hw m1 hs.mem1
      rwa [if_neg (fun e => hne e.symm), if_pos (.inl rfl)] at this
    rw [w1']
    rw [w1, w2] at ht
    rw [← ht]
    have hrest : ∑ i ∈ ((idSet h.leaves).erase m2.id).erase m1.id, subtreeWeight (merged wb m1 m2 h.leaves) i
        = ∑ i ∈ ((idSet h.leaves).erase m2.id).erase m1.id, subtreeWeight h.leaves i := by
      refine Finset.sum_congr rfl fun i hi => ?_
      rw [Finset.mem_erase, Finset.mem_erase] at hi
      obtain ⟨l, hl, rfl⟩ := mem_idSet.1 hi.2.2
      have := hw l hl
      rw [if_neg hi.2.1, if_neg (by tauto)] at this
      rw [this, subtreeWeight_eq ho.sameWeight hl]
    rw [hrest]
    omega
  · show (subtreeIds (merged wb m1 m2 h.leaves)).length + (h.merges + 1) = (merged wb m1 m2 h.leaves).length
    have h1 := merged_subtrees (wb := wb) hs
    have h2 := ho.merges
    have h3 : (merged wb m1 m2 h.leaves).length = h.leaves.length := by simp [merged]
    omega
  · intro x hx
    obtain ⟨l, hl, rfl⟩ := mem_merged hx
    exact mergeLeaf_codeOk hv _ (ho.codes l hl)
  · intro x hx y hy e hsym
    obtain ⟨l, hl, rfl⟩ := mem_merged hx
    obtain ⟨k, hk, rfl⟩ := mem_merged hy
    rw [mergeLeaf_id, mergeLeaf_id] at e
    rw [mergeLeaf_sym, mergeLeaf_sym] at hsym
    rw [mergeLeaf_bits hv _ (ho.codes l hl), mergeLeaf_bits hv _ (ho.codes k hk)]
    have hpf := ho.prefixFree l hl k hk
    by_cases l1 : l.id = m1.id
    · by_cases k1 : k.id = m1.id
      · rw [if_pos l1, if_pos k1, List.prefix_cons_inj]
        exact hpf (by rw [l1, k1]) hsym
      · by_cases k2 : k.id = m2.id
        · rw [if_pos l1, if_neg k1, if_pos k2, List.cons_prefix_cons]; simp
        · rw [if_neg k2, if_neg (by rw [l1]; exact fun e => hne e.symm)] at e
          exact absurd (e.symm.trans l1) k1
    · by_cases l2 : l.id = m2.id
      · by_cases k1 : k.id = m1.id
        · rw [if_neg l1, if_pos l2, if_pos k1, List.cons_prefix_cons]; simp
        · by_cases k2 : k.id = m2.id
          · rw [if_neg l1, if_pos l2, if_neg k1, if_pos k2, List.prefix_cons_inj]
            exact hpf (by rw [l2, k2]) hsym
          · rw [if_pos l2, if_neg k2] at e
            exact absurd e.symm k1
      · rw [if_neg l2] at e
        by_cases k2 : k.id = m2.id
        · rw [if_pos k2] at e; exact absurd e l1
        · rw [if_neg k2] at e
          rw [if_neg l1, if_neg l2, if_neg (fun h => l1 (e.trans h)), if_neg k2]
          exact hpf e hsym
  · intro x hx
    obtain ⟨l, hl, rfl⟩ := mem_merged hx
    have hd := ho.depth l hl
    have hb := mergeLeaf_bits hv (lo := m1.id) (hi := m2.id) (m1.weight + m2.weight) (ho.codes l hl)
    have hb := congrArg List.length hb
    rw [vbits_length ((mergeLeaf_codeOk hv _ (ho.codes l hl)).capacity hv)] at hb
    rw [hb]
    show _ ≤ h.merges + 1
    split
    · rw [List.length_cons, vbits_length ((ho.codes l hl).capacity hv)]; omega
    · split
      · rw [List.length_cons, vbits_length ((ho.codes l hl).capacity hv)]; omega
      · rw [vbits_length ((ho.codes l hl).capacity hv)]; omega
  · intro x hx bits hall
    obtain ⟨l, hl, rfl⟩ := mem_merged hx
    have hmem : ∀ k ∈ h.leaves, mergeLeaf wb m1.id m2.id (m1.weight + m2.weight) k ∈ merged wb m1 m2 h.leaves :=
      fun k hk => List.mem_map_of_mem hk
    have hall' : ∀ k ∈ h.leaves, (if k.id = m2.id then m1.id else k.id) = (if l.id = m2.id then m1.id else l.id) →
        (if k.id = m1.id then false :: vbits wb k.code else if k.id = m2.id then true :: vbits wb k.code
          else vbits wb k.code).length ≤ bits.length := by
      intro k hk e
      have := hall _ (hmem k hk) (by rw [mergeLeaf_id, mergeLeaf_id]; exact e)
      rwa [mergeLeaf_bits hv _ (ho.codes k hk)] at this
    have hback : ∀ k ∈ h.leaves, (if k.id = m2.id then m1.id else k.id) = (if l.id = m2.id then m1.id else l.id) →
        (if k.id = m1.id then false :: vbits wb k.code else if k.id = m2.id then true :: vbits wb k.code
          else vbits wb k.code) <+: bits →
        ∃ m ∈ merged wb m1 m2 h.leaves, m.id = (mergeLeaf wb m1.id m2.id (m1.weight + m2.weight) l).id ∧
          vbits wb m.code <+: bits := by
      intro k hk e hp
      refine ⟨_, hmem k hk, by rw [mergeLeaf_id, mergeLeaf_id]; exact e, ?_⟩
      rwa [mergeLeaf_bits hv _ (ho.codes k hk)]
    by_cases hin : l.id = m1.id ∨ l.id = m2.id
    · have hl' : (if l.id = m2.id then m1.id else l.id) = m1.id := by
        rcases hin with h1 | h1
        · split <;> [rfl; exact h1]
        · rw [if_pos h1]
      rw [hl'] at hall' hback
      have h1 := hall' m1 hs.mem1 (by rw [if_neg (fun e => hne e.symm)])
      rw [if_pos rfl, List.length_cons] at h1
      cases bits with
      | nil => simp at h1
      | cons b bits =>
        cases b with
        | false =>
          obtain ⟨k, hk, e, hp⟩ := ho.full m1 hs.mem1 bits (fun k hk e => by
            have := hall' k hk (by rw [if_neg (by rw [e]; exact fun e => hne e.symm), e])
            rw [if_pos e] at this
            simpa using this)
          refine hback k hk (by rw [if_neg (by rw [e]; exact fun e => hne e.symm), e]) ?_
          rw [if_pos e, List.prefix_cons_inj]
          exact hp
        | true =>
          obtain ⟨k, hk, e, hp⟩ := ho.full m2 hs.mem2 bits (fun k hk e => by
            have := hall' k hk (by rw [if_pos e])
            rw [if_neg (by rw [e]; exact hne), if_pos e] at this
            simpa using this)
          refine hback k hk (by rw [if_pos e]) ?_
          rw [if_neg (by rw [e]; exact hne), if_pos e, List.prefix_cons_inj]
          exact hp
    · have hl1 : l.id ≠ m1.id := fun e => hin (.inl e)
      have hl2 : l.id ≠ m2.id := fun e => hin (.inr e)
      rw [if_neg hl2] at hall' hback
      obtain ⟨k, hk, e, hp⟩ := ho.full l hl bits (fun k hk e => by
        have := hall' k hk (by rw [if_neg (by rw [e]; exact hl2), e])
        rwa [if_neg (by rw [e]; exact hl1), if_neg (by rw [e]; exact hl2)] at this)
      refine hback k hk (by rw [if_neg (by rw [e]; exact hl2), e]) ?_
      rwa [if_neg (by rw [e]; exact hl1), if_neg (by rw [e]; exact hl2)]
  · intro hm' he
    have : h.leaves = [] := by
      have h3 : (merged wb m1 m2 h.leaves).length = h.leaves.length := by simp [merged]
      rw [show merged wb m1 m2 h.leaves = [] from he] at h3
      exact List.length_eq_zero_iff.1 h3.symm
    have hm1 := hs.mem1
    rw [this] at hm1
    exact absurd hm1 (by simp)
  · intro hd
    rw [show ({ h with leaves := merged wb m1 m2 h.leaves, merges := h.merges + 1 } : Hft).mode = h.mode from rfl,
      hm] at hd
    cases hd

/-! ## The end of construction (R236, R241) -/

/-- Where nothing is selected, one subtree is left. -/
theorem Hft.Ok.select_none {h : Hft} (ho : h.Ok wb) (hl : h.leaves ≠ []) (hs : h.select = none) :
    (subtreeIds h.leaves).length = 1 := by
  have hone : ∀ l ∈ h.leaves, (∀ m ∈ h.leaves, m.id = l.id) → (subtreeIds h.leaves).length = 1 := by
    intro l hlm hall
    rw [subtreeIds_length, Finset.card_eq_one]
    refine ⟨l.id, ?_⟩
    ext i
    rw [mem_idSet, Finset.mem_singleton]
    constructor
    · rintro ⟨m, hm, rfl⟩; exact hall m hm
    · rintro rfl; exact ⟨l, hlm, rfl⟩
  unfold Hft.select at hs
  split at hs
  · rename_i hany
    rw [List.any_eq_true] at hany
    obtain ⟨l, hlm, hw⟩ := hany
    rw [beq_iff_eq] at hw
    refine hone l hlm fun m hm => ?_
    by_contra hne
    have ht := ho.total
    rw [subtreeIds_sum] at ht
    have i1 : l.id ∈ idSet h.leaves := mem_idSet.2 ⟨l, hlm, rfl⟩
    have i2 : m.id ∈ (idSet h.leaves).erase l.id := Finset.mem_erase.2 ⟨hne, mem_idSet.2 ⟨m, hm, rfl⟩⟩
    rw [← Finset.add_sum_erase _ _ i1, ← Finset.add_sum_erase _ _ i2, subtreeWeight_eq ho.sameWeight hlm,
      subtreeWeight_eq ho.sameWeight hm] at ht
    have := ho.positive m hm
    omega
  · split at hs
    · rename_i h1
      exact absurd (firstLightest_none.1 h1) hl
    · rename_i m1 h1
      split at hs
      · rename_i h2
        rw [firstLightest_none, List.filter_eq_nil_iff] at h2
        refine hone m1 (firstLightest_mem h1) fun m hm => ?_
        simpa using h2 m hm
      · split at hs
        · have := ho.positive m1 (firstLightest_mem h1)
          omega
        · cases hs

/-- Everything one step of a loaded tree can do. -/
theorem Hft.step_cases (h : Hft) :
    (h.select = none ∧ h.step wb = ({ h with mode := .done }, true)) ∨
    (∃ m1 m2, h.select = some (m1, m2) ∧
      h.step wb = ({ h with leaves := merged wb m1 m2 h.leaves, merges := h.merges + 1 }, false)) := by
  unfold Hft.step
  cases hs : h.select with
  | none => exact .inl ⟨rfl, rfl⟩
  | some p => exact .inr ⟨p.1, p.2, rfl, rfl⟩

theorem Hft.Ok.step (hv : 0 < wb) {h : Hft} (ho : h.Ok wb) (hm : h.mode = .building) : (h.step wb).1.Ok wb := by
  rcases Hft.step_cases (wb := wb) h with ⟨hs, he⟩ | ⟨m1, m2, hs, he⟩ <;> rw [he]
  · have hl := ho.loaded (by rw [hm]; simp)
    exact { ho with loaded := fun _ => hl, finished := fun _ => ho.select_none hl hs }
  · exact ho.merge hv (Hft.select_some hs) hm

/-- Construction ends: with `n` subtrees left and at least `n` steps allowed, `finish` is DONE after `n - 1` merges. -/
theorem Hft.Ok.finish (hv : 0 < wb) :
    ∀ {fuel : Nat} {h : Hft}, h.Ok wb → h.mode = .building → (subtreeIds h.leaves).length ≤ fuel →
      (h.finish wb fuel).Ok wb ∧ (h.finish wb fuel).mode = .done ∧
      (h.finish wb fuel).leaves.map (·.sym) = h.leaves.map (·.sym) ∧ (h.finish wb fuel).total = h.total := by
  intro fuel
  induction fuel with
  | zero =>
    intro h ho hm hf
    have hl := ho.loaded (by rw [hm]; simp)
    obtain ⟨l, ls, he⟩ := List.exists_cons_of_ne_nil hl
    have : 0 < (idSet h.leaves).card := Finset.card_pos.2 ⟨l.id, mem_idSet.2 ⟨l, by simp [he], rfl⟩⟩
    rw [subtreeIds_length] at hf
    omega
  | succ fuel ih =>
    intro h ho hm hf
    have hso := ho.step hv hm
    rw [Hft.finish]
    rcases Hft.step_cases (wb := wb) h with ⟨hs, he⟩ | ⟨m1, m2, hs, he⟩ <;> rw [he] at hso ⊢
    · exact ⟨hso, rfl, rfl, rfl⟩
    · have hn := merged_subtrees (wb := wb) (Hft.select_some hs)
      obtain ⟨h1, h2, h3, h4⟩ := ih (h := { h with leaves := merged wb m1 m2 h.leaves, merges := h.merges + 1 }) hso hm
        (by show (subtreeIds (merged wb m1 m2 h.leaves)).length ≤ fuel; omega)
      refine ⟨h1, h2, ?_, h4⟩
      dsimp only
      rw [h3]
      show (merged wb m1 m2 h.leaves).map (·.sym) = _
      unfold merged
      rw [List.map_map]
      exact List.map_congr_left fun l _ => mergeLeaf_sym _ _ _ l

theorem subtreeIds_length_le (ls : List Leaf) : (subtreeIds ls).length ≤ ls.length := by
  have := (List.dedup_sublist (ls.map (·.id))).length_le
  simpa [subtreeIds] using this

/-- Everything `build(f)` can answer (R243). -/
theorem buildTree_cases (hv : 0 < wb) {f : List Nat} (hf : f.length ≤ 256) :
    (f.sum = 0 ∧ buildTree wb f = .error ⟨.degenerateTree, 0⟩) ∨
    (0 < f.sum ∧ ∃ h, buildTree wb f = .ok h ∧ h.Ok wb ∧ h.mode = .done ∧ h.total = f.sum ∧
      (h.leaves.map (·.sym)).Perm ((leavesOf f).map (·.sym))) := by
  unfold buildTree
  by_cases hs : f.sum = 0
  · exact .inl ⟨hs, by unfold Hft.load; rw [if_pos hs]; rfl⟩
  · have hs : 0 < f.sum := by omega
    rw [Hft.load_eq hs, ok_bind]
    obtain ⟨h1, h2, h3, h4⟩ := (Hft.loaded_ok hv hf hs).finish hv rfl (subtreeIds_length_le _)
    refine .inr ⟨hs, _, rfl, h1, h2, h4, ?_⟩
    rw [h3]
    exact (sortLeaves_perm _).map _

/-! ## The finished table (R239, R242, R245) -/

/-- A byte with a leaf. -/
def Hft.Present (h : Hft) (b : Byte) : Prop := b ∈ h.leaves.map (·.sym)

theorem Hft.codeword_absent {h : Hft} {b : Byte} (hb : ¬ h.Present b) : h.codeword b = ⟨[], 0⟩ := by
  unfold Hft.codeword
  have : h.leaves.find? (fun l => l.sym == b) = none := by
    rw [List.find?_eq_none]
    intro l hl he
    exact hb (List.mem_map.2 ⟨l, hl, by simpa using he⟩)
  rw [this]

/-- The codeword of a present byte is its leaf's, or "0" where the leaf's is empty. -/
theorem Hft.Ok.codeword_leaf {h : Hft} (ho : h.Ok wb) {l : Leaf} (hl : l ∈ h.leaves) :
    h.codeword l.sym = if 0 < l.code.bitCount then l.code else ⟨[0], 1⟩ := by
  unfold Hft.codeword
  cases hf : h.leaves.find? (fun m => m.sym == l.sym) with
  | none =>
    have := List.find?_eq_none.1 hf l hl
    simp at this
  | some m =>
    have h1 := List.mem_of_find?_eq_some hf
    have h2 := List.find?_some hf
    simp only [beq_iff_eq] at h2
    rw [List.inj_on_of_nodup_map ho.symbols h1 hl h2]

theorem Hft.Ok.codeword_codeOk (hv : 0 < wb) {h : Hft} (ho : h.Ok wb) (b : Byte) : CodeOk wb (h.codeword b) := by
  by_cases hb : h.Present b
  · obtain ⟨l, hl, rfl⟩ := List.mem_map.1 hb
    rw [ho.codeword_leaf hl]
    split
    · exact ho.codes l hl
    · exact codeOk_zero hv
  · rw [Hft.codeword_absent hb]; exact codeOk_nil hv

/-- The bits of a byte's codeword. -/
def Hft.bits (wb : Nat) (h : Hft) (b : Byte) : Bits := vbits wb (h.codeword b)

theorem Hft.Ok.bits_length (hv : 0 < wb) {h : Hft} (ho : h.Ok wb) (b : Byte) :
    (h.bits wb b).length = (h.codeword b).bitCount := vbits_length ((ho.codeword_codeOk hv b).capacity hv)

theorem Hft.Ok.present_iff {h : Hft} (ho : h.Ok wb) (b : Byte) : h.Present b ↔ 0 < (h.codeword b).bitCount := by
  constructor
  · intro hb
    obtain ⟨l, hl, rfl⟩ := List.mem_map.1 hb
    rw [ho.codeword_leaf hl]
    split
    · assumption
    · decide
  · intro hp
    by_contra hb
    rw [Hft.codeword_absent hb] at hp
    exact absurd hp (by decide)

/-- A subtree of two leaves or more has no empty codeword. -/
theorem Hft.Ok.code_pos (hv : 0 < wb) {h : Hft} (ho : h.Ok wb) {l m : Leaf} (hl : l ∈ h.leaves) (hm : m ∈ h.leaves)
    (hid : l.id = m.id) (hs : l.sym ≠ m.sym) : 0 < l.code.bitCount := by
  by_contra h0
  have hlen := vbits_length ((ho.codes l hl).capacity hv)
  have : vbits wb l.code = [] := List.length_eq_zero_iff.1 (by omega)
  exact ho.prefixFree l hl m hm hid hs (by rw [this]; exact List.nil_prefix)

theorem Hft.Ok.one_subtree {h : Hft} (hn : (subtreeIds h.leaves).length = 1) {l m : Leaf} (hl : l ∈ h.leaves)
    (hm : m ∈ h.leaves) : l.id = m.id := by
  rw [subtreeIds_length, Finset.card_eq_one] at hn
  obtain ⟨i, hi⟩ := hn
  have h1 : l.id ∈ idSet h.leaves := mem_idSet.2 ⟨l, hl, rfl⟩
  have h2 : m.id ∈ idSet h.leaves := mem_idSet.2 ⟨m, hm, rfl⟩
  rw [hi, Finset.mem_singleton] at h1 h2
  rw [h1, h2]

/-- The finished table is prefix-free (R245). -/
theorem Hft.Ok.bits_prefixFree (hv : 0 < wb) {h : Hft} (ho : h.Ok wb) (hd : h.mode = .done) {b c : Byte}
    (hb : h.Present b) (hc : h.Present c) (hne : b ≠ c) : ¬ h.bits wb b <+: h.bits wb c := by
  obtain ⟨l, hl, rfl⟩ := List.mem_map.1 hb
  obtain ⟨m, hm, rfl⟩ := List.mem_map.1 hc
  have hid := Hft.Ok.one_subtree (ho.finished hd) hl hm
  have pl := ho.code_pos hv hl hm hid hne
  have pm := ho.code_pos hv hm hl hid.symm hne.symm
  unfold Hft.bits
  rw [ho.codeword_leaf hl, ho.codeword_leaf hm, if_pos pl, if_pos pm]
  exact ho.prefixFree l hl m hm hid hne

/-! ## Order of the leaves, selection, and bounds -/

/-- Inserting a leaf with a smaller byte keeps rising order of weight and then of byte. -/
theorem orderedInsert_lex {a : Leaf} {ls : List Leaf} (ha : ∀ l ∈ ls, a.sym.toNat < l.sym.toNat)
   (h : ls.Pairwise (fun l m : Leaf => l.weight < m.weight ∨ (l.weight = m.weight ∧ l.sym.toNat < m.sym.toNat))) :
   (ls.orderedInsert (fun a b : Leaf => a.weight ≤ b.weight) a).Pairwise
     (fun l m : Leaf => l.weight < m.weight ∨ (l.weight = m.weight ∧ l.sym.toNat < m.sym.toNat)) := by
  induction ls with
  | nil => simp
  | cons b ls ih =>
    rw [List.pairwise_cons] at h
    rw [List.orderedInsert]
    split
    · rename_i hle
      rw [List.pairwise_cons]
      refine ⟨fun x hx => ?_, List.pairwise_cons.2 h⟩
      rcases List.mem_cons.1 hx with rfl | hx
      · have := ha x (by simp)
        rcases Nat.lt_or_eq_of_le hle with h | h
        · exact .inl h
        · exact .inr ⟨h, this⟩
      · have := ha x (by simp [hx])
        rcases h.1 x hx with h' | ⟨h', -⟩
        · exact .inl (by omega)
        · rcases Nat.lt_or_eq_of_le hle with h | h
          · exact .inl (by omega)
          · exact .inr ⟨by omega, this⟩
    · rename_i hle
      rw [List.pairwise_cons]
      refine ⟨fun x hx => ?_, ih (fun l hl => ha l (by simp [hl])) h.2⟩
      rcases (List.mem_orderedInsert _).1 hx with rfl | hx
      · exact .inl (by omega)
      · exact h.1 x hx

/-- Leaves in byte order are sorted by weight, and by byte where weights are equal (R232). -/
theorem sortLeaves_lex {ls : List Leaf} (h : ls.Pairwise (fun l m => l.sym.toNat < m.sym.toNat)) :
   (sortLeaves ls).Pairwise (fun l m : Leaf => l.weight < m.weight ∨ (l.weight = m.weight ∧
     l.sym.toNat < m.sym.toNat)) := by
  unfold sortLeaves
  induction ls with
  | nil => simp
  | cons a ls ih =>
    rw [List.pairwise_cons] at h
    rw [List.insertionSort]
    refine orderedInsert_lex (fun l hl => h.1 l ?_) (ih h.2)
    exact (List.mem_insertionSort _).1 hl

/-- Where no leaf weighs the total and two subtrees are found, they are selected (R233, R234, R236). -/
theorem Hft.select_eq {h : Hft} (hu : ∀ l ∈ h.leaves, l.weight ≠ h.total) {m1 m2 : Leaf}
    (h1 : firstLightest h.leaves = some m1)
   (h2 : firstLightest (h.leaves.filter (fun l => l.id ≠ m1.id)) = some m2) (hp : 0 < m1.weight) : h.select = some
     (m1, m2) := by
  unfold Hft.select
  rw [if_neg (by simpa using hu), h1]
  simp only [h2]
  rw [if_neg (by omega)]

/-- The first leaf of least weight. -/
theorem firstLightest_eq {pre post : List Leaf} {m : Leaf} (h1 : ∀ l ∈ pre, m.weight < l.weight)
    (h2 : ∀ l ∈ post, m.weight ≤ l.weight) :
   firstLightest (pre ++ m :: post) = some m := by
  induction pre with
  | nil =>
    rw [List.nil_append, firstLightest]
    cases hf : firstLightest post with
    | none => rfl
    | some x =>
      have := h2 x (firstLightest_mem hf)
      simp only []
      rw [if_pos this]
  | cons a pre ih =>
    rw [List.cons_append, firstLightest, ih (fun l hl => h1 l (by simp [hl]))]
    have := h1 a (by simp)
    simp only []
    rw [if_neg (by omega)]

theorem forall2_map {α β} {R : α → β → Prop} {f : α → β} {l : List α} (h : ∀ x ∈ l, R x (f x)) : List.Forall₂ R l
    (l.map f) := by
  induction l with
  | nil => exact .nil
  | cons a l ih => exact .cons (h a (by simp)) (ih fun x hx => h x (by simp [hx]))

/-- There are at most 256 leaves. -/
theorem Hft.Ok.leaves_le {h : Hft} (ho : h.Ok wb) : h.leaves.length ≤ 256 := by
  have h1 : (h.leaves.map (·.sym)).toFinset.card = h.leaves.length := by
    rw [List.toFinset_card_of_nodup ho.symbols, List.length_map]
  have h2 := Finset.card_le_univ (h.leaves.map (·.sym)).toFinset
  have h3 : Fintype.card Byte = 256 := by
    have : Fintype.card Byte = Fintype.card (Fin 256) := Fintype.card_congr ⟨fun b => b.toFin, fun i => ⟨i⟩,
      fun _ => rfl, fun _ => rfl⟩
    rw [this, Fintype.card_fin]
  omega

theorem Hft.Ok.merges_lt {h : Hft} (ho : h.Ok wb) (hm : h.mode ≠ .idle) : h.merges + 1 ≤ h.leaves.length := by
  have := ho.merges
  have hl := ho.loaded hm
  obtain ⟨l, ls, he⟩ := List.exists_cons_of_ne_nil hl
  have : 0 < (idSet h.leaves).card := Finset.card_pos.2 ⟨l.id, mem_idSet.2 ⟨l, by simp [he], rfl⟩⟩
  rw [← subtreeIds_length] at this
  omega

/-- No codeword is longer than 255 bits (R245). -/
theorem Hft.Ok.codeword_small (hv : 8 ≤ wb) {h : Hft} (ho : h.Ok wb) (hm : h.mode ≠ .idle) (b : Byte) :
    (h.codeword b).bitCount ≤ 255 ∧ (h.codeword b).words.length ≤ 255 := by
  have hle : ∀ n, n ≤ 255 → ceilDiv n wb ≤ 255 := by
    intro n hn
    refine ceilDiv_le_of_le_mul (by omega) (hn.trans ?_)
    exact Nat.le_mul_of_pos_right _ (by omega)
  have hc := ho.codeword_codeOk (by omega) b
  have h1 : (h.codeword b).bitCount ≤ 255 := by
    by_cases hp : h.Present b
    · obtain ⟨l, hl, rfl⟩ := List.mem_map.1 hp
      rw [ho.codeword_leaf hl]
      have := ho.depth l hl
      have := Hft.Ok.merges_lt ho hm
      have := Hft.Ok.leaves_le ho
      split
      · omega
      · show 1 ≤ 255; omega
    · rw [Hft.codeword_absent hp]; simp
  exact ⟨h1, by rw [hc.1]; exact hle _ h1⟩

/-- One leaf for each nonzero count (R231). -/
theorem leavesOf_length (f : List Nat) : (leavesOf f).length = (f.filter (fun n => 0 < n)).length := by
  unfold leavesOf
  suffices h : ∀ k, ((f.zipIdx k).filterMap fun e : Nat × Nat => if 0 < e.1 then
      some (Leaf.mk ⟨[], 0⟩ (BitVec.ofNat 8 e.2) (BitVec.ofNat 8 e.2) e.1) else none).length =
        (f.filter (fun n => 0 < n)).length from h 0
  induction f with
  | nil => intro k; rfl
  | cons a f ih =>
    intro k
    rw [List.zipIdx_cons, List.filterMap_cons, List.filter_cons]
    by_cases ha : 0 < a
    · simp only [ha, if_true, decide_true, List.length_cons, ih]
    · simp only [ha, if_false, decide_false, ih]; simp

theorem sum_pos_of_filter {f : List Nat} {k : Nat} (h : (f.filter (fun n => 0 < n)).length = k + 1) : 0 < f.sum := by
  obtain ⟨x, hx⟩ := List.exists_mem_of_length_pos (by omega : 0 < (f.filter (fun n => 0 < n)).length)
  rw [List.mem_filter] at hx
  have := List.single_le_sum (l := f) (by simp) x hx.1
  have := of_decide_eq_true hx.2
  omega

end Sys2Proof.Machine
end

