-- ==== Sys2Proof/Laws/Counter.lean ====
section
/-! SUPPORT. Counters (41_bitbuffer.md R144 to R146): the increment adds one, keeps the canonical form, and grows by a Word
exactly on overflow. -/

namespace Sys2Proof.Machine

variable {wb : Nat}

theorem ctrValue_concat (c : List Nat) (d : Nat) :
    ctrValue wb (c ++ [d]) = ctrValue wb c * 2 ^ wb + d % 2 ^ wb := by
  rw [ctrValue, cat_append, natOf_append, cat_cons, cat_nil, List.append_nil, natOf_bitsOf, bitsOf_length, ctrValue]

theorem ctrValue_cons (d : Nat) (c : List Nat) :
    ctrValue wb (d :: c) = d % 2 ^ wb * 2 ^ (c.length * wb) + ctrValue wb c := by
  rw [ctrValue, cat_cons, natOf_append, natOf_bitsOf, cat_length, ctrValue]

theorem ctrValue_lt (c : List Nat) : ctrValue wb c < 2 ^ (c.length * wb) := by
  have := natOf_lt (cat wb c)
  rwa [cat_length] at this

theorem incRev_value {ds : List Nat} (hb : ∀ d ∈ ds, d < 2 ^ wb) (hw : 0 < wb) :
    ctrValue wb (incRev wb ds).reverse = ctrValue wb ds.reverse + 1 := by
  induction ds with
  | nil =>
    have : 1 % 2 ^ wb = 1 := Nat.mod_eq_of_lt (Nat.one_lt_two_pow (by omega))
    simp [incRev, ctrValue, cat_cons, natOf_bitsOf, this]
  | cons d ds ih =>
    have hd := hb d (by simp)
    rw [incRev]
    split
    · rename_i h
      have hfull : d + 1 = 2 ^ wb := by
        by_contra hne
        rw [Nat.div_eq_of_lt (by omega)] at h
        omega
      rw [List.reverse_cons, ctrValue_concat, ih fun x hx => hb x (by simp [hx]), List.reverse_cons, ctrValue_concat,
        hfull, Nat.mod_self, Nat.zero_mod, Nat.mod_eq_of_lt hd]
      rw [Nat.add_mul, Nat.one_mul, Nat.add_zero]
      omega
    · rename_i h
      have hlt : d + 1 < 2 ^ wb := by
        by_contra hge
        have : d + 1 = 2 ^ wb := by omega
        rw [this, Nat.div_self (by positivity)] at h
        exact h rfl
      rw [List.reverse_cons, ctrValue_concat, List.reverse_cons, ctrValue_concat, Nat.mod_mod, Nat.mod_eq_of_lt hlt,
        Nat.mod_eq_of_lt hd]
      omega

theorem incRev_lt {ds : List Nat} (hb : ∀ d ∈ ds, d < 2 ^ wb) (hw : 0 < wb) : ∀ d ∈ incRev wb ds, d < 2 ^ wb := by
  induction ds with
  | nil =>
    intro d hd
    rw [incRev, List.mem_singleton] at hd
    exact hd ▸ Nat.one_lt_two_pow (by omega)
  | cons d ds ih =>
    have ih := ih fun x hx => hb x (by simp [hx])
    intro x hx
    rw [incRev] at hx
    split at hx <;> rcases List.mem_cons.1 hx with rfl | hx
    · exact Nat.mod_lt _ (by positivity)
    · exact ih x hx
    · exact Nat.mod_lt _ (by positivity)
    · exact hb x (by simp [hx])

theorem incRev_ne_nil (ds : List Nat) : incRev wb ds ≠ [] := by
  cases ds with
  | nil => simp [incRev]
  | cons d ds => rw [incRev]; split <;> simp

/-- The leading Word after an increment is nonzero. -/
theorem incRev_getLast {ds : List Nat} (hb : ∀ d ∈ ds, d < 2 ^ wb) (hlast : ds.getLast? = some 0 → ds = [0]) :
    (incRev wb ds).getLast? ≠ some 0 := by
  induction ds with
  | nil => simp [incRev]
  | cons d ds ih =>
    have hd := hb d (by simp)
    have hlast' : ds ≠ [] → ds.getLast? ≠ some 0 := by
      intro hne h0
      have := hlast (by rw [List.getLast?_cons, h0]; rfl)
      simp_all
    rw [incRev]
    split
    · rw [List.getLast?_cons]
      have hi : (incRev wb ds).getLast? ≠ some 0 := by
        refine ih (fun x hx => hb x (by simp [hx])) ?_
        intro h0
        by_cases hne : ds = []
        · simp [hne] at h0
        · exact absurd h0 (hlast' hne)
      cases hg : (incRev wb ds).getLast? with
      | none => exact absurd (List.getLast?_eq_none_iff.1 hg) (incRev_ne_nil ds)
      | some x => rw [hg] at hi; simpa using hi
    · rename_i h
      have hlt : d + 1 < 2 ^ wb := by
        by_contra hge
        have : d + 1 = 2 ^ wb := by omega
        rw [this, Nat.div_self (by positivity)] at h
        exact h rfl
      rw [Nat.mod_eq_of_lt hlt, List.getLast?_cons]
      by_cases hne : ds = []
      · simp [hne]
      · have := hlast' hne
        cases hg : ds.getLast? with
        | none => exact absurd (List.getLast?_eq_none_iff.1 hg) hne
        | some x => rw [hg] at this; simpa using this

theorem CounterOk.head_ne {c : List Nat} (hc : CounterOk wb c) : c.reverse.getLast? = some 0 → c.reverse = [0] := by
  intro h
  rw [List.getLast?_reverse] at h
  rw [hc.2.2 h]; rfl

/-- The increment adds one (R145). -/
theorem ctrValue_inc {c : List Nat} (hb : ∀ w ∈ c, w < 2 ^ wb) (hw : 0 < wb) :
    ctrValue wb (inc wb c) = ctrValue wb c + 1 := by
  rw [inc, incRev_value (fun d hd => hb d (List.mem_reverse.1 hd)) hw, List.reverse_reverse]

/-- The increment keeps the canonical form (R144, R145). -/
theorem CounterOk.inc {c : List Nat} (hc : CounterOk wb c) (hw : 0 < wb) : CounterOk wb (inc wb c) := by
  have hb : ∀ d ∈ c.reverse, d < 2 ^ wb := fun d hd => hc.2.1 d (List.mem_reverse.1 hd)
  refine ⟨by simp [Machine.inc, incRev_ne_nil], ?_, ?_⟩
  · intro w hwm
    exact incRev_lt hb hw w (List.mem_reverse.1 hwm)
  · intro h
    rw [Machine.inc, List.head?_reverse] at h
    exact absurd h (incRev_getLast hb hc.head_ne)

theorem counterOk_zero (wb : Nat) : CounterOk wb [0] := ⟨by simp, by simp, by simp⟩

/-- The word count of a Counter is that of its value (R146). -/
theorem CounterOk.length_eq {c : List Nat} (hc : CounterOk wb c) (hw : 0 < wb) :
    c.length = max 1 (ceilDiv (bitlen (ctrValue wb c)) wb) := by
  obtain ⟨hne, hb, hhead⟩ := hc
  cases c with
  | nil => exact absurd rfl hne
  | cons d c =>
    by_cases h0 : d = 0
    · subst h0
      have : c = [] := by simpa using hhead rfl
      subst this
      simp [ctrValue, cat_cons, bitsOf_zero_value, natOf_replicate_false, hw]
    · have hd := hb d (by simp)
      have hv : 2 ^ (c.length * wb) ≤ ctrValue wb (d :: c) := by
        rw [ctrValue_cons, Nat.mod_eq_of_lt hd]
        calc 2 ^ (c.length * wb) = 1 * 2 ^ (c.length * wb) := (Nat.one_mul _).symm
          _ ≤ d * 2 ^ (c.length * wb) := Nat.mul_le_mul_right _ (by omega)
          _ ≤ _ := Nat.le_add_right _ _
      have h1 : bitlen (ctrValue wb (d :: c)) ≤ (d :: c).length * wb := bitlen_le_iff.2 (ctrValue_lt _)
      have h2 : c.length * wb < bitlen (ctrValue wb (d :: c)) := by
        by_contra hle
        have := bitlen_le_iff.1 (Nat.le_of_not_lt hle)
        omega
      have : ceilDiv (bitlen (ctrValue wb (d :: c))) wb = (d :: c).length := by
        refine ceilDiv_unique hw h1 ?_
        rw [List.length_cons, Nat.add_mul]
        omega
      rw [this]
      simp

/-! ## The canonical form is unique (R143, R144) -/

/-- A Counter is the canonical word sequence of its value. -/
theorem CounterOk.eq_canon {c : List Nat} (hc : CounterOk wb c) (hw : 0 < wb) : c = canon wb (ctrValue wb c) := by
  have hl : c.length = (canon wb (ctrValue wb c)).length := by rw [hc.length_eq hw, canon_length]
  refine cat_inj hc.2.1 canon_lt hl ?_
  rw [cat_canon, ← hl, ctrValue, ← cat_eq_bitsOf]

theorem ctrValue_canon (hw : 0 < wb) (v : Nat) : ctrValue wb (canon wb v) = v := natOf_cat_canon hw v

theorem counterOk_canon (hw : 0 < wb) (v : Nat) : CounterOk wb (canon wb v) := by
  have hl := canon_length wb v
  refine ⟨fun h => by rw [h] at hl; simp at hl; omega, canon_lt, fun h => ?_⟩
  cases hc : canon wb v with
  | nil => rw [hc] at hl; simp at hl; omega
  | cons d ds =>
    rw [hc] at h hl
    cases h
    have hv := ctrValue_canon hw v
    rw [hc, ctrValue_cons, Nat.zero_mod, Nat.zero_mul, Nat.zero_add] at hv
    have hlt := ctrValue_lt (wb := wb) ds
    rw [hv, ← bitlen_le_iff] at hlt
    have := ceilDiv_le_of_le_mul hw hlt
    rw [List.length_cons] at hl
    have : ds = [] := List.eq_nil_of_length_eq_zero (by omega)
    rw [this]

/-- The increment of a Counter is the canonical word sequence of the next number. -/
theorem CounterOk.inc_eq {c : List Nat} (hc : CounterOk wb c) (hw : 0 < wb) :
    Machine.inc wb c = canon wb (ctrValue wb c + 1) := by
  have h := (hc.inc hw).eq_canon hw
  rwa [ctrValue_inc hc.2.1 hw] at h

/-- The increment adds a Word exactly when the carry leaves every Word (R145, R146). -/
theorem inc_length {c : List Nat} (hb : ∀ w ∈ c, w < 2 ^ wb) :
    (Machine.inc wb c).length = if ∀ w ∈ c, w = 2 ^ wb - 1 then c.length + 1 else c.length := by
  have key : ∀ ds : List Nat, (∀ d ∈ ds, d < 2 ^ wb) →
      (incRev wb ds).length = if ∀ d ∈ ds, d = 2 ^ wb - 1 then ds.length + 1 else ds.length := by
    intro ds
    induction ds with
    | nil => intro; simp [incRev]
    | cons d ds ih =>
      intro hb
      have hd := hb d (by simp)
      have ih := ih fun x hx => hb x (by simp [hx])
      rw [incRev]
      split
      · rename_i h
        have hfull : d = 2 ^ wb - 1 := by
          by_contra hne
          rw [Nat.div_eq_of_lt (by omega)] at h
          omega
        rw [List.length_cons, ih]
        simp only [List.forall_mem_cons, hfull, true_and, List.length_cons]
        split <;> rfl
      · rename_i h
        have hne : d ≠ 2 ^ wb - 1 := by
          intro he
          have : d + 1 = 2 ^ wb := by omega
          rw [this, Nat.div_self (by positivity)] at h
          exact h rfl
        rw [if_neg fun h => hne (h d (by simp))]
        simp
  rw [Machine.inc, List.length_reverse, key _ fun d hd => hb d (List.mem_reverse.1 hd)]
  simp

/-! ## What a NAT response carries (30_encoding.md R110, R123) -/

theorem natForm_iff (hw : 0 < wb) {n : Nat} {ws : List Nat} : NatForm wb n ws ↔ ws = canon wb n := by
  constructor
  · rintro ⟨hc, rfl⟩; exact hc.eq_canon hw
  · rintro rfl; exact ⟨counterOk_canon hw n, ctrValue_canon hw n⟩

theorem sendsNat_payload (s : State) (hw : 0 < s.cfg.wordBits) (n : Nat) :
    SendsNat s.cfg.wordBits n (s.payload (.nat n)) := by
  intro ws hws hl
  rw [(natForm_iff hw).1 hws] at hl ⊢
  simp only [State.payload, resultPayload]; rw [if_pos (show fitsU64 _ = true from decide_eq_true hl)]; rfl

theorem sendsBB_payload (s : State) (b : BitBuffer) : SendsBB s.cfg.wordBits b (s.payload (.bb b)) := by
  intro h1 h2
  simp only [State.payload, resultPayload]; rw [if_pos (show fitsBB _ = true from Bool.and_eq_true_iff.2 ⟨decide_eq_true h1, decide_eq_true h2⟩)]; rfl

theorem sendsBytes_payload (s : State) (bs : List Byte) : SendsBytes bs (s.payload (.bytes bs)) := by
  intro h
  simp only [State.payload, resultPayload]; rw [if_pos (show fitsU64 _ = true from decide_eq_true h)]; rfl

end Sys2Proof.Machine
end

