-- ==== Sys2Proof/Laws/Maps.lean ====
section
/-! SUPPORT. Finite maps (00_scope.md R17): read after write, and what a write adds. -/

namespace Sys2Proof.Machine

variable {κ ν : Type} [DecidableEq κ]

@[simp] theorem mapGet_nil (k : κ) : mapGet ([] : List (κ × ν)) k = none := rfl

theorem mapGet_eq_none {m : List (κ × ν)} {k : κ} : mapGet m k = none ↔ k ∉ m.map Prod.fst := by
  induction m with
  | nil => simp
  | cons e m ih =>
    obtain ⟨k', v⟩ := e
    simp only [mapGet, List.map_cons, List.mem_cons, not_or]
    split
    · rename_i h; simp [h]
    · rename_i h; rw [ih]; exact ⟨fun h' => ⟨fun e => h e.symm, h'⟩, fun h' => h'.2⟩

theorem mapGet_isSome {m : List (κ × ν)} {k : κ} : (∃ v, mapGet m k = some v) ↔ k ∈ m.map Prod.fst := by
  rw [← not_iff_not, ← mapGet_eq_none]
  cases mapGet m k <;> simp

theorem mem_of_mapGet {m : List (κ × ν)} {k : κ} {v : ν} (h : mapGet m k = some v) : (k, v) ∈ m := by
  induction m with
  | nil => simp at h
  | cons e m ih =>
    obtain ⟨k', v'⟩ := e
    simp only [mapGet] at h
    split at h
    · rename_i hk; simp_all
    · exact List.mem_cons_of_mem _ (ih h)

/-- With distinct keys, an entry of the map is what a read gives. -/
theorem mapGet_of_mem {m : List (κ × ν)} (hn : (m.map Prod.fst).Nodup) {k : κ} {v : ν} (h : (k, v) ∈ m) :
    mapGet m k = some v := by
  induction m with
  | nil => simp at h
  | cons e m ih =>
    obtain ⟨k', v'⟩ := e
    rw [List.map_cons, List.nodup_cons] at hn
    simp only [mapGet]
    rcases List.mem_cons.1 h with h | h
    · rw [if_pos (by simp_all)]; simp_all
    · rw [if_neg, ih hn.2 h]
      rintro rfl
      exact hn.1 (List.mem_map.2 ⟨_, h, rfl⟩)

/-- A new key goes to the end. -/
theorem mapPut_new {m : List (κ × ν)} {k : κ} (h : k ∉ m.map Prod.fst) (v : ν) : mapPut m k v = m ++ [(k, v)] := by
  induction m with
  | nil => rfl
  | cons e m ih =>
    obtain ⟨k', v'⟩ := e
    simp only [List.map_cons, List.mem_cons, not_or] at h
    rw [mapPut, if_neg (fun e => h.1 e.symm), ih h.2, List.cons_append]

theorem mapGet_append_new {m : List (κ × ν)} {k : κ} (h : k ∉ m.map Prod.fst) (v : ν) (k' : κ) :
    mapGet (m ++ [(k, v)]) k' = if k = k' then some v else mapGet m k' := by
  induction m with
  | nil => simp [mapGet]
  | cons e m ih =>
    obtain ⟨k₀, v₀⟩ := e
    simp only [List.map_cons, List.mem_cons, not_or] at h
    simp only [List.cons_append, mapGet, ih h.2]
    by_cases hk : k₀ = k'
    · rw [if_pos hk, if_pos hk, if_neg]
      rintro rfl
      exact h.1 hk.symm
    · rw [if_neg hk, if_neg hk]

end Sys2Proof.Machine
end

