-- ==== Sys2Proof/Laws/LzwEncoder.lean ====
section
/-! SUPPORT. The LZW encoder (42_lzw_encoder.md): what seeding builds, what one step can do, and that every operation keeps
`Lze.Ok`. -/

namespace Sys2Proof.Machine

variable {cfg : Config}

theorem Config.Valid.pos (h : cfg.Valid) : 0 < cfg.wordBits := by have := h.1; omega

/-! ## Capacity (00_scope.md R9) -/

theorem overCap_eq_false {n : Nat} : overCap cfg n = false ↔ WithinCap cfg n := by
  unfold overCap WithinCap
  rw [Bool.and_eq_false_iff, decide_eq_false_iff_not, decide_eq_false_iff_not]
  omega

theorem overCap_eq_true {n : Nat} : overCap cfg n = true ↔ ¬ WithinCap cfg n := by
  rw [← overCap_eq_false, Bool.not_eq_false]

/-! ## Insertion (R172, R173, R170) -/

/-- The dictionary, counter and width of an instance are in step: what every insertion keeps. -/
structure Lze.Synced (cfg : Config) (u : Lze) : Prop where
  ctr : CounterOk cfg.wordBits u.ctr
  codes : u.dict.map Prod.snd = List.range (ctrValue cfg.wordBits u.ctr)
  keys : (u.dict.map Prod.fst).Nodup
  width : u.width = bitlen (u.dict.length - 1)

theorem Lze.Synced.length {u : Lze} (h : u.Synced cfg) : u.dict.length = ctrValue cfg.wordBits u.ctr := by
  have := congrArg List.length h.codes
  simpa using this

theorem Lze.insert_dict {u : Lze} {p : List Byte} (hp : p ∉ u.dict.map Prod.fst) :
    (u.insert cfg p).dict = u.dict ++ [(p, ctrValue cfg.wordBits u.ctr)] := mapPut_new hp _

theorem Lze.Synced.insert (hv : 0 < cfg.wordBits) {u : Lze} (h : u.Synced cfg) {p : List Byte}
    (hp : p ∉ u.dict.map Prod.fst) : (u.insert cfg p).Synced cfg := by
  have hd := Lze.insert_dict (cfg := cfg) hp
  have hc : ctrValue cfg.wordBits (u.insert cfg p).ctr = ctrValue cfg.wordBits u.ctr + 1 := ctrValue_inc h.ctr.2.1 hv
  refine ⟨h.ctr.inc hv, ?_, ?_, rfl⟩
  · rw [hd, List.map_append, h.codes, hc, List.range_succ]; rfl
  · rw [hd, List.map_append]
    exact List.Nodup.append h.keys (by simp) (by simpa [List.disjoint_singleton] using hp)

/-! ## Seeding (R171) -/

/-- The seeds of an alphabet: symbol `i` has codeword `i`. -/
def seedEntries (alpha : List Byte) : List (List Byte × Nat) := alpha.zipIdx.map fun e => ([e.1], e.2)

theorem seedEntries_keys (alpha : List Byte) : (seedEntries alpha).map Prod.fst = alpha.map fun a => [a] := by
  rw [seedEntries, List.map_map, ← List.zipIdx_map_fst 0 alpha, List.map_map]
  simp

theorem seedEntries_concat (alpha : List Byte) (a : Byte) :
    seedEntries (alpha ++ [a]) = seedEntries alpha ++ [([a], alpha.length)] := by
  simp [seedEntries, List.zipIdx_append]

@[simp] theorem seedEntries_length (alpha : List Byte) : (seedEntries alpha).length = alpha.length := by simp [seedEntries]

/-- What seeding a fresh instance builds. -/
theorem Lze.seed_eq (hv : 0 < cfg.wordBits) {u : Lze} (h0 : u.dict = []) (h1 : u.ctr = [0]) (h2 : u.width = 0)
    {alpha : List Byte} (hn : alpha.Nodup) :
    (Lze.seed cfg u alpha).dict = seedEntries alpha ∧ (Lze.seed cfg u alpha).Synced cfg ∧
      (Lze.seed cfg u alpha).live = u.live ∧ (Lze.seed cfg u alpha).alpha = u.alpha ∧
      (Lze.seed cfg u alpha).phrase = u.phrase ∧ (Lze.seed cfg u alpha).out = u.out := by
  induction alpha using List.reverseRecOn with
  | nil =>
    refine ⟨h0, ⟨?_, ?_, ?_, ?_⟩, rfl, rfl, rfl, rfl⟩ <;> unfold Lze.seed <;> simp only [List.foldl_nil]
    · rw [h1]; exact counterOk_zero _
    · rw [h0, h1]; simp [ctrValue, cat_cons, bitsOf_zero_value, natOf_replicate_false]
    · rw [h0]; simp
    · rw [h0, h2]; simp
  | append_singleton alpha a ih =>
    rw [List.nodup_append] at hn
    obtain ⟨hd, hs, hl, ha, hp, ho⟩ := ih hn.1
    have e : Lze.seed cfg u (alpha ++ [a]) = (Lze.seed cfg u alpha).insert cfg [a] := by simp [Lze.seed]
    have hk : [a] ∉ (Lze.seed cfg u alpha).dict.map Prod.fst := by
      rw [hd, seedEntries_keys]
      simp only [List.mem_map, List.cons.injEq, and_true, exists_eq_right]
      intro h
      exact hn.2.2 a h a (by simp) rfl
    rw [e]
    refine ⟨?_, hs.insert hv hk, hl, ha, hp, ho⟩
    rw [Lze.insert_dict hk, seedEntries_concat, hd, ← hs.length, hd, seedEntries_length]

theorem checkAlphabet_ok {alpha : List Byte} (h : AlphabetOk alpha) : checkAlphabet alpha = .ok () := if_pos h

theorem checkAlphabet_error {alpha : List Byte} (h : ¬ AlphabetOk alpha) :
    checkAlphabet alpha = .error ⟨.badOperand, 0⟩ := if_neg h

/-- The instance LZE_INIT constructs. -/
def Lze.fresh (cfg : Config) (alpha : List Byte) : Lze :=
  Lze.seed cfg { live := true, alpha, dict := [], ctr := [0], width := 0, phrase := [], out := ⟨[], 0⟩ } alpha

theorem Lze.init_ok {alpha : List Byte} (h : AlphabetOk alpha) (hc : WithinCap cfg alpha.length) :
    Lze.init cfg alpha = .ok (Lze.fresh cfg alpha) := by
  unfold Lze.init
  rw [checkAlphabet_ok h, ok_bind, overCap_eq_false.2 hc]
  rfl

/-- Everything LZE_INIT's construction can answer. -/
theorem Lze.init_cases {alpha : List Byte} :
    (¬ AlphabetOk alpha ∧ Lze.init cfg alpha = .error ⟨.badOperand, 0⟩) ∨
    (AlphabetOk alpha ∧ ¬ WithinCap cfg alpha.length ∧ Lze.init cfg alpha = .error ⟨.capacityExceeded, 2⟩) ∨
    (AlphabetOk alpha ∧ WithinCap cfg alpha.length ∧ Lze.init cfg alpha = .ok (Lze.fresh cfg alpha)) := by
  by_cases ha : AlphabetOk alpha
  · by_cases hc : WithinCap cfg alpha.length
    · exact .inr (.inr ⟨ha, hc, Lze.init_ok ha hc⟩)
    · refine .inr (.inl ⟨ha, hc, ?_⟩)
      unfold Lze.init
      rw [checkAlphabet_ok ha, ok_bind, overCap_eq_true.2 hc]
      rfl
  · refine .inl ⟨ha, ?_⟩
    unfold Lze.init
    rw [checkAlphabet_error ha, error_bind]

theorem Lze.fresh_dict (hv : 0 < cfg.wordBits) {alpha : List Byte} (h : AlphabetOk alpha) :
    (Lze.fresh cfg alpha).dict = seedEntries alpha := (Lze.seed_eq hv rfl rfl rfl h.2.2).1

theorem Lze.fresh_synced (hv : 0 < cfg.wordBits) {alpha : List Byte} (h : AlphabetOk alpha) :
    (Lze.fresh cfg alpha).Synced cfg := (Lze.seed_eq hv rfl rfl rfl h.2.2).2.1

theorem Lze.fresh_fields (hv : 0 < cfg.wordBits) {alpha : List Byte} (h : AlphabetOk alpha) :
    (Lze.fresh cfg alpha).live = true ∧ (Lze.fresh cfg alpha).alpha = alpha ∧ (Lze.fresh cfg alpha).phrase = [] ∧
      (Lze.fresh cfg alpha).out = ⟨[], 0⟩ := (Lze.seed_eq hv rfl rfl rfl h.2.2).2.2

theorem streamOk_nil (hv : 0 < cfg.wordBits) : StreamOk cfg.wordBits ⟨[], 0⟩ := by
  refine ⟨?_, by simp, by simp [unused]⟩
  rw [ceilDiv_zero hv]; rfl

theorem Lze.fresh_ok (hv : 0 < cfg.wordBits) {alpha : List Byte} (h : AlphabetOk alpha)
    (hc : WithinCap cfg alpha.length) : (Lze.fresh cfg alpha).Ok cfg := by
  obtain ⟨-, ha, hp, ho⟩ := Lze.fresh_fields hv h
  have hs := Lze.fresh_synced hv h
  have hd := Lze.fresh_dict hv h
  refine ⟨hs.ctr, hs.codes, hs.keys, ?_, ?_, hs.width, .inl hp, ?_, ?_⟩
  · rw [hd, seedEntries_keys]; simp
  · rw [hd, seedEntries_keys, ha]; simp
  · rw [ho]; exact streamOk_nil hv
  · rw [hd]; simpa using hc

/-! ## Emission (R175) -/

theorem frombits_streamOk {wb : Nat} (hv : 0 < wb) (bs : Bits) : StreamOk wb (frombits wb bs) := by
  refine ⟨by simp, frombits_words_lt hv bs, ?_⟩
  rw [cat_frombits hv, frombits_bitCount, List.drop_left, unused, frombits_words_length, frombits_bitCount,
    ← length_add_pad hv, Nat.add_sub_cancel_left]

/-- A stream the CORE produces is the one its bits make. -/
theorem StreamOk.eq_frombits {wb : Nat} (hv : 0 < wb) {b : BitBuffer} (h : StreamOk wb b) :
    b = frombits wb (sbits wb b) := by
  obtain ⟨hl, hb, hz⟩ := h
  have hcap : b.bitCount ≤ b.words.length * wb := by rw [hl]; exact ceilDiv_mul_ge hv
  have hlen := sbits_length hcap
  cases b with
  | mk ws n =>
    dsimp only at *
    have e : frombits wb (sbits wb ⟨ws, n⟩) = ⟨(frombits wb (sbits wb ⟨ws, n⟩)).words, n⟩ := by
      rw [frombits, hlen]
    rw [e]
    congr 1
    refine cat_inj hb (frombits_words_lt hv _) (by simp [hlen, hl]) ?_
    rw [cat_frombits hv, hlen]
    conv_lhs => rw [← List.take_append_drop n (cat wb ws), hz]
    rw [sbits, unused]
    congr 2
    dsimp only
    rw [hl, ← length_add_pad hv, Nat.add_sub_cancel_left]

theorem bbAppend_streamOk {wb : Nat} (hv : 0 < wb) (s v : BitBuffer) : StreamOk wb (bbAppend wb s v) :=
  frombits_streamOk hv _

/-- An emission appends exactly the codeword's bits (R160, R175). -/
theorem Lze.emit_bits (hv : 0 < cfg.wordBits) (u : Lze) (c w : Nat) :
    sbits cfg.wordBits (u.emit cfg c w).out = sbits cfg.wordBits u.out ++ bitsOf c w := by
  rw [Lze.emit, sbits_bbAppend hv, vbits_valueBB hv]

/-! ## One step (R174) -/

/-- Everything one phrase step can answer. -/
theorem Lze.step_cases (u : Lze) (sym : Byte) :
    (u.phrase ++ [sym] ∈ u.dict.map Prod.fst ∧
      u.step cfg sym = .ok ({ u with phrase := u.phrase ++ [sym] }, false)) ∨
    (u.phrase ++ [sym] ∉ u.dict.map Prod.fst ∧ ¬ WithinCap cfg (u.dict.length + 1) ∧
      u.step cfg sym = .error ⟨.capacityExceeded, 2⟩) ∨
    (u.phrase ++ [sym] ∉ u.dict.map Prod.fst ∧ WithinCap cfg (u.dict.length + 1) ∧ u.phrase ∉ u.dict.map Prod.fst ∧
      u.step cfg sym = .error ⟨.alphabetCoverage, ((u.phrase ++ [sym]).headD 0).toNat⟩) ∨
    (u.phrase ++ [sym] ∉ u.dict.map Prod.fst ∧ WithinCap cfg (u.dict.length + 1) ∧
      ∃ c, mapGet u.dict u.phrase = some c ∧
        u.step cfg sym
          = .ok ({ (u.insert cfg (u.phrase ++ [sym])).emit cfg c u.width with phrase := [sym] }, true)) := by
  unfold Lze.step
  dsimp only
  cases hg : mapGet u.dict (u.phrase ++ [sym]) with
  | some v => exact .inl ⟨mapGet_isSome.1 ⟨v, hg⟩, rfl⟩
  | none =>
    have hk := mapGet_eq_none.1 hg
    by_cases hc : WithinCap cfg (u.dict.length + 1)
    · dsimp only
      rw [overCap_eq_false.2 hc]
      cases hq : mapGet u.dict u.phrase with
      | none => exact .inr (.inr (.inl ⟨hk, hc, mapGet_eq_none.1 hq, rfl⟩))
      | some c => exact .inr (.inr (.inr ⟨hk, hc, c, rfl, rfl⟩))
    · dsimp only
      rw [overCap_eq_true.2 hc]
      exact .inr (.inl ⟨hk, hc, rfl⟩)

theorem Lze.Ok.synced {u : Lze} (h : u.Ok cfg) : u.Synced cfg := ⟨h.ctr, h.codes, h.keys, h.width⟩

/-- Setting the phrase to one symbol keeps the phrase clause of `Lze.Ok`. -/
theorem Lze.Ok.phrase_one {u : Lze} (h : u.Ok cfg) (sym : Byte) :
    [sym] = [] ∨ [sym] ∈ u.dict.map Prod.fst ∨ ∃ z, z ∉ u.alpha ∧ [sym] = [z] := by
  by_cases hs : sym ∈ u.alpha
  · exact .inr (.inl (h.seeds sym hs))
  · exact .inr (.inr ⟨sym, hs, rfl⟩)

theorem Lze.Ok.step (hv : 0 < cfg.wordBits) {u v : Lze} (h : u.Ok cfg) {sym : Byte} {e : Bool}
    (hs : u.step cfg sym = .ok (v, e)) : v.Ok cfg := by
  rcases Lze.step_cases (cfg := cfg) u sym with ⟨hk, he⟩ | ⟨-, -, he⟩ | ⟨-, -, -, he⟩ | ⟨hk, hc, c, hg, he⟩
  · rw [he] at hs
    obtain ⟨rfl, -⟩ := Prod.mk.inj (Except.ok.inj hs)
    exact { h with phrase := .inr (.inl hk) }
  · rw [he] at hs; cases hs
  · rw [he] at hs; cases hs
  · rw [he] at hs
    obtain ⟨rfl, -⟩ := Prod.mk.inj (Except.ok.inj hs)
    have hd := Lze.insert_dict (cfg := cfg) hk
    have hi := h.synced.insert hv hk
    refine ⟨hi.ctr, hi.codes, hi.keys, ?_, ?_, hi.width, ?_, bbAppend_streamOk hv _ _, ?_⟩
    · show [] ∉ ((u.insert cfg _).dict).map Prod.fst
      rw [hd]
      have := h.nonempty
      simp_all
    · show ∀ a ∈ u.alpha, [a] ∈ ((u.insert cfg _).dict).map Prod.fst
      intro a ha
      rw [hd, List.map_append]
      exact List.mem_append_left _ (h.seeds a ha)
    · show [sym] = [] ∨ [sym] ∈ ((u.insert cfg _).dict).map Prod.fst ∨ ∃ z, z ∉ u.alpha ∧ [sym] = [z]
      rw [hd, List.map_append]
      rcases h.phrase_one sym with h1 | h1 | h1
      · exact .inl h1
      · exact .inr (.inl (List.mem_append_left _ h1))
      · exact .inr (.inr h1)
    · show WithinCap cfg (u.insert cfg _).dict.length
      rw [hd]; simpa using hc

theorem Lze.step_alpha {u v : Lze} {sym : Byte} {e : Bool} (hs : u.step cfg sym = .ok (v, e)) :
    v.alpha = u.alpha ∧ v.live = u.live := by
  rcases Lze.step_cases (cfg := cfg) u sym with ⟨hk, he⟩ | ⟨-, -, he⟩ | ⟨-, -, -, he⟩ | ⟨hk, hc, c, hg, he⟩ <;>
    rw [he] at hs
  · obtain ⟨rfl, -⟩ := Prod.mk.inj (Except.ok.inj hs); exact ⟨rfl, rfl⟩
  · cases hs
  · cases hs
  · obtain ⟨rfl, -⟩ := Prod.mk.inj (Except.ok.inj hs); exact ⟨rfl, rfl⟩

/-- Every emitted codeword fits the width it is written at (R175). -/
theorem Lze.Ok.code_fits {u : Lze} (h : u.Ok cfg) {p : List Byte} {c : Nat} (hg : mapGet u.dict p = some c) :
    c < u.dict.length ∧ c < 2 ^ u.width := by
  have hm : c ∈ u.dict.map Prod.snd := List.mem_map.2 ⟨_, mem_of_mapGet hg, rfl⟩
  rw [h.codes, List.mem_range, ← h.synced.length] at hm
  refine ⟨hm, ?_⟩
  rw [h.width]
  exact lt_of_le_of_lt (by omega) (lt_two_pow_bitlen _)

/-! ## Whole inputs and the flush (R176, R183) -/

theorem Lze.Ok.feed (hv : 0 < cfg.wordBits) {syms : List Byte} :
    ∀ {u v : Lze}, u.Ok cfg → u.feed cfg syms = .ok v → v.Ok cfg := by
  induction syms with
  | nil => intro u v h hs; cases hs; exact h
  | cons a syms ih =>
    intro u v h hs
    rw [Lze.feed] at hs
    cases hst : u.step cfg a with
    | error r => rw [hst] at hs; cases hs
    | ok x =>
      obtain ⟨w, e⟩ := x
      rw [hst] at hs
      exact ih (h.step hv hst) hs

/-- Everything a flush can answer. -/
theorem Lze.flush_cases (u : Lze) :
    (u.phrase = [] ∧ u.flush cfg = .ok { u with live := false }) ∨
    (u.phrase ≠ [] ∧ u.phrase ∉ u.dict.map Prod.fst ∧
      u.flush cfg = .error ⟨.alphabetCoverage, (u.phrase.headD 0).toNat⟩) ∨
    (u.phrase ≠ [] ∧ ∃ c, mapGet u.dict u.phrase = some c ∧
      u.flush cfg = .ok { u.emit cfg c u.width with live := false }) := by
  unfold Lze.flush
  cases hp : u.phrase with
  | nil => exact .inl ⟨rfl, rfl⟩
  | cons z zs =>
    dsimp only
    cases hg : mapGet u.dict (z :: zs) with
    | none => exact .inr (.inl ⟨by simp, mapGet_eq_none.1 hg, rfl⟩)
    | some c => exact .inr (.inr ⟨by simp, c, rfl, rfl⟩)

theorem Lze.Ok.flush (hv : 0 < cfg.wordBits) {u v : Lze} (h : u.Ok cfg) (hs : u.flush cfg = .ok v) : v.Ok cfg := by
  rcases Lze.flush_cases (cfg := cfg) u with ⟨-, he⟩ | ⟨-, -, he⟩ | ⟨-, c, -, he⟩ <;> rw [he] at hs
  · cases hs; exact { h with }
  · cases hs
  · cases hs; exact { h with out := bbAppend_streamOk hv _ _ }

end Sys2Proof.Machine
end

