-- ==== Sys2Proof/Laws/HuffmanCodec.lean ====
section
/-! SUPPORT. The Huffman encoder and the bit matcher (45_huffman_codec.md): the histogram, the container, what one trial can
do, that the fuel of `Hfd.run` is enough, that every operation keeps `Hfd.Ok`, and that trials at a codeword find it. -/

namespace Sys2Proof.Machine

variable {wb : Nat}

/-! ## Histogram (R260) -/

@[simp] theorem byteCounts_length (data : List Byte) : (byteCounts data).length = 256 := by simp [byteCounts]

theorem byteCounts_get (data : List Byte) (b : Byte) : (byteCounts data)[b.toNat]? = some (data.count b) := by
  unfold byteCounts
  rw [List.getElem?_map, List.getElem?_range b.isLt]
  simp

theorem range_map_sum_indicator_aux (a : Byte) (n k : Nat) (hk : n + k = 256) :
    ((List.range n).map fun b => if BitVec.ofNat 8 b = a then 1 else 0).sum = if a.toNat < n then 1 else 0 := by
  induction n generalizing k with
  | zero => simp
  | succ n ih =>
    rw [List.range_succ, List.map_append, List.sum_append, ih (k + 1) (by omega)]
    have e : (BitVec.ofNat 8 n = a) ↔ a.toNat = n := by
      constructor
      · rintro rfl
        rw [BitVec.toNat_ofNat, Nat.mod_eq_of_lt (by omega)]
      · rintro rfl
        exact by simp
    simp only [List.map_cons, List.map_nil, List.sum_cons, List.sum_nil, e]
    split <;> split <;> split <;> omega

theorem range_map_sum_indicator (a : Byte) :
    ((List.range 256).map fun b => if BitVec.ofNat 8 b = a then 1 else 0).sum = 1 := by
  rw [range_map_sum_indicator_aux a 256 0 rfl, if_pos a.isLt]

theorem byteCounts_sum_aux (data : List Byte) (bs : List Nat)
    (h : ∀ a : Byte, (bs.map fun b => if BitVec.ofNat 8 b = a then 1 else 0).sum = 1) :
    (bs.map fun b => data.count (BitVec.ofNat 8 b)).sum = data.length := by
  induction data with
  | nil => simp
  | cons a data ih =>
    have e : (bs.map fun b => (a :: data).count (BitVec.ofNat 8 b))
        = bs.map fun b => data.count (BitVec.ofNat 8 b) + if BitVec.ofNat 8 b = a then 1 else 0 := by
      refine List.map_congr_left fun b _ => ?_
      rw [List.count_cons]
      congr 1
      simp only [beq_iff_eq]
      split <;> split <;> simp_all
    rw [e, List.sum_map_add, ih, h, List.length_cons]

/-- The counts of a buffer add up to its length. -/
theorem byteCounts_sum (data : List Byte) : (byteCounts data).sum = data.length :=
  byteCounts_sum_aux data _ range_map_sum_indicator

/-- Everything `hist` can answer. -/
theorem hist_cases (data : List Byte) :
    ((∀ b : Byte, data.count b ≤ 65535) ∧ hist data = .ok (byteCounts data)) ∨
    (∃ b : Byte, 65535 < data.count b ∧ (∀ c : Byte, c.toNat < b.toNat → data.count c ≤ 65535) ∧
      hist data = .error ⟨.countOverflow, b.toNat⟩) := by
  unfold hist
  cases hf : (byteCounts data).findIdx? (fun c => 65535 < c) with
  | none =>
    rw [List.findIdx?_eq_none_iff] at hf
    refine .inl ⟨fun b => ?_, rfl⟩
    have := hf _ (List.mem_of_getElem? (byteCounts_get data b))
    simpa using this
  | some i =>
    rw [List.findIdx?_eq_some_iff_getElem] at hf
    obtain ⟨hi, h1, h2⟩ := hf
    have hi' : i < 256 := by simpa using hi
    have hb : (BitVec.ofNat 8 i).toNat = i := by simp; omega
    refine .inr ⟨BitVec.ofNat 8 i, ?_, fun c hc => ?_, by rw [hb]⟩
    · have := byteCounts_get data (BitVec.ofNat 8 i)
      rw [hb, List.getElem?_eq_getElem hi] at this
      rw [← Option.some.inj this]
      simpa using h1
    · rw [hb] at hc
      have := byteCounts_get data c
      rw [List.getElem?_eq_getElem (by simpa using c.isLt)] at this
      rw [← Option.some.inj this]
      simpa using h2 c.toNat hc

/-! ## The tree of a buffer -/

theorem mem_leavesOf_sym {f : List Nat} (hf : f.length ≤ 256) (b : Byte) :
    b ∈ (leavesOf f).map (·.sym) ↔ ∃ n, f[b.toNat]? = some n ∧ 0 < n := by
  rw [List.mem_map]
  constructor
  · rintro ⟨l, hl, rfl⟩
    obtain ⟨i, n, hi, hn, rfl⟩ := mem_leavesOf.1 hl
    have := (List.getElem?_eq_some_iff.1 hi).1
    refine ⟨n, ?_, hn⟩
    rwa [BitVec.toNat_ofNat, Nat.mod_eq_of_lt (by omega)]
  · rintro ⟨n, hi, hn⟩
    exact ⟨_, mem_leavesOf.2 ⟨b.toNat, n, hi, hn, rfl⟩, by simp⟩

theorem present_iff_mem {data : List Byte} {h : Hft}
    (hp : (h.leaves.map (·.sym)).Perm ((leavesOf (byteCounts data)).map (·.sym))) (b : Byte) :
    h.Present b ↔ b ∈ data := by
  unfold Hft.Present
  rw [hp.mem_iff, mem_leavesOf_sym (by simp), byteCounts_get]
  simp [List.count_pos_iff]

/-! ## The codeword stream (R263) -/

/-- The codeword bits of a buffer. -/
def streamBits (wb : Nat) (h : Hft) (data : List Byte) : Bits := data.flatMap (h.bits wb)

theorem fold_append_bits (hv : 0 < wb) (h : Hft) (data : List Byte) (out : BitBuffer) :
    sbits wb (data.foldl (fun out b => bbAppend wb out (h.codeword b)) out) = sbits wb out ++ streamBits wb h data := by
  induction data generalizing out with
  | nil => simp [streamBits]
  | cons b data ih =>
    have e : streamBits wb h (b :: data) = h.bits wb b ++ streamBits wb h data := by
      simp [streamBits, List.flatMap_cons]
    rw [List.foldl_cons, ih, sbits_bbAppend hv, e, List.append_assoc]
    rfl

theorem fold_append_ok (hv : 0 < wb) (h : Hft) (data : List Byte) {out : BitBuffer} (ho : StreamOk wb out) :
    StreamOk wb (data.foldl (fun out b => bbAppend wb out (h.codeword b)) out) := by
  induction data generalizing out with
  | nil => exact ho
  | cons b data ih => exact ih (bbAppend_streamOk hv _ _)

/-- The bits of the stream's bytes: the codewords', then zero padding to a whole byte. -/
theorem bitsOfBytes_codewordStream (hv : 8 ≤ wb) (h8 : wb % 8 = 0) (h : Hft) (data : List Byte) :
    bitsOfBytes (codewordStream wb h data)
      = streamBits wb h data ++ List.replicate ((8 - (streamBits wb h data).length % 8) % 8) false := by
  have hp : 0 < wb := by omega
  have hb := fold_append_bits hp h data ⟨[], 0⟩
  have hok := fold_append_ok hp h data (streamOk_nil (cfg := ⟨wb, 0⟩) hp)
  unfold codewordStream
  generalize data.foldl (fun out b => bbAppend wb out (h.codeword b)) ⟨[], 0⟩ = out at hb hok
  have hnil : sbits wb ⟨[], 0⟩ = [] := rfl
  rw [hnil, List.nil_append] at hb
  have hcap : out.bitCount ≤ out.words.length * wb := by rw [hok.1]; exact ceilDiv_mul_ge hp
  have hlen := sbits_length hcap
  rw [hb] at hlen
  rw [bitsOfBytes_bbToBytes h8, ← hb, hb, hlen]
  have hle : 8 * ceilDiv out.bitCount 8 ≤ (cat wb out.words).length := by
    have := bbToBytes_length h8 hcap
    have h2 := bitsOfBytes_bbToBytes h8 out
    have h3 := congrArg List.length h2
    rw [bitsOfBytes_length, this, List.length_take] at h3
    omega
  have hpad := length_add_pad (a := out.bitCount) (b := 8) (by decide)
  have hsplit := List.take_append_drop out.bitCount (cat wb out.words)
  rw [hok.2.2] at hsplit
  rw [← hsplit, List.take_append, List.length_take, cat_length, Nat.min_eq_left hcap]
  rw [List.take_of_length_le (by rw [List.length_take, cat_length, Nat.min_eq_left hcap]; omega), List.take_replicate]
  have e1 : (cat wb out.words).take out.bitCount = streamBits wb h data := hb
  rw [e1]
  congr 2
  rw [cat_length] at hle
  unfold unused
  omega

/-! ## The container (R261, R265) -/

theorem encodeFreq_length {f : List Nat} (hf : f.length = 256) : (encodeFreq f).length = 512 := by
  rw [encodeFreq, flatMap_bytesBE_length, hf]

theorem containerCounts_length {c : List Byte} : (containerCounts c).length = 256 := by simp [containerCounts]

theorem containerCounts_encode {f : List Nat} (hf : f.length = 256) (hb : ∀ n ∈ f, n < 65536) (s : List Byte) :
    containerCounts (encodeFreq f ++ s) = f := by
  unfold containerCounts
  rw [List.take_left' (encodeFreq_length hf)]
  have := map_natOfBytes_chunks (n := 2) (ws := f) fun w hw => by simpa using hb w hw
  rw [hf] at this
  exact this

/-! ## The reverse table (R266) -/

theorem mem_reverseTable {h : Hft} (ho : h.Ok wb) {e : Bits × Byte} :
    e ∈ reverseTable wb h ↔ h.Present e.2 ∧ e.1 = h.bits wb e.2 := by
  unfold reverseTable
  rw [List.mem_filterMap]
  constructor
  · rintro ⟨i, hi, he⟩
    dsimp only at he
    split at he
    · rename_i hp
      obtain rfl := Option.some.inj he
      exact ⟨(ho.present_iff _).2 hp, rfl⟩
    · cases he
  · rintro ⟨hp, he⟩
    refine ⟨e.2.toNat, by simpa using e.2.isLt, ?_⟩
    have hz : BitVec.ofNat 8 e.2.toNat = e.2 := by simp
    dsimp only
    rw [hz, if_pos ((ho.present_iff _).1 hp)]
    exact congrArg some (Prod.ext he.symm rfl)

theorem reverseTable_pairwise (hv : 0 < wb) {h : Hft} (ho : h.Ok wb) (hd : h.mode = .done) :
    (reverseTable wb h).Pairwise (fun d e => ¬ d.1 <+: e.1 ∧ ¬ e.1 <+: d.1) := by
  unfold reverseTable
  rw [List.pairwise_filterMap]
  refine List.Pairwise.imp_of_mem ?_ (List.pairwise_lt_range (n := 256))
  intro a b ha hb hab d hda e heb
  rw [List.mem_range] at ha hb
  dsimp only at hda heb
  split at hda
  · rename_i pa
    split at heb
    · rename_i pb
      obtain rfl := Option.some.inj hda
      obtain rfl := Option.some.inj heb
      have hne : BitVec.ofNat 8 a ≠ BitVec.ofNat 8 b := by
        intro he
        have := congrArg BitVec.toNat he
        simp at this
        omega
      have ga := (ho.present_iff _).2 pa
      have gb := (ho.present_iff _).2 pb
      exact ⟨ho.bits_prefixFree hv hd ga gb hne, ho.bits_prefixFree hv hd gb ga hne.symm⟩
    · cases heb
  · cases hda

theorem keys_nodup_of_prefixFree {rev : List (Bits × Byte)}
    (h : rev.Pairwise (fun d e => ¬ d.1 <+: e.1 ∧ ¬ e.1 <+: d.1)) : (rev.map Prod.fst).Nodup := by
  rw [List.Nodup, List.pairwise_map]
  exact h.imp fun hde he => hde.1 (by rw [he])

/-- Looking up a codeword's bits. -/
theorem mapGet_reverseTable (hv : 0 < wb) {h : Hft} (ho : h.Ok wb) (hd : h.mode = .done) {bits : Bits} {b : Byte} :
    mapGet (reverseTable wb h) bits = some b ↔ h.Present b ∧ bits = h.bits wb b := by
  constructor
  · intro hg
    exact (mem_reverseTable ho).1 (mem_of_mapGet hg)
  · rintro ⟨hp, rfl⟩
    exact mapGet_of_mem (keys_nodup_of_prefixFree (reverseTable_pairwise hv ho hd)) ((mem_reverseTable ho).2 ⟨hp, rfl⟩)

theorem minLength_le {rev : List (Bits × Byte)} {e : Bits × Byte} (he : e ∈ rev) : minLength rev ≤ e.1.length := by
  unfold minLength
  have hm : e.1.length ∈ rev.map (fun e => e.1.length) := List.mem_map_of_mem he
  cases hx : (rev.map (fun e => e.1.length)).min? with
  | none => rw [List.min?_eq_none_iff] at hx; rw [hx] at hm; cases hm
  | some m => exact (List.min?_eq_some_iff.1 hx).2 _ hm

theorem le_maxLength {rev : List (Bits × Byte)} {e : Bits × Byte} (he : e ∈ rev) : e.1.length ≤ maxLength rev := by
  unfold maxLength
  have hm : e.1.length ∈ rev.map (fun e => e.1.length) := List.mem_map_of_mem he
  cases hx : (rev.map (fun e => e.1.length)).max? with
  | none => rw [List.max?_eq_none_iff] at hx; rw [hx] at hm; cases hm
  | some m => exact (List.max?_eq_some_iff.1 hx).2 _ hm

theorem minLength_mem {rev : List (Bits × Byte)} (h : rev ≠ []) : ∃ e ∈ rev, e.1.length = minLength rev := by
  unfold minLength
  cases hx : (rev.map (fun e => e.1.length)).min? with
  | none => rw [List.min?_eq_none_iff, List.map_eq_nil_iff] at hx; exact absurd hx h
  | some m =>
    obtain ⟨e, he, hm⟩ := List.mem_map.1 (List.min?_eq_some_iff.1 hx).1
    exact ⟨e, he, hm⟩

theorem maxLength_mem {rev : List (Bits × Byte)} (h : rev ≠ []) : ∃ e ∈ rev, e.1.length = maxLength rev := by
  unfold maxLength
  cases hx : (rev.map (fun e => e.1.length)).max? with
  | none => rw [List.max?_eq_none_iff, List.map_eq_nil_iff] at hx; exact absurd hx h
  | some m =>
    obtain ⟨e, he, hm⟩ := List.mem_map.1 (List.max?_eq_some_iff.1 hx).1
    exact ⟨e, he, hm⟩

/-! ## Construction (R265, R271) -/

/-- The instance HFD_INIT constructs from a finished tree. -/
def Hfd.fresh (wb : Nat) (lit : Bool) (container : List Byte) (h : Hft) : Hfd :=
  { mode := .active, lit, total := (containerCounts container).sum, rev := reverseTable wb h,
    minlen := minLength (reverseTable wb h), maxlen := maxLength (reverseTable wb h), stream := container.drop 512,
    nbits := 8 * (container.drop 512).length, pos := 0, trial := minLength (reverseTable wb h), emitted := 0, out := [] }

/-- A finished tree of a frequency table. -/
structure TreeOf (wb : Nat) (f : List Nat) (h : Hft) : Prop where
  built : buildTree wb f = .ok h
  ok : h.Ok wb
  done : h.mode = .done
  total : h.total = f.sum
  symbols : (h.leaves.map (·.sym)).Perm ((leavesOf f).map (·.sym))

theorem buildTree_treeOf (hv : 0 < wb) {f : List Nat} (hf : f.length ≤ 256) (hs : 0 < f.sum) : ∃ h, TreeOf wb f h := by
  rcases buildTree_cases hv hf with ⟨h0, -⟩ | ⟨-, h, h1, h2, h3, h4, h5⟩
  · omega
  · exact ⟨h, h1, h2, h3, h4, h5⟩

theorem treeOf_of_build (hv : 0 < wb) {f : List Nat} (hf : f.length ≤ 256) {h : Hft} (hb : buildTree wb f = .ok h) :
    0 < f.sum ∧ TreeOf wb f h := by
  rcases buildTree_cases hv hf with ⟨-, he⟩ | ⟨hs, h', h1, h2, h3, h4, h5⟩
  · rw [he] at hb; cases hb
  · rw [h1] at hb
    cases hb
    exact ⟨hs, h1, h2, h3, h4, h5⟩

/-- Everything HFD_INIT's construction can answer. -/
theorem Hfd.init_cases (hv : 0 < wb) (lit : Bool) (container : List Byte) :
    (container.length < 512 ∧ Hfd.init wb lit container = .error ⟨.corruptStream, container.length⟩) ∨
    (512 ≤ container.length ∧ (containerCounts container).sum = 0 ∧
      Hfd.init wb lit container = .error ⟨.degenerateTree, 0⟩) ∨
    (512 ≤ container.length ∧ 0 < (containerCounts container).sum ∧ ∃ h, TreeOf wb (containerCounts container) h ∧
      Hfd.init wb lit container = .ok (Hfd.fresh wb lit container h, h)) := by
  unfold Hfd.init
  by_cases hl : container.length < 512
  · exact .inl ⟨hl, by rw [if_pos hl]⟩
  · rw [if_neg hl]
    have hlen : (containerCounts container).length ≤ 256 := by rw [containerCounts_length]
    rcases buildTree_cases hv hlen with ⟨h0, he⟩ | ⟨hs, h, h1, h2, h3, h4, h5⟩
    · refine .inr (.inl ⟨by omega, h0, ?_⟩)
      dsimp only
      rw [he, error_bind]
    · refine .inr (.inr ⟨by omega, hs, h, ⟨h1, h2, h3, h4, h5⟩, ?_⟩)
      dsimp only
      rw [h1, ok_bind]
      rfl

theorem TreeOf.leaves_ne_nil {f : List Nat} {h : Hft} (ht : TreeOf wb f h) : h.leaves ≠ [] :=
  ht.ok.loaded (by rw [ht.done]; simp)

theorem TreeOf.reverseTable_ne_nil {f : List Nat} {h : Hft} (ht : TreeOf wb f h) : reverseTable wb h ≠ [] := by
  obtain ⟨l, ls, he⟩ := List.exists_cons_of_ne_nil ht.leaves_ne_nil
  intro hn
  have : (h.bits wb l.sym, l.sym) ∈ reverseTable wb h :=
    (mem_reverseTable ht.ok).2 ⟨List.mem_map.2 ⟨l, by simp [he], rfl⟩, rfl⟩
  rw [hn] at this
  cases this

theorem TreeOf.one_le_minLength (hv : 0 < wb) {f : List Nat} {h : Hft} (ht : TreeOf wb f h) :
    1 ≤ minLength (reverseTable wb h) := by
  obtain ⟨e, he, hm⟩ := minLength_mem ht.reverseTable_ne_nil
  obtain ⟨hp, hb⟩ := (mem_reverseTable ht.ok).1 he
  rw [← hm, hb, ht.ok.bits_length hv]
  exact (ht.ok.present_iff _).1 hp

theorem Hfd.fresh_ok (hv : 0 < wb) (lit : Bool) (container : List Byte) {f : List Nat} {h : Hft} (ht : TreeOf wb f h) :
    (Hfd.fresh wb lit container h).Ok := by
  obtain ⟨e, he, -⟩ := minLength_mem ht.reverseTable_ne_nil
  refine ⟨rfl, Nat.zero_le _, rfl, fun _ => Nat.zero_le _, fun _ => ⟨le_rfl, ?_⟩, fun e he => ?_,
    fun _ => ht.one_le_minLength hv, reverseTable_pairwise hv ht.ok ht.done⟩
  · exact (minLength_le he).trans (le_maxLength he)
  · exact ⟨minLength_le he, le_maxLength he⟩

/-! ## One trial (R268 to R270) -/

/-- The bits of a trial. -/
def Hfd.trialBits (u : Hfd) : Bits := ((bitsOfBytes u.stream).drop u.pos).take u.trial

/-- Everything one trial can answer. -/
theorem Hfd.trialStep_cases (u : Hfd) :
    (u.lit = false ∧ u.emitted = u.total ∧ u.trialStep = .ok ({ u with mode := .ended }, .ended)) ∨
    ((u.lit = false → u.emitted ≠ u.total) ∧ u.nbits < u.pos + u.trial ∧ u.lit = true ∧
      u.trialStep = .ok ({ u with mode := .ended }, .ended)) ∨
    (u.lit = false ∧ u.emitted ≠ u.total ∧ u.nbits < u.pos + u.trial ∧
      u.trialStep = .error ⟨.corruptStream, u.pos⟩) ∨
    ((u.lit = false → u.emitted ≠ u.total) ∧ u.pos + u.trial ≤ u.nbits ∧ ∃ b, mapGet u.rev u.trialBits = some b ∧
      u.trialStep = .ok ({ u with out := u.out ++ [b], pos := u.pos + u.trial, trial := u.minlen,
                                  emitted := u.emitted + 1 }, .hit b)) ∨
    ((u.lit = false → u.emitted ≠ u.total) ∧ u.pos + u.trial ≤ u.nbits ∧ mapGet u.rev u.trialBits = none ∧
      u.trial + 1 ≤ u.maxlen ∧ u.trialStep = .ok ({ u with trial := u.trial + 1 }, .miss)) ∨
    ((u.lit = false → u.emitted ≠ u.total) ∧ u.pos + u.trial ≤ u.nbits ∧ mapGet u.rev u.trialBits = none ∧
      u.maxlen < u.trial + 1 ∧ u.lit = true ∧
      u.trialStep = .ok ({ u with trial := u.trial + 1, mode := .ended }, .ended)) ∨
    (u.lit = false ∧ u.emitted ≠ u.total ∧ u.pos + u.trial ≤ u.nbits ∧ mapGet u.rev u.trialBits = none ∧
      u.maxlen < u.trial + 1 ∧ u.trialStep = .error ⟨.corruptStream, u.pos⟩) := by
  unfold Hfd.trialStep Hfd.trialBits
  by_cases hc : u.lit = false ∧ u.emitted = u.total
  · exact .inl ⟨hc.1, hc.2, if_pos hc⟩
  · have hc' : u.lit = false → u.emitted ≠ u.total := fun h1 h2 => hc ⟨h1, h2⟩
    rw [if_neg hc]
    by_cases hn : u.nbits < u.pos + u.trial
    · rw [if_pos hn]
      unfold Hfd.malformed
      cases hl : u.lit
      · exact .inr (.inr (.inl ⟨rfl, hc' hl, hn, rfl⟩))
      · exact .inr (.inl ⟨by simp, hn, rfl, rfl⟩)
    · rw [if_neg hn]
      have hn' : u.pos + u.trial ≤ u.nbits := by omega
      cases hg : mapGet u.rev (((bitsOfBytes u.stream).drop u.pos).take u.trial) with
      | some b => exact .inr (.inr (.inr (.inl ⟨hc', hn', b, rfl, rfl⟩)))
      | none =>
        by_cases hm : u.maxlen < u.trial + 1
        · dsimp only
          rw [if_pos hm]
          unfold Hfd.malformed
          cases hl : u.lit
          · exact .inr (.inr (.inr (.inr (.inr (.inr ⟨rfl, hc' hl, hn', rfl, hm, rfl⟩)))))
          · exact .inr (.inr (.inr (.inr (.inr (.inl ⟨by simp, hn', rfl, hm, rfl, rfl⟩)))))
        · exact .inr (.inr (.inr (.inr (.inl ⟨hc', hn', rfl, by omega, by dsimp only; rw [if_neg hm]⟩))))

theorem Hfd.Ok.trialStep {u v : Hfd} {t : Trial} (h : u.Ok) (hm : u.mode = .active) (hs : u.trialStep = .ok (v, t)) :
    v.Ok := by
  have ht := h.trial hm
  rcases Hfd.trialStep_cases u with ⟨-, -, he⟩ | ⟨-, -, -, he⟩ | ⟨-, -, -, he⟩ | ⟨hc, hn, b, hg, he⟩ |
    ⟨hc, hn, hg, hx, he⟩ | ⟨-, -, -, -, -, he⟩ | ⟨-, -, -, -, -, he⟩ <;> rw [he] at hs
  · obtain ⟨rfl, -⟩ := Prod.mk.inj (Except.ok.inj hs)
    exact { h with trial := (by intro hx; cases hx), nonempty := fun _ => h.nonempty (by rw [hm]; simp) }
  · obtain ⟨rfl, -⟩ := Prod.mk.inj (Except.ok.inj hs)
    exact { h with trial := (by intro hx; cases hx), nonempty := fun _ => h.nonempty (by rw [hm]; simp) }
  · cases hs
  · obtain ⟨rfl, -⟩ := Prod.mk.inj (Except.ok.inj hs)
    refine { h with pos := hn, emitted := ?_, counted := ?_, trial := fun _ => ⟨le_rfl, ht.1.trans ht.2⟩ }
    · show u.emitted + 1 = (u.out ++ [b]).length
      rw [h.emitted]; simp
    · intro hl
      have h1 := h.counted hl
      have h2 := hc hl
      show u.emitted + 1 ≤ u.total
      omega
  · obtain ⟨rfl, -⟩ := Prod.mk.inj (Except.ok.inj hs)
    exact { h with trial := fun _ => ⟨by show u.minlen ≤ u.trial + 1; omega, hx⟩ }
  · obtain ⟨rfl, -⟩ := Prod.mk.inj (Except.ok.inj hs)
    exact { h with trial := (by intro hx; cases hx), nonempty := fun _ => h.nonempty (by rw [hm]; simp) }
  · cases hs

theorem Hfd.trialStep_mode {u v : Hfd} {t : Trial} (hm : u.mode = .active) (hs : u.trialStep = .ok (v, t)) :
    (t = .ended ∧ v.mode = .ended) ∨ (t ≠ .ended ∧ v.mode = .active) := by
  rcases Hfd.trialStep_cases u with ⟨-, -, he⟩ | ⟨-, -, -, he⟩ | ⟨-, -, -, he⟩ | ⟨hc, hn, b, hg, he⟩ |
    ⟨hc, hn, hg, hx, he⟩ | ⟨-, -, -, -, -, he⟩ | ⟨-, -, -, -, -, he⟩ <;> rw [he] at hs
  · obtain ⟨rfl, rfl⟩ := Prod.mk.inj (Except.ok.inj hs); exact .inl ⟨rfl, rfl⟩
  · obtain ⟨rfl, rfl⟩ := Prod.mk.inj (Except.ok.inj hs); exact .inl ⟨rfl, rfl⟩
  · cases hs
  · obtain ⟨rfl, rfl⟩ := Prod.mk.inj (Except.ok.inj hs); exact .inr ⟨by simp, hm⟩
  · obtain ⟨rfl, rfl⟩ := Prod.mk.inj (Except.ok.inj hs); exact .inr ⟨by simp, hm⟩
  · obtain ⟨rfl, rfl⟩ := Prod.mk.inj (Except.ok.inj hs); exact .inl ⟨rfl, rfl⟩
  · cases hs

/-! ## The loop (R273; 70_reset_and_hazards.md R366) -/

/-- Trials of an instance, one after another, until END: what `Hfd.run` computes when its fuel is enough. -/
inductive Hfd.Runs : Hfd → Except Raise Hfd → Prop where
  | fault {u : Hfd} {r : Raise} (h : u.trialStep = .error r) : Hfd.Runs u (.error r)
  | done {u v : Hfd} (h : u.trialStep = .ok (v, .ended)) : Hfd.Runs u (.ok v)
  | more {u v : Hfd} {t : Trial} {x : Except Raise Hfd} (h : u.trialStep = .ok (v, t)) (ht : t ≠ .ended)
      (hr : Hfd.Runs v x) : Hfd.Runs u x

/-- An upper bound on the trials left. -/
def Hfd.measure (u : Hfd) : Nat := (u.nbits - u.pos) * (u.maxlen + 1) + (u.maxlen + 1 - u.trial)

theorem Hfd.Ok.measure_lt {u v : Hfd} {t : Trial} (h : u.Ok) (hm : u.mode = .active) (hs : u.trialStep = .ok (v, t))
    (ht : t ≠ .ended) : v.measure < u.measure := by
  obtain ⟨t1, t2⟩ := h.trial hm
  have hne := h.nonempty (by rw [hm]; simp)
  rcases Hfd.trialStep_cases u with ⟨-, -, he⟩ | ⟨-, -, -, he⟩ | ⟨-, -, -, he⟩ | ⟨hc, hn, b, hg, he⟩ |
    ⟨hc, hn, hg, hx, he⟩ | ⟨-, -, -, -, -, he⟩ | ⟨-, -, -, -, -, he⟩ <;> rw [he] at hs
  · obtain ⟨-, rfl⟩ := Prod.mk.inj (Except.ok.inj hs); exact absurd rfl ht
  · obtain ⟨-, rfl⟩ := Prod.mk.inj (Except.ok.inj hs); exact absurd rfl ht
  · cases hs
  · obtain ⟨rfl, -⟩ := Prod.mk.inj (Except.ok.inj hs)
    show (u.nbits - (u.pos + u.trial)) * (u.maxlen + 1) + (u.maxlen + 1 - u.minlen)
      < (u.nbits - u.pos) * (u.maxlen + 1) + (u.maxlen + 1 - u.trial)
    have e : u.nbits - u.pos = (u.nbits - (u.pos + u.trial)) + u.trial := by omega
    rw [e, Nat.add_mul]
    have : 1 * (u.maxlen + 1) ≤ u.trial * (u.maxlen + 1) := Nat.mul_le_mul_right _ (by omega)
    omega
  · obtain ⟨rfl, -⟩ := Prod.mk.inj (Except.ok.inj hs)
    show (u.nbits - u.pos) * (u.maxlen + 1) + (u.maxlen + 1 - (u.trial + 1))
      < (u.nbits - u.pos) * (u.maxlen + 1) + (u.maxlen + 1 - u.trial)
    omega
  · obtain ⟨-, rfl⟩ := Prod.mk.inj (Except.ok.inj hs); exact absurd rfl ht
  · cases hs

theorem Hfd.Ok.measure_pos {u : Hfd} (h : u.Ok) (hm : u.mode = .active) : 0 < u.measure := by
  have := (h.trial hm).2
  unfold Hfd.measure
  omega

theorem Hfd.Ok.runs : ∀ {fuel : Nat} {u : Hfd}, u.Ok → u.mode = .active → u.measure ≤ fuel →
    Hfd.Runs u (Hfd.run fuel u) := by
  intro fuel
  induction fuel with
  | zero => intro u h hm hf; have := h.measure_pos hm; omega
  | succ fuel ih =>
    intro u h hm hf
    rw [Hfd.run]
    cases hs : u.trialStep with
    | error r => exact .fault hs
    | ok x =>
      obtain ⟨v, t⟩ := x
      rcases Hfd.trialStep_mode hm hs with ⟨rfl, hv⟩ | ⟨ht, hv⟩
      · exact .done hs
      · have := h.measure_lt hm hs ht
        have hr := Hfd.Runs.more hs ht (ih (h.trialStep hm hs) hv (by omega))
        cases t with
        | ended => exact absurd rfl ht
        | miss => exact hr
        | hit b => exact hr

/-- A loop that ends without a fault ends ENDED. -/
theorem Hfd.Runs.ended {u v : Hfd} {x : Except Raise Hfd} (h : Hfd.Runs u x) (hm : u.mode = .active) (hx : x = .ok v) :
    v.mode = .ended := by
  induction h with
  | fault h => cases hx
  | done h =>
    cases hx
    rcases Hfd.trialStep_mode hm h with ⟨-, hv⟩ | ⟨ht, -⟩
    · exact hv
    · exact absurd rfl ht
  | more h ht hr ih =>
    rcases Hfd.trialStep_mode hm h with ⟨rfl, -⟩ | ⟨-, hv⟩
    · exact absurd rfl ht
    · exact ih hv hx

theorem Hfd.Runs.ok {u v : Hfd} {x : Except Raise Hfd} (h : Hfd.Runs u x) (ho : u.Ok) (hm : u.mode = .active)
    (hx : x = .ok v) : v.Ok := by
  induction h with
  | fault h => cases hx
  | done h => cases hx; exact ho.trialStep hm h
  | more h ht hr ih =>
    rcases Hfd.trialStep_mode hm h with ⟨rfl, -⟩ | ⟨-, hv⟩
    · exact absurd rfl ht
    · exact ih (ho.trialStep hm h) hv hx

/-- The loop's answer does not depend on the fuel, once there is enough. -/
theorem Hfd.Runs.unique {u : Hfd} {x y : Except Raise Hfd} (h1 : Hfd.Runs u x) (h2 : Hfd.Runs u y) : x = y := by
  induction h1 with
  | fault h =>
    cases h2 with
    | fault h' => rw [h] at h'; cases h'; rfl
    | done h' => rw [h] at h'; cases h'
    | more h' _ _ => rw [h] at h'; cases h'
  | done h =>
    cases h2 with
    | fault h' => rw [h] at h'; cases h'
    | done h' => rw [h] at h'; cases h'; rfl
    | more h' ht _ => rw [h] at h'; cases h'; exact absurd rfl ht
  | more h ht hr ih =>
    cases h2 with
    | fault h' => rw [h] at h'; cases h'
    | done h' => rw [h] at h'; cases h'; exact absurd rfl ht
    | more h' _ hr' => rw [h] at h'; cases h'; exact ih hr'

theorem Hfd.fresh_measure (wb : Nat) (lit : Bool) (container : List Byte) (h : Hft) :
    (Hfd.fresh wb lit container h).measure
      ≤ ((Hfd.fresh wb lit container h).nbits + 1) * ((Hfd.fresh wb lit container h).maxlen + 1) := by
  unfold Hfd.measure
  rw [Nat.add_mul, Nat.one_mul]
  show (_ - 0) * _ + (_ - _) ≤ _
  rw [Nat.sub_zero]
  omega

/-! ## Trials at a codeword find it (R269, with the prefix-free property of R245) -/

/-- An instance after a hit of `n` bits. -/
def Hfd.afterHit (u : Hfd) (b : Byte) (n : Nat) : Hfd :=
  { u with out := u.out ++ [b], pos := u.pos + n, trial := u.minlen, emitted := u.emitted + 1 }

/-- An instance whose reverse table is that of a finished tree. -/
structure Reads (wb : Nat) (h : Hft) (u : Hfd) : Prop where
  rev : u.rev = reverseTable wb h
  minlen : u.minlen = minLength (reverseTable wb h)
  maxlen : u.maxlen = maxLength (reverseTable wb h)
  nbits : u.nbits = 8 * u.stream.length

/-- From a trial no longer than the codeword at the cursor, the trials reach its hit. -/
theorem Hfd.runs_hit (hv : 0 < wb) {f : List Nat} {h : Hft} (htree : TreeOf wb f h) {b : Byte} (hp : h.Present b) :
    ∀ {n : Nat} {u : Hfd} {x : Except Raise Hfd} {rest : Bits}, Reads wb h u →
      u.trial + n = (h.bits wb b).length → (u.lit = false → u.emitted ≠ u.total) →
      (bitsOfBytes u.stream).drop u.pos = h.bits wb b ++ rest →
      Hfd.Runs (u.afterHit b (h.bits wb b).length) x → Hfd.Runs u x := by
  intro n
  induction n with
  | zero =>
    intro u x rest hr hn hc hbits hx
    rw [Nat.add_zero] at hn
    have hlen := congrArg List.length hbits
    rw [List.length_drop, bitsOfBytes_length, ← hr.nbits, List.length_append] at hlen
    have htb : u.trialBits = h.bits wb b := by rw [Hfd.trialBits, hbits, hn, List.take_left]
    have hg : mapGet u.rev u.trialBits = some b := by
      rw [htb, hr.rev, mapGet_reverseTable hv htree.ok htree.done]; exact ⟨hp, rfl⟩
    have hpos : 0 < (h.bits wb b).length := by
      rw [htree.ok.bits_length hv]; exact (htree.ok.present_iff b).1 hp
    rcases Hfd.trialStep_cases u with ⟨hl, he, -⟩ | ⟨-, hlt, -⟩ | ⟨-, -, hlt, -⟩ | ⟨-, -, b', hg', he⟩ |
      ⟨-, -, hg', -⟩ | ⟨-, -, hg', -⟩ | ⟨-, -, -, hg', -⟩
    · exact absurd he (hc hl)
    · omega
    · omega
    · rw [hg] at hg'
      cases hg'
      rw [hn] at he
      exact .more he (by simp) hx
    all_goals (rw [hg] at hg'; cases hg')
  | succ n ih =>
    intro u x rest hr hn hc hbits hx
    have hlen := congrArg List.length hbits
    rw [List.length_drop, bitsOfBytes_length, ← hr.nbits, List.length_append] at hlen
    have htb : u.trialBits = (h.bits wb b).take u.trial := by
      rw [Hfd.trialBits, hbits, List.take_append_of_le_length (by omega)]
    have hg : mapGet u.rev u.trialBits = none := by
      cases hg : mapGet u.rev u.trialBits with
      | none => rfl
      | some c =>
        rw [htb, hr.rev, mapGet_reverseTable hv htree.ok htree.done] at hg
        have hpre : h.bits wb c <+: h.bits wb b := hg.2 ▸ List.take_prefix _ _
        have hcb : c ≠ b := by
          rintro rfl
          have := congrArg List.length hg.2
          rw [List.length_take] at this
          omega
        exact absurd hpre (htree.ok.bits_prefixFree hv htree.done hg.1 hp hcb)
    have hmax : (h.bits wb b).length ≤ u.maxlen := by
      rw [hr.maxlen]
      exact le_maxLength (e := (h.bits wb b, b)) ((mem_reverseTable htree.ok).2 ⟨hp, rfl⟩)
    rcases Hfd.trialStep_cases u with ⟨hl, he, -⟩ | ⟨-, hlt, -⟩ | ⟨-, -, hlt, -⟩ | ⟨-, -, b', hg', he⟩ |
      ⟨-, -, -, -, he⟩ | ⟨-, -, -, hlt, -⟩ | ⟨-, -, -, -, hlt, -⟩
    · exact absurd he (hc hl)
    · omega
    · omega
    · rw [hg] at hg'; cases hg'
    · exact .more he (by simp) (ih (u := { u with trial := u.trial + 1 }) ⟨hr.rev, hr.minlen, hr.maxlen, hr.nbits⟩
        (by show u.trial + 1 + n = _; omega) hc hbits hx)
    · omega
    · omega

/-- The trials read a codeword stream, symbol by symbol, and then stand after it. -/
theorem Hfd.reaches_stream (hv : 0 < wb) {f : List Nat} {h : Hft} (htree : TreeOf wb f h) {data : List Byte} :
    ∀ {u : Hfd} {rest : Bits}, (∀ b ∈ data, h.Present b) → Reads wb h u → u.trial = u.minlen →
      (u.lit = false → u.emitted + data.length ≤ u.total) →
      (bitsOfBytes u.stream).drop u.pos = streamBits wb h data ++ rest →
      ∀ x, Hfd.Runs { u with out := u.out ++ data, pos := u.pos + (streamBits wb h data).length, trial := u.minlen,
                             emitted := u.emitted + data.length } x → Hfd.Runs u x := by
  induction data with
  | nil =>
    intro u rest _ _ ht _ _ x hx
    have e : { u with out := u.out ++ [], pos := u.pos + (streamBits wb h []).length, trial := u.minlen,
                      emitted := u.emitted + ([] : List Byte).length } = u := by
      cases u
      simp only at ht
      simp [streamBits, ht]
    rwa [e] at hx
  | cons b data ih =>
    intro u rest hp hr ht he hbits x hx
    have hpb := hp b (by simp)
    have hm : u.minlen ≤ (h.bits wb b).length := by
      rw [hr.minlen]
      exact minLength_le (e := (h.bits wb b, b)) ((mem_reverseTable htree.ok).2 ⟨hpb, rfl⟩)
    have hsb : streamBits wb h (b :: data) = h.bits wb b ++ streamBits wb h data := by
      simp [streamBits, List.flatMap_cons]
    rw [hsb, List.append_assoc] at hbits
    rw [List.length_cons] at he
    refine Hfd.runs_hit hv htree hpb hr (n := (h.bits wb b).length - u.trial) (by omega)
      (fun hl => by have := he hl; omega) hbits ?_
    refine ih (u := u.afterHit b (h.bits wb b).length) (rest := rest) (fun c hc => hp c (by simp [hc]))
      ⟨hr.rev, hr.minlen, hr.maxlen, hr.nbits⟩ rfl
      (fun hl => by have := he hl; show u.emitted + 1 + _ ≤ u.total; omega)
      (by show (bitsOfBytes u.stream).drop (u.pos + _) = _
          rw [← List.drop_drop, hbits, List.drop_left]) x ?_
    have e : { u.afterHit b (h.bits wb b).length with
          out := (u.afterHit b (h.bits wb b).length).out ++ data,
          pos := (u.afterHit b (h.bits wb b).length).pos + (streamBits wb h data).length,
          trial := (u.afterHit b (h.bits wb b).length).minlen,
          emitted := (u.afterHit b (h.bits wb b).length).emitted + data.length }
        = { u with out := u.out ++ b :: data, pos := u.pos + (streamBits wb h (b :: data)).length, trial := u.minlen,
                   emitted := u.emitted + (b :: data).length } := by
      rw [hsb]
      simp [Hfd.afterHit]
      omega
    rwa [e]

/-- In the default mode the trials decode a codeword stream to its symbols, whatever follows it. -/
theorem Hfd.runs_stream (hv : 0 < wb) {f : List Nat} {h : Hft} (htree : TreeOf wb f h) {data : List Byte} {u : Hfd}
    {rest : Bits} (hp : ∀ b ∈ data, h.Present b) (hr : Reads wb h u) (hl : u.lit = false) (ht : u.trial = u.minlen)
    (he : u.emitted + data.length = u.total) (hbits : (bitsOfBytes u.stream).drop u.pos = streamBits wb h data ++ rest) :
    ∃ v, Hfd.Runs u (.ok v) ∧ v.out = u.out ++ data :=
  ⟨_, Hfd.reaches_stream hv htree hp hr ht (fun _ => he.le) hbits _ (.done (if_pos ⟨hl, he⟩)), rfl⟩

/-! ## Literal mode (R270, R275), and bytes after the last codeword (R276) -/

/-- In literal mode the loop ends without a fault, and each symbol takes at least one bit. -/
theorem Hfd.Runs.literal {u : Hfd} {x : Except Raise Hfd} (h : Hfd.Runs u x) (ho : u.Ok) (hm : u.mode = .active)
    (hl : u.lit = true) : ∃ v more, x = .ok v ∧ v.out = u.out ++ more ∧ more.length ≤ u.nbits - u.pos := by
  induction h with
  | @fault u r h =>
    exfalso
    rcases Hfd.trialStep_cases u with ⟨-, -, he⟩ | ⟨-, -, -, he⟩ | ⟨hl', -⟩ | ⟨hc, hn, b, hg, he⟩ |
      ⟨hc, hn, hg, hx, he⟩ | ⟨-, -, -, -, -, he⟩ | ⟨hl', -⟩
    · rw [he] at h; cases h
    · rw [he] at h; cases h
    · rw [hl] at hl'; cases hl'
    · rw [he] at h; cases h
    · rw [he] at h; cases h
    · rw [he] at h; cases h
    · rw [hl] at hl'; cases hl'
  | @done u v h =>
    refine ⟨v, [], rfl, ?_, by simp⟩
    rcases Hfd.trialStep_cases u with ⟨-, -, he⟩ | ⟨-, -, -, he⟩ | ⟨-, -, -, he⟩ | ⟨hc, hn, b, hg, he⟩ |
      ⟨hc, hn, hg, hx, he⟩ | ⟨-, -, -, -, -, he⟩ | ⟨-, -, -, -, -, he⟩ <;> rw [he] at h <;> cases h <;> simp
  | @more u v t x h ht hr ih =>
    have hvo := ho.trialStep hm h
    have hva : v.mode = .active := by
      rcases Hfd.trialStep_mode hm h with ⟨rfl, -⟩ | ⟨-, hv⟩
      · exact absurd rfl ht
      · exact hv
    have htr := (ho.trial hm).1
    have hmin := ho.nonempty (by rw [hm]; simp)
    rcases Hfd.trialStep_cases u with ⟨-, -, he⟩ | ⟨-, -, -, he⟩ | ⟨-, -, -, he⟩ | ⟨hc, hn, b, hg, he⟩ |
      ⟨hc, hn, hg, hx, he⟩ | ⟨-, -, -, -, -, he⟩ | ⟨-, -, -, -, -, he⟩ <;> rw [he] at h <;> cases h
    · exact absurd rfl ht
    · exact absurd rfl ht
    · obtain ⟨w, more, hx, hout, hlen⟩ := ih hvo hva hl
      refine ⟨w, b :: more, hx, by rw [hout]; simp, ?_⟩
      have hlen : more.length ≤ u.nbits - (u.pos + u.trial) := hlen
      rw [List.length_cons]
      omega
    · exact ih hvo hva hl
    · exact absurd rfl ht

/-- An instance whose stream has more bytes at the end. -/
def Hfd.extend (u : Hfd) (extra : List Byte) : Hfd :=
  { u with stream := u.stream ++ extra, nbits := u.nbits + 8 * extra.length }

/-- In the default mode the bytes after the last codeword are not read. -/
theorem Hfd.Runs.extend {u v : Hfd} {x : Except Raise Hfd} (h : Hfd.Runs u x) (hl : u.lit = false)
    (hn : u.nbits = 8 * u.stream.length) (hx : x = .ok v) (extra : List Byte) :
    Hfd.Runs (u.extend extra) (.ok (v.extend extra)) := by
  have hbits : ∀ {u : Hfd}, u.nbits = 8 * u.stream.length → u.pos + u.trial ≤ u.nbits →
      (u.extend extra).trialBits = u.trialBits := by
    intro u hn hle
    have hlen : u.pos ≤ (bitsOfBytes u.stream).length := by rw [bitsOfBytes_length]; omega
    unfold Hfd.trialBits Hfd.extend
    dsimp only
    rw [bitsOfBytes_append, List.drop_append_of_le_length hlen, List.take_append_of_le_length]
    rw [List.length_drop, bitsOfBytes_length]
    omega
  induction h with
  | fault h => cases hx
  | @done u w h =>
    cases hx
    rcases Hfd.trialStep_cases u with ⟨-, ht, he⟩ | ⟨-, -, hl', -⟩ | ⟨-, -, -, he⟩ | ⟨hc, hle, b, hg, he⟩ |
      ⟨hc, hle, hg, hx, he⟩ | ⟨-, -, -, -, hl', -⟩ | ⟨-, -, -, -, -, he⟩
    · rw [he] at h
      cases h
      exact .done (if_pos ⟨hl, ht⟩)
    · rw [hl] at hl'; cases hl'
    · rw [he] at h; cases h
    · rw [he] at h; cases h
    · rw [he] at h; cases h
    · rw [hl] at hl'; cases hl'
    · rw [he] at h; cases h
  | @more u w t x h ht hr ih =>
    rcases Hfd.trialStep_cases u with ⟨-, -, he⟩ | ⟨-, -, hl', -⟩ | ⟨-, -, -, he⟩ | ⟨hc, hle, b, hg, he⟩ |
      ⟨hc, hle, hg, hmax, he⟩ | ⟨-, -, -, -, hl', -⟩ | ⟨-, -, -, -, -, he⟩
    · rw [he] at h; cases h; exact absurd rfl ht
    · rw [hl] at hl'; cases hl'
    · rw [he] at h; cases h
    · rw [he] at h
      cases h
      refine .more (t := .hit b) ?_ (by simp) (ih hl hn hx)
      unfold Hfd.trialStep
      rw [if_neg (fun hcon => hc hl hcon.2), if_neg (by show ¬ u.nbits + _ < u.pos + u.trial; omega)]
      rw [show (((bitsOfBytes (u.extend extra).stream).drop (u.extend extra).pos).take (u.extend extra).trial)
        = u.trialBits from hbits hn hle, show (u.extend extra).rev = u.rev from rfl, hg]
      rfl
    · rw [he] at h
      cases h
      refine .more (t := .miss) ?_ (by simp) (ih hl hn hx)
      unfold Hfd.trialStep
      rw [if_neg (fun hcon => hc hl hcon.2), if_neg (by show ¬ u.nbits + _ < u.pos + u.trial; omega)]
      rw [show (((bitsOfBytes (u.extend extra).stream).drop (u.extend extra).pos).take (u.extend extra).trial)
        = u.trialBits from hbits hn hle, show (u.extend extra).rev = u.rev from rfl, hg]
      dsimp only
      rw [if_neg (by show ¬ u.maxlen < u.trial + 1; omega)]
      rfl
    · rw [hl] at hl'; cases hl'
    · rw [he] at h; cases h

/-- The fuel of HFD_DECODE is enough for the instance HFD_INIT makes (70_reset_and_hazards.md R366). -/
theorem Hfd.fresh_runs (hv : 0 < wb) (lit : Bool) (container : List Byte) {f : List Nat} {h : Hft} (ht : TreeOf wb f h) :
    Hfd.Runs (Hfd.fresh wb lit container h)
      (Hfd.run (((Hfd.fresh wb lit container h).nbits + 1) * ((Hfd.fresh wb lit container h).maxlen + 1))
        (Hfd.fresh wb lit container h)) :=
  (Hfd.fresh_ok hv lit container ht).runs rfl (Hfd.fresh_measure wb lit container h)

theorem Hfd.fresh_reads (wb : Nat) (lit : Bool) (container : List Byte) (h : Hft) :
    Reads wb h (Hfd.fresh wb lit container h) := ⟨rfl, rfl, rfl, rfl⟩

/-! ## The container of a buffer -/

theorem counts_small {data : List Byte} (h : ∀ b : Byte, data.count b ≤ 65535) : ∀ n ∈ byteCounts data,
    n < 65536 := by
  intro n hn
  obtain ⟨b, -, rfl⟩ := List.mem_map.1 hn
  have := h (BitVec.ofNat 8 b)
  omega

/-- The histogram of a buffer whose counts fit. -/
theorem hist_ok {data : List Byte} (h : ∀ b : Byte, data.count b ≤ 65535) : hist data = .ok (byteCounts data) := by
  rcases hist_cases data with ⟨-, e⟩ | ⟨b, hb, -⟩
  · exact e
  · have := h b; omega

/-- The histogram of a buffer with a count that does not fit. -/
theorem hist_error {data : List Byte} {b : Byte} (hb : 65535 < data.count b)
    (hc : ∀ c : Byte, c.toNat < b.toNat → data.count c ≤ 65535) :
   hist data = .error ⟨.countOverflow, b.toNat⟩ := by
  rcases hist_cases data with ⟨h, -⟩ | ⟨c, h1, h2, e⟩
  · have := h b; omega
  · have : b.toNat = c.toNat := by
      rcases Nat.lt_trichotomy b.toNat c.toNat with h | h | h
      · have := h2 b h; omega
      · exact h
      · have := hc c h; omega
    rw [this]; exact e

/-- A non-empty buffer has a tree. -/
theorem treeOf_byteCounts (hw : 0 < wb) {data : List Byte} (hne : data ≠ []) : ∃ h, TreeOf wb
    (byteCounts data) h := by
  refine buildTree_treeOf hw (by simp) ?_
  rw [byteCounts_sum]; exact List.length_pos_iff.2 hne

/-- No codeword of a reverse table is longer than 255 bits. -/
theorem TreeOf.maxLength_le (hv : 8 ≤ wb) {f : List Nat} {h : Hft} (ht : TreeOf wb f h) : maxLength
    (reverseTable wb h) ≤ 255 := by
  obtain ⟨e, he, hm⟩ := maxLength_mem ht.reverseTable_ne_nil
  have := ((mem_reverseTable ht.ok).1 he).2
  rw [← hm, this, ht.ok.bits_length (by omega)]
  exact (Hft.Ok.codeword_small hv ht.ok (by rw [ht.done]; simp) _).1

theorem counts_container {data : List Byte} (hc : ∀ b : Byte, data.count b ≤ 65535) (rest : List Byte)
    : containerCounts (encodeFreq (byteCounts data) ++ rest) = byteCounts data :=
  containerCounts_encode (by simp) (counts_small hc) rest

theorem drop_container (data rest : List Byte) : (encodeFreq (byteCounts data) ++ rest).drop 512 = rest :=
  List.drop_left' (encodeFreq_length (by simp))

theorem le_container (data rest : List Byte) : 512 ≤ (encodeFreq (byteCounts data) ++ rest).length := by
  rw [List.length_append, encodeFreq_length (by simp)]; exact Nat.le_add_right _ _

/-- In the default mode the trials decode a container to its data, whatever follows it (R274, R276). -/
theorem Hfd.runs_container (hv : 8 ≤ wb) (h8 : wb % 8 = 0) {data extra : List Byte} {h : Hft}
    (hc : ∀ b : Byte, data.count b ≤ 65535) (ht : TreeOf wb (byteCounts data) h) :
    ∃ v, Hfd.Runs (Hfd.fresh wb false (encodeFreq (byteCounts data) ++ (codewordStream wb h data ++ extra)) h)
      (.ok v) ∧ v.out = data := by
  have hw : 0 < wb := by omega
  have hcc := counts_container hc (codewordStream wb h data ++ extra)
  have hdrop := drop_container data (codewordStream wb h data ++ extra)
  generalize encodeFreq (byteCounts data) ++ (codewordStream wb h data ++ extra) = container at *
  obtain ⟨v, hr, ho⟩ := Hfd.runs_stream hw ht (data := data) (u := Hfd.fresh wb false container h)
    (rest := List.replicate ((8 - (streamBits wb h data).length % 8) % 8) false ++ bitsOfBytes extra)
      (fun b hb => (present_iff_mem ht.symbols b).2 hb) (Hfd.fresh_reads _ _ _ _) rfl rfl
    (by show 0 + _ = (containerCounts _).sum; rw [hcc, byteCounts_sum, Nat.zero_add])
    (by show (bitsOfBytes (List.drop 512 container)).drop 0 = _
        rw [List.drop_zero, hdrop, bitsOfBytes_append, bitsOfBytes_codewordStream hv h8, List.append_assoc])
  exact ⟨v, hr, by rw [ho]; rfl⟩

/-- In literal mode they decode it to its data and at most 7 more symbols (R275). -/
theorem Hfd.runs_container_literal (hv : 8 ≤ wb) (h8 : wb % 8 = 0) {data : List Byte} {h : Hft}
    (ht : TreeOf wb (byteCounts data) h) :
    ∃ v more, Hfd.Runs (Hfd.fresh wb true (encodeFreq (byteCounts data) ++ codewordStream wb h data) h) (.ok v) ∧
      v.out = data ++ more ∧ more.length ≤ 7 := by
  have hw : 0 < wb := by omega
  have hdrop := drop_container data (codewordStream wb h data)
  generalize encodeFreq (byteCounts data) ++ codewordStream wb h data = container at *
  have hbits := bitsOfBytes_codewordStream hv h8 h data
  have hlen := congrArg List.length hbits
  rw [bitsOfBytes_length, List.length_append, List.length_replicate] at hlen
  have hfo := Hfd.fresh_ok hw true container ht
  have hreach := Hfd.reaches_stream hw ht (data := data) (u := Hfd.fresh wb true container h)
    (rest := List.replicate ((8 - (streamBits wb h data).length % 8) % 8) false)
    (fun b hb => (present_iff_mem ht.symbols b).2 hb) (Hfd.fresh_reads _ _ _ _) rfl (fun hl => by cases hl)
    (by show (bitsOfBytes (List.drop 512 container)).drop 0 = _
        rw [List.drop_zero, hdrop, hbits])
  have hnb : (Hfd.fresh wb true container h).nbits = (streamBits wb h data).length +
    (8 - (streamBits wb h data).length % 8) % 8 := by
    show 8 * (container.drop 512).length = _
    rw [hdrop]; exact hlen
  generalize hu : Hfd.fresh wb true container h = u at *
  have hpos : u.pos = 0 := by rw [← hu]; rfl
  have hem : u.emitted = 0 := by rw [← hu]; rfl
  have hout0 : u.out = [] := by rw [← hu]; rfl
  have hlit : u.lit = true := by rw [← hu]; rfl
  have hmode : u.mode = .active := by rw [← hu]; rfl
  have key : ∀ w : Hfd, w =
    { u with out := u.out ++ data, pos := u.pos + (streamBits wb h data).length, trial := u.minlen, emitted := u.emitted + data.length } → w.Ok := by
    rintro w rfl
    refine { hfo with pos := ?_, emitted := ?_, counted := ?_, trial := ?_ }
    · show u.pos + _ ≤ u.nbits; rw [hnb, hpos]; omega
    · show u.emitted + data.length = (u.out ++ data).length; rw [hout0, hem]; simp
    · intro hl; rw [show u.lit = false from hl] at hlit; cases hlit
    · intro _; have := hfo.trial hmode; exact ⟨le_rfl, this.1.trans this.2⟩
  have hbo := key _ rfl
  have hr2 := hbo.runs hmode le_rfl
  obtain ⟨w, more, hx, hout, hm⟩ := hr2.literal hbo hmode hlit
  rw [hx] at hr2
  refine ⟨w, more, hreach _ hr2, ?_, hm.trans ?_⟩
  · rw [hout]; show u.out ++ data ++ more = _; rw [hout0]; rfl
  · show u.nbits - (u.pos + _) ≤ 7; rw [hnb, hpos]; omega

theorem natOfBytes_pair_pos {a b : Byte} (h : a ≠ 0 ∨ b ≠ 0) : 0 < natOfBytes [a, b] := by
  have h1 : natOfBytes [a, b] = a.toNat * 256 + b.toNat := by simp [natOfBytes]
  have h2 : a.toNat ≠ 0 ∨ b.toNat ≠ 0 := by
    rcases h with h | h
    · left; intro e; exact h (BitVec.eq_of_toNat_eq e)
    · right; intro e; exact h (BitVec.eq_of_toNat_eq e)
  omega

/-- A table with a nonzero byte has a nonzero count. -/
theorem containerCounts_pos : ∀ {n : Nat} {c : List Byte}, 2 * n ≤ c.length → (∃ b ∈ c.take (2 * n), b ≠ 0) → 0 <
    ((chunks 2 n c).map natOfBytes).sum := by
  intro n
  induction n with
  | zero => rintro c - ⟨b, hb, -⟩; simp at hb
  | succ n ih =>
    rintro c hl ⟨x, hx, hne⟩
    match c, hl, hx with
    | a :: b :: c, hl, hx =>
      rw [show 2 * (n + 1) = (2 * n) + 1 + 1 by omega, List.take_succ_cons, List.take_succ_cons] at hx
      simp only [List.length_cons] at hl
      show 0 < natOfBytes [a, b] + ((chunks 2 n c).map natOfBytes).sum
      rcases List.mem_cons.1 hx with rfl | hx
      · have := natOfBytes_pair_pos (b := b) (.inl hne); omega
      · rcases List.mem_cons.1 hx with rfl | hx
        · have := natOfBytes_pair_pos (a := a) (.inr hne); omega
        · have := ih (c := c) (by omega) ⟨x, hx, hne⟩; omega

end Sys2Proof.Machine
end

