-- ==== Sys2Proof/Laws/LzwDecoder.lean ====
section
/-! SUPPORT. The LZW decoder (43_lzw_decoder.md): what seeding builds, what one iteration can do, that the fuel of `Lzd.run`
is enough, and that every operation keeps `Lzd.Ok`. -/

namespace Sys2Proof.Machine

variable {cfg : Config}

/-! ## Insertion and seeding (R200, R204) -/

/-- The dictionary and the counter of an instance are in step. -/
structure Lzd.Synced (cfg : Config) (u : Lzd) : Prop where
  ctr : CounterOk cfg.wordBits u.ctr
  keys : u.dict.map Prod.fst = List.range (ctrValue cfg.wordBits u.ctr)

theorem Lzd.Synced.length {u : Lzd} (h : u.Synced cfg) : u.dict.length = ctrValue cfg.wordBits u.ctr := by
  have := congrArg List.length h.keys
  simpa using this

theorem Lzd.Synced.keys_nodup {u : Lzd} (h : u.Synced cfg) : (u.dict.map Prod.fst).Nodup := by
  rw [h.keys]; exact List.nodup_range

theorem Lzd.Synced.insert_dict {u : Lzd} (h : u.Synced cfg) (seq : List Byte) :
    (u.insert cfg seq).dict = u.dict ++ [(u.dict.length, seq)] := by
  rw [h.length]
  refine mapPut_new ?_ _
  rw [h.keys]; simp

theorem Lzd.Synced.insert (hv : 0 < cfg.wordBits) {u : Lzd} (h : u.Synced cfg) (seq : List Byte) :
    (u.insert cfg seq).Synced cfg := by
  have hd := h.insert_dict seq
  have hc : ctrValue cfg.wordBits (u.insert cfg seq).ctr = ctrValue cfg.wordBits u.ctr + 1 := ctrValue_inc h.ctr.2.1 hv
  refine ⟨h.ctr.inc hv, ?_⟩
  rw [hd, List.map_append, h.keys, hc, List.range_succ, h.length]; rfl

/-- The seeds of an alphabet: codeword `i` is the sequence of symbol `i`. -/
def codeEntries (alpha : List Byte) : List (Nat × List Byte) := alpha.zipIdx.map fun e => (e.2, [e.1])

theorem codeEntries_concat (alpha : List Byte) (a : Byte) :
    codeEntries (alpha ++ [a]) = codeEntries alpha ++ [(alpha.length, [a])] := by
  simp [codeEntries, List.zipIdx_append]

@[simp] theorem codeEntries_length (alpha : List Byte) : (codeEntries alpha).length = alpha.length := by simp [codeEntries]

/-- The fields seeding leaves alone. -/
def Lzd.SameButDict (u v : Lzd) : Prop := v = { u with dict := v.dict, ctr := v.ctr }

theorem Lzd.seed_eq (hv : 0 < cfg.wordBits) {u : Lzd} (h0 : u.dict = []) (h1 : u.ctr = [0]) (alpha : List Byte) :
    (alpha.foldl (fun u a => u.insert cfg [a]) u).dict = codeEntries alpha ∧
      (alpha.foldl (fun u a => u.insert cfg [a]) u).Synced cfg ∧
      u.SameButDict (alpha.foldl (fun u a => u.insert cfg [a]) u) := by
  induction alpha using List.reverseRecOn with
  | nil =>
    refine ⟨h0, ⟨?_, ?_⟩, rfl⟩ <;> simp only [List.foldl_nil]
    · rw [h1]; exact counterOk_zero _
    · rw [h0, h1]; simp [ctrValue, cat_cons, bitsOf_zero_value, natOf_replicate_false]
  | append_singleton alpha a ih =>
    obtain ⟨hd, hs, hb⟩ := ih
    rw [List.foldl_append, List.foldl_cons, List.foldl_nil]
    refine ⟨?_, hs.insert hv [a], ?_⟩
    · rw [hs.insert_dict, codeEntries_concat, hd, codeEntries_length]
    · unfold Lzd.SameButDict at hb ⊢
      rw [Lzd.insert]
      rw [hb]

/-- The words of a decoder's padded input (R210). -/
def inputWords (cfg : Config) (input : List Byte) : List Nat := (bbFromBytes cfg.wordBits input).words

/-- The instance before its dictionary is seeded. -/
def Lzd.blank (cfg : Config) (alpha input : List Byte) (limit : Option Nat) : Lzd :=
  { mode := .active, alpha, dict := [], ctr := [0], width := bitlen (alpha.length - 1), words := inputWords cfg input,
    limit := limit.getD ((inputWords cfg input).length * cfg.wordBits), pos := 0, pending := none, out := [] }

/-- The instance LZD_INIT constructs. -/
def Lzd.fresh (cfg : Config) (alpha input : List Byte) (limit : Option Nat) : Lzd :=
  alpha.foldl (fun u a => u.insert cfg [a]) (Lzd.blank cfg alpha input limit)

/-- A limit the padded input covers (30_encoding.md R113 (b)). -/
abbrev LimitOk (cfg : Config) (input : List Byte) (limit : Option Nat) : Prop :=
  ∀ l ∈ limit, l ≤ (inputWords cfg input).length * cfg.wordBits

theorem checkLimit_eq (cfg : Config) (input : List Byte) (limit : Option Nat) :
    checkLimit limit ((inputWords cfg input).length * cfg.wordBits)
      = if LimitOk cfg input limit then .ok () else .error ⟨.badOperand, 2⟩ := by
  cases limit with
  | none => simp [checkLimit]
  | some l =>
    have e : LimitOk cfg input (some l) ↔ l ≤ (inputWords cfg input).length * cfg.wordBits :=
      ⟨fun h => h l rfl, fun h x hx => by cases hx; exact h⟩
    simp only [checkLimit, e]

/-- Everything LZD_INIT's construction can answer. -/
theorem Lzd.init_cases {alpha input : List Byte} {limit : Option Nat} :
    (¬ AlphabetOk alpha ∧ Lzd.init cfg alpha input limit = .error ⟨.badOperand, 0⟩) ∨
    (AlphabetOk alpha ∧ ¬ LimitOk cfg input limit ∧ Lzd.init cfg alpha input limit = .error ⟨.badOperand, 2⟩) ∨
    (AlphabetOk alpha ∧ LimitOk cfg input limit ∧ ¬ WithinCap cfg alpha.length ∧
      Lzd.init cfg alpha input limit = .error ⟨.capacityExceeded, 3⟩) ∨
    (AlphabetOk alpha ∧ LimitOk cfg input limit ∧ WithinCap cfg alpha.length ∧
      Lzd.init cfg alpha input limit = .ok (Lzd.fresh cfg alpha input limit)) := by
  have hl := checkLimit_eq cfg input limit
  by_cases ha : AlphabetOk alpha
  · by_cases hi : LimitOk cfg input limit
    · rw [if_pos hi] at hl
      by_cases hc : WithinCap cfg alpha.length
      · refine .inr (.inr (.inr ⟨ha, hi, hc, ?_⟩))
        unfold Lzd.init
        unfold inputWords at hl
        dsimp only
        rw [checkAlphabet_ok ha, ok_bind, hl, ok_bind, overCap_eq_false.2 hc]
        rfl
      · refine .inr (.inr (.inl ⟨ha, hi, hc, ?_⟩))
        unfold Lzd.init
        unfold inputWords at hl
        dsimp only
        rw [checkAlphabet_ok ha, ok_bind, hl, ok_bind, overCap_eq_true.2 hc]
        rfl
    · rw [if_neg hi] at hl
      refine .inr (.inl ⟨ha, hi, ?_⟩)
      unfold Lzd.init
      unfold inputWords at hl
      dsimp only
      rw [checkAlphabet_ok ha, ok_bind, hl, error_bind]
  · refine .inl ⟨ha, ?_⟩
    unfold Lzd.init
    rw [checkAlphabet_error ha, error_bind]

theorem Lzd.fresh_spec (hv : 0 < cfg.wordBits) (alpha input : List Byte) (limit : Option Nat) :
    (Lzd.fresh cfg alpha input limit).dict = codeEntries alpha ∧ (Lzd.fresh cfg alpha input limit).Synced cfg ∧
    (Lzd.fresh cfg alpha input limit).mode = .active ∧ (Lzd.fresh cfg alpha input limit).alpha = alpha ∧
    (Lzd.fresh cfg alpha input limit).width = bitlen (alpha.length - 1) ∧
    (Lzd.fresh cfg alpha input limit).words = inputWords cfg input ∧
    (Lzd.fresh cfg alpha input limit).limit = limit.getD ((inputWords cfg input).length * cfg.wordBits) ∧
    (Lzd.fresh cfg alpha input limit).pos = 0 ∧ (Lzd.fresh cfg alpha input limit).pending = none ∧
    (Lzd.fresh cfg alpha input limit).out = [] := by
  have h := Lzd.seed_eq (cfg := cfg) hv (u := Lzd.blank cfg alpha input limit) rfl rfl alpha
  obtain ⟨hd, hs, hb⟩ := h
  unfold Lzd.SameButDict at hb
  refine ⟨hd, hs, ?_⟩
  unfold Lzd.fresh
  rw [hb]
  exact ⟨rfl, rfl, rfl, rfl, rfl, rfl, rfl, rfl⟩

theorem Lzd.fresh_ok (hv : cfg.Valid) {alpha input : List Byte} {limit : Option Nat} (hl : LimitOk cfg input limit)
    (hc : WithinCap cfg alpha.length) : (Lzd.fresh cfg alpha input limit).Ok cfg := by
  have hp : 0 < cfg.wordBits := Config.Valid.pos hv
  obtain ⟨hd, hs, -, ha, hw, hws, hli, hpos, hpe, ho⟩ := Lzd.fresh_spec hp alpha input limit
  refine ⟨hs.ctr, hs.keys, ?_, ?_, ?_, by omega, by simp [hpe], ?_, by simp [hpe], ?_⟩
  · rw [hd]; simp [codeEntries]
  · rw [hws]; exact bbFromBytes_words_lt hv.1 hv.2 input
  · rw [hli, hws]
    cases limit with
    | none => simp
    | some l => exact hl l rfl
  · intro _
    rw [hw, ha, hd]
    simp [hpos, ho]
  · rw [hd]; simpa using hc

/-! ## One iteration (R203 to R206) -/

theorem Lzd.Ok.synced {u : Lzd} (h : u.Ok cfg) : u.Synced cfg := ⟨h.ctr, h.keys⟩

/-- A code below the counter is a key. -/
theorem Lzd.Synced.hit {u : Lzd} (h : u.Synced cfg) {c : Nat} (hc : c < u.dict.length) :
    ∃ seq, mapGet u.dict c = some seq := by
  rw [mapGet_isSome, h.keys, ← h.length]; simpa using hc

/-- Everything the lookup can answer. -/
theorem Lzd.Synced.resolve_cases {u : Lzd} (h : u.Synced cfg) (c : Nat) :
    (c < u.dict.length ∧ ∃ seq, mapGet u.dict c = some seq ∧ u.resolve cfg c = .ok seq) ∨
    (c = u.dict.length ∧ ∃ p, u.pending = some p ∧ u.resolve cfg c = .ok (p ++ p.take 1)) ∨
    (u.dict.length ≤ c ∧ (c = u.dict.length → u.pending = none) ∧ u.resolve cfg c = .error ⟨.corruptStream, c⟩) := by
  unfold Lzd.resolve
  rw [← h.length]
  by_cases hc : c < u.dict.length
  · obtain ⟨seq, hs⟩ := h.hit hc
    refine .inl ⟨hc, seq, hs, ?_⟩
    rw [if_pos hc, hs]
  · rw [if_neg hc]
    cases hp : u.pending with
    | none => exact .inr (.inr ⟨by omega, fun _ => rfl, rfl⟩)
    | some p =>
      dsimp only
      by_cases he : c = u.dict.length
      · exact .inr (.inl ⟨he, p, rfl, by rw [if_pos he]⟩)
      · exact .inr (.inr ⟨by omega, fun h' => absurd h' he, by rw [if_neg he]⟩)

/-- The state after an emitting iteration that decoded `seq`. -/
def Lzd.emitted (cfg : Config) (u : Lzd) (seq : List Byte) : Lzd :=
  match u.pending with
  | none => { u with out := u.out ++ seq, width := bitlen u.dict.length, pending := some seq, pos := u.pos + u.width }
  | some p =>
    { u.insert cfg (p ++ seq.take 1) with
      out := u.out ++ seq, width := bitlen (u.insert cfg (p ++ seq.take 1)).dict.length, pending := some seq,
      pos := u.pos + u.width }

/-- The codeword the next iteration reads. -/
def Lzd.code (cfg : Config) (u : Lzd) : Nat := extract (cat cfg.wordBits u.words) u.pos u.width

/-- Everything one iteration can answer. -/
theorem Lzd.iterate_cases (u : Lzd) :
    (u.limit < u.pos + u.width ∧ u.iterate cfg = .ok ({ u with mode := .ended }, none)) ∨
    (u.pos + u.width ≤ u.limit ∧ ∃ r, u.resolve cfg (u.code cfg) = .error r ∧ u.iterate cfg = .error r) ∨
    (u.pos + u.width ≤ u.limit ∧ u.pending ≠ none ∧ ¬ WithinCap cfg (u.dict.length + 1) ∧
      (∃ seq, u.resolve cfg (u.code cfg) = .ok seq) ∧ u.iterate cfg = .error ⟨.capacityExceeded, 3⟩) ∨
    (u.pos + u.width ≤ u.limit ∧ (u.pending ≠ none → WithinCap cfg (u.dict.length + 1)) ∧
      ∃ seq, u.resolve cfg (u.code cfg) = .ok seq ∧ u.iterate cfg = .ok (u.emitted cfg seq, some seq)) := by
  unfold Lzd.iterate Lzd.code
  dsimp only
  by_cases hl : u.limit < u.pos + u.width
  · exact .inl ⟨hl, by rw [if_pos hl]⟩
  · have hl' : u.pos + u.width ≤ u.limit := by omega
    rw [if_neg hl]
    cases hr : u.resolve cfg (extract (cat cfg.wordBits u.words) u.pos u.width) with
    | error r => exact .inr (.inl ⟨hl', r, rfl, rfl⟩)
    | ok seq =>
      rw [ok_bind]
      unfold Lzd.insertPending Lzd.emitted
      cases hp : u.pending with
      | none => exact .inr (.inr (.inr ⟨hl', fun h => absurd rfl h, seq, rfl, rfl⟩))
      | some p =>
        dsimp only
        by_cases hc : WithinCap cfg (u.dict.length + 1)
        · rw [overCap_eq_false.2 hc]
          exact .inr (.inr (.inr ⟨hl', fun _ => hc, seq, rfl, rfl⟩))
        · rw [overCap_eq_true.2 hc]
          exact .inr (.inr (.inl ⟨hl', by simp, hc, ⟨seq, rfl⟩, rfl⟩))

/-- A decoded sequence is never empty (R204). -/
theorem Lzd.Ok.resolve_ne_nil {u : Lzd} (h : u.Ok cfg) {c : Nat} {seq : List Byte} (hr : u.resolve cfg c = .ok seq) :
    seq ≠ [] := by
  rcases h.synced.resolve_cases c with ⟨-, s, hg, he⟩ | ⟨-, p, hp, he⟩ | ⟨-, -, he⟩ <;> rw [he] at hr
  · cases hr
    rintro rfl
    exact h.nonempty (List.mem_map.2 ⟨_, mem_of_mapGet hg, rfl⟩)
  · cases hr
    intro hn
    have : p = [] := by cases p <;> simp_all
    exact h.pendingNonempty (by rw [hp, this])
  · cases hr

theorem Lzd.Ok.emitted (hv : 0 < cfg.wordBits) {u : Lzd} (h : u.Ok cfg) {seq : List Byte} (hs : seq ≠ [])
    (hl : u.pos + u.width ≤ u.limit) (hc : u.pending ≠ none → WithinCap cfg (u.dict.length + 1)) :
    (u.emitted cfg seq).Ok cfg := by
  unfold Lzd.emitted
  cases hp : u.pending with
  | none =>
    refine ⟨h.ctr, h.keys, h.nonempty, h.words, h.limit, hl, by simpa using hs, by simp, fun _ => ⟨rfl, ?_⟩, h.cap⟩
    show u.out ++ seq ≠ []
    simp [hs]
  | some p =>
    have hd := h.synced.insert_dict (p ++ seq.take 1)
    have hi := h.synced.insert hv (p ++ seq.take 1)
    have hpn : p ≠ [] := by rintro rfl; exact h.pendingNonempty hp
    refine ⟨hi.ctr, hi.keys, ?_, h.words, h.limit, hl, by simpa using hs, by simp, fun _ => ⟨rfl, ?_⟩, ?_⟩
    · show [] ∉ (u.insert cfg (p ++ seq.take 1)).dict.map Prod.snd
      rw [hd, List.map_append, List.mem_append, not_or]
      exact ⟨h.nonempty, by simp [hpn]⟩
    · show u.out ++ seq ≠ []
      simp [hs]
    · show WithinCap cfg (u.insert cfg (p ++ seq.take 1)).dict.length
      rw [hd]
      simpa using hc (by simp [hp])

theorem Lzd.Ok.iterate (hv : 0 < cfg.wordBits) {u v : Lzd} (h : u.Ok cfg) {r : Option (List Byte)}
    (hs : u.iterate cfg = .ok (v, r)) : v.Ok cfg := by
  rcases Lzd.iterate_cases (cfg := cfg) u with ⟨-, he⟩ | ⟨-, r', -, he⟩ | ⟨-, -, -, -, he⟩ | ⟨hl, hc, seq, hr, he⟩ <;>
    rw [he] at hs
  · obtain ⟨rfl, -⟩ := Prod.mk.inj (Except.ok.inj hs); exact { h with }
  · cases hs
  · cases hs
  · obtain ⟨rfl, -⟩ := Prod.mk.inj (Except.ok.inj hs)
    exact h.emitted hv (h.resolve_ne_nil hr) hl hc

theorem Lzd.Ok.run (hv : 0 < cfg.wordBits) :
    ∀ {fuel : Nat} {u v : Lzd}, u.Ok cfg → Lzd.run cfg fuel u = .ok v → v.Ok cfg := by
  intro fuel
  induction fuel with
  | zero => intro u v h hs; cases hs; exact h
  | succ fuel ih =>
    intro u v h hs
    rw [Lzd.run] at hs
    cases hi : u.iterate cfg with
    | error r => rw [hi] at hs; cases hs
    | ok x =>
      obtain ⟨w, _ | seq⟩ := x <;> rw [hi] at hs
      · cases hs; exact h.iterate hv hi
      · exact ih (h.iterate hv hi) hs

/-! ## The loop ends (R207, R213; 70_reset_and_hazards.md R366) -/

theorem Lzd.emitted_pos (u : Lzd) (seq : List Byte) : (u.emitted cfg seq).pos = u.pos + u.width := by
  unfold Lzd.emitted; split <;> rfl

theorem Lzd.emitted_limit (u : Lzd) (seq : List Byte) : (u.emitted cfg seq).limit = u.limit := by
  unfold Lzd.emitted; split <;> rfl

theorem Lzd.emitted_pending (u : Lzd) (seq : List Byte) : (u.emitted cfg seq).pending = some seq := by
  unfold Lzd.emitted; split <;> rfl

theorem Lzd.emitted_width (u : Lzd) (seq : List Byte) :
    (u.emitted cfg seq).width = bitlen (u.emitted cfg seq).dict.length := by
  unfold Lzd.emitted; split <;> rfl

theorem Lzd.emitted_mode (u : Lzd) (seq : List Byte) : (u.emitted cfg seq).mode = u.mode := by
  unfold Lzd.emitted; split <;> rfl

theorem Lzd.emitted_out (u : Lzd) (seq : List Byte) : (u.emitted cfg seq).out = u.out ++ seq := by
  unfold Lzd.emitted; split <;> rfl

theorem Lzd.emitted_words (u : Lzd) (seq : List Byte) : (u.emitted cfg seq).words = u.words := by
  unfold Lzd.emitted; split <;> rfl

theorem Lzd.emitted_alpha (u : Lzd) (seq : List Byte) : (u.emitted cfg seq).alpha = u.alpha := by
  unfold Lzd.emitted; split <;> rfl

theorem Lzd.Synced.emitted_length {u : Lzd} (h : u.Synced cfg) (seq : List Byte) :
    (u.emitted cfg seq).dict.length = u.dict.length + if u.pending = none then 0 else 1 := by
  unfold Lzd.emitted
  cases hp : u.pending with
  | none => simp
  | some p =>
    show (u.insert cfg _).dict.length = _
    rw [h.insert_dict]; simp

/-- Steps of an instance, one after another, until END: what `Lzd.run` computes when its fuel is enough. -/
inductive Lzd.Runs (cfg : Config) : Lzd → Except Raise Lzd → Prop where
  | fault {u : Lzd} {r : Raise} (h : u.iterate cfg = .error r) : Lzd.Runs cfg u (.error r)
  | done {u v : Lzd} (h : u.iterate cfg = .ok (v, none)) : Lzd.Runs cfg u (.ok v)
  | more {u v : Lzd} {seq : List Byte} {x : Except Raise Lzd} (h : u.iterate cfg = .ok (v, some seq))
      (hr : Lzd.Runs cfg v x) : Lzd.Runs cfg u x

/-- An upper bound on the iterations left. -/
def Lzd.measure (u : Lzd) : Nat := u.limit - u.pos + if u.pending = none then 2 else 1

/-- An emitting iteration leaves fewer, and an instance as well seeded. -/
theorem Lzd.Ok.measure_lt {u v : Lzd} (h : u.Ok cfg) (hd : 0 < u.dict.length) {seq : List Byte}
    (hi : u.iterate cfg = .ok (v, some seq)) : v.measure < u.measure ∧ 0 < v.dict.length := by
  rcases Lzd.iterate_cases (cfg := cfg) u with ⟨-, he⟩ | ⟨-, r', -, he⟩ | ⟨-, -, -, -, he⟩ | ⟨hl, hc, s, hr, he⟩ <;>
    rw [he] at hi
  · cases hi
  · cases hi
  · cases hi
  · obtain ⟨rfl, -⟩ := Prod.mk.inj (Except.ok.inj hi)
    have hn := h.synced.emitted_length (cfg := cfg) s
    refine ⟨?_, by omega⟩
    unfold Lzd.measure
    rw [Lzd.emitted_pos, Lzd.emitted_limit, Lzd.emitted_pending]
    simp only [reduceCtorEq, if_false]
    by_cases hp : u.pending = none
    · rw [if_pos hp]; omega
    · rw [if_neg hp]
      have hw := (h.after hp).1
      have := bitlen_pos hd
      omega

theorem Lzd.measure_pos (u : Lzd) : 0 < u.measure := by
  unfold Lzd.measure
  split <;> omega

theorem Lzd.Ok.runs (hv : 0 < cfg.wordBits) :
    ∀ {fuel : Nat} {u : Lzd}, u.Ok cfg → 0 < u.dict.length → u.measure ≤ fuel → Lzd.Runs cfg u (Lzd.run cfg fuel u) := by
  intro fuel
  induction fuel with
  | zero =>
    intro u h _ hm
    have := u.measure_pos
    omega
  | succ fuel ih =>
    intro u h hd hm
    rw [Lzd.run]
    cases hi : u.iterate cfg with
    | error r => exact .fault hi
    | ok x =>
      obtain ⟨w, _ | seq⟩ := x
      · exact .done hi
      · obtain ⟨hlt, hd'⟩ := h.measure_lt hd hi
        exact .more hi (ih (h.iterate hv hi) hd' (by omega))

/-- The loop has one result. -/
theorem Lzd.Runs.unique {u : Lzd} {x y : Except Raise Lzd} (h1 : Lzd.Runs cfg u x) (h2 : Lzd.Runs cfg u y) : x = y := by
  induction h1 with
  | fault h => cases h2 with
    | fault h' => rw [h] at h'; cases h'; rfl
    | done h' => rw [h] at h'; cases h'
    | more h' _ => rw [h] at h'; cases h'
  | done h => cases h2 with
    | fault h' => rw [h] at h'; cases h'
    | done h' => rw [h] at h'; cases h'; rfl
    | more h' _ => rw [h] at h'; cases h'
  | more h hr ih => cases h2 with
    | fault h' => rw [h] at h'; cases h'
    | done h' => rw [h] at h'; cases h'
    | more h' hr' => rw [h] at h'; cases h'; exact ih hr'

/-- The fuel of LZD_DECODE is enough for the instance LZD_INIT makes (70_reset_and_hazards.md R366). -/
theorem Lzd.fresh_runs (hv : cfg.Valid) {alpha input : List Byte} {limit : Option Nat} (ha : AlphabetOk alpha)
    (hl : LimitOk cfg input limit) (hc : WithinCap cfg alpha.length) :
    Lzd.Runs cfg (Lzd.fresh cfg alpha input limit)
      (Lzd.run cfg ((Lzd.fresh cfg alpha input limit).limit + 2) (Lzd.fresh cfg alpha input limit)) := by
  have hw : 0 < cfg.wordBits := Config.Valid.pos hv
  refine (Lzd.fresh_ok hv hl hc).runs hw ?_ ?_
  · rw [(Lzd.fresh_spec hw alpha input limit).1, codeEntries_length]; exact ha.1
  · unfold Lzd.measure; split <;> omega

/-- A loop that ends without a fault ends ENDED. -/
theorem Lzd.Runs.ended {u v : Lzd} {x : Except Raise Lzd} (h : Lzd.Runs cfg u x) (hx : x = .ok v) : v.mode = .ended := by
  induction h with
  | fault h => cases hx
  | @done u' v' h =>
    cases hx
    rcases Lzd.iterate_cases (cfg := cfg) u' with ⟨-, he⟩ | ⟨-, r', -, he⟩ | ⟨-, -, -, -, he⟩ | ⟨hl, hc, s, hr, he⟩ <;>
      rw [he] at h
    · obtain ⟨rfl, -⟩ := Prod.mk.inj (Except.ok.inj h); rfl
    · cases h
    · cases h
    · cases h
  | more h hr ih => exact ih hx

end Sys2Proof.Machine
end

