-- ==== Sys2Proof/Laws/Lzw.lean ====
section
/-! SUPPORT. The LZW encoder and decoder run in step (43_lzw_decoder.md R202, R204): the decoder, one insertion behind, reads
each codeword at the width the encoder wrote it at and emits the phrase the encoder emitted. -/

namespace Sys2Proof.Machine

variable {cfg : Config}

/-! ## When the encoder completes (R174, R178) -/

/-- The phrase is empty or a key: no byte outside the alphabet has been fed. -/
def Lze.Clean (u : Lze) : Prop := u.phrase = [] ∨ u.phrase ∈ u.dict.map Prod.fst

/-- `n` more insertions stay within `DICT_CAP`. -/
def Room (cfg : Config) (u : Lze) (n : Nat) : Prop := cfg.dictCap = 0 ∨ u.dict.length + n ≤ cfg.dictCap

theorem Lze.Ok.step_total {u : Lze} (h : u.Ok cfg) (hv : 0 < cfg.wordBits) (hp : u.Clean) {sym : Byte}
    (hs : sym ∈ u.alpha) {n : Nat} (hr : Room cfg u (n + 1)) :
    ∃ v e, u.step cfg sym = .ok (v, e) ∧ v.Ok cfg ∧ v.Clean ∧ Room cfg v n ∧ v.alpha = u.alpha ∧ v.phrase ≠ [] := by
  have hseed := h.seeds sym hs
  rcases Lze.step_cases (cfg := cfg) u sym with ⟨hk, he⟩ | ⟨-, hc, -⟩ | ⟨hk, -, hq, -⟩ | ⟨hk, hc, c, hg, he⟩
  · refine ⟨_, _, he, h.step hv he, .inr hk, ?_, rfl, by simp⟩
    rcases hr with hr | hr
    · exact .inl hr
    · exact .inr (by show u.dict.length + n ≤ _; omega)
  · exfalso
    rcases hr with hr | hr
    · exact hc (.inl hr)
    · exact hc (.inr (by omega))
  · exfalso
    rcases hp with hp | hp
    · rw [hp] at hk; exact hk hseed
    · exact hq hp
  · refine ⟨_, _, he, h.step hv he, .inr ?_, ?_, rfl, by simp⟩
    · show [sym] ∈ (u.insert cfg _).dict.map Prod.fst
      rw [Lze.insert_dict hk, List.map_append]
      exact List.mem_append_left _ hseed
    · rcases hr with hr | hr
      · exact .inl hr
      · refine .inr ?_
        show (u.insert cfg _).dict.length + n ≤ _
        rw [Lze.insert_dict hk]
        simp only [List.length_append, List.length_singleton]
        omega

/-- An input over the alphabet is encoded, whatever it is, while the dictionary has room for it. -/
theorem Lze.Ok.feed_total (hv : 0 < cfg.wordBits) {syms : List Byte} :
    ∀ {u : Lze}, u.Ok cfg → u.Clean → (∀ s ∈ syms, s ∈ u.alpha) → Room cfg u syms.length →
      ∃ v, u.feed cfg syms = .ok v ∧ v.Ok cfg ∧ v.Clean := by
  induction syms with
  | nil => intro u h hp _ _; exact ⟨u, rfl, h, hp⟩
  | cons a syms ih =>
    intro u h hp hs hr
    obtain ⟨v, e, he, hvo, hvp, hvr, hva, -⟩ := h.step_total hv hp (hs a (by simp)) (n := syms.length) hr
    rw [Lze.feed, he]
    exact ih hvo hvp (fun s hsm => hva ▸ hs s (by simp [hsm])) hvr

theorem Lze.Clean.flush_total {u : Lze} (hp : u.Clean) : ∃ v, u.flush cfg = .ok v := by
  rcases Lze.flush_cases (cfg := cfg) u with ⟨-, he⟩ | ⟨h1, h2, -⟩ | ⟨-, c, -, he⟩
  · exact ⟨_, he⟩
  · rcases hp with hp | hp
    · exact absurd hp h1
    · exact absurd hp h2
  · exact ⟨_, he⟩

/-! ## The stream only grows -/

theorem Lze.step_out (hv : 0 < cfg.wordBits) {u v : Lze} {sym : Byte} {e : Bool} (hs : u.step cfg sym = .ok (v, e)) :
    sbits cfg.wordBits u.out <+: sbits cfg.wordBits v.out := by
  rcases Lze.step_cases (cfg := cfg) u sym with ⟨hk, he⟩ | ⟨-, -, he⟩ | ⟨-, -, -, he⟩ | ⟨hk, hc, c, hg, he⟩ <;>
    rw [he] at hs
  · obtain ⟨rfl, -⟩ := Prod.mk.inj (Except.ok.inj hs); exact List.prefix_rfl
  · cases hs
  · cases hs
  · obtain ⟨rfl, -⟩ := Prod.mk.inj (Except.ok.inj hs)
    exact ⟨_, (Lze.emit_bits hv (u.insert cfg (u.phrase ++ [sym])) c u.width).symm⟩

theorem Lze.feed_out (hv : 0 < cfg.wordBits) {syms : List Byte} :
    ∀ {u v : Lze}, u.feed cfg syms = .ok v → sbits cfg.wordBits u.out <+: sbits cfg.wordBits v.out := by
  induction syms with
  | nil => intro u v h; cases h; exact List.prefix_rfl
  | cons a syms ih =>
    intro u v h
    rw [Lze.feed] at h
    cases hst : u.step cfg a with
    | error r => rw [hst] at h; cases h
    | ok x =>
      obtain ⟨w, e⟩ := x
      rw [hst] at h
      exact (Lze.step_out hv hst).trans (ih h)

theorem Lze.flush_out (hv : 0 < cfg.wordBits) {u v : Lze} (h : u.flush cfg = .ok v) :
    sbits cfg.wordBits u.out <+: sbits cfg.wordBits v.out := by
  rcases Lze.flush_cases (cfg := cfg) u with ⟨-, he⟩ | ⟨-, -, he⟩ | ⟨-, c, -, he⟩ <;> rw [he] at h
  · cases h; exact List.prefix_rfl
  · cases h
  · cases h; exact ⟨_, (Lze.emit_bits hv u c u.width).symm⟩

/-! ## The relation -/

/-- The encoder `u`, and a decoder `v` that has read everything `u` has emitted. -/
structure InStep (cfg : Config) (u : Lze) (v : Lzd) : Prop where
  enc : u.Ok cfg
  dec : v.Ok cfg
  pos : v.pos = (sbits cfg.wordBits u.out).length
  first : v.pending = none → v.dict.map Prod.snd = u.dict.map Prod.fst
  later : ∀ p, v.pending = some p →
    u.phrase ≠ [] ∧ u.dict.map Prod.fst = v.dict.map Prod.snd ++ [p ++ u.phrase.take 1]

theorem InStep.width {u : Lze} {v : Lzd} (h : InStep cfg u v) : v.width = u.width := by
  rw [h.enc.width]
  cases hp : v.pending with
  | none =>
    obtain ⟨hw, -, -, hl⟩ := h.dec.before hp
    have := congrArg List.length (h.first hp)
    simp only [List.length_map] at this
    rw [hw, ← hl, this]
  | some p =>
    have hw := (h.dec.after (by simp [hp])).1
    have := congrArg List.length (h.later p hp).2
    simp only [List.length_map, List.length_append, List.length_singleton] at this
    rw [hw, this, Nat.add_sub_cancel]

/-- Entry `c` of an ordered dictionary. -/
theorem mapGet_enc {d : List (List Byte × Nat)} {n : Nat} (hc : d.map Prod.snd = List.range n) {q : List Byte} {c : Nat}
    (hg : mapGet d q = some c) : (d.map Prod.fst)[c]? = some q := by
  have hm := mem_of_mapGet hg
  obtain ⟨i, hi⟩ := List.mem_iff_getElem?.1 hm
  have h2 : (d.map Prod.snd)[i]? = some c := by rw [List.getElem?_map, hi]; rfl
  rw [hc] at h2
  obtain ⟨hlt, he⟩ := List.getElem?_eq_some_iff.1 h2
  rw [List.getElem_range] at he
  rw [List.getElem?_map, ← he, hi]; rfl

theorem mapGet_dec {d : List (Nat × List Byte)} {n : Nat} (hc : d.map Prod.fst = List.range n) {q : List Byte} {c : Nat}
    (hg : (d.map Prod.snd)[c]? = some q) : mapGet d c = some q := by
  rw [List.getElem?_map] at hg
  obtain ⟨e, he, rfl⟩ := Option.map_eq_some_iff.1 hg
  have h2 : (d.map Prod.fst)[c]? = some e.1 := by rw [List.getElem?_map, he]; rfl
  rw [hc] at h2
  obtain ⟨hlt, h1⟩ := List.getElem?_eq_some_iff.1 h2
  rw [List.getElem_range] at h1
  refine mapGet_of_mem (by rw [hc]; exact List.nodup_range) ?_
  have hm := List.mem_of_getElem? he
  rw [h1]
  exact hm

/-- The decoder resolves the codeword of the encoder's phrase to that phrase. -/
theorem InStep.resolve {u : Lze} {v : Lzd} (h : InStep cfg u v) {c : Nat} (hg : mapGet u.dict u.phrase = some c) :
    v.resolve cfg c = .ok u.phrase := by
  have hE := mapGet_enc h.enc.codes hg
  have hphr : u.phrase ≠ [] := by
    intro hn
    exact h.enc.nonempty (List.mem_map.2 ⟨_, mem_of_mapGet hg, hn⟩)
  cases hp : v.pending with
  | none =>
    rw [← h.first hp] at hE
    have hd := mapGet_dec h.dec.keys hE
    rcases h.dec.synced.resolve_cases c with ⟨-, s, hs, he⟩ | ⟨-, p, hp', -⟩ | ⟨hle, -, -⟩
    · rw [hd] at hs; cases hs; exact he
    · rw [hp] at hp'; cases hp'
    · have := (List.getElem?_eq_some_iff.1 hE).1
      rw [List.length_map] at this
      omega
  | some p =>
    obtain ⟨-, hl⟩ := h.later p hp
    rw [hl] at hE
    by_cases hc : c < v.dict.length
    · rw [List.getElem?_append_left (by simpa using hc)] at hE
      have hd := mapGet_dec h.dec.keys hE
      rcases h.dec.synced.resolve_cases c with ⟨-, s, hs, he⟩ | ⟨he, -, -⟩ | ⟨hle, -, -⟩
      · rw [hd] at hs; cases hs; exact he
      · omega
      · omega
    · rw [List.getElem?_append_right (by simp; omega)] at hE
      obtain ⟨hlt, hval⟩ := List.getElem?_eq_some_iff.1 hE
      simp only [List.length_map, List.length_singleton] at hlt
      have hceq : c = v.dict.length := by omega
      have hval' : p ++ u.phrase.take 1 = u.phrase := by
        simpa [hceq] using hval
      have hpn : p ≠ [] := by rintro rfl; exact h.dec.pendingNonempty hp
      have hfirst : u.phrase.take 1 = p.take 1 := by
        rw [← hval']
        cases p with
        | nil => exact absurd rfl hpn
        | cons a p => simp
      rcases h.dec.synced.resolve_cases c with ⟨hlt', -⟩ | ⟨-, p', hp', he⟩ | ⟨-, hnone, -⟩
      · omega
      · rw [hp] at hp'; cases hp'
        rw [he, ← hfirst, hval']
      · rw [hnone hceq] at hp; cases hp

theorem extract_prefix {bits a b rest : Bits} {p n : Nat} (h : bits = a ++ (b ++ rest)) (hp : p = a.length)
    (hn : n = b.length) : extract bits p n = natOf b := by
  rw [extract, h, hp, hn, List.drop_left, List.take_left]

/-- One emission, seen by the decoder: it emits the encoder's phrase. -/
theorem InStep.iterate {u : Lze} {v : Lzd} (h : InStep cfg u v) {c : Nat} (hg : mapGet u.dict u.phrase = some c)
    {rest : Bits} (hbits : cat cfg.wordBits v.words = sbits cfg.wordBits u.out ++ (bitsOf c u.width ++ rest))
    (hlim : (sbits cfg.wordBits u.out).length + u.width ≤ v.limit) :
    v.iterate cfg = .ok (v.emitted cfg u.phrase, some u.phrase) := by
  have hcode : v.code cfg = c := by
    rw [Lzd.code, extract_prefix hbits h.pos (by rw [h.width]; simp), natOf_bitsOf,
      Nat.mod_eq_of_lt (h.enc.code_fits hg).2]
  have hres := h.resolve hg
  have hpos := h.pos
  have hw := h.width
  have hcap : v.pending ≠ none → WithinCap cfg (v.dict.length + 1) := by
    intro hp
    obtain ⟨p, hp⟩ := Option.ne_none_iff_exists'.1 hp
    have := congrArg List.length (h.later p hp).2
    simp only [List.length_map, List.length_append, List.length_singleton] at this
    rw [← this]
    exact h.enc.cap
  rcases Lzd.iterate_cases (cfg := cfg) v with ⟨hl, -⟩ | ⟨-, r, hr, -⟩ | ⟨-, hp, hc, -, -⟩ | ⟨-, -, s, hr, he⟩
  · omega
  · rw [hcode, hres] at hr; cases hr
  · exact absurd (hcap hp) hc
  · rw [hcode, hres] at hr; cases hr; exact he

/-- The decoder's dictionary after it emits the encoder's phrase. -/
theorem InStep.emitted_dict {u : Lze} {v : Lzd} (h : InStep cfg u v) :
    (v.emitted cfg u.phrase).dict.map Prod.snd = u.dict.map Prod.fst := by
  unfold Lzd.emitted
  cases hp : v.pending with
  | none => exact h.first hp
  | some p =>
    show (v.insert cfg _).dict.map Prod.snd = _
    rw [h.dec.synced.insert_dict, (h.later p hp).2, List.map_append]
    rfl

/-- The two stay in step over an emission. -/
theorem InStep.emit (hv : 0 < cfg.wordBits) {u w : Lze} {v : Lzd} (h : InStep cfg u v) {c : Nat}
    {sym : Byte} (hk : u.phrase ++ [sym] ∉ u.dict.map Prod.fst)
    (hw : w = { (u.insert cfg (u.phrase ++ [sym])).emit cfg c u.width with phrase := [sym] }) (hwo : w.Ok cfg)
    (hvo : (v.emitted cfg u.phrase).Ok cfg) : InStep cfg w (v.emitted cfg u.phrase) := by
  refine ⟨hwo, hvo, ?_, ?_, ?_⟩
  · have hb : sbits cfg.wordBits w.out = sbits cfg.wordBits u.out ++ bitsOf c u.width := by
      rw [hw]; exact Lze.emit_bits hv (u.insert cfg (u.phrase ++ [sym])) c u.width
    rw [Lzd.emitted_pos, hb, h.pos, h.width]; simp
  · intro hn; rw [Lzd.emitted_pending] at hn; cases hn
  · intro p hp
    rw [Lzd.emitted_pending] at hp
    cases hp
    rw [h.emitted_dict, hw]
    refine ⟨by simp, ?_⟩
    show (u.insert cfg _).dict.map Prod.fst = _
    rw [Lze.insert_dict hk, List.map_append]
    rfl

/-- At the end of the stream the decoder stops. -/
theorem Lzd.Ok.iterate_end {v : Lzd} (h : v.Ok cfg) (hd : 0 < v.dict.length) (hp : v.pending ≠ none)
    (hl : v.limit ≤ v.pos) : v.iterate cfg = .ok ({ v with mode := .ended }, none) := by
  have hw := (h.after hp).1
  have := bitlen_pos hd
  rcases Lzd.iterate_cases (cfg := cfg) v with ⟨-, he⟩ | ⟨h', -⟩ | ⟨h', -⟩ | ⟨h', -⟩
  · exact he
  all_goals omega

/-- Whatever `v` runs to, `u` runs to: `v` is some iterations after `u`. -/
def Lzd.Reaches (cfg : Config) (u v : Lzd) : Prop := ∀ x, Lzd.Runs cfg v x → Lzd.Runs cfg u x

/-- The decoder emits exactly what the encoder still has to emit, its phrase and the symbols left, and then stands after
the stream. -/
theorem InStep.reaches (hv : 0 < cfg.wordBits) {syms : List Byte} :
    ∀ {u u₁ u₂ : Lze} {v : Lzd} {pad : Bits}, InStep cfg u v → u.phrase ++ syms ≠ [] →
      u.feed cfg syms = .ok u₁ → u₁.flush cfg = .ok u₂ →
      cat cfg.wordBits v.words = sbits cfg.wordBits u₂.out ++ pad → (sbits cfg.wordBits u₂.out).length ≤ v.limit →
      ∃ w, Lzd.Reaches cfg v w ∧ w.Ok cfg ∧ w.out = v.out ++ (u.phrase ++ syms) ∧
        w.pos = (sbits cfg.wordBits u₂.out).length ∧ w.words = v.words ∧ w.limit = v.limit ∧ w.pending ≠ none ∧
        w.dict.length = u₂.dict.length ∧ v.dict <+: w.dict := by
  have hpre : ∀ {u : Lze} {v : Lzd}, InStep cfg u v → v.dict <+: (v.emitted cfg u.phrase).dict := by
    intro u v h
    unfold Lzd.emitted
    cases hp : v.pending with
    | none => exact List.prefix_rfl
    | some p =>
      show v.dict <+: (v.insert cfg _).dict
      rw [h.dec.synced.insert_dict]
      exact List.prefix_append _ _
  induction syms with
  | nil =>
    intro u u₁ u₂ v pad h hne hf hfl hbits hlim
    cases hf
    rcases Lze.flush_cases (cfg := cfg) u with ⟨hphr, he⟩ | ⟨-, -, he⟩ | ⟨-, c, hg, he⟩ <;> rw [he] at hfl
    · exact absurd hphr (by simpa using hne)
    · cases hfl
    · cases hfl
      have hb := Lze.emit_bits hv u c u.width
      have hout : sbits cfg.wordBits ({ u.emit cfg c u.width with live := false } : Lze).out
          = sbits cfg.wordBits u.out ++ bitsOf c u.width := hb
      rw [hout] at hbits hlim
      have hi := h.iterate hg (rest := pad) (by rw [hbits, List.append_assoc]) (by simpa using hlim)
      have hlen := congrArg List.length h.emitted_dict
      refine ⟨v.emitted cfg u.phrase, fun x hx => .more hi hx, h.dec.iterate hv hi, by simp [Lzd.emitted_out], ?_,
        Lzd.emitted_words _ _, Lzd.emitted_limit _ _, by rw [Lzd.emitted_pending]; simp, by
          simp only [List.length_map] at hlen; exact hlen, hpre h⟩
      rw [Lzd.emitted_pos, hout, h.pos, h.width]; simp
  | cons a syms ih =>
    intro u u₁ u₂ v pad h _ hf hfl hbits hlim
    rw [Lze.feed] at hf
    cases hst : u.step cfg a with
    | error r => rw [hst] at hf; cases hf
    | ok x =>
      obtain ⟨w, e⟩ := x
      rw [hst] at hf
      have hwo := h.enc.step hv hst
      rcases Lze.step_cases (cfg := cfg) u a with ⟨hk, he⟩ | ⟨-, -, he⟩ | ⟨-, -, -, he⟩ | ⟨hk, hc, c, hg, he⟩ <;>
        rw [he] at hst
      · obtain ⟨rfl, -⟩ := Prod.mk.inj (Except.ok.inj hst)
        have hin : InStep cfg { u with phrase := u.phrase ++ [a] } v := by
          refine ⟨hwo, h.dec, h.pos, h.first, fun p hp => ?_⟩
          obtain ⟨h1, h2⟩ := h.later p hp
          refine ⟨by simp, ?_⟩
          rw [h2]
          cases hph : u.phrase with
          | nil => exact absurd hph h1
          | cons b bs => simp
        obtain ⟨w', hr, hok, ho, hrest⟩ := ih hin (by simp) hf hfl hbits hlim
        exact ⟨w', hr, hok, by rw [ho]; simp, hrest⟩
      · cases hst
      · cases hst
      · obtain ⟨rfl, -⟩ := Prod.mk.inj (Except.ok.inj hst)
        have hb := Lze.emit_bits hv (u.insert cfg (u.phrase ++ [a])) c u.width
        have hgrow := (Lze.feed_out hv hf).trans (Lze.flush_out hv hfl)
        have hb' : sbits cfg.wordBits ({ (u.insert cfg (u.phrase ++ [a])).emit cfg c u.width with phrase := [a] } : Lze).out
            = sbits cfg.wordBits u.out ++ bitsOf c u.width := hb
        rw [hb'] at hgrow
        obtain ⟨more, hmore⟩ := hgrow
        have hmlen := congrArg List.length hmore
        simp only [List.length_append, bitsOf_length] at hmlen
        have hi := h.iterate hg (rest := more ++ pad) (by rw [hbits, ← hmore]; simp) (by omega)
        have hvo := h.dec.iterate hv hi
        obtain ⟨w', hr, hok, ho, hpos, hwords, hlimit, hpend, hlen, hdict⟩ := ih (h.emit hv hk rfl hwo hvo) (by simp) hf hfl
          (by rw [Lzd.emitted_words]; exact hbits) (by rw [Lzd.emitted_limit]; exact hlim)
        refine ⟨w', fun x hx => .more hi (hr x hx), hok, ?_, hpos, hwords.trans (Lzd.emitted_words _ _),
          hlimit.trans (Lzd.emitted_limit _ _), hpend, hlen, (hpre h).trans hdict⟩
        rw [ho, Lzd.emitted_out]
        simp

/-- With the stream's bit count as the limit, the decoder's output is what the encoder still had to emit. -/
theorem InStep.runs (hv : 0 < cfg.wordBits) {syms : List Byte} {u u₁ u₂ : Lze} {v : Lzd} {pad : Bits}
    (h : InStep cfg u v) (hd : 0 < v.dict.length) (hne : u.phrase ++ syms = [] → 0 < v.width)
    (hf : u.feed cfg syms = .ok u₁) (hfl : u₁.flush cfg = .ok u₂)
    (hbits : cat cfg.wordBits v.words = sbits cfg.wordBits u₂.out ++ pad)
    (hlim : v.limit = (sbits cfg.wordBits u₂.out).length) :
    ∃ w, Lzd.Runs cfg v (.ok w) ∧ w.out = v.out ++ (u.phrase ++ syms) := by
  by_cases hn : u.phrase ++ syms = []
  · obtain ⟨hphr, rfl⟩ := List.append_eq_nil_iff.1 hn
    cases hf
    rcases Lze.flush_cases (cfg := cfg) u with ⟨-, he⟩ | ⟨h', -⟩ | ⟨h', -⟩
    · rw [he] at hfl
      cases hfl
      have hw := hne hn
      have hpos := h.pos
      refine ⟨{ v with mode := .ended }, .done ?_, by simp [hphr]⟩
      rcases Lzd.iterate_cases (cfg := cfg) v with ⟨-, he⟩ | ⟨hl, -⟩ | ⟨hl, -⟩ | ⟨hl, -⟩
      · exact he
      all_goals (rw [hlim, ← hpos] at hl; omega)
    · exact absurd hphr h'
    · exact absurd hphr h'
  · obtain ⟨w, hr, hok, ho, hpos, -, hlimit, hpend, hlen, hdict⟩ := h.reaches hv hn hf hfl hbits hlim.ge
    have hle := hdict.length_le
    have hend := hok.iterate_end (by omega) hpend (by rw [hlimit, hpos, hlim])
    exact ⟨_, hr _ (.done hend), ho⟩

/-! ## Reading the padding (R216) -/

/-- The bits of `m` reads, from a dictionary of `n` entries on: each read inserts one entry (R202). -/
def readWidths (n m : Nat) : Nat := ((List.range m).map fun j => bitlen (n + j)).sum

theorem readWidths_succ (n m : Nat) : readWidths n (m + 1) = bitlen n + readWidths (n + 1) m := by
  simp only [readWidths, List.range_succ_eq_map, List.map_cons, List.map_map, List.sum_cons, Nat.add_zero]
  congr 2
  refine List.map_congr_left fun j _ => ?_
  simp only [Function.comp]
  congr 1; omega

/-- Over zero bits the decoder emits the first symbol while a codeword fits. -/
theorem Lzd.Ok.runs_zeros (hv : 0 < cfg.wordBits) (hcap : cfg.dictCap = 0) {a : Byte} :
    ∀ {fuel : Nat} {v : Lzd} {z : Nat}, v.Ok cfg → v.limit - v.pos ≤ fuel → v.pending ≠ none →
      mapGet v.dict 0 = some [a] → (cat cfg.wordBits v.words).drop v.pos = List.replicate z false →
      v.limit = (cat cfg.wordBits v.words).length →
      ∃ k w, Lzd.Runs cfg v (.ok w) ∧ w.out = v.out ++ List.replicate k a ∧
        v.pos + readWidths v.dict.length k ≤ v.limit ∧ v.limit < v.pos + readWidths v.dict.length (k + 1) := by
  intro fuel
  induction fuel with
  | zero =>
    intro v z h hm hp h0 hz hlim
    have hd : 0 < v.dict.length := by
      rcases hd : v.dict with _ | ⟨e, d⟩
      · rw [hd] at h0; cases h0
      · simp
    have hle := h.pos
    exact ⟨0, _, .done (h.iterate_end hd hp (by omega)), by simp, by simpa [readWidths] using hle, by
      have := bitlen_pos hd
      simp [readWidths]; omega⟩
  | succ fuel ih =>
    intro v z h hm hp h0 hz hlim
    have hd : 0 < v.dict.length := by
      rcases hd : v.dict with _ | ⟨e, d⟩
      · rw [hd] at h0; cases h0
      · simp
    have hle := h.pos
    have hw := (h.after hp).1
    have hwp := bitlen_pos hd
    have hcode : v.code cfg = 0 := by
      rw [Lzd.code, extract, hz, List.take_replicate, natOf_replicate_false]
    have hwithin : WithinCap cfg (v.dict.length + 1) := .inl hcap
    have hres : v.resolve cfg 0 = .ok [a] := by
      rcases h.synced.resolve_cases 0 with ⟨-, s, hs, he⟩ | ⟨he, -⟩ | ⟨he, -⟩
      · rw [h0] at hs; cases hs; exact he
      · omega
      · omega
    rcases Lzd.iterate_cases (cfg := cfg) v with ⟨hl, he⟩ | ⟨-, r, hr, -⟩ | ⟨-, -, hc, -⟩ | ⟨hl, -, s, hr, he⟩
    · exact ⟨0, _, .done he, by simp, by simpa [readWidths] using hle, by
        rw [readWidths_succ, ← hw]; simp [readWidths]; omega⟩
    · rw [hcode, hres] at hr; cases hr
    · exact absurd hwithin hc
    · rw [hcode, hres] at hr; cases hr
      have hok := h.iterate hv he
      have hlen := h.synced.emitted_length (cfg := cfg) [a]
      rw [if_neg hp] at hlen
      have h0' : mapGet (v.emitted cfg [a]).dict 0 = some [a] := by
        obtain ⟨p, hp⟩ := Option.ne_none_iff_exists'.1 hp
        unfold Lzd.emitted
        rw [hp]
        show mapGet (v.insert cfg _).dict 0 = _
        rw [h.synced.insert_dict, mapGet_append_new, if_neg (by omega), h0]
        rw [h.synced.keys, ← h.synced.length]; simp
      obtain ⟨k, w, hr, ho, h1, h2⟩ := ih (z := z - v.width) hok
        (by rw [Lzd.emitted_limit, Lzd.emitted_pos]; omega) (by rw [Lzd.emitted_pending]; simp) h0'
        (by rw [Lzd.emitted_words, Lzd.emitted_pos, ← List.drop_drop, hz, List.drop_replicate])
        (by rw [Lzd.emitted_words, Lzd.emitted_limit]; exact hlim)
      rw [Lzd.emitted_limit, Lzd.emitted_pos, hlen, hw] at h1 h2
      refine ⟨k + 1, w, .more he hr, ?_, ?_, ?_⟩
      · rw [ho, Lzd.emitted_out, List.append_assoc, List.replicate_succ]; rfl
      · rw [readWidths_succ]; omega
      · rw [readWidths_succ]; omega

/-! ## A byte outside the alphabet (42_lzw_encoder.md R178) -/

/-- Every key begins with a symbol of the alphabet. -/
def Lze.Headed (u : Lze) : Prop := ∀ p ∈ u.dict.map Prod.fst, ∀ b, p.head? = some b → b ∈ u.alpha

/-- Every key is over the alphabet: only symbols of the alphabet have been fed. -/
def Lze.Over (u : Lze) : Prop := ∀ p ∈ u.dict.map Prod.fst, ∀ b ∈ p, b ∈ u.alpha

theorem Lze.Over.headed {u : Lze} (h : u.Over) : u.Headed := fun p hp b hb => h p hp b (List.mem_of_head? hb)

theorem Lze.fresh_over (hv : 0 < cfg.wordBits) {alpha : List Byte} (h : AlphabetOk alpha) :
    (Lze.fresh cfg alpha).Over := by
  intro p hp b hb
  rw [Lze.fresh_dict hv h, seedEntries_keys] at hp
  rw [(Lze.fresh_fields hv h).2.1]
  obtain ⟨a, ha, rfl⟩ := List.mem_map.1 hp
  rw [List.mem_singleton] at hb
  exact hb ▸ ha

theorem Lze.Over.step {u v : Lze} (h : u.Over) {sym : Byte} (hsym : sym ∈ u.alpha) {e : Bool}
    (hs : u.step cfg sym = .ok (v, e)) : v.Over := by
  rcases Lze.step_cases (cfg := cfg) u sym with ⟨hk, he⟩ | ⟨-, -, he⟩ | ⟨-, -, -, he⟩ | ⟨hk, hc, c, hg, he⟩ <;>
    rw [he] at hs <;> cases hs
  · exact h
  · intro p hp b hb
    have hp : p ∈ (u.insert cfg (u.phrase ++ [sym])).dict.map Prod.fst := hp
    rw [Lze.insert_dict hk, List.map_append] at hp
    rcases List.mem_append.1 hp with hp | hp
    · exact h p hp b hb
    · have hp : p = u.phrase ++ [sym] := by simpa using hp
      rw [hp] at hb
      rcases List.mem_append.1 hb with hb | hb
      · exact h u.phrase (mapGet_isSome.1 ⟨c, hg⟩) b hb
      · rw [List.mem_singleton] at hb; exact hb ▸ hsym

theorem Lze.Headed.step {u v : Lze} (h : u.Headed) (hne : [] ∉ u.dict.map Prod.fst) {sym : Byte} {e : Bool}
    (hs : u.step cfg sym = .ok (v, e)) : v.Headed := by
  rcases Lze.step_cases (cfg := cfg) u sym with ⟨hk, he⟩ | ⟨-, -, he⟩ | ⟨-, -, -, he⟩ | ⟨hk, hc, c, hg, he⟩ <;>
    rw [he] at hs <;> cases hs
  · exact h
  · intro p hp b hb
    have hp : p ∈ (u.insert cfg (u.phrase ++ [sym])).dict.map Prod.fst := hp
    rw [Lze.insert_dict hk, List.map_append] at hp
    rcases List.mem_append.1 hp with hp | hp
    · exact h p hp b hb
    · have hp : p = u.phrase ++ [sym] := by simpa using hp
      have hq := mapGet_isSome.1 ⟨c, hg⟩
      cases hph : u.phrase with
      | nil => rw [hph] at hq; exact absurd hq hne
      | cons x xs =>
        rw [hp, hph] at hb
        exact h u.phrase hq b (by rw [hph]; exact hb)

/-- The steps of an input, and the flush (R183). -/
def Lze.encodeRest (cfg : Config) (u : Lze) (syms : List Byte) : Except Raise Lze := do
  let v ← u.feed cfg syms
  v.flush cfg

theorem Lze.encodeRest_cons (u : Lze) (a : Byte) (syms : List Byte) :
    u.encodeRest cfg (a :: syms) = (u.step cfg a >>= fun x => x.1.encodeRest cfg syms) := by
  rw [encodeRest, Lze.feed]
  cases u.step cfg a <;> rfl

/-- Once a byte outside the alphabet is the phrase, whatever follows faults with it. -/
theorem Lze.Headed.foreign_phrase {u : Lze} (h : u.Headed) {z : Byte} (hz : z ∉ u.alpha) (hp : u.phrase = [z])
    (hr : Room cfg u 1) (syms : List Byte) : u.encodeRest cfg syms = .error ⟨.alphabetCoverage, z.toNat⟩ := by
  have hk : ∀ p, p.head? = some z → p ∉ u.dict.map Prod.fst := fun p hp hm => hz (h p hm z hp)
  have hk1 : u.phrase ∉ u.dict.map Prod.fst := hk _ (by rw [hp]; rfl)
  cases syms with
  | nil =>
    rw [encodeRest, Lze.feed, ok_bind]
    rcases Lze.flush_cases (cfg := cfg) u with ⟨hn, -⟩ | ⟨-, -, he⟩ | ⟨-, c, hg, -⟩
    · rw [hp] at hn; cases hn
    · rw [he, hp]; rfl
    · exact absurd (mapGet_isSome.1 ⟨c, hg⟩) hk1
  | cons a syms =>
    rw [encodeRest_cons]
    rcases Lze.step_cases (cfg := cfg) u a with ⟨hk', -⟩ | ⟨-, hc, -⟩ | ⟨-, -, -, he⟩ | ⟨-, -, c, hg, -⟩
    · exact absurd hk' (hk _ (by rw [hp]; rfl))
    · rcases hr with hr | hr
      · exact absurd (.inl hr) hc
      · exact absurd (.inr hr) hc
    · rw [he, hp]; rfl
    · exact absurd (mapGet_isSome.1 ⟨c, hg⟩) hk1

/-- An input with a byte outside the alphabet ends in ALPHABET_COVERAGE with the first such byte. -/
theorem Lze.Ok.foreign (hv : 0 < cfg.wordBits) {z : Byte} {after : List Byte} {before : List Byte} :
    ∀ {u : Lze}, u.Ok cfg → u.Clean → u.Over → (∀ s ∈ before, s ∈ u.alpha) → z ∉ u.alpha →
      Room cfg u (before.length + 2) →
      u.encodeRest cfg (before ++ z :: after) = .error ⟨.alphabetCoverage, z.toNat⟩ := by
  induction before with
  | nil =>
    intro u h hp hh _ hz hr
    rw [List.nil_append, encodeRest_cons]
    rcases Lze.step_cases (cfg := cfg) u z with ⟨hk', he⟩ | ⟨-, hc, -⟩ | ⟨-, -, hq, he⟩ | ⟨hk, hc, c, hg, he⟩
    · exact absurd (hh _ hk' z (by simp)) hz
    · rcases hr with hr | hr
      · exact absurd (.inl hr) hc
      · exact absurd (.inr (by simp at hr; omega)) hc
    · rcases hp with hp | hp
      · rw [he, hp]; rfl
      · exact absurd hp hq
    · rw [he, ok_bind]
      have hh' := hh.headed.step h.nonempty he
      refine hh'.foreign_phrase (z := z) hz rfl ?_ after
      rcases hr with hr | hr
      · exact .inl hr
      · refine .inr ?_
        show (u.insert cfg _).dict.length + 1 ≤ _
        rw [Lze.insert_dict hk]
        simp only [List.length_append, List.length_singleton, List.length_nil] at hr ⊢
        omega
  | cons a before ih =>
    intro u h hp hh hall hz hr
    obtain ⟨v, e, he, hvo, hvp, hvr, hva, -⟩ := h.step_total hv hp (hall a (by simp)) (n := before.length + 2)
      (by simpa [Nat.add_right_comm] using hr)
    rw [List.cons_append, encodeRest_cons, he, ok_bind]
    exact ih hvo hvp (hh.step (hall a (by simp)) he) (fun s hs => hva ▸ hall s (by simp [hs])) (hva ▸ hz) hvr

/-- A fresh encoder and a fresh decoder of one alphabet are in step. -/
theorem inStep_fresh (hv : cfg.Valid) {alpha input : List Byte} {limit : Option Nat} (ha : AlphabetOk alpha)
    (hc : WithinCap cfg alpha.length) (hl : LimitOk cfg input limit) :
    InStep cfg (Lze.fresh cfg alpha) (Lzd.fresh cfg alpha input limit) := by
  have hp : 0 < cfg.wordBits := Config.Valid.pos hv
  obtain ⟨hd, -, -, -, -, -, -, hpos, hpe, -⟩ := Lzd.fresh_spec hp alpha input limit
  obtain ⟨-, -, -, ho⟩ := Lze.fresh_fields hp ha
  refine ⟨Lze.fresh_ok hp ha hc, Lzd.fresh_ok hv hl hc, ?_, fun _ => ?_, fun p h => ?_⟩
  · rw [hpos, ho]; rfl
  · rw [hd, Lze.fresh_dict hp ha]
    simp [codeEntries, seedEntries]
  · rw [hpe] at h; cases h

/-! ## What the decoder is given (R210; 41_bitbuffer.md R158) -/

/-- The words of a serialized stream begin with the stream's bits. -/
theorem cat_inputWords (hv : cfg.Valid) (b : BitBuffer) :
    ∃ pad, cat cfg.wordBits (inputWords cfg (bbToBytes cfg.wordBits b)) = sbits cfg.wordBits b ++ pad := by
  rw [inputWords, cat_bbFromBytes hv.1 hv.2, bitsOfBytes_bbToBytes hv.2]
  have hle : b.bitCount ≤ 8 * ceilDiv b.bitCount 8 := by
    have := ceilDiv_mul_ge (a := b.bitCount) (b := 8) (by decide)
    omega
  refine ⟨((cat cfg.wordBits b.words).take (8 * ceilDiv b.bitCount 8)).drop b.bitCount
    ++ List.replicate (8 * ((cfg.wordBits / 8 - (bbToBytes cfg.wordBits b).length % (cfg.wordBits / 8))
      % (cfg.wordBits / 8))) false, ?_⟩
  rw [← List.append_assoc]
  congr 1
  conv_lhs => rw [← List.take_append_drop b.bitCount ((cat cfg.wordBits b.words).take (8 * ceilDiv b.bitCount 8))]
  rw [List.take_take, Nat.min_eq_left hle]
  rfl

theorem limitOk_bitCount (hv : cfg.Valid) (b : BitBuffer) (hb : b.bitCount ≤ b.words.length * cfg.wordBits) :
    LimitOk cfg (bbToBytes cfg.wordBits b) (some b.bitCount) := by
  obtain ⟨pad, hp⟩ := cat_inputWords hv b
  intro l hl
  cases hl
  have := congrArg List.length hp
  rw [cat_length, List.length_append, sbits_length hb] at this
  omega

end Sys2Proof.Machine
end

