-- ==== Sys2Proof/Laws/Answers.lean ====
section
/-! SUPPORT. Response headers as numerals, answers in the form the statements have them, the fault codes each operation can raise, and
the modes each leaves. -/

namespace Sys2Proof.Machine

/-- The HOST reads the response the CORE sent back from its bytes (20_memory.md R75). -/
theorem responseOfBytes_responseBytes (r : Response) : responseOfBytes (responseBytes r) = some r := by
  rw [responseOfBytes, show responseBytes r = messageBytes ⟨r.header, r.payload⟩ from rfl, messageOfBytes_messageBytes]
  rfl

variable {cfg : Config} {wb : Nat}

/-! ## Response headers (30_encoding.md R121, R122) -/

theorem header_zero : responseHeader 0x00 0x00 0x0000#16 = 0x00000000#32 := by decide

theorem header_one : responseHeader 0x00 0x00 0x0001#16 = 0x00000001#32 := by decide

theorem header_end : responseHeader 0x00 0x00 0x0200#16 = 0x00000200#32 := by decide

theorem header_hit : ∀ b : Byte, responseHeader 0x00 0x00 (BitVec.ofNat 16
    (0x0100 + b.toNat)) = 0x00000100#32 + b.setWidth 32 := by decide

theorem hit_tag : ∀ b : Byte, (BitVec.ofNat 16 (0x0100 + b.toNat)).extractLsb' 8 8 = 0x01#8 := by decide

theorem hit_ne : ∀ b : Byte, responseHeader 0x00 0x00 (BitVec.ofNat 16 (0x0100 + b.toNat)) ≠ 0x00000200#32 :=
    by decide

theorem header_fault1 : responseHeader 0x01 0x01#8 0x0000 = 0x01010000#32 := by decide

theorem header_fault2 : responseHeader 0x01 0x02#8 0x0000 = 0x01020000#32 := by decide

theorem header_fault3 : responseHeader 0x01 0x03#8 0x0000 = 0x01030000#32 := by decide

theorem header_fault5 : responseHeader 0x01 0x05#8 0x0000 = 0x01050000#32 := by decide

theorem header_fault6 : responseHeader 0x01 0x06#8 0x0000 = 0x01060000#32 := by decide

theorem header_fault7 : responseHeader 0x01 0x07#8 0x0000 = 0x01070000#32 := by decide

theorem header_fault8 : responseHeader 0x01 0x08#8 0x0000 = 0x01080000#32 := by decide

theorem word_lzdInit_isSome (l : Option Nat) : Head.word (.lzdInit l.isSome) = if l.isSome then 0x30010000#32 else
    0x30000000#32 := by
  cases l <;> exact word_lzdInit _

theorem word_hfdInit' (l : Bool) : Head.word (.hfdInit l) = if l then 0x60010000#32 else 0x60000000#32 := by
  cases l <;> exact word_hfdInit _

/-! ## Answers -/

/-- An OK response, with its header as a numeral. -/
theorem respondOk_eq {u : State} {a : Answer} {h : BitVec 32} (e : responseHeader 0x00 0x00 a.tag = h)
    : u.respondOk a = u.send ⟨h, u.payload a.result⟩ := by
  subst e; rfl

/-- Fault entry, with its header as a numeral. -/
theorem takeFault_eq {s : State} {i : Instr} {r : Raise} {b : Byte} {h : BitVec 32} {rh : BitVec 32} {t : State}
    (hb : r.code.byte = b) (hh : i.head.word = h)
   (ht : (s.endInstance (some i.head.unit)).withFault ⟨true, b, r.info, h⟩ = t)
     (hr : responseHeader 0x01 b 0x0000 = rh) :
   s.takeFault (some i.head.unit) i.head.word r = t.send ⟨rh, []⟩ := by
  subst hb hh ht hr; rfl

theorem payload_none (s : State) : s.payload .none = [] := rfl

/-- A command that writes no state. -/
theorem pureCommand_ok {hd : Head} {s : State} (h : s.fault.faulted = false) (r : Result) :
    pureCommand hd s r = .next (s.send ⟨0x00000000#32, s.payload r⟩) :=
  (command_ok h s ⟨0x0000, r⟩).trans (congrArg _ (respondOk_eq header_zero))

/-- What no command writes. -/
theorem Wrote.frame {s u : State} {f : FUnit} (h : Wrote s f u) : u.fault = s.fault ∧ u.cfg = s.cfg ∧
    u.commands = s.commands ∧ u.responses = s.responses := by
  cases f <;> simp only [Wrote] at h <;> rw [h] <;> exact ⟨rfl, rfl, rfl, rfl⟩

theorem mem_map_fst {κ ν} {m : List (κ × ν)} {k v} (h : (k,v) ∈ m) : k ∈ m.map Prod.fst := List.mem_map.2 ⟨_, h, rfl⟩

/-! ## Fault codes (60_exceptions.md R311) -/

theorem Lze.init_code {alpha r} (h : Lze.init cfg alpha = .error r) : r.code = .badOperand ∨
    r.code = .capacityExceeded := by
  rcases Lze.init_cases (cfg := cfg) (alpha := alpha) with ⟨-, e⟩ | ⟨-, -, e⟩ | ⟨-, -, e⟩ <;> rw
    [e] at h <;> cases h <;> simp

theorem Lze.step_code {u : Lze} {sym r} (h : u.step cfg sym = .error r) : r.code = .alphabetCoverage ∨
    r.code = .capacityExceeded := by
  rcases Lze.step_cases (cfg := cfg) u sym with ⟨-, e⟩ | ⟨-, -, e⟩ | ⟨-, -, -, e⟩ | ⟨-, -, c, -, e⟩ <;> rw
    [e] at h <;> cases h <;> simp

theorem Lze.feed_code {syms : List Byte} : ∀ {u : Lze} {r}, u.feed cfg syms = .error r → r.code = .alphabetCoverage ∨
    r.code = .capacityExceeded := by
  induction syms with
  | nil => intro u r h; cases h
  | cons a l ih =>
    intro u r h
    rw [Lze.feed] at h
    split at h
    · rename_i hs; cases h; exact Lze.step_code hs
    · exact ih h

theorem Lze.flush_code {u : Lze} {r} (h : u.flush cfg = .error r) : r.code = .alphabetCoverage := by
  rcases Lze.flush_cases (cfg := cfg) u with ⟨-, e⟩ | ⟨-, -, e⟩ | ⟨-, c, -, e⟩ <;> rw [e] at h <;> cases h <;> simp

theorem Lzd.init_code {alpha input limit r} (h : Lzd.init cfg alpha input limit = .error r) : r.code = .badOperand ∨
    r.code = .capacityExceeded := by
  rcases Lzd.init_cases (cfg := cfg) (alpha := alpha) (input := input) (limit := limit) with ⟨-, e⟩ | ⟨-, -, e⟩ | ⟨-,
    -, -, e⟩ | ⟨-, -, -, e⟩ <;> rw [e] at h <;> cases h <;> simp

theorem Lzd.resolve_code {u : Lzd} {c r} (h : u.resolve cfg c = .error r) : r.code = .corruptStream := by
  unfold Lzd.resolve at h
  repeat' split at h
  all_goals cases h <;> rfl

theorem Lzd.iterate_code {u : Lzd} {r} (h : u.iterate cfg = .error r) : r.code = .corruptStream ∨
    r.code = .capacityExceeded := by
  rcases Lzd.iterate_cases (cfg := cfg) u with ⟨-, he⟩ | ⟨-, r', hr, he⟩ | ⟨-, -, -, -, he⟩ | ⟨hl, hc, s, hr,
    he⟩ <;> rw [he] at h <;> cases h
  · left; exact Lzd.resolve_code hr
  · simp

theorem Lzd.run_code : ∀ {n} {u : Lzd} {r}, Lzd.run cfg n u = .error r → r.code = .corruptStream ∨
    r.code = .capacityExceeded := by
  intro n
  induction n with
  | zero => intro u r h; cases h
  | succ n ih =>
    intro u r h
    rw [Lzd.run] at h
    split at h
    · rename_i hs; cases h; exact Lzd.iterate_code hs
    · cases h
    · exact ih h

theorem Hft.load_code {f r} (h : Hft.load f = .error r) : r.code = .degenerateTree := by
  unfold Hft.load at h; split at h <;> cases h; rfl

theorem buildTree_code {wb f r} (h : buildTree wb f = .error r) : r.code = .degenerateTree := by
  rcases bind_error h with h | ⟨a, -, h⟩
  · exact Hft.load_code h
  · cases h

theorem hist_code {d r} (h : hist d = .error r) : r.code = .countOverflow := by
  unfold hist at h; split at h <;> cases h; rfl

theorem Hfd.init_code {wb lit c r} (h : Hfd.init wb lit c = .error r) : r.code = .corruptStream ∨
    r.code = .degenerateTree := by
  unfold Hfd.init at h
  split at h
  · cases h; simp
  · rcases bind_error h with h | ⟨a, -, h⟩
    · exact .inr (buildTree_code h)
    · cases h

theorem Hfd.trialStep_code {u : Hfd} {r} (h : u.trialStep = .error r) : r.code = .corruptStream := by
  rcases Hfd.trialStep_cases u with ⟨-, -, e⟩ | ⟨-, -, -, e⟩ | ⟨-, -, -, e⟩ | ⟨-, -, b, -, e⟩ | ⟨-, -, -, -, e⟩ | ⟨-,
    -, -, -, -, e⟩ | ⟨-, -, -, -, -, e⟩ <;> rw [e] at h <;> cases h <;> rfl

theorem Hfd.run_code : ∀ {n} {u : Hfd} {r}, Hfd.run n u = .error r → r.code = .corruptStream := by
  intro n
  induction n with
  | zero => intro u r h; cases h
  | succ n ih =>
    intro u r h
    rw [Hfd.run] at h
    split at h
    · rename_i hs; cases h; exact Hfd.trialStep_code hs
    · cases h
    · exact ih h

/-! ## Modes (70_reset_and_hazards.md R352) -/

theorem Lze.seed_live {cfg : Config} (alpha : List Byte) (u : Lze) : (Lze.seed cfg u alpha).live = u.live := by
  unfold Lze.seed
  induction alpha generalizing u with
  | nil => rfl
  | cons a l ih => rw [List.foldl_cons, ih]; rfl

theorem Lze.init_live {cfg : Config} {alpha u} (h : Lze.init cfg alpha = .ok u) : u.live = true := by
  rcases Lze.init_cases (cfg := cfg) (alpha := alpha) with ⟨-, e⟩ | ⟨-, -, e⟩ | ⟨ha, -, e⟩ <;> rw [e] at h <;> cases h
  exact Lze.seed_live _ _

theorem Lze.flush_live {cfg : Config} {u v : Lze} (h : u.flush cfg = .ok v) : v.live = false := by
  rcases Lze.flush_cases (cfg := cfg) u with ⟨-, e⟩ | ⟨-, -, e⟩ | ⟨-, c, -, e⟩ <;> rw [e] at h <;> cases h <;> rfl

theorem Lzd.seed_mode {cfg : Config} (alpha : List Byte) (u : Lzd) : (alpha.foldl
    (fun u a => u.insert cfg [a]) u).mode = u.mode := by
  induction alpha generalizing u with
  | nil => rfl
  | cons a l ih => rw [List.foldl_cons, ih]; rfl

theorem Lzd.init_mode {cfg : Config} {alpha input limit u} (h : Lzd.init cfg alpha input limit = .ok u)
    : u.mode = .active := by
  rcases Lzd.init_cases (cfg := cfg) (alpha := alpha) (input := input) (limit := limit) with ⟨-, e⟩ | ⟨-, -, e⟩ | ⟨-,
    -, -, e⟩ | ⟨-, -, -, e⟩ <;> rw [e] at h <;> cases h
  exact Lzd.seed_mode _ _

theorem Hft.load_mode {f h} (e : Hft.load f = .ok h) : h.mode = .building := by
  unfold Hft.load at e; split at e <;> cases e; rfl

theorem Hfd.init_mode {wb lit c u h} (e : Hfd.init wb lit c = .ok (u, h)) : u.mode = .active := by
  unfold Hfd.init at e
  split at e
  · cases e
  · obtain ⟨a, -, e⟩ := bind_ok e
    cases e; rfl

theorem Lzd.decode_mode {cfg : Config} (hv : cfg.Valid) {alpha input limit u v}
    (h : Lzd.init cfg alpha input limit = .ok u) (hr : Lzd.run cfg (u.limit + 2) u = .ok v) : v.mode = .ended := by
  have hw := Config.Valid.pos hv
  rcases Lzd.init_cases (cfg := cfg) (alpha := alpha) (input := input) (limit := limit) with ⟨-, e⟩ | ⟨-, -, e⟩ | ⟨-,
    -, -, e⟩ | ⟨ha, hl, hc, e⟩ <;> rw [e] at h <;> cases h
  have ho := Lzd.fresh_ok hv hl hc (alpha := alpha)
  have hs := Lzd.fresh_spec hw alpha input limit
  have := ho.runs hw (fuel := (Lzd.fresh cfg alpha input limit).limit + 2)
    (by rw [hs.1, codeEntries_length]; exact ha.1) (by unfold Lzd.measure; split <;> omega)
  exact this.ended hr

theorem buildTree_mode {wb f h} (hv : 0 < wb) (hf : f.length ≤ 256) (e : buildTree wb f = .ok h) : h.mode = .done :=
    (treeOf_of_build hv hf e).2.done

theorem hist_length {d f} (h : hist d = .ok f) : f.length = 256 := by
  rcases hist_cases d with ⟨-, e⟩ | ⟨b, -, -, e⟩ <;> rw [e] at h <;> cases h
  exact byteCounts_length d

theorem Hfd.init_hft {wb lit c u h} (hv : 0 < wb) (e : Hfd.init wb lit c = .ok (u, h)) : h.mode = .done := by
  rcases Hfd.init_cases hv lit c with ⟨-, e'⟩ | ⟨-, -, e'⟩ | ⟨-, -, k, ht, e'⟩ <;> rw [e'] at e <;> cases e
  exact ht.done

theorem Hfd.decode_mode {wb lit c u h v} (hv : 0 < wb) (e : Hfd.init wb lit c = .ok (u, h))
    (hr : Hfd.run ((u.nbits + 1) * (u.maxlen + 1)) u = .ok v) : v.mode = .ended := by
  have hm := Hfd.init_mode e
  rcases Hfd.init_cases hv lit c with ⟨-, e'⟩ | ⟨-, -, e'⟩ | ⟨-, -, k, ht, e'⟩ <;> rw [e'] at e <;> cases e
  exact ((Hfd.fresh_ok hv lit c ht).runs hm (Hfd.fresh_measure _ _ _ _)).ended hm hr

theorem Lzd.iterate_none {cfg : Config} {u v : Lzd} (h : u.iterate cfg = .ok (v, none)) : v.mode = .ended := by
  rcases Lzd.iterate_cases (cfg := cfg) u with ⟨-, he⟩ | ⟨-, r', hr, he⟩ | ⟨-, -, -, -, he⟩ | ⟨hl, hc, s, hr,
    he⟩ <;> rw [he] at h <;> cases h
  rfl

theorem Lzd.iterate_some {cfg : Config} {u v : Lzd} {q} (h : u.iterate cfg = .ok (v, some q)) : v.mode = u.mode := by
  rcases Lzd.iterate_cases (cfg := cfg) u with ⟨-, he⟩ | ⟨-, r', hr, he⟩ | ⟨-, -, -, -, he⟩ | ⟨hl, hc, s, hr,
    he⟩ <;> rw [he] at h <;> cases h
  exact Lzd.emitted_mode _ _

theorem Hft.step_mode {wb} (h : Hft) : ((h.step wb).2 = true ∧ (h.step wb).1.mode = .done) ∨
    ((h.step wb).2 = false ∧ (h.step wb).1.mode = h.mode) := by
  rcases Hft.step_cases (wb := wb) h with ⟨-, e⟩ | ⟨m1, m2, -, e⟩ <;> rw [e]
  · exact .inl ⟨rfl, rfl⟩
  · exact .inr ⟨rfl, rfl⟩

/-! ## Instances, field by field -/

theorem Lze.ext_fields {u v : Lze} (h1 : u.live = v.live) (h2 : u.alpha = v.alpha) (h3 : u.dict = v.dict)
    (h4 : u.ctr = v.ctr)
   (h5 : u.width = v.width) (h6 : u.phrase = v.phrase) (h7 : u.out = v.out) : u = v := by
  cases u; cases v; simp_all

theorem Lzd.ext_fields {u v : Lzd} (h1 : u.mode = v.mode) (h2 : u.alpha = v.alpha) (h3 : u.dict = v.dict)
    (h4 : u.ctr = v.ctr)
   (h5 : u.width = v.width) (h6 : u.words = v.words) (h7 : u.limit = v.limit) (h8 : u.pos = v.pos)
     (h9 : u.pending = v.pending) (h10 : u.out = v.out) : u = v := by
  cases u; cases v; simp_all

/-- The instance LZE_INIT makes (42_lzw_encoder.md R170). -/
theorem Lze.fresh_eq (hv : 0 < cfg.wordBits) {alpha : List Byte} (h : AlphabetOk alpha) :
   Lze.fresh cfg alpha = Lze.mk true alpha (alpha.zipIdx.map fun e => ([e.1], e.2))
          (canon cfg.wordBits alpha.length) (bitlen (alpha.length - 1)) []
          ⟨[], 0⟩ := by
  obtain ⟨h1, h2, h3, h4⟩ := Lze.fresh_fields hv h
  have hd := Lze.fresh_dict hv h
  have hs := Lze.fresh_synced hv h
  have hl : (Lze.fresh cfg alpha).dict.length = alpha.length := by rw [hd, seedEntries_length]
  refine Lze.ext_fields h1 h2 hd ?_ ?_ h3 h4
  · rw [hs.ctr.eq_canon hv, ← hs.length, hl]
  · rw [hs.width, hl]

/-- The instance LZD_INIT makes (43_lzw_decoder.md R200). -/
theorem Lzd.fresh_eq (hv : 0 < cfg.wordBits) (alpha input : List Byte) (limit : Option Nat) :
   Lzd.fresh cfg alpha input limit = Lzd.mk .active alpha (alpha.zipIdx.map fun e => (e.2, [e.1]))
          (canon cfg.wordBits alpha.length) (bitlen (alpha.length - 1)) (bbFromBytes cfg.wordBits input).words
          (match limit with | some l => l | none => (bbFromBytes cfg.wordBits input).words.length * cfg.wordBits) 0
            none [] := by
  obtain ⟨a1, a2, a3, a4, a5, a6, a7, a8, a9, a10⟩ := Lzd.fresh_spec hv alpha input limit
  refine Lzd.ext_fields a3 a4 a1 ?_ a5 a6 ?_ a8 a9 a10
  · rw [a2.ctr.eq_canon hv, ← a2.length, a1, codeEntries_length]
  · rw [a7]; cases limit <;> rfl

/-- What a codeword resolves to (43_lzw_decoder.md R205). -/
theorem Lzd.Ok.resolve_of {u : Lzd} (ho : u.Ok cfg) {c : Nat} {seq : List Byte}
    (h : (c, seq) ∈ u.dict ∨ (c = u.dict.length ∧ ∃ q, u.pending = some q ∧ seq = q ++ q.take 1))
    : u.resolve cfg c = .ok seq := by
  rcases ho.synced.resolve_cases c with ⟨hc, s, hs, he⟩ | ⟨hc, p, hp, he⟩ | ⟨hle, hn, he⟩
  · rcases h with h | ⟨h, -⟩
    · have := mapGet_of_mem ho.synced.keys_nodup h
      rw [this] at hs; cases hs; exact he
    · omega
  · rcases h with h | ⟨-, q, hq, rfl⟩
    · have := mem_map_fst h
      rw [ho.keys, List.mem_range, ← ho.synced.length] at this; omega
    · rw [hp] at hq; cases hq; exact he
  · rcases h with h | ⟨h, q, hq, rfl⟩
    · have := mem_map_fst h
      rw [ho.keys, List.mem_range, ← ho.synced.length] at this; omega
    · rw [hn h] at hq; cases hq

theorem unused_eq (b : BitBuffer) (wb) : unused wb b = b.words.length * wb - b.bitCount := rfl

/-- The bits of a stream, and its zero padding. -/
theorem StreamOk.cat_eq {wb : Nat} (hw : 0 < wb) {b : BitBuffer} (h : StreamOk wb b) :
    cat wb b.words = sbits wb b ++ List.replicate (b.words.length * wb - b.bitCount) false := by
  rw [← unused_eq, ← h.2.2, sbits, List.take_append_drop]

/-- A stream is determined by its bits. -/
theorem StreamOk.ext_bits {wb} (hw : 0 < wb) {a b : BitBuffer} (ha : StreamOk wb a) (hb : StreamOk wb b)
    (h : sbits wb a = sbits wb b) : a = b := by
  rw [ha.eq_frombits hw, hb.eq_frombits hw, h]

end Sys2Proof.Machine
end

