-- ==== Sys2Proof/Laws/Invariant.lean ====
section
/-! SUPPORT. What keeps the invariants of Safety.lean: the reset values, ending an instance, sending, taking a fault, and the
constructions. -/

namespace Sys2Proof.Machine

variable {cfg : Config} {wb : Nat}

/-! ## Reset values -/

theorem Lze.Ok.reset {cfg : Config} (hv : 0 < cfg.wordBits) : Lze.Ok cfg .reset where
  ctr := ⟨by simp [Lze.reset], by simp [Lze.reset], fun _ => rfl⟩
  codes := by simp [Lze.reset, ctrValue, cat, natOf_bitsOf]
  keys := by simp [Lze.reset]
  nonempty := by simp [Lze.reset]
  seeds := by simp [Lze.reset]
  width := rfl
  phrase := .inl rfl
  out := streamOk_nil hv
  cap := .inr (Nat.zero_le _)

theorem Lzd.Ok.reset {cfg : Config} : Lzd.Ok cfg .reset where
  ctr := ⟨by simp [Lzd.reset], by simp [Lzd.reset], fun _ => rfl⟩
  keys := by simp [Lzd.reset, ctrValue, cat, natOf_bitsOf]
  nonempty := by simp [Lzd.reset]
  words := by simp [Lzd.reset]
  limit := by simp [Lzd.reset]
  pos := by simp [Lzd.reset]
  pendingNonempty := by simp [Lzd.reset]
  before := fun _ => ⟨rfl, rfl, rfl, rfl⟩
  after := fun h => absurd rfl h
  cap := .inr (Nat.zero_le _)

theorem Hft.Ok.reset {wb : Nat} : Hft.Ok wb .reset where
  symbols := by simp [Hft.reset]
  positive := by simp [Hft.reset]
  sameWeight := by simp [Hft.reset]
  total := by simp [Hft.reset, subtreeIds]
  merges := by simp [Hft.reset, subtreeIds]
  codes := by simp [Hft.reset]
  prefixFree := by simp [Hft.reset]
  depth := by simp [Hft.reset]
  full := by simp [Hft.reset]
  loaded := fun h => absurd rfl h
  finished := fun h => by cases h

theorem Hfd.Ok.reset : Hfd.Ok .reset where
  nbits := rfl
  pos := le_rfl
  emitted := rfl
  counted := fun _ => le_rfl
  trial := fun h => by cases h
  lengths := by simp [Hfd.reset]
  nonempty := fun h => absurd rfl h
  prefixFree := .nil

theorem FaultState.Ok.reset : FaultState.Ok .reset := ⟨fun _ => ⟨rfl, rfl, rfl⟩, fun h => by cases h⟩

/-! ## Updates of the state -/

theorem State.Ok.endInstance {s : State} (h : s.Ok) (u : Option FUnit) : (s.endInstance u).Ok := by
  rcases u with _ | u
  · exact h
  cases u
  case ctl => exact h
  case bb => exact h
  case hfe => exact h
  case lze => exact { h with lze := { h.lze with } }
  case lzd => exact { h with lzd := { h.lzd with } }
  case hft => exact { h with hft := { h.hft with loaded := fun h => absurd rfl h, finished := fun h => by cases h } }
  case hfd => exact { h with hfd := { h.hfd with trial := fun h => (by cases h), nonempty := fun h => absurd rfl h } }

theorem State.Ok.send {s : State} (h : s.Ok) (r : Response) : (s.send r).Ok := { h with }

theorem State.Ok.respondOk {s : State} (h : s.Ok) (a : Answer) : (s.respondOk a).Ok := { h with }

theorem State.Ok.takeFault {s : State} (h : s.Ok) (u h' r) : (s.takeFault u h' r).Ok := by
  have := h.endInstance u
  refine { this with fault := ⟨fun h => (by cases h), fun _ => r.code.byte_range⟩, lze := ?_, lzd := ?_, hft := ?_ }
  all_goals simp only [State.takeFault_cfg]
  · have := this.lze; rwa [State.endInstance_cfg] at this
  · have := this.lzd; rwa [State.endInstance_cfg] at this
  · have := this.hft; rwa [State.endInstance_cfg] at this

/-! ## Constructions -/

theorem Lze.Ok.init {cfg : Config} (hv : cfg.Valid) {alpha u} (h : Lze.init cfg alpha = .ok u) : u.Ok cfg := by
  rcases Lze.init_cases (cfg := cfg) (alpha := alpha) with ⟨-, e⟩ | ⟨-, -, e⟩ | ⟨ha, hc, e⟩ <;> rw
    [e] at h <;> cases h
  exact Lze.fresh_ok (Config.Valid.pos hv) ha hc

theorem Lzd.Ok.init {cfg : Config} (hv : cfg.Valid) {alpha input limit u} (h : Lzd.init cfg alpha input limit = .ok u)
    : u.Ok cfg := by
  rcases Lzd.init_cases (cfg := cfg) (alpha := alpha) (input := input) (limit := limit) with ⟨-, e⟩ | ⟨-, -, e⟩ | ⟨-,
    -, -, e⟩ | ⟨ha, hl, hc, e⟩ <;> rw [e] at h <;> cases h
  exact Lzd.fresh_ok hv hl hc

end Sys2Proof.Machine
end

