-- ==== Sys2Proof/Laws/PerInstr.lean ====
section
/-! SUPPORT. Statements for all instructions, one lemma per constructor. -/

namespace Sys2Proof.Laws.HeaderDecodes

/-- The header word of an instruction decodes to its row, with its mode flag and immediate (30_encoding.md R101 to R107). -/
def Statement (i : Instr) : Prop := decodeHeader i.head.word = some i.head

theorem ctlNop : Statement .ctlNop := decodeHeader_word _

theorem ctlReset : Statement .ctlReset := decodeHeader_word _

theorem ctlRead (reg : Reg) : Statement (.ctlRead reg) := decodeHeader_word _

theorem bbNew (ws : List Nat) (n : Nat) : Statement (.bbNew ws n) := decodeHeader_word _

theorem bbUnused (b : BitBuffer) : Statement (.bbUnused b) := decodeHeader_word _

theorem bbAppend (s v : BitBuffer) : Statement (.bbAppend s v) := decodeHeader_word _

theorem bbShiftLeft (b : BitBuffer) : Statement (.bbShiftLeft b) := decodeHeader_word _

theorem bbPushLeadingBit (bit : Bool) (b : BitBuffer) : Statement (.bbPushLeadingBit bit b) := decodeHeader_word _

theorem bbToBytes (b : BitBuffer) : Statement (.bbToBytes b) := decodeHeader_word _

theorem bbFromBytes (bytes : List Byte) : Statement (.bbFromBytes bytes) := decodeHeader_word _

theorem lzeInit (alpha : List Byte) : Statement (.lzeInit alpha) := decodeHeader_word _

theorem lzeSymbol (sym : Byte) : Statement (.lzeSymbol sym) := decodeHeader_word _

theorem lzeFlush : Statement .lzeFlush := decodeHeader_word _

theorem lzeEncode (alpha syms : List Byte) : Statement (.lzeEncode alpha syms) := decodeHeader_word _

theorem lzdInit (alpha input : List Byte) (limit : Option Nat) : Statement (.lzdInit alpha input limit) := decodeHeader_word _

theorem lzdStep : Statement .lzdStep := decodeHeader_word _

theorem lzdDecode (alpha input : List Byte) (limit : Option Nat) : Statement (.lzdDecode alpha input limit) := decodeHeader_word _

theorem hftLoad (freq : List Nat) : Statement (.hftLoad freq) := decodeHeader_word _

theorem hftStep : Statement .hftStep := decodeHeader_word _

theorem hftTable : Statement .hftTable := decodeHeader_word _

theorem hfeEncode (data : List Byte) : Statement (.hfeEncode data) := decodeHeader_word _

theorem hfeHist (data : List Byte) : Statement (.hfeHist data) := decodeHeader_word _

theorem hfdInit (lit : Bool) (container : List Byte) : Statement (.hfdInit lit container) := decodeHeader_word _

theorem hfdStep : Statement .hfdStep := decodeHeader_word _

theorem hfdDecode (lit : Bool) (container : List Byte) : Statement (.hfdDecode lit container) := decodeHeader_word _

end Sys2Proof.Laws.HeaderDecodes
end

