-- ==== Sys2Proof/Laws/Runs.lean ====
section
/-! SUPPORT. Whole commands and sequences of commands: a sequence of symbols, of iterations, of trials or of merges does what the
one command does, and the commands complete. -/

namespace Sys2Proof.Machine

variable {cfg : Config} {wb : Nat}

/-! ## Sequences -/

theorem execAll_cons_next {i : Instr} {is} {s t : State} (h : exec i s = .next t) : execAll
    (i :: is) s = execAll is t := by
  rw [execAll, h]

theorem execAll_append {is js : List Instr} {s t : State} (h : execAll is s = .next t) : execAll
    (is ++ js) s = execAll js t := by
  induction is generalizing s with
  | nil => cases h; rfl
  | cons i is ih =>
    rw [execAll] at h
    rw [List.cons_append, execAll]
    obtain ⟨v, hv⟩ := exec_next i s
    rw [hv] at h ⊢
    exact ih h

theorem execAll_total (is : List Instr) (s : State) : ∃ t, execAll is s = .next t := by
  induction is generalizing s with
  | nil => exact ⟨_, rfl⟩
  | cons i is ih =>
    rw [execAll]
    obtain ⟨v, hv⟩ := exec_next i s
    rw [hv]
    exact ih v

/-- A faulted CORE stays as it is until reset (60_exceptions.md R322, R323). -/
theorem execAll_faulted {is : List Instr} {s t : State} (hi : .ctlReset ∉ is) (hf : s.fault.faulted = true)
    (h : execAll is s = .next t) : t.fault = s.fault := by
  induction is generalizing s with
  | nil => cases h; rfl
  | cons i is ih =>
    rw [execAll] at h
    obtain ⟨v, hv⟩ := exec_next i s
    rw [hv] at h
    have hvf : v.fault = s.fault := by
      rcases exec_cases hv with ⟨e, -⟩ | ⟨r, -, rfl⟩ | ⟨-, rfl⟩ | ⟨hf', -⟩ | ⟨hf', -⟩
      · subst e; simp at hi
      · rfl
      · rfl
      · rw [hf] at hf'; cases hf'
      · rw [hf] at hf'; cases hf'
    rw [ih (by simp at hi; exact hi.2) (by rw [hvf]; exact hf) h, hvf]

/-! ## The LZW encoder -/

def State.atLze (s : State) (v : Lze) (rs : List Response) : State := ⟨s.cfg, s.fault, v, s.lzd, s.hft, s.hfd,
    s.commands, rs⟩

/-- Symbols one by one do what `Lze.feed` does. -/
theorem execAll_symbols {syms : List Byte} : ∀ {s : State}, s.fault.faulted = false → s.lze.live = true →
    (∀ v, s.lze.feed s.cfg syms = .ok v → ∃ rs, execAll (syms.map .lzeSymbol) s = .next (State.atLze s v rs) ∧
      v.live = true) ∧
    (∀ r, s.lze.feed s.cfg syms = .error r → ∃ t, execAll (syms.map .lzeSymbol) s = .next t ∧ t.fault.faulted = true ∧
      t.fault.code = r.code.byte ∧ t.fault.info = r.info) := by
  induction syms with
  | nil => 
    intro s hf hl
    refine ⟨fun v h => ?_, fun r h => (by cases h)⟩
    cases h; exact ⟨_, rfl, hl⟩
  | cons a syms ih =>
    intro s hf hl
    have hexec : ∀ r, s.lze.step s.cfg a = r → exec (.lzeSymbol a) s = command (.lzeSymbol a) s (do
      let (u, emitted) ← r
      .ok (s.withLze u, ⟨if emitted then 0x0001 else 0x0000, .none⟩)) := by
      rintro r rfl
      show command (.lzeSymbol a) s _ = _
      rw [if_pos hl]
    cases hs : s.lze.step s.cfg a with
    | error r =>
      have he := hexec _ hs
      rw [error_bind, command_error hf] at he
      refine ⟨fun v h => (by simp only [Lze.feed, hs] at h; cases h), fun r' h => ?_⟩
      simp only [Lze.feed, hs] at h; cases h
      obtain ⟨t, ht⟩ := execAll_total (syms.map .lzeSymbol) (s.takeFault (some (Head.lzeSymbol a).unit)
        (Head.lzeSymbol a).word r)
      have := execAll_faulted (by simp) (by simp) ht
      refine ⟨t, ?_, by rw [this]; rfl, by rw [this]; rfl, by rw [this]; rfl⟩
      rw [List.map_cons, execAll, he]; exact ht
    | ok x =>
      obtain ⟨w, e⟩ := x
      have he := hexec _ hs
      rw [ok_bind, command_ok hf] at he
      have hlw := (Lze.step_alpha hs).2
      have := ih (s := (s.withLze w).respondOk ⟨if e then 0x0001 else 0x0000, .none⟩) hf
        (by rw [State.respondOk_lze]; exact hlw.trans hl)
      refine ⟨fun v h => ?_, fun r' h => ?_⟩
      · simp only [Lze.feed, hs] at h
        obtain ⟨rs, h1, h2⟩ := this.1 v h
        refine ⟨rs, ?_, h2⟩
        rw [List.map_cons, execAll, he]; exact h1
      · simp only [Lze.feed, hs] at h
        obtain ⟨t, h1, h2⟩ := this.2 r' h
        refine ⟨t, ?_, h2⟩
        rw [List.map_cons, execAll, he]; exact h1

/-- LZE_ENCODE over the alphabet completes. -/
theorem exec_lzeEncode {s : State} (hf : s.fault.faulted = false) (hv : s.cfg.Valid) {alpha syms : List Byte}
    (ha : AlphabetOk alpha)  (hall : ∀ a ∈ syms, a ∈ alpha) 
    (hroom : s.cfg.dictCap = 0 ∨ alpha.length + syms.length ≤ s.cfg.dictCap) :
    ∃ u w p, (Lze.fresh s.cfg alpha).feed s.cfg syms = .ok u ∧ u.flush s.cfg = .ok w ∧ w.Ok s.cfg ∧ exec
      (.lzeEncode alpha syms) s = .next ((s.withLze w).send ⟨0x00000000#32, p⟩) ∧ SendsBB s.cfg.wordBits w.out p := by
  have hw := Config.Valid.pos hv
  have hc : WithinCap s.cfg alpha.length := by rcases hroom with h | h; exact .inl h; exact .inr (by omega)
  have ho := Lze.fresh_ok hw ha hc
  obtain ⟨f1, f2, f3, f4⟩ := Lze.fresh_fields (cfg := s.cfg) hw ha
  have hr : Room s.cfg (Lze.fresh s.cfg alpha) syms.length := by
    unfold Room
    rw [Lze.fresh_dict hw ha, seedEntries_length]; exact hroom
  obtain ⟨v, hfeed, hvo, hvc⟩ := ho.feed_total hw (syms := syms) (.inl f3) (by rw [f2]; exact hall) hr
  obtain ⟨w, hfl⟩ := hvc.flush_total (cfg := s.cfg)
  have henc : exec (.lzeEncode alpha syms) s = command .lzeEncode s (do
    let u ← Lze.init s.cfg alpha
    let u ← u.feed s.cfg syms
    let u ← u.flush s.cfg
    .ok (s.withLze u, ⟨0x0000, .bb u.out⟩)) := rfl
  rw [Lze.init_ok ha hc, ok_bind, hfeed, ok_bind, hfl, ok_bind, command_ok hf] at henc
  exact ⟨v, w, _, hfeed, hfl, hvo.flush hw hfl, henc.trans (congrArg _ (respondOk_eq header_zero)), sendsBB_payload
    (s.withLze w) _⟩

/-! ## The LZW decoder -/

def State.atLzd (s : State) (v : Lzd) (rs : List Response) : State := ⟨s.cfg, s.fault, s.lze, v, s.hft, s.hfd,
    s.commands, rs⟩

theorem execAll_lzd_ended (m : Nat) : ∀ {s : State}, s.fault.faulted = false → s.lzd.mode = .ended → ∃ rs, execAll
    (List.replicate m .lzdStep) s = .next (State.atLzd s s.lzd rs) := by
  induction m with
  | zero => intro s hf hm; exact ⟨s.responses, rfl⟩
  | succ m ih =>
    intro s hf hm
    have he : exec .lzdStep s = .next (s.respondOk ⟨0x0001, .none⟩) := by
      show command .lzdStep s _ = _
      rw [hm, command_ok hf]
    obtain ⟨rs, h⟩ := ih (s := s.respondOk ⟨0x0001, .none⟩) hf hm
    exact ⟨rs, by rw [List.replicate_succ, execAll_cons_next he]; exact h⟩

/-- Iterations one by one do what `Lzd.run` does. -/
theorem execAll_lzd_runs {cfg : Config} (hv : 0 < cfg.wordBits) {u : Lzd} {x : Except Raise Lzd}
    (h : Lzd.Runs cfg u x) : ∀ {s : State} {m : Nat}, s.cfg = cfg → s.lzd = u → s.fault.faulted = false →
    u.mode = .active →
    u.Ok cfg → 0 < u.dict.length → u.measure ≤ m →
    (∀ v, x = .ok v → ∃ rs, execAll (List.replicate m .lzdStep) s = .next (State.atLzd s v rs)) ∧
    (∀ r, x = .error r → ∃ t, execAll (List.replicate m .lzdStep) s = .next t ∧ t.fault.faulted = true ∧
      t.fault.code = r.code.byte ∧ t.fault.info = r.info) := by
  have hexec : ∀ (s : State) r, s.lzd.mode = .active → s.lzd.iterate s.cfg = r → exec .lzdStep s = command .lzdStep s
    (do
      match ← r with
      | (u, none) => .ok (s.withLzd u, ⟨0x0001, .none⟩)
      | (u, some seq) => .ok (s.withLzd u, ⟨0x0000, .bytes seq⟩)) := by
    rintro s r hm rfl
    show command .lzdStep s _ = _
    rw [hm]
    all_goals rfl
  induction h with
  | @fault u r hi =>
    rintro s m rfl rfl hf hm ho hd hle
    have := s.lzd.measure_pos
    obtain ⟨m, rfl⟩ : ∃ k, m = k + 1 := ⟨m - 1, by omega⟩
    have he := hexec s _ hm hi
    rw [error_bind, command_error hf] at he
    refine ⟨fun v h => (by cases h), fun r' h => ?_⟩
    cases h
    obtain ⟨t, ht⟩ := execAll_total (List.replicate m .lzdStep) (s.takeFault
      (some Head.lzdStep.unit) Head.lzdStep.word r)
    have := execAll_faulted (by simp) (by simp) ht
    exact ⟨t, by rw [List.replicate_succ, execAll_cons_next he]; exact ht, by rw [this]; rfl, by rw [this]; rfl, by rw [this]; rfl⟩
  | @done u v hi =>
    rintro s m rfl rfl hf hm ho hd hle
    have := s.lzd.measure_pos
    obtain ⟨m, rfl⟩ : ∃ k, m = k + 1 := ⟨m - 1, by omega⟩
    have he := hexec s _ hm hi
    rw [ok_bind] at he
    replace he := he.trans (command_ok hf _ _)
    refine ⟨fun v' h => ?_, fun r' h => (by cases h)⟩
    cases h
    have hme : v.mode = .ended := Lzd.iterate_none hi
    obtain ⟨rs, h⟩ := execAll_lzd_ended m (s := (s.withLzd v).respondOk ⟨0x0001, .none⟩) hf hme
    exact ⟨rs, by rw [List.replicate_succ, execAll_cons_next he]; exact h⟩
  | @more u v seq x hi hr ih =>
    rintro s m rfl rfl hf hm ho hd hle
    have := s.lzd.measure_pos
    obtain ⟨m, rfl⟩ : ∃ k, m = k + 1 := ⟨m - 1, by omega⟩
    have he := hexec s _ hm hi
    rw [ok_bind] at he
    replace he := he.trans (command_ok hf _ _)
    obtain ⟨hlt, hd'⟩ := ho.measure_lt hd hi
    have := ih (s := (s.withLzd v).respondOk ⟨0x0000, .bytes seq⟩) (m := m) rfl rfl hf
      ((Lzd.iterate_some hi).trans hm) (ho.iterate hv hi) hd' (by omega)
    rw [List.replicate_succ, execAll_cons_next he]
    exact this

/-- LZD_DECODE completes where the loop does. -/
theorem exec_lzdDecode {s : State} (hf : s.fault.faulted = false) (hv : s.cfg.Valid) {alpha input : List Byte}
    {limit : Option Nat} (ha : AlphabetOk alpha) (hl : LimitOk s.cfg input limit) (hc : WithinCap s.cfg alpha.length)
    {w : Lzd} (hr : Lzd.Runs s.cfg (Lzd.fresh s.cfg alpha input limit) (.ok w)) :
    ∃ q, exec (.lzdDecode alpha input limit) s = .next ((s.withLzd w).send ⟨0x00000000#32, q⟩) ∧
      SendsBytes w.out q := by
  have hdec : exec (.lzdDecode alpha input limit) s = command (.lzdDecode limit.isSome) s (do
    let u ← Lzd.init s.cfg alpha input limit
    let u ← Lzd.run s.cfg (u.limit + 2) u
    .ok (s.withLzd u, ⟨0x0000, .bytes u.out⟩)) := rfl
  rcases Lzd.init_cases (cfg := s.cfg) (alpha := alpha) (input := input)
    (limit := limit) with ⟨h, e⟩ | ⟨-, h, e⟩ | ⟨-, -, h, e⟩ | ⟨-, -, -, e⟩
  · exact absurd ha h
  · exact absurd hl h
  · exact absurd hc h
  · have := (Lzd.fresh_runs hv ha hl hc).unique hr
    rw [e, ok_bind, this, ok_bind, command_ok hf] at hdec
    exact ⟨_, hdec.trans (congrArg _ (respondOk_eq header_zero)), sendsBytes_payload (s.withLzd w) _⟩

/-- The bits a decoder without a limit reads: the stream, then its zero padding. -/
theorem cat_inputWords_zeros {cfg : Config} (hv : cfg.Valid) {b : BitBuffer} (hb : StreamOk cfg.wordBits b) :
    (inputWords cfg (bbToBytes cfg.wordBits b)).length = b.words.length ∧
    cat cfg.wordBits (inputWords cfg (bbToBytes cfg.wordBits b)) = sbits cfg.wordBits b ++ List.replicate
      (b.words.length * cfg.wordBits - b.bitCount) false := by
  have hw := Config.Valid.pos hv
  have hcap : b.bitCount ≤ b.words.length * cfg.wordBits := by rw [hb.1]; exact ceilDiv_mul_ge hw
  have hlen : (inputWords cfg (bbToBytes cfg.wordBits b)).length = b.words.length := by
    rw [inputWords, bbFromBytes_words_length, bbToBytes_length hv.2 hcap, hb.1]
    obtain ⟨k, hk⟩ : 8 ∣ cfg.wordBits := Nat.dvd_of_mod_eq_zero hv.2
    have hk8 : cfg.wordBits / 8 = k := by omega
    rw [hk8]
    have h1 := ceilDiv_mul_ge (a := b.bitCount) hw
    have h2 := ceilDiv_mul_lt (a := b.bitCount) hw
    have h3 := ceilDiv_mul_ge (a := b.bitCount) (b := 8) (by decide)
    have h4 := ceilDiv_mul_lt (a := b.bitCount) (b := 8) (by decide)
    rw [hk] at h1 h2
    have e : ceilDiv b.bitCount (8 * k) * (8 * k) = 8 * (ceilDiv b.bitCount (8 * k) * k) := by ring
    rw [hk]
    apply ceilDiv_unique (by omega)
    · omega
    · omega
  refine ⟨hlen, ?_⟩
  have h1 : cat cfg.wordBits (inputWords cfg (bbToBytes cfg.wordBits b)) = sbits cfg.wordBits b ++
    ((cat cfg.wordBits (inputWords cfg (bbToBytes cfg.wordBits b))).drop b.bitCount) := by
    obtain ⟨pad, hp⟩ := cat_inputWords hv b
    rw [hp, List.drop_left' (sbits_length hcap)]
  have hl := congrArg List.length h1
  rw [h1]
  congr 1
  rw [cat_length, hlen, List.length_append, sbits_length hcap] at hl
  have h3 := ceilDiv_mul_ge (a := b.bitCount) (b := 8) (by decide)
  have hS : cat cfg.wordBits b.words = sbits cfg.wordBits b ++ List.replicate
    (b.words.length * cfg.wordBits - b.bitCount) false := by
    have : b.words.length * cfg.wordBits - b.bitCount = unused cfg.wordBits b := rfl
    rw [this, ← hb.2.2, sbits, List.take_append_drop]
  have hz : ∃ z, (cat cfg.wordBits (inputWords cfg (bbToBytes cfg.wordBits b))).drop b.bitCount = List.replicate z
    false := by
    rw [inputWords, cat_bbFromBytes hv.1 hv.2, bitsOfBytes_bbToBytes hv.2, hS, List.take_append,
      List.take_of_length_le (by rw [sbits_length hcap]; omega), List.append_assoc, List.drop_left'
      (sbits_length hcap), List.take_replicate, List.replicate_append_replicate]
    exact ⟨_, rfl⟩
  obtain ⟨z, hz⟩ := hz
  rw [hz] at hl ⊢
  rw [List.length_replicate] at hl
  congr 1
  omega

/-! ## The Huffman tree engine -/

/-- Merges one by one do what `Hft.finish` does. -/
theorem execAll_merges (hv : 0 < wb) : ∀ (n : Nat) {s : State}, s.cfg.wordBits = wb → s.fault.faulted = false →
    s.hft.Ok wb → s.hft.mode = .building → (subtreeIds s.hft.leaves).length = n + 1 →
    ∃ t, execAll (List.replicate n .hftStep) s = .next t ∧ t.responses = s.responses ++ List.replicate n
      ⟨0x00000000#32, []⟩ ∧ t.cfg = s.cfg ∧ t.fault = s.fault ∧
      t.hft.mode = .building ∧ t.hft.merges = s.hft.merges + n ∧ exec .hftStep t = .next
        ((t.withHft { t.hft with mode := .done }).send ⟨0x00000001#32, []⟩) ∧
      ∀ fuel, n < fuel → s.hft.finish wb fuel = { t.hft with mode := .done } := by
  intro n
  induction n with
  | zero =>
    rintro s rfl hf ho hm hn
    have hsel : s.hft.select = none := by
      cases hs : s.hft.select with
      | none => rfl
      | some p =>
        have h1 := merged_subtrees (wb := s.cfg.wordBits) (Hft.select_some (m1 := p.1) (m2 := p.2) hs)
        have h2 := (Hft.select_some (m1 := p.1) (m2 := p.2) hs).mem1
        have : 0 < (idSet (merged s.cfg.wordBits p.1 p.2 s.hft.leaves)).card :=
          Finset.card_pos.2 ⟨_, mem_idSet.2 ⟨_, List.mem_map_of_mem h2, rfl⟩⟩
        rw [← subtreeIds_length] at this
        omega
    have e : s.hft.step s.cfg.wordBits = ({ s.hft with mode := .done }, true) := by
      rcases Hft.step_cases (wb := s.cfg.wordBits) s.hft with ⟨-, e⟩ | ⟨m1, m2, hs, -⟩
      · exact e
      · rw [hsel] at hs; cases hs
    refine ⟨s, rfl, by simp, rfl, rfl, hm, rfl, ?_, ?_⟩
    · have : exec .hftStep s = command .hftStep s (
        let (h, done) := s.hft.step s.cfg.wordBits
        .ok (s.withHft h, ⟨if done then 0x0001 else 0x0000, .none⟩)) := by
        show command .hftStep s _ = _
        rw [hm]
      rw [this, e, command_ok hf]
      exact congrArg _ (respondOk_eq header_one)
    · intro fuel hlt
      obtain ⟨k, rfl⟩ : ∃ k, fuel = k + 1 := ⟨fuel - 1, by omega⟩
      rw [Hft.finish, e]
  | succ n ih =>
    rintro s rfl hf ho hm hn
    rcases Hft.step_cases (wb := s.cfg.wordBits) s.hft with ⟨hs, -⟩ | ⟨m1, m2, hs, e⟩
    · have := ho.select_none (ho.loaded (by rw [hm]; simp)) hs
      omega
    have hsel := Hft.select_some hs
    have h1 := merged_subtrees (wb := s.cfg.wordBits) hsel
    have he : exec .hftStep s = .next
      ((s.withHft { s.hft with leaves := merged s.cfg.wordBits m1 m2 s.hft.leaves, merges := s.hft.merges + 1 }).send
      ⟨0x00000000#32, []⟩) := by
      have : exec .hftStep s = command .hftStep s (
        let (h, done) := s.hft.step s.cfg.wordBits
        .ok (s.withHft h, ⟨if done then 0x0001 else 0x0000, .none⟩)) := by
        show command .hftStep s _ = _
        rw [hm]
      rw [this, e, command_ok hf]
      exact congrArg _ (respondOk_eq header_zero)
    obtain ⟨t, h2, h3, h4, h5, h6, h7, h8, h9⟩ := ih
      (s := (s.withHft
      { s.hft with leaves := merged s.cfg.wordBits m1 m2 s.hft.leaves, merges := s.hft.merges + 1 }).send
      ⟨0x00000000#32, []⟩) rfl hf (ho.merge hv hsel hm) hm (by show (subtreeIds (merged _ _ _ _)).length = _; omega)
    refine ⟨t, by rw [List.replicate_succ, execAll_cons_next he]; exact h2, ?_, h4, h5, h6, ?_, h8, ?_⟩
    · rw [h3, State.send_responses, List.replicate_succ]; simp
    · rw [h7]; show s.hft.merges + 1 + n = _; omega
    · intro fuel hlt
      obtain ⟨k, rfl⟩ : ∃ k, fuel = k + 1 := ⟨fuel - 1, by omega⟩
      rw [Hft.finish, e]
      exact h9 k (by omega)

/-! ## The Huffman codec -/

/-- HFE_ENCODE completes. -/
theorem exec_hfeEncode {s : State} (hf : s.fault.faulted = false) {data : List Byte}
    (hc : ∀ b : Byte, data.count b ≤ 65535) {h : Hft} (ht : TreeOf s.cfg.wordBits (byteCounts data) h) :
   ∃ p, exec (.hfeEncode data) s = .next ((s.withHft h).send ⟨0x00000000#32, p⟩) ∧ SendsBytes
     (encodeFreq (byteCounts data) ++ codewordStream s.cfg.wordBits h data) p := by
  refine ⟨(s.withHft h).payload (.bytes (encodeFreq (byteCounts data) ++ codewordStream s.cfg.wordBits h data)), ?_,
    sendsBytes_payload (s.withHft h) _⟩
  show command .hfeEncode s _ = _
  rw [hist_ok hc, ok_bind, ht.built, ok_bind, command_ok hf]
  exact congrArg _ (respondOk_eq header_zero)

def State.atHfd (s : State) (v : Hfd) (rs : List Response) : State := ⟨s.cfg, s.fault, s.lze, s.lzd, s.hft, v,
    s.commands, rs⟩

theorem execAll_hfd_ended (m : Nat) : ∀ {s : State}, s.fault.faulted = false → s.hfd.mode = .ended → ∃ rs, execAll
    (List.replicate m .hfdStep) s = .next (State.atHfd s s.hfd rs) := by
  induction m with
  | zero => intro s hf hm; exact ⟨s.responses, rfl⟩
  | succ m ih =>
    intro s hf hm
    have he : exec .hfdStep s = .next (s.respondOk ⟨Trial.tag .ended, .none⟩) := by
      show command .hfdStep s _ = _
      rw [hm, command_ok hf]
    obtain ⟨rs, h⟩ := ih (s := s.respondOk ⟨Trial.tag .ended, .none⟩) hf hm
    exact ⟨rs, by rw [List.replicate_succ, execAll_cons_next he]; exact h⟩

/-- Trials one by one do what `Hfd.run` does. -/
theorem execAll_hfd_runs {u : Hfd} {x : Except Raise Hfd} (h : Hfd.Runs u x) : ∀ {s : State} {m : Nat}, s.hfd = u →
    s.fault.faulted = false → u.mode = .active →
    u.Ok → u.measure ≤ m →
    (∀ v, x = .ok v → ∃ rs, execAll (List.replicate m .hfdStep) s = .next (State.atHfd s v rs)) ∧
    (∀ r, x = .error r → ∃ t, execAll (List.replicate m .hfdStep) s = .next t ∧ t.fault.faulted = true ∧
      t.fault.code = r.code.byte ∧ t.fault.info = r.info) := by
  have hexec : ∀ (s : State) r, s.hfd.mode = .active → s.hfd.trialStep = r → exec .hfdStep s = command .hfdStep s (do
      let (u, t) ← r
      .ok (s.withHfd u, ⟨t.tag, .none⟩)) := by
    rintro s r hm rfl
    show command .hfdStep s _ = _
    rw [hm]
  induction h with
  | @fault u r hi =>
    rintro s m rfl hf hm ho hle
    have := ho.measure_pos hm
    obtain ⟨m, rfl⟩ : ∃ k, m = k + 1 := ⟨m - 1, by omega⟩
    have he := hexec s _ hm hi
    rw [error_bind, command_error hf] at he
    refine ⟨fun v h => (by cases h), fun r' h => ?_⟩
    cases h
    obtain ⟨t, ht⟩ := execAll_total (List.replicate m .hfdStep) (s.takeFault
      (some Head.hfdStep.unit) Head.hfdStep.word r)
    have := execAll_faulted (by simp) (by simp) ht
    exact ⟨t, by rw [List.replicate_succ, execAll_cons_next he]; exact ht, by rw [this]; rfl, by rw [this]; rfl, by rw [this]; rfl⟩
  | @done u v hi =>
    rintro s m rfl hf hm ho hle
    have := ho.measure_pos hm
    obtain ⟨m, rfl⟩ : ∃ k, m = k + 1 := ⟨m - 1, by omega⟩
    have he := hexec s _ hm hi
    rw [ok_bind] at he
    replace he := he.trans (command_ok hf _ _)
    refine ⟨fun v' h => ?_, fun r' h => (by cases h)⟩
    cases h
    have hme : v.mode = .ended := by
      rcases Hfd.trialStep_mode hm hi with ⟨-, h⟩ | ⟨h, -⟩
      · exact h
      · exact absurd rfl h
    obtain ⟨rs, h⟩ := execAll_hfd_ended m (s := (s.withHfd v).respondOk ⟨Trial.tag .ended, .none⟩) hf hme
    exact ⟨rs, by rw [List.replicate_succ, execAll_cons_next he]; exact h⟩
  | @more u v t x hi ht hr ih =>
    rintro s m rfl hf hm ho hle
    have := ho.measure_pos hm
    obtain ⟨m, rfl⟩ : ∃ k, m = k + 1 := ⟨m - 1, by omega⟩
    have he := hexec s _ hm hi
    rw [ok_bind] at he
    replace he := he.trans (command_ok hf _ _)
    have hlt := ho.measure_lt hm hi ht
    have hma : v.mode = .active := by
      rcases Hfd.trialStep_mode hm hi with ⟨h, -⟩ | ⟨-, h⟩
      · exact absurd h ht
      · exact h
    have := ih (s := (s.withHfd v).respondOk ⟨t.tag, .none⟩) (m := m) rfl hf hma (ho.trialStep hm hi) (by omega)
    refine ⟨fun w h => ?_, fun r h => ?_⟩
    · obtain ⟨rs, h⟩ := this.1 w h
      exact ⟨rs, by rw [List.replicate_succ, execAll_cons_next he]; exact h⟩
    · obtain ⟨t, h, h2⟩ := this.2 r h
      exact ⟨t, by rw [List.replicate_succ, execAll_cons_next he]; exact h, h2⟩

/-- HFD_DECODE completes where the loop does. -/
theorem exec_hfdDecode {s : State} (hf : s.fault.faulted = false) (hv : s.cfg.Valid) (hwb : s.cfg.wordBits = wb)
    {lit : Bool} {container : List Byte} (hlen : 512 ≤ container.length) {h : Hft}
    (ht : TreeOf wb (containerCounts container) h) {w : Hfd} (hr : Hfd.Runs (Hfd.fresh wb lit container h) (.ok w)) :
    exec (.hfdDecode lit container) s = .next (((s.withHft h).withHfd w).respondOk ⟨0x0000, .bytes w.out⟩) := by
  subst hwb
  have hw := Config.Valid.pos hv
  have hdec : exec (.hfdDecode lit container) s = command (.hfdDecode lit) s (do
    let (u, h) ← Hfd.init s.cfg.wordBits lit container
    let u ← Hfd.run ((u.nbits + 1) * (u.maxlen + 1)) u
    .ok ((s.withHft h).withHfd u, ⟨0x0000, .bytes u.out⟩)) := rfl
  have e : Hfd.init s.cfg.wordBits lit container = .ok (Hfd.fresh s.cfg.wordBits lit container h, h) := by
    rcases Hfd.init_cases hw lit container with ⟨h, -⟩ | ⟨-, h0, -⟩ | ⟨-, -, h', ht', e⟩
    · omega
    · have := (treeOf_of_build hw (by rw [containerCounts_length]) ht.built).1; omega
    · have h1 := ht.built; rw [ht'.built] at h1; cases h1; exact e
  have hrun := (Hfd.fresh_runs hw lit container ht).unique hr
  rw [e, ok_bind] at hdec
  dsimp only at hdec
  rw [hrun, ok_bind, command_ok hf] at hdec
  exact hdec

theorem exec_hfdDecode_send {s : State} (hf : s.fault.faulted = false) (hv : s.cfg.Valid) (hwb : s.cfg.wordBits = wb)
    {lit : Bool} {container : List Byte} (hlen : 512 ≤ container.length) {h : Hft}
    (ht : TreeOf wb (containerCounts container) h) {w : Hfd} (hr : Hfd.Runs (Hfd.fresh wb lit container h) (.ok w)) :
    ∃ q, exec (.hfdDecode lit container) s = .next (((s.withHft h).withHfd w).send ⟨0x00000000#32, q⟩) ∧
      SendsBytes w.out q :=
  ⟨_, (exec_hfdDecode hf hv hwb hlen ht hr).trans (congrArg _ (respondOk_eq header_zero)), sendsBytes_payload
    ((s.withHft h).withHfd w) _⟩

end Sys2Proof.Machine
end

