-- ==== Sys2Proof/Tests/Slice0.lean ====
section
/-! SUPPORT. Tests. Words are written out from the encodings of 30_encoding.md R101 to R105; expected answers are the spec's own
(95_test_vectors.md, by vector name) or worked by hand from the rules named. -/

namespace Sys2Proof.Tests

open Sys2Proof.Machine

-- One theorem at a time: the kernel evaluates each test, and many at once would fill the memory.
set_option Elab.async false

/-! ## Decoding: one word for every row, bit by bit: UNIT OP zeros FLAGS[0] IMM -/

theorem test_word_ctlNop : decodeTableWord 32 0b0000_0000_0000000_0_0000000000000000 = some .ctlNop := by decide
theorem test_word_ctlReset : decodeTableWord 32 0b0000_0001_0000000_0_0000000000000000 = some .ctlReset := by decide
theorem test_word_ctlRead : decodeTableWord 32 0b0000_0010_0000000_0_0000000000100101 = some (.ctlRead .lzdLimit) := by
  decide
theorem test_word_bbNew : decodeTableWord 32 0b0001_0000_0000000_0_0000000000000000 = some (.bbNew [] 0) := by decide
theorem test_word_bbUnused : decodeTableWord 32 0b0001_0001_0000000_0_0000000000000000 = some (.bbUnused ⟨[], 0⟩) := by
  decide
theorem test_word_bbAppend :
    decodeTableWord 32 0b0001_0010_0000000_0_0000000000000000 = some (.bbAppend ⟨[], 0⟩ ⟨[], 0⟩) := by decide
theorem test_word_bbShiftLeft :
    decodeTableWord 32 0b0001_0011_0000000_0_0000000000000000 = some (.bbShiftLeft ⟨[], 0⟩) := by decide
theorem test_word_bbPushLeadingBit :
    decodeTableWord 32 0b0001_0100_0000000_0_0000000000000001 = some (.bbPushLeadingBit true ⟨[], 0⟩) := by decide
theorem test_word_bbToBytes : decodeTableWord 32 0b0001_0101_0000000_0_0000000000000000 = some (.bbToBytes ⟨[], 0⟩) := by
  decide
theorem test_word_bbFromBytes : decodeTableWord 32 0b0001_0110_0000000_0_0000000000000000 = some (.bbFromBytes []) := by
  decide
theorem test_word_lzeInit : decodeTableWord 32 0b0010_0000_0000000_0_0000000000000000 = some (.lzeInit []) := by decide
/-- V-ENC-4: the symbol 'z'. -/
theorem test_word_lzeSymbol : decodeTableWord 32 0b0010_0001_0000000_0_0000000001111010 = some (.lzeSymbol 0x7a) := by
  decide
theorem test_word_lzeFlush : decodeTableWord 32 0b0010_0010_0000000_0_0000000000000000 = some .lzeFlush := by decide
theorem test_word_lzeEncode : decodeTableWord 32 0b0010_0011_0000000_0_0000000000000000 = some (.lzeEncode [] []) := by
  decide
/-- V-ENC-1: LIM = 1. -/
theorem test_word_lzdInit :
    decodeTableWord 32 0b0011_0000_0000000_1_0000000000000000 = some (.lzdInit [] [] (some 0)) := by decide
theorem test_word_lzdStep : decodeTableWord 32 0b0011_0001_0000000_0_0000000000000000 = some .lzdStep := by decide
theorem test_word_lzdDecode :
    decodeTableWord 32 0b0011_0010_0000000_0_0000000000000000 = some (.lzdDecode [] [] none) := by decide
theorem test_word_hftLoad :
    decodeTableWord 32 0b0100_0000_0000000_0_0000000000000000 = some (.hftLoad (List.replicate 256 0)) := by decide +kernel
theorem test_word_hftStep : decodeTableWord 32 0b0100_0001_0000000_0_0000000000000000 = some .hftStep := by decide
theorem test_word_hftTable : decodeTableWord 32 0b0100_0010_0000000_0_0000000000000000 = some .hftTable := by decide
theorem test_word_hfeEncode : decodeTableWord 32 0b0101_0000_0000000_0_0000000000000000 = some (.hfeEncode []) := by decide
theorem test_word_hfeHist : decodeTableWord 32 0b0101_0001_0000000_0_0000000000000000 = some (.hfeHist []) := by decide
theorem test_word_hfdInit : decodeTableWord 32 0b0110_0000_0000000_0_0000000000000000 = some (.hfdInit false []) := by
  decide
theorem test_word_hfdStep : decodeTableWord 32 0b0110_0001_0000000_0_0000000000000000 = some .hfdStep := by decide
/-- V-ENC-2: LIT = 1. -/
theorem test_word_hfdDecode : decodeTableWord 32 0b0110_0010_0000000_1_0000000000000000 = some (.hfdDecode true []) := by
  decide

/-- V-ENC-5 to V-ENC-10, V-CTL-5, V-CTL-6: illegal headers, each of the ways (a) to (f) of R106 among them. -/
theorem test_illegal_headers :
    [0x70000000#32, 0xF0000000#32, 0x03000000#32, 0x17000000#32, 0x24000000#32, 0x33000000#32, 0x43000000#32, 0x52000000#32,
      0x63000000#32, 0x30020000#32, 0x00010000#32, 0x40010000#32, 0x14000002#32, 0x21000100#32, 0x22000001#32,
      0x31000001#32, 0x02000110#32, 0x02000006#32].map decodeHeader = List.replicate 18 none := by decide

/-- V-ENC-16 to V-ENC-19: payloads that do not frame. -/
theorem test_framing :
    decode 64 ⟨0x20000000, bytesBE 8 3 ++ [0x20, 0x61]⟩ = .error (.badOperand .lzeInit 0) ∧
    decode 64 ⟨0x20000000, bytesBE 8 3 ++ [0x20, 0x61, 0x62, 0x00]⟩ = .error (.badOperand .lzeInit 1) ∧
    decode 64 ⟨0x30010000, bytesBE 8 3 ++ [0x20, 0x61, 0x62] ++ bytesBE 8 1 ++ [0x66]⟩
      = .error (.badOperand (.lzdInit true) 2) ∧
    decode 64 ⟨0x00000000, [0x00]⟩ = .error (.badOperand .ctlNop 0) := by decide

/-- A message needs its four header bytes (R100). -/
theorem test_noHeader : decodeBytes 64 [0x00, 0x00, 0x00] = .error .noHeader := by decide

/-! ## WellFormed: an ill-formed term for each check -/

/-- A length field of 64 bits. -/
theorem test_wf_u64 : Instr.wf 64 (.bbNew [] (2 ^ 64)) = false ∧ Instr.wf 64 (.bbNew [] (2 ^ 64 - 1)) = true := by decide
/-- A word of `WB` bits. -/
theorem test_wf_word : Instr.wf 8 (.bbNew [256] 8) = false ∧ Instr.wf 8 (.bbNew [255] 8) = true := by decide
/-- A bit count within the words. -/
theorem test_wf_capacity : Instr.wf 8 (.bbShiftLeft ⟨[0], 9⟩) = false ∧ Instr.wf 8 (.bbShiftLeft ⟨[0], 8⟩) = true := by
  decide
theorem test_wf_bbUnused : Instr.wf 8 (.bbUnused ⟨[], 1⟩) = false := by decide
/-- Each operand is checked. -/
theorem test_wf_bbAppend :
    Instr.wf 8 (.bbAppend ⟨[], 1⟩ ⟨[], 0⟩) = false ∧ Instr.wf 8 (.bbAppend ⟨[], 0⟩ ⟨[], 1⟩) = false := by decide
theorem test_wf_bbPushLeadingBit : Instr.wf 8 (.bbPushLeadingBit true ⟨[0], 9⟩) = false := by decide
theorem test_wf_bbToBytes : Instr.wf 8 (.bbToBytes ⟨[0], 9⟩) = false := by decide
/-- A byte string of fewer than `2^64` bytes, in every command that takes one. -/
theorem test_wf_bytes (bs : List Byte) (h : bs.length = 2 ^ 64) :
    [Instr.bbFromBytes bs, .lzeInit bs, .lzeEncode bs [], .lzeEncode [] bs, .lzdInit bs [] none, .lzdInit [] bs none,
      .lzdDecode bs [] none, .lzdDecode [] bs none, .hfeEncode bs, .hfeHist bs, .hfdInit true bs, .hfdDecode true bs].map
      (Instr.wf 64) = List.replicate 12 false := by
  simp [Instr.wf, bytesWf, fitsU64, h, limitWf]
/-- A limit of 64 bits. -/
theorem test_wf_limit :
    Instr.wf 64 (.lzdInit [0x61] [] (some (2 ^ 64))) = false ∧ Instr.wf 64 (.lzdDecode [0x61] [] (some (2 ^ 64))) = false := by
  decide
/-- 256 counts, each below `2^16`. -/
theorem test_wf_freq :
    Instr.wf 64 (.hftLoad (List.replicate 255 1)) = false ∧ Instr.wf 64 (.hftLoad (65536 :: List.replicate 255 1)) = false ∧
    Instr.wf 64 (.hftLoad (65535 :: List.replicate 255 1)) = true := by decide +kernel

/-! ## Small states -/

/-- The power-on state with the standard parameters, and one with 8-bit words and a bound on dictionaries. -/
abbrev s64 : State := State.powerOn ⟨64, 0⟩
abbrev s8 (dictCap : Nat) : State := State.powerOn ⟨8, dictCap⟩

/-- The last response of an outcome. -/
def reply : Outcome → Option Response
  | .next t => t.responses.getLast?
  | _ => none

/-- The state of an outcome, or `s64`. -/
def after : Outcome → State
  | .next t => t
  | _ => s64

/-- " ab". -/
abbrev spaceAB : List Byte := [0x20, 0x61, 0x62]

/-! ## Instructions -/

/-- V-CTL-1, through a step from reset. -/
theorem test_ctlNop : reply (step (State.reset.withFetchWord 32 0x00000000)) = some ⟨0x00000000, []⟩ := by decide
/-- P4: a faulted CORE refuses it. -/
theorem test_ctlNop_refused : reply (exec .ctlNop (after (exec .lzeFlush s64))) = some ⟨0x02050000, []⟩ := by decide
/-- R75, R121: the bytes of a FAULT response with SEQUENCE_ERROR, RSTATUS first. -/
theorem test_responseBytes : (after (exec .lzeFlush s64)).responses.map responseBytes = [[0x01, 0x05, 0x00, 0x00]] := by
  decide
/-- V-CTL-7. -/
theorem test_ctlReset : after (exec .ctlReset (after (exec .lzeFlush s64)))
    = { s64 with responses := [⟨0x01050000, []⟩, ⟨0x00000000, []⟩] } := by decide
/-- V-CTL-2. -/
theorem test_ctlRead : reply (exec (.ctlRead .cfgWordBits) s64) = some ⟨0x00000000, bytesBE 8 1 ++ bytesBE 8 64⟩ := by decide
/-- P4: STATUS after SEQUENCE_ERROR, read while faulted. -/
theorem test_ctlRead_faulted : reply (exec (.ctlRead .status) (after (exec (.lzeSymbol 0x61) s64)))
    = some ⟨0x00000000, bytesBE 8 1 ++ bytesBE 8 0x501⟩ := by decide
/-- R150: 65 bits need two words, so a zero word goes in front. -/
theorem test_bbNew : reply (exec (.bbNew [5] 65) s64)
    = some ⟨0x00000000, bytesBE 8 65 ++ bytesBE 8 2 ++ bytesBE 8 0 ++ bytesBE 8 5⟩ := by decide
/-- R150: words already wide enough stay as they are, the ones in excess too. -/
theorem test_bbNew_wide : reply (exec (.bbNew [1, 2] 8) s64)
    = some ⟨0x00000000, bytesBE 8 8 ++ bytesBE 8 2 ++ bytesBE 8 1 ++ bytesBE 8 2⟩ := by decide
/-- R141: 128 - 70. -/
theorem test_bbUnused : reply (exec (.bbUnused ⟨[0, 5], 70⟩) s64) = some ⟨0x00000000, bytesBE 8 1 ++ bytesBE 8 58⟩ := by
  decide
/-- R152 at `WB = 8`: "1111111" then "11" is "11111111 1". -/
theorem test_bbAppend : reply (exec (.bbAppend ⟨[0xfe], 7⟩ ⟨[0x03], 2⟩) (s8 0))
    = some ⟨0x00000000, bytesBE 8 9 ++ bytesBE 8 2 ++ [0xff, 0x80]⟩ := by decide
/-- R153: the value 5 in 6 bits of the second word moves to the front. -/
theorem test_bbShiftLeft : reply (exec (.bbShiftLeft ⟨[0, 5], 70⟩) s64)
    = some ⟨0x00000000, bytesBE 8 70 ++ bytesBE 8 2 ++ bytesBE 8 0 ++ bytesBE 8 0x1400000000000000⟩ := by decide +kernel
/-- R154: a full word gets a new one in front. -/
theorem test_bbPushLeadingBit_full : reply (exec (.bbPushLeadingBit true ⟨[0xff], 8⟩) (s8 0))
    = some ⟨0x00000000, bytesBE 8 9 ++ bytesBE 8 2 ++ [0x01, 0xff]⟩ := by decide
/-- R154: a 0 clears the bit at the count, and the bits above it stay. -/
theorem test_bbPushLeadingBit_clear : reply (exec (.bbPushLeadingBit false ⟨[0xfc], 2⟩) (s8 0))
    = some ⟨0x00000000, bytesBE 8 3 ++ bytesBE 8 1 ++ [0xf8]⟩ := by decide
/-- R156: 68 bits are 9 bytes. -/
theorem test_bbToBytes : reply (exec (.bbToBytes ⟨[0xFFFFFFFFFFFFFFFA, 0x5000000000000000], 68⟩) s64)
    = some ⟨0x00000000, bytesBE 8 9 ++ List.replicate 7 0xff ++ [0xfa, 0x50]⟩ := by decide
/-- R157. -/
theorem test_bbFromBytes : reply (exec (.bbFromBytes [0x01, 0x02, 0x03]) s64)
    = some ⟨0x00000000, bytesBE 8 24 ++ bytesBE 8 1 ++ bytesBE 8 0x0102030000000000⟩ := by decide
/-- R170, R171: three seeds, codes 0, 1, 2, width 2. -/
theorem test_lzeInit : (after (exec (.lzeInit spaceAB) s64)).lze
    = { live := true, alpha := spaceAB, dict := [([0x20], 0), ([0x61], 1), ([0x62], 2)], ctr := [3], width := 2,
        phrase := [], out := ⟨[], 0⟩ } := by decide
/-- R113: a repeated byte. -/
theorem test_lzeInit_repeated : (after (exec (.lzeInit [0x61, 0x61]) s64)).fault
    = { faulted := true, code := 0x06, info := 0, cmd := 0x20000000 } := by decide
/-- An encoder with the phrase "a" and the alphabet " ab". -/
abbrev lzeAtA (s : State) : State := after (exec (.lzeSymbol 0x61) (after (exec (.lzeInit spaceAB) s)))
/-- P1, the third command: 'b' after 'a' emits "01" and inserts "ab" = 3. -/
theorem test_lzeSymbol : (after (exec (.lzeSymbol 0x62) (lzeAtA s64))).lze
    = { live := true, alpha := spaceAB, dict := [([0x20], 0), ([0x61], 1), ([0x62], 2), ([0x61, 0x62], 3)], ctr := [4],
        width := 2, phrase := [0x62], out := ⟨[0x4000000000000000], 2⟩ } := by decide +kernel
/-- V-FLT-7: capacity before coverage. -/
theorem test_lzeSymbol_capacity : (after (exec (.lzeSymbol 0x7a) (after (exec (.lzeInit spaceAB) (s8 3))))).fault
    = { faulted := true, code := 0x08, info := 2, cmd := 0x2100007a } := by decide
/-- R176, R182: the phrase "a" is flushed as "01". -/
theorem test_lzeFlush : reply (exec .lzeFlush (lzeAtA s64))
    = some ⟨0x00000000, bytesBE 8 2 ++ bytesBE 8 1 ++ bytesBE 8 0x4000000000000000⟩ := by decide +kernel
/-- P6, X1: "abab" over " ab" is "0110011". -/
theorem test_lzeEncode : reply (exec (.lzeEncode spaceAB [0x61, 0x62, 0x61, 0x62]) s64)
    = some ⟨0x00000000, bytesBE 8 7 ++ bytesBE 8 1 ++ bytesBE 8 0x6600000000000000⟩ := by decide +kernel
/-- P5: "abz" ends in ALPHABET_COVERAGE of 'z'. -/
theorem test_lzeEncode_foreign : (after (exec (.lzeEncode spaceAB [0x61, 0x62, 0x7a]) s64)).fault
    = { faulted := true, code := 0x01, info := 0x7a, cmd := 0x23000000 } := by decide
/-- R200, R210: the decoder before its first iteration. -/
theorem test_lzdInit : (after (exec (.lzdInit [0x61, 0x62] [0x58] (some 8)) (s8 0))).lzd
    = { mode := .active, alpha := [0x61, 0x62], dict := [(0, [0x61]), (1, [0x62])], ctr := [2], width := 1, words := [0x58],
        limit := 8, pos := 0, pending := none, out := [] } := by decide
/-- V-FLT-6: the alphabet before the limit. -/
theorem test_lzdInit_order : (after (exec (.lzdInit [0x61, 0x61] [0x66] (some 65)) s64)).fault
    = { faulted := true, code := 0x06, info := 0, cmd := 0x30010000 } := by decide
/-- The decoder of P2 after its first iteration. -/
abbrev lzdAtA (s : State) : State := after (exec .lzdStep (after (exec (.lzdInit [0x61, 0x62] [0x58] (some 8)) s)))
/-- P2, the third command: the codeword of the entry being made is the pending "a" and its first byte. -/
theorem test_lzdStep_miss : reply (exec .lzdStep (lzdAtA s64)) = some ⟨0x00000000, bytesBE 8 2 ++ [0x61, 0x61]⟩ := by decide +kernel
/-- V-FLT-8: corrupt before capacity. -/
theorem test_lzdStep_corrupt :
    (after (exec .lzdStep (after (exec .lzdStep (after (exec (.lzdInit [0x61, 0x62, 0x63, 0x64, 0x65] [0x1c] (some 6))
      (s8 5))))))).fault = { faulted := true, code := 0x02, info := 7, cmd := 0x31000000 } := by decide
/-- P2 as one command. -/
theorem test_lzdDecode : reply (exec (.lzdDecode [0x61, 0x62] [0x58] (some 8)) s64)
    = some ⟨0x00000000, bytesBE 8 7 ++ List.replicate 7 0x61⟩ := by decide +kernel
/-- P6: without a limit the padding decodes as 14 spaces. -/
theorem test_lzdDecode_padding : reply (exec (.lzdDecode spaceAB [0x66] none) s64)
    = some ⟨0x00000000, bytesBE 8 18 ++ [0x61, 0x62, 0x61, 0x62] ++ List.replicate 14 0x20⟩ := by decide +kernel

/-- The counts 1, 1, 2 of the bytes 0, 1, 2. -/
abbrev freq112 : List Nat := [1, 1, 2] ++ List.replicate 253 0
/-- R231, R232: leaves in rising order of weight, then of byte. -/
theorem test_hftLoad : (after (exec (.hftLoad ([2, 1] ++ List.replicate 253 0 ++ [1])) (s8 0))).hft
    = { mode := .building, total := 4, merges := 0,
        leaves := [⟨⟨[], 0⟩, 1, 1, 1⟩, ⟨⟨[], 0⟩, 255, 255, 1⟩, ⟨⟨[], 0⟩, 0, 0, 2⟩] } := by decide +kernel
/-- R240. -/
theorem test_hftLoad_zeros : (after (exec (.hftLoad (List.replicate 256 0)) s64)).fault
    = { faulted := true, code := 0x03, info := 0, cmd := 0x40000000 } := by decide +kernel
/-- R234, R235: 0 to the lighter subtree (the first on a tie), 1 to the other, which takes the id and the summed weight. -/
theorem test_hftStep : (after (exec .hftStep (after (exec (.hftLoad freq112) (s8 0))))).hft
    = { mode := .building, total := 4, merges := 1,
        leaves := [⟨⟨[0], 1⟩, 0, 0, 2⟩, ⟨⟨[1], 1⟩, 1, 0, 2⟩, ⟨⟨[], 0⟩, 2, 2, 2⟩] } := by decide +kernel
/-- R236, R239: an only leaf weighs the total. -/
theorem test_hftStep_done : reply (exec .hftStep (after (exec (.hftLoad ([3] ++ List.replicate 255 0)) s64)))
    = some ⟨0x00000001, []⟩ := by decide +kernel
/-- R239, R242: the only symbol has the codeword "0", the others ([], 0). -/
theorem test_hftTable :
    (after (exec .hftStep (after (exec (.hftLoad ([3] ++ List.replicate 255 0)) s64)))).hft.table
      = ⟨[0], 1⟩ :: List.replicate 255 ⟨[], 0⟩ ∧
    (reply (exec .hftTable (after (exec .hftStep (after (exec (.hftLoad ([3] ++ List.replicate 255 0)) s64)))))).map
      (fun r => (r.header, r.payload.take 40))
      = some (0x00000000, bytesBE 8 1 ++ bytesBE 8 1 ++ bytesBE 8 0 ++ List.replicate 16 0) := by decide +kernel
/-- P6: x"66" is its table and a byte of one codeword bit. -/
theorem test_hfeEncode : reply (exec (.hfeEncode [0x66]) s64)
    = some ⟨0x00000000, bytesBE 8 513 ++ List.replicate 205 0 ++ [0x01] ++ List.replicate 306 0 ++ [0x00]⟩ := by decide +kernel
/-- R264: the empty buffer. -/
theorem test_hfeEncode_empty : (after (exec (.hfeEncode []) s64)).fault
    = { faulted := true, code := 0x03, info := 0, cmd := 0x50000000 } := by decide +kernel
/-- R260, R262. -/
theorem test_hfeHist : reply (exec (.hfeHist [0x00, 0xff, 0x00]) s64)
    = some ⟨0x00000000, bytesBE 2 2 ++ List.replicate 508 0 ++ bytesBE 2 1⟩ := by decide +kernel

/-- The container of 2, 0, 1, 2: with the codewords "00", "01", "1", the bits "1 00 01 1" and two of padding. -/
abbrev container112 : List Byte := [0, 1, 0, 1, 0, 2] ++ List.replicate 506 0 ++ [0b10001100]
/-- R265, R266. -/
theorem test_hfdInit : (after (exec (.hfdInit false container112) (s8 0))).hfd
    = { mode := .active, lit := false, total := 4, rev := [([false, false], 0), ([false, true], 1), ([true], 2)],
        minlen := 1, maxlen := 2, stream := [0b10001100], nbits := 8, pos := 0, trial := 1, emitted := 0, out := [] } := by
  decide +kernel
/-- V-HFD-8. -/
theorem test_hfdInit_short : (after (exec (.hfdInit false (List.replicate 10 0)) s64)).fault
    = { faulted := true, code := 0x02, info := 10, cmd := 0x60000000 } := by decide
/-- R269: the first bit is the codeword of 2. -/
theorem test_hfdStep : reply (exec .hfdStep (after (exec (.hfdInit false container112) (s8 0))))
    = some ⟨0x00000102, []⟩ := by decide +kernel
/-- V-HFD-15. -/
theorem test_hfdStep_idle : (after (exec .hfdStep s64)).fault
    = { faulted := true, code := 0x05, info := 0x61000000, cmd := 0x61000000 } := by decide
theorem test_hfdDecode : reply (exec (.hfdDecode false container112) (s8 0))
    = some ⟨0x00000000, bytesBE 8 4 ++ [2, 0, 1, 2]⟩ := by decide +kernel
/-- R275: in literal mode the padding "00" is one more symbol. -/
theorem test_hfdDecode_literal : reply (exec (.hfdDecode true container112) (s8 0))
    = some ⟨0x00000000, bytesBE 8 5 ++ [2, 0, 1, 2, 0]⟩ := by decide +kernel

/-- R8: a width that is no multiple of 8. -/
theorem test_step_wordBits : step (State.powerOn ⟨12, 0⟩) = .refused (.wordBits 12) := rfl
/-- V-FLT-5: framing before the sequence check. -/
theorem test_step_framing : (after (step (s64.sendNext ⟨0x21000061, [0x00]⟩))).fault
    = { faulted := true, code := 0x06, info := 0, cmd := 0x21000061 } := by decide

/-! ## Witnesses: for each statement with hypotheses, a state and operands that meet them, with one case for each clause, at
the boundary where the clause has one -/

/-! ### Encoding -/

theorem witness_DecodeOfEncodeIsTheInstruction :
    8 ≤ 8 ∧ 8 % 8 = 0 ∧ Instr.wf 8 (.lzdInit [0x61] [0x66] (some (2 ^ 64 - 1))) = true := by decide

theorem witness_DecodedMessageIsItsEncoding :
    8 ≤ 8 ∧ 8 % 8 = 0 ∧ decode 8 ⟨0x14000001, bytesBE 8 8 ++ bytesBE 8 1 ++ [0xff]⟩
      = .ok (.bbPushLeadingBit true ⟨[0xff], 8⟩) := by decide

theorem witness_IllegalHeadersAreRefused : decodeHeader 0x70000000 = none ∧ s64.fault.faulted = false := by decide

/-- One byte short of the operand; one byte after it; one bit more than the words cover; and a message in a state. -/
theorem witness_PayloadFramingFaults :
    Instr.wf 8 (.bbUnused ⟨[0xff], 8⟩) = true ∧
    Instr.fields 8 (.bbUnused ⟨[0xff], 8⟩) = [] ++ (bytesBE 8 8 ++ bytesBE 8 1 ++ [0xff]) :: [] ∧
    bytesBE 8 8 ++ bytesBE 8 1 <+: bytesBE 8 8 ++ bytesBE 8 1 ++ [0xff] ∧
    bytesBE 8 8 ++ bytesBE 8 1 ≠ bytesBE 8 8 ++ bytesBE 8 1 ++ [0xff] ∧ [0x00#8] ≠ [] ∧
    (Instr.bbUnused ⟨[0xff], 8⟩).head.unit = .bb ∧ (Instr.bbUnused ⟨[0xff], 8⟩).head ≠ .bbNew ∧
    (Instr.bbUnused ⟨[0xff], 8⟩).head ≠ .bbFromBytes ∧ 9 < 2 ^ 64 ∧ wordsWf 8 [0xff] = true ∧ [0xff].length * 8 < 9 ∧
    (s8 0).fault.faulted = false ∧
    decode (s8 0).cfg.wordBits ⟨0x11000000, bytesBE 8 9 ++ bytesBE 8 1 ++ [0xff]⟩ = .error (.badOperand .bbUnused 0) := by
  decide

/-- No symbol, a repeated symbol; and a limit one bit past the input. -/
theorem witness_OperandValueFaults :
    (s8 0).fault.faulted = false ∧ ¬ (1 ≤ ([] : List Byte).length) ∧ ¬ [0x61#8, 0x61#8].Nodup ∧
    (1 ≤ [0x61#8].length ∧ [0x61#8].length ≤ 256 ∧ [0x61#8].Nodup) ∧
    ceilDiv [0x66#8].length ((s8 0).cfg.wordBits / 8) * (s8 0).cfg.wordBits < 9 := by decide

/-! ### The machine -/

/-- A state with one message to send. -/
abbrev sending (s : State) (h : BitVec 32) (payload : List Byte) : State := s.sendNext ⟨h, payload⟩
/-- A faulted state. -/
abbrev faulted64 : State := after (exec .lzeFlush s64)

theorem witness_StepRunsTheDecodedInstruction :
    s64.cfg.Valid ∧ (sending s64 0x21000061 []).commands = ⟨0x21000061, []⟩ :: [] ∧
    decode s64.cfg.wordBits ⟨0x21000061, []⟩ = .ok (.lzeSymbol 0x61) ∧ s64.commands = [] := by decide

theorem witness_WordWidthDecidesWhetherAStepRuns :
    (8 ≤ (s8 0).cfg.wordBits ∧ (s8 0).cfg.wordBits % 8 = 0) ∧
    ¬ (8 ≤ (State.powerOn ⟨0, 0⟩).cfg.wordBits ∧ (State.powerOn ⟨0, 0⟩).cfg.wordBits % 8 = 0) ∧
    ¬ (8 ≤ (State.powerOn ⟨12, 0⟩).cfg.wordBits ∧ (State.powerOn ⟨12, 0⟩).cfg.wordBits % 8 = 0) := by decide

/-- A message answered OK, one answered FAULT, and one answered REFUSED. -/
theorem witness_EveryCommandGetsOneResponse :
    (∃ t, step (sending s64 0x00000000 []) = .next t) ∧ (∃ t, step (sending s64 0x21000061 []) = .next t) ∧
    (∃ t, step (sending faulted64 0x00000000 []) = .next t) := ⟨⟨_, rfl⟩, ⟨_, rfl⟩, ⟨_, rfl⟩⟩

theorem witness_FaultEntryKeepsTheRest :
    ∃ t, step (sending s64 0x21000061 []) = .next t ∧ s64.fault.faulted = false ∧ t.fault.faulted = true :=
  ⟨_, rfl, rfl, rfl⟩

/-- Refused commands, an illegal header, CTL_RESET, and CTL_READ. -/
theorem witness_RefusalWhileFaulted :
    faulted64.cfg.Valid ∧ faulted64.fault.faulted = true ∧
    decodeHeader 0x00000000 ≠ some .ctlReset ∧ (∀ r, decodeHeader 0x00000000 ≠ some (.ctlRead r)) ∧
    decodeHeader 0x02000006 ≠ some .ctlReset ∧ (∀ r, decodeHeader 0x02000006 ≠ some (.ctlRead r)) ∧
    (sending faulted64 0x01000000 []).commands = ⟨0x01000000, []⟩ :: [] ∧
    (sending faulted64 0x02000000 []).commands = ⟨0x02000000#32 + Reg.status.number.setWidth 32, []⟩ :: [] := by
  refine ⟨by decide, by decide, by decide, fun r => ?_, by decide, fun r => ?_, rfl, rfl⟩ <;> cases r <;> decide

theorem witness_OnlyResetLeavesTheFaultedState :
    ∃ t, step (sending faulted64 0x01000000 []) = .next t ∧ faulted64.fault.faulted = true ∧ t.fault.faulted = false :=
  ⟨_, rfl, by decide, rfl⟩

/-- A command that faults, and an illegal header. -/
theorem witness_FaultCodesOfEachCommand :
    (∃ t, step (sending s64 0x21000061 []) = .next t ∧ s64.fault.faulted = false ∧ t.fault.faulted = true) ∧
    (∃ t, step (sending s64 0x70000000 []) = .next t ∧ s64.fault.faulted = false ∧ t.fault.faulted = true) :=
  ⟨⟨_, rfl, rfl, rfl⟩, ⟨_, rfl, rfl, rfl⟩⟩

theorem witness_CommandsWithoutAnInstanceFault :
    s64.fault.faulted = false ∧ s64.lze.live = false ∧ s64.lzd.mode = .idle ∧ s64.hft.mode = .idle ∧ s64.hft.mode ≠ .done ∧
    (after (exec (.hftLoad freq112) (s8 0))).hft.mode ≠ .done ∧ s64.hfd.mode = .idle := by decide +kernel

theorem witness_RegisterMapReads : s64.cfg.Valid ∧ (s8 3).cfg.Valid := by decide

theorem witness_CommandsWriteTheirOwnUnitOnly :
    ∃ t, exec (.lzeInit spaceAB) s64 = .next t ∧ Instr.lzeInit spaceAB ≠ .ctlReset := ⟨_, rfl, by decide⟩

/-- While faulted; entering a fault; and without one. -/
theorem witness_ModesMoveAsListed :
    s64.cfg.Valid ∧ (∃ t, exec .lzdStep faulted64 = .next t) ∧ faulted64.fault.faulted = true ∧
    (∃ t, exec .lzdStep s64 = .next t ∧ t.fault.faulted = true) ∧ s64.fault.faulted = false ∧
    (∃ t, exec .lzdStep (lzdAtA s64) = .next t ∧ t.fault.faulted = false) := by
  refine ⟨by decide, ⟨_, rfl⟩, by decide, ⟨_, rfl, rfl⟩, rfl, ?_⟩
  obtain ⟨t, ht⟩ := exec_next .lzdStep (lzdAtA s64)
  have h : (after (exec .lzdStep (lzdAtA s64))).fault.faulted = false := by decide +kernel
  exact ⟨t, ht, by rwa [ht] at h⟩

/-! ### The BitBuffer unit -/

theorem witness_NopAnswersAndDoesNothing : s64.fault.faulted = false := rfl

/-- Words that hold the count exactly, and words one bit too few. -/
theorem witness_NewPadsAtTheFront : (s8 0).fault.faulted = false ∧ (s8 0).cfg.Valid ∧
    8 ≤ [0xff].length * (s8 0).cfg.wordBits ∧ ¬ 9 ≤ [0xff].length * (s8 0).cfg.wordBits := by decide

theorem witness_UnusedBitsOfABuffer : (s8 0).fault.faulted = false ∧ (s8 0).cfg.Valid ∧
    (BitBuffer.mk [0xff] 8).bitCount + 0 = [0xff].length * (s8 0).cfg.wordBits ∧
    (BitBuffer.mk [0xff] 0).bitCount + 8 = [0xff].length * (s8 0).cfg.wordBits := by decide

/-- Full buffers and empty ones; the same for the other commands of a buffer. -/
theorem witness_AppendConcatenatesBits : (s8 0).fault.faulted = false ∧ (s8 0).cfg.Valid ∧
    (BitBuffer.mk [0xff] 8).bitCount ≤ [0xff].length * (s8 0).cfg.wordBits ∧
    (BitBuffer.mk [] 0).bitCount ≤ ([] : List Nat).length * (s8 0).cfg.wordBits := by decide
theorem witness_ShiftLeftRealignsAValue : (s8 0).fault.faulted = false ∧ (s8 0).cfg.Valid ∧
    (BitBuffer.mk [0, 5] 9).bitCount ≤ [0, 5].length * (s8 0).cfg.wordBits := by decide
theorem witness_PushedBitLeadsTheValue : (s8 0).fault.faulted = false ∧ (s8 0).cfg.Valid ∧
    (BitBuffer.mk [0xff] 8).bitCount ≤ [0xff].length * (s8 0).cfg.wordBits ∧
    (BitBuffer.mk [0xff] 7).bitCount ≤ [0xff].length * (s8 0).cfg.wordBits := by decide
theorem witness_ToBytesSerializesAStream : (s8 0).fault.faulted = false ∧ (s8 0).cfg.Valid ∧
    (BitBuffer.mk [0x66] 7).bitCount ≤ [0x66].length * (s8 0).cfg.wordBits := by decide
theorem witness_FromBytesMakesAStream : (s8 0).fault.faulted = false ∧ (s8 0).cfg.Valid := by decide

/-- A stream that ends inside a byte, and one that does not. -/
theorem witness_SerializationRoundTrips : 8 ≤ 8 ∧ 8 % 8 = 0 ∧ StreamOk 8 ⟨[0x66], 7⟩ ∧ StreamOk 8 ⟨[0x66], 8⟩ := by
  refine ⟨by decide, by decide, ?_, ?_⟩ <;> exact ⟨by decide, by decide, by decide⟩

theorem witness_AppendIsAssociativeOnBits : 8 ≤ 8 ∧ 8 % 8 = 0 ∧
    vbits 8 ⟨[3, 0xff], 10⟩ = sbits 8 (frombits 8 (vbits 8 ⟨[3], 2⟩ ++ vbits 8 ⟨[0xff], 8⟩)) := by decide

/-- All words full, and not. -/
theorem witness_CounterIncrementCarries : 8 ≤ 8 ∧ 8 % 8 = 0 ∧ CounterOk 8 [255, 255] ∧ CounterOk 8 [1, 255] ∧ CounterOk 8 [0] :=
  ⟨by decide, by decide, ⟨by decide, by decide, by decide⟩, ⟨by decide, by decide, by decide⟩,
    ⟨by decide, by decide, by decide⟩⟩

/-! ### The LZW encoder -/

abbrev c8 (dictCap : Nat) : Config := ⟨8, dictCap⟩

/-- An encoder over " ab": new; with the phrase "a"; and with the phrase "z", which is outside the alphabet. -/
abbrev lzeNew (dictCap : Nat) : Lze := Lze.fresh (c8 dictCap) spaceAB
abbrev lzePhraseA (dictCap : Nat) : Lze := { lzeNew dictCap with phrase := [0x61] }
abbrev lzePhraseZ : Lze :=
  { lzePhraseA 0 with
      phrase := [0x7a], dict := (lzePhraseA 0).dict ++ [([0x61, 0x7a], 3)], ctr := [4], out := ⟨[0x40], 2⟩ }

theorem spaceAB_ok : AlphabetOk spaceAB := by decide

theorem lzeNew_ok {dictCap : Nat} (h : WithinCap (c8 dictCap) 3) : (lzeNew dictCap).Ok (c8 dictCap) :=
  Lze.fresh_ok (by show 0 < 8; decide) spaceAB_ok h

theorem lzePhraseA_ok {dictCap : Nat} (h : WithinCap (c8 dictCap) 3)
    (hs : (lzeNew dictCap).step (c8 dictCap) 0x61 = .ok (lzePhraseA dictCap, false)) :
    (lzePhraseA dictCap).Ok (c8 dictCap) := (lzeNew_ok h).step (by show 0 < 8; decide) hs

theorem lzePhraseZ_ok : lzePhraseZ.Ok (c8 0) :=
  (lzePhraseA_ok (.inl rfl) (by decide +kernel)).step (sym := 0x7a) (e := true) (by decide) (by decide +kernel)

theorem allBytes_ok : AlphabetOk ((List.range 256).map (BitVec.ofNat 8)) := by
  refine ⟨by decide +kernel, by decide +kernel, List.Nodup.map_on (fun a ha b hb h => ?_) List.nodup_range⟩
  have := congrArg BitVec.toNat h
  rw [List.mem_range] at ha hb
  simpa [Nat.mod_eq_of_lt ha, Nat.mod_eq_of_lt hb] using this

/-- An alphabet of one symbol, one of 256, and one that fills `DICT_CAP`; and one past it. -/
theorem witness_InitSeedsTheEncoder :
    (s8 3).fault.faulted = false ∧ (s8 3).cfg.Valid ∧ AlphabetOk [0x61] ∧
    AlphabetOk ((List.range 256).map (BitVec.ofNat 8)) ∧ AlphabetOk spaceAB ∧ WithinCap (s8 3).cfg spaceAB.length ∧
    ¬ WithinCap (s8 2).cfg spaceAB.length := by
  refine ⟨by decide, by decide, by decide, allBytes_ok, spaceAB_ok, ?_, ?_⟩ <;> unfold WithinCap <;> decide

/-- A known phrase; an insertion that fills `DICT_CAP`; one past it; and a phrase with a byte outside the alphabet. -/
theorem witness_SymbolStepOfTheEncoder :
    (s8 0).fault.faulted = false ∧ (s8 0).cfg.Valid ∧ (lzeNew 0).live = true ∧
    (lzeNew 0).Ok (c8 0) ∧ (lzeNew 0).phrase ++ [0x61] ∈ (lzeNew 0).dict.map Prod.fst ∧
    (lzePhraseA 4).Ok (c8 4) ∧ (lzePhraseA 4).phrase ++ [0x62] ∉ (lzePhraseA 4).dict.map Prod.fst ∧
    WithinCap (c8 4) ((lzePhraseA 4).dict.length + 1) ∧ ((lzePhraseA 4).phrase, 1) ∈ (lzePhraseA 4).dict ∧
    (lzePhraseA 3).Ok (c8 3) ∧ (lzePhraseA 3).phrase ++ [0x62] ∉ (lzePhraseA 3).dict.map Prod.fst ∧
    ¬ WithinCap (c8 3) ((lzePhraseA 3).dict.length + 1) ∧
    (lzeNew 0).phrase ++ [0x7a] ∉ (lzeNew 0).dict.map Prod.fst ∧ WithinCap (c8 0) ((lzeNew 0).dict.length + 1) ∧
    (lzeNew 0).phrase ∉ (lzeNew 0).dict.map Prod.fst ∧ ((lzeNew 0).phrase ++ [0x7a]).head? = some 0x7a := by
  refine ⟨by decide, by decide, by decide, lzeNew_ok (.inl rfl), by decide, ?_, by decide, .inr (by decide), by decide, ?_,
    by decide, ?_, by decide, .inl rfl, by decide, by decide⟩
  · exact lzePhraseA_ok (.inr (by decide)) (by decide +kernel)
  · exact lzePhraseA_ok (.inr (by decide)) (by decide +kernel)
  · unfold WithinCap; decide

theorem witness_FlushAnswersTheStream :
    (s8 0).fault.faulted = false ∧ (s8 0).cfg.Valid ∧ (lzeNew 0).live = true ∧ (lzePhraseA 0).live = true ∧
    lzePhraseZ.live = true ∧ (lzeNew 0).Ok (c8 0) ∧ (lzeNew 0).phrase = [] ∧
    (lzePhraseA 0).Ok (c8 0) ∧ ((lzePhraseA 0).phrase, 1) ∈ (lzePhraseA 0).dict ∧
    lzePhraseZ.Ok (c8 0) ∧ lzePhraseZ.phrase ∉ lzePhraseZ.dict.map Prod.fst ∧ lzePhraseZ.phrase.head? = some 0x7a :=
  ⟨by decide, by decide, by decide, by decide, by decide, lzeNew_ok (.inl rfl), rfl,
    lzePhraseA_ok (.inl rfl) (by decide +kernel), by decide, lzePhraseZ_ok, by decide, rfl⟩

theorem witness_EncodeIsInitSymbolsFlush : s64.fault.faulted = false := rfl

/-- Two symbols with room for exactly their entries. -/
theorem witness_EncodeOverTheAlphabetCompletes :
    (s8 5).fault.faulted = false ∧ (s8 5).cfg.Valid ∧ AlphabetOk spaceAB ∧ (∀ a ∈ [0x61#8, 0x62#8], a ∈ spaceAB) ∧
    spaceAB.length + [0x61#8, 0x62#8].length ≤ (s8 5).cfg.dictCap := by decide

theorem witness_ForeignByteEndsTheEncoding :
    (s8 6).fault.faulted = false ∧ (s8 6).cfg.Valid ∧ AlphabetOk spaceAB ∧ (∀ a ∈ [0x61#8], a ∈ spaceAB) ∧
    0x7a#8 ∉ spaceAB ∧ spaceAB.length + [0x61#8].length + 2 ≤ (s8 6).cfg.dictCap := by decide

/-! ### The LZW decoder -/

/-- A decoder of the eight bits of x"58" over "ab" (95_test_vectors.md P2): new; after one iteration; and ended. -/
abbrev lzdNew (dictCap : Nat) : Lzd := Lzd.fresh (c8 dictCap) [0x61, 0x62] [0x58] (some 8)
abbrev lzdOne (dictCap : Nat) : Lzd :=
  { lzdNew dictCap with width := 2, pos := 1, pending := some [0x61], out := [0x61] }
/-- A decoder over "abcde" whose next codeword, 7, is past the next entry (V-LZD-16). -/
abbrev lzdFar : Lzd :=
  { Lzd.fresh (c8 0) [0x61, 0x62, 0x63, 0x64, 0x65] [0x1c] (some 6) with
      pos := 3, pending := some [0x61], out := [0x61] }
/-- A decoder over " ab" whose first codeword, 3, is the next entry. -/
abbrev lzdEarly : Lzd := Lzd.fresh (c8 0) spaceAB [0xc0] (some 2)

theorem lzdNew_ok {dictCap : Nat} (h : WithinCap (c8 dictCap) 2) : (lzdNew dictCap).Ok (c8 dictCap) :=
  Lzd.fresh_ok (by show 8 ≤ 8 ∧ 8 % 8 = 0; decide) (fun l hl => by cases hl; show 8 ≤ (inputWords (c8 0) [0x58]).length * 8; decide) h

theorem lzdOne_ok {dictCap : Nat} (h : WithinCap (c8 dictCap) 2)
    (hs : (lzdNew dictCap).iterate (c8 dictCap) = .ok (lzdOne dictCap, some [0x61])) :
    (lzdOne dictCap).Ok (c8 dictCap) := (lzdNew_ok h).iterate (by show 0 < 8; decide) hs

theorem lzdFar_ok : lzdFar.Ok (c8 0) :=
  (Lzd.fresh_ok (cfg := c8 0) (alpha := [0x61, 0x62, 0x63, 0x64, 0x65]) (input := [0x1c]) (limit := some 6) (by decide)
    (fun l hl => by cases hl; decide) (.inl rfl)).iterate (r := some [0x61]) (by decide) (by decide +kernel)

theorem lzdEarly_ok : lzdEarly.Ok (c8 0) :=
  Lzd.fresh_ok (cfg := c8 0) (by decide) (fun l hl => by cases hl; decide) (.inl rfl)

/-- A limit of all the bits; an alphabet that fills `DICT_CAP`, and one past it. -/
theorem witness_InitSeedsTheDecoder :
    (s8 3).fault.faulted = false ∧ (s8 3).cfg.Valid ∧ AlphabetOk spaceAB ∧
    8 ≤ (bbFromBytes (s8 3).cfg.wordBits [0x66]).words.length * (s8 3).cfg.wordBits ∧
    WithinCap (s8 3).cfg spaceAB.length ∧ ¬ WithinCap (s8 2).cfg spaceAB.length := by
  refine ⟨by decide, by decide, spaceAB_ok, by decide, ?_, ?_⟩ <;> unfold WithinCap <;> decide

/-- The next codeword of a decoder. -/
abbrev nextCode (u : Lzd) : Nat := natOf (((cat 8 u.words).drop u.pos).take u.width)

/-- An ended instance; a codeword one bit past the limit; the first codeword; the codeword of the entry being made, with an
insertion that fills `DICT_CAP` and one past it; a codeword past the next entry; and the next entry with none pending. -/
theorem witness_IterationOfTheDecoder :
    (s8 0).fault.faulted = false ∧ (s8 0).cfg.Valid ∧
    ({ lzdNew 0 with mode := .ended } : Lzd).Ok (c8 0) ∧
    ({ lzdNew 0 with limit := 0 } : Lzd).Ok (c8 0) ∧ (0 : Nat) < (lzdNew 0).pos + (lzdNew 0).width ∧
    (lzdNew 0).Ok (c8 0) ∧ (lzdNew 0).mode = .active ∧ (lzdNew 0).pos + (lzdNew 0).width ≤ (lzdNew 0).limit ∧
    (nextCode (lzdNew 0), [0x61#8]) ∈ (lzdNew 0).dict ∧ (lzdNew 0).pending = none ∧
    (lzdOne 3).Ok (c8 3) ∧ (lzdOne 3).pos + (lzdOne 3).width ≤ (lzdOne 3).limit ∧
    nextCode (lzdOne 3) = (lzdOne 3).dict.length ∧ (lzdOne 3).pending = some [0x61] ∧
    WithinCap (c8 3) ((lzdOne 3).dict.length + 1) ∧
    (lzdOne 2).Ok (c8 2) ∧ (lzdOne 2).pending ≠ none ∧ ¬ WithinCap (c8 2) ((lzdOne 2).dict.length + 1) ∧
    lzdFar.Ok (c8 0) ∧ lzdFar.mode = .active ∧ lzdFar.pos + lzdFar.width ≤ lzdFar.limit ∧
    lzdFar.dict.length < nextCode lzdFar ∧
    lzdEarly.Ok (c8 0) ∧ lzdEarly.mode = .active ∧ lzdEarly.pos + lzdEarly.width ≤ lzdEarly.limit ∧
    nextCode lzdEarly = lzdEarly.dict.length ∧ lzdEarly.pending = none := by
  have h0 := lzdNew_ok (dictCap := 0) (.inl rfl)
  refine ⟨by decide, by decide, { h0 with }, { h0 with limit := Nat.zero_le _, pos := le_rfl }, by decide, h0, by decide,
    by decide, by decide, by decide, lzdOne_ok (.inr (by decide)) (by decide +kernel), by decide, by decide, by decide,
    .inr (by decide), lzdOne_ok (.inr (by decide)) (by decide +kernel), by decide, ?_, lzdFar_ok, by decide, by decide,
    by decide, lzdEarly_ok, by decide, by decide, by decide, by decide⟩
  unfold WithinCap; decide

theorem witness_DecodeIsInitAndIterations :
    (s8 0).fault.faulted = false ∧ (s8 0).cfg.Valid ∧
    ceilDiv [0x66#8].length ((s8 0).cfg.wordBits / 8) * (s8 0).cfg.wordBits + 2 ≤ 10 := by decide

/-- A one-symbol alphabet, and room for exactly the entries. -/
theorem witness_LzwRoundTrip :
    (s8 3).fault.faulted = false ∧ (s8 3).cfg.Valid ∧ AlphabetOk [0x61] ∧ (∀ a ∈ [0x61#8, 0x61#8], a ∈ [0x61#8]) ∧
    ([0x61#8].length = 1 → [0x61#8, 0x61#8] ≠ []) ∧ [0x61#8].length + [0x61#8, 0x61#8].length ≤ (s8 3).cfg.dictCap := by
  decide

/-- A one-symbol alphabet, and the empty input over two symbols. -/
theorem witness_DecodingReadsThePadding :
    (s8 0).fault.faulted = false ∧ (s8 0).cfg.Valid ∧ (s8 0).cfg.dictCap = 0 ∧
    [0x61#8].length ≤ 256 ∧ [0x61#8].Nodup ∧ (∀ b ∈ [0x61#8], b ∈ [0x61#8]) ∧ [0x61#8] ≠ [] ∧
    [0x61#8, 0x62#8].length ≤ 256 ∧ [0x61#8, 0x62#8].Nodup ∧ ¬ [0x62#8] = [] := by decide

/-! ### The Huffman tree engine -/

abbrev freqOne : List Nat := [3] ++ List.replicate 255 0

/-- A loaded tree of three leaves, and of one. -/
abbrev hft112 : Hft := Hft.loaded freq112
abbrev hftOne : Hft := Hft.loaded freqOne

theorem hft112_ok : hft112.Ok 8 := Hft.loaded_ok (by decide) (by decide +kernel) (by decide +kernel)
theorem hftOne_ok : hftOne.Ok 8 := Hft.loaded_ok (by decide) (by decide +kernel) (by decide +kernel)

theorem witness_LoadMakesTheLeaves :
    (s8 0).fault.faulted = false ∧ (List.replicate 256 0).length = 256 ∧ (List.replicate 256 0).sum = 0 ∧
    freqOne.length = 256 ∧ 0 < freqOne.sum := by decide +kernel

/-- A finished tree; an only leaf, which weighs the total and is the only subtree; and a merge of two leaves. -/
theorem witness_MergeStepOfTheTree :
    (s8 0).fault.faulted = false ∧ (s8 0).cfg.Valid ∧
    ({ hftOne with mode := .done } : Hft).Ok 8 ∧
    hftOne.Ok 8 ∧ hftOne.mode = .building ∧ (∃ l ∈ hftOne.leaves, l.weight = hftOne.total) ∧
    (∀ l ∈ hftOne.leaves, ∀ m ∈ hftOne.leaves, l.id = m.id) ∧
    hft112.Ok 8 ∧ hft112.mode = .building ∧ (∀ l ∈ hft112.leaves, l.weight ≠ hft112.total) ∧
    hft112.leaves = [] ++ ⟨⟨[], 0⟩, 0, 0, 1⟩ :: [⟨⟨[], 0⟩, 1, 1, 1⟩, ⟨⟨[], 0⟩, 2, 2, 2⟩] ∧
    (∀ l ∈ [Leaf.mk ⟨[], 0⟩ 1 1 1, ⟨⟨[], 0⟩, 2, 2, 2⟩], 1 ≤ l.weight) ∧
    hft112.leaves.filter (fun l => l.id ≠ 0) = [] ++ ⟨⟨[], 0⟩, 1, 1, 1⟩ :: [⟨⟨[], 0⟩, 2, 2, 2⟩] ∧
    (∀ l ∈ [Leaf.mk ⟨[], 0⟩ 2 2 2], 1 ≤ l.weight) := by
  refine ⟨by decide, by decide, { hftOne_ok with loaded := fun _ => by decide +kernel, finished := fun _ => by decide +kernel },
    hftOne_ok, rfl, by decide +kernel, by decide +kernel, hft112_ok, rfl, by decide +kernel, by decide +kernel, by decide,
    by decide +kernel, by decide⟩

theorem witness_TableOfTheTree :
    (s8 0).fault.faulted = false ∧ (s8 0).cfg.Valid ∧ ({ hftOne with mode := .done } : Hft).Ok (s8 0).cfg.wordBits ∧
    ({ hftOne with mode := .done } : Hft).mode = .done :=
  ⟨by decide, by decide, { hftOne_ok with loaded := fun _ => by decide +kernel, finished := fun _ => by decide +kernel }, rfl⟩

/-- No merge, and two. -/
theorem witness_MergesOfATable :
    (s8 0).fault.faulted = false ∧ (s8 0).cfg.Valid ∧ freqOne.length = 256 ∧
    (freqOne.filter (fun n => 0 < n)).length = 0 + 1 ∧ freq112.length = 256 ∧
    (freq112.filter (fun n => 0 < n)).length = 2 + 1 := by decide +kernel

/-- One present byte, and three. -/
theorem witness_TableIsAFullTree :
    8 ≤ 8 ∧ 8 % 8 = 0 ∧ freqOne.length = 256 ∧ (∃ h, buildTree 8 freqOne = .ok h) ∧
    (freqOne.filter (fun n => 0 < n)).length = 1 ∧ (∃ n, freqOne[(0 : Byte).toNat]? = some n ∧ 0 < n) ∧
    freq112.length = 256 ∧ (∃ h, buildTree 8 freq112 = .ok h) ∧ 2 ≤ (freq112.filter (fun n => 0 < n)).length := by
  refine ⟨by decide, by decide, by decide +kernel, ?_, by decide +kernel, ⟨3, by decide +kernel, by decide⟩, by decide +kernel, ?_,
    by decide +kernel⟩
  · obtain ⟨h, ht⟩ := buildTree_treeOf (wb := 8) (f := freqOne) (by decide) (by decide +kernel) (by decide +kernel)
    exact ⟨h, ht.built⟩
  · obtain ⟨h, ht⟩ := buildTree_treeOf (wb := 8) (f := freq112) (by decide) (by decide +kernel) (by decide +kernel)
    exact ⟨h, ht.built⟩

/-! ### The Huffman codec -/

/-- The largest count that fits, and the first that does not. -/
theorem witness_HistogramOfABuffer :
    (s8 0).fault.faulted = false ∧ (∀ b : Byte, (List.replicate 65535 (0x61 : Byte)).count b ≤ 65535) ∧
    65535 < (List.replicate 65536 (0x61 : Byte)).count 0x61 ∧
    (∀ c : Byte, c.toNat < (0x61 : Byte).toNat → (List.replicate 65536 (0x61 : Byte)).count c ≤ 65535) := by
  refine ⟨by decide, fun b => ?_, ?_, fun c hc => ?_⟩
  · exact List.count_le_length.trans (List.length_replicate (n := 65535)).le
  · rw [List.count_replicate_self]; decide
  · rw [List.count_replicate, if_neg]
    · exact Nat.zero_le _
    · intro h
      have : (0x61 : Byte) = c := by simpa using h
      rw [this] at hc
      exact Nat.lt_irrefl _ hc

theorem witness_EncodeMakesAContainer :
    (s8 0).fault.faulted = false ∧ (s8 0).cfg.Valid ∧ (∀ b : Byte, [0x66#8].count b ≤ 65535) ∧ [0x66#8] ≠ [] :=
  ⟨by decide, by decide, fun b => List.count_le_length.trans (by decide), by decide⟩

/-- One byte too few; a table of zeros; and the container of 2, 0, 1, 2. -/
theorem witness_InitBuildsTheReverseTable :
    (s8 0).fault.faulted = false ∧ (s8 0).cfg.Valid ∧ (List.replicate 511 (0 : Byte)).length < 512 ∧
    512 ≤ (List.replicate 512 (0 : Byte)).length ∧
    (List.replicate 256 0).flatMap (bytesBE 2) = (List.replicate 512 (0 : Byte)).take 512 ∧ (List.replicate 256 0).sum = 0 ∧
    512 ≤ container112.length ∧ freq112.length = 256 ∧ freq112.flatMap (bytesBE 2) = container112.take 512 ∧
    (∀ n ∈ freq112, n ≤ 65535) ∧ 0 < freq112.sum := by decide +kernel

/-- Its reverse table. -/
abbrev rev112 : List (Bits × Byte) := [([false, false], 0), ([false, true], 1), ([true], 2)]

/-- The instance of that container with its cursor, trial and output at a given place. -/
abbrev hfdAt (mode : DecoderMode) (lit : Bool) (pos trial : Nat) (out : List Byte) : Hfd :=
  { mode, lit, total := 4, rev := rev112, minlen := 1, maxlen := 2,
    stream := [0b10001100], nbits := 8, pos, trial, emitted := out.length, out }

theorem hfdAt_ok (mode : DecoderMode) (lit : Bool) (pos trial : Nat) (out : List Byte) (h1 : pos ≤ 8) (h2 : out.length ≤ 4)
    (h3 : 1 ≤ trial ∧ trial ≤ 2) : (hfdAt mode lit pos trial out).Ok where
  nbits := rfl
  pos := h1
  emitted := rfl
  counted := fun _ => h2
  trial := fun _ => h3
  lengths := (by decide : ∀ e ∈ rev112, 1 ≤ e.1.length ∧ e.1.length ≤ 2)
  nonempty := fun _ => le_rfl
  prefixFree := (by decide : rev112.Pairwise (fun d e => ¬ d.1 <+: e.1 ∧ ¬ e.1 <+: d.1))

/-- The bits of a trial. -/
abbrev trialOf (u : Hfd) : Bits := ((bitsOfBytes u.stream).drop u.pos).take u.trial

/-- An ended instance; all symbols emitted; a trial one bit past the input, in both modes; a hit of the last bit; a miss; and
a table of the one codeword "0" with a trial that exceeds it, in both modes. -/
theorem witness_TrialOfTheDecoder :
    (s8 0).fault.faulted = false ∧ (hfdAt .ended false 6 1 [2, 0, 1, 2]).Ok ∧
    (hfdAt .active false 6 1 [2, 0, 1, 2]).Ok ∧ (hfdAt .active false 6 1 [2, 0, 1, 2]).emitted = 4 ∧
    (hfdAt .active true 8 1 [2]).Ok ∧ 8 < 8 + 1 ∧ (hfdAt .active false 8 1 [2]).Ok ∧
    (hfdAt .active false 8 1 [2]).emitted ≠ 4 ∧
    (hfdAt .active false 6 2 [2]).Ok ∧ 6 + 2 ≤ 8 ∧
    (trialOf (hfdAt .active false 6 2 [2]), (0 : Byte)) ∈ (hfdAt .active false 6 2 [2]).rev ∧
    (hfdAt .active false 1 1 [2]).Ok ∧
    trialOf (hfdAt .active false 1 1 [2]) ∉ (hfdAt .active false 1 1 [2]).rev.map Prod.fst ∧ 1 + 1 ≤ 2 ∧
    (∀ lit : Bool, ({ hfdAt .active lit 0 1 [] with rev := [([false], 0x7a)], maxlen := 1 } : Hfd).Ok) ∧
    trialOf { hfdAt .active true 0 1 [] with rev := [([false], 0x7a)], maxlen := 1 } ∉ [[false]] ∧ 1 < 1 + 1 := by
  refine ⟨by decide, hfdAt_ok _ _ _ _ _ (by decide) (by decide) (by decide),
    hfdAt_ok _ _ _ _ _ (by decide) (by decide) (by decide), rfl, hfdAt_ok _ _ _ _ _ (by decide) (by decide) (by decide),
    by decide, hfdAt_ok _ _ _ _ _ (by decide) (by decide) (by decide), by decide,
    hfdAt_ok _ _ _ _ _ (by decide) (by decide) (by decide), by decide, by decide,
    hfdAt_ok _ _ _ _ _ (by decide) (by decide) (by decide), by decide, by decide, fun lit => ?_, by decide, by decide⟩
  exact { hfdAt_ok .active lit 0 1 [] (by decide) (by decide) (by decide) with
    trial := fun _ => ⟨le_rfl, le_rfl⟩
    lengths := (by decide : ∀ e ∈ [([false], (0x7a : Byte))], 1 ≤ e.1.length ∧ e.1.length ≤ 1)
    prefixFree := List.pairwise_singleton _ _ }

theorem witness_DecodeIsInitAndTrials :
    (s8 0).fault.faulted = false ∧ (s8 0).cfg.Valid ∧ (8 * (container112.length - 512) + 1) * 256 ≤ 2304 := by decide +kernel

theorem witness_HuffmanRoundTrip :
    s64.fault.faulted = false ∧ s64.cfg.Valid ∧ [0x66#8] ≠ [] ∧ (∀ b : Byte, [0x66#8].count b ≤ 65535) :=
  ⟨by decide, by decide, by decide, fun b => List.count_le_length.trans (by decide)⟩

theorem witness_ExtraBytesAreNotRead :
    (s8 0).fault.faulted = false ∧ (s8 0).cfg.Valid ∧
    ∃ t, exec (.hfdDecode false container112) (s8 0) = .next t ∧ t.fault.faulted = false := by
  refine ⟨by decide, by decide, ?_⟩
  obtain ⟨t, ht⟩ := exec_next (.hfdDecode false container112) (s8 0)
  have h : (after (exec (.hfdDecode false container112) (s8 0))).fault.faulted = false := by decide +kernel
  exact ⟨t, ht, by rwa [ht] at h⟩

theorem witness_LiteralModeNeverFaults :
    (s8 0).fault.faulted = false ∧ (s8 0).cfg.Valid ∧
    512 ≤ (1 :: List.replicate 511 (0 : Byte)).length ∧
    (∃ b ∈ (1 :: List.replicate 511 (0 : Byte)).take 512, b ≠ 0) ∧
    [0x66#8] ≠ [] ∧ (∀ b : Byte, [0x66#8].count b ≤ 65535) :=
  ⟨by decide, by decide, by decide +kernel, ⟨1, List.mem_cons_self .., by decide⟩, by decide,
    fun b => List.count_le_length.trans (by decide)⟩

/-! ### Invariants -/

/-- A step with nothing to send, and one that runs a command. -/
theorem witness_EveryStepKeepsTheInvariant :
    (s8 0).cfg.Valid ∧ (s8 0).Ok ∧ (∃ t, step (s8 0) = .next t) ∧ (sending (s8 0) 0x00000000 []).Ok ∧
    (∃ t, step (sending (s8 0) 0x00000000 []) = .next t) := by
  have h : (s8 0).Ok := ⟨FaultState.Ok.reset, Lze.Ok.reset (by decide), Lzd.Ok.reset, Hft.Ok.reset, Hfd.Ok.reset⟩
  exact ⟨by decide, h, ⟨_, rfl⟩, { h with }, ⟨_, rfl⟩⟩

theorem witness_ResetMeetsTheInvariant : Config.Valid ⟨8, 1⟩ := by decide

end Sys2Proof.Tests
end

section
/-! PROOFS. The scope of a step (00_scope.md R4, R8): one equation for each branch of `step`, and for a message that
decodes. -/

namespace Sys2Proof.Machine

variable {s : State} {m : Message} {ms : List Message} {i : Instr}

/-! ## The branches of a step -/

/-- With no message to send the CORE holds its state (60_exceptions.md R345). -/
theorem step_of_commands_nil (hv : s.cfg.Valid) (hc : s.commands = []) : step s = .next s := by
  simp only [step, if_pos hv, hc]

theorem step_of_commands_cons (hv : s.cfg.Valid) (hc : s.commands = m :: ms) :
    step s = deliver m (s.withCommands ms) := by
  simp only [step, if_pos hv, hc]

/-- A CORE whose Word width the spec gives no meaning is refused, whatever it has to send (00_scope.md R8). -/
theorem step_of_not_valid (hv : ¬ s.cfg.Valid) : step s = .refused (.wordBits s.cfg.wordBits) := if_neg hv

theorem deliver_of_decode_ok (hd : decode s.cfg.wordBits m = .ok i) : deliver m s = exec i s := by
  simp only [deliver, hd]

/-! ## The obligations -/

/-- Settles O9: a CORE of a valid Word width always has a next state (`step_next`), and the guard
of `step` refuses any other. -/
theorem wordWidthDecidesWhetherAStepRuns : Obligations.WordWidthDecidesWhetherAStepRuns :=
  fun _ => ⟨step_next, step_of_not_valid⟩

/-- Settles O8: the step delivers the first message, and taking it leaves the Word width it is decoded at. -/
theorem stepRunsTheDecodedInstruction : Obligations.StepRunsTheDecodedInstruction := by
  intro s hv
  refine ⟨fun m ms i hc hd => ?_, step_of_commands_nil hv⟩
  calc step s = deliver m (s.withCommands ms) := step_of_commands_cons hv hc
    _ = exec i (s.withCommands ms) := deliver_of_decode_ok hd

end Sys2Proof.Machine
end

section
/-! PROOFS. The machine's invariant (10_state.md R52, R53): reset meets it, every command keeps it, and so every step does. -/

namespace Sys2Proof.Machine

variable {s t : State} {hd : Head} {body : Except Raise (State × Answer)}

/-! ## The decoded frequency table -/

/-- A message that decodes frames the operands of its own row. -/
theorem decode_parseOperands {wb : Nat} {m : Message} {i : Instr} (h : decode wb m = .ok i) :
    parseOperands wb i.head m.payload = .ok i := by
  have hh := decode_head h
  cases hp : parseOperands wb i.head m.payload with
  | ok j => rw [(decode_of_header hh).1 j hp] at h; cases h; rfl
  | error n => rw [(decode_of_header hh).2 n hp] at h; cases h

/-- A decoded FREQ operand holds 256 counts (30_encoding.md R110). -/
theorem decode_hftLoad_length {wb : Nat} {m : Message} {f : List Nat} (h : decode wb m = .ok (.hftLoad f)) :
    f.length = 256 := by
  obtain ⟨f', r, hf, he⟩ := operand_ok (decode_parseOperands h)
  obtain ⟨-, hj⟩ := endOfPayload_ok he
  cases hj
  have hw := (parseFreq_eq hf).2
  simp only [freqWf, Bool.and_eq_true, beq_iff_eq] at hw
  exact hw.1

/-! ## Updates of the state that keep the invariant -/

theorem State.Ok.withLze (h : s.Ok) {u : Lze} (hu : u.Ok s.cfg) : (s.withLze u).Ok := { h with lze := hu }

theorem State.Ok.withLzd (h : s.Ok) {u : Lzd} (hu : u.Ok s.cfg) : (s.withLzd u).Ok := { h with lzd := hu }

theorem State.Ok.withHft (h : s.Ok) {u : Hft} (hu : u.Ok s.cfg.wordBits) : (s.withHft u).Ok := { h with hft := hu }

theorem State.Ok.withHfd (h : s.Ok) {u : Hfd} (hu : u.Ok) : (s.withHfd u).Ok := { h with hfd := hu }

theorem State.Ok.withCommands (h : s.Ok) (ms : List Message) : (s.withCommands ms).Ok := { h with }

theorem State.Ok.respondRefused (h : s.Ok) : s.respondRefused.Ok := h.send _

/-- The power-on state meets the invariant. -/
theorem State.Ok.powerOn {cfg : Config} (hv : cfg.Valid) : (State.powerOn cfg).Ok where
  fault := .reset
  lze := .reset (Config.Valid.pos hv)
  lzd := .reset
  hft := .reset
  hfd := .reset

/-- Reset gives the CORE the unit states of power-on, so it restores the invariant from any state. -/
theorem State.resetCore_ok (hv : s.cfg.Valid) : s.resetCore.Ok := { State.Ok.powerOn hv with }

/-! ## What the Huffman constructions and the whole loop build -/

theorem Hft.Ok.load {wb : Nat} (hv : 0 < wb) {f : List Nat} (hf : f.length ≤ 256) {h : Hft} (hl : Hft.load f = .ok h) :
    h.Ok wb := by
  obtain ⟨hs, rfl⟩ := Hft.load_ok hl
  exact Hft.loaded_ok hv hf hs

theorem Hft.Ok.build {wb : Nat} (hv : 0 < wb) {f : List Nat} (hf : f.length ≤ 256) {h : Hft}
    (hb : buildTree wb f = .ok h) : h.Ok wb := (treeOf_of_build hv hf hb).2.ok

theorem Hfd.init_keeps_ok {wb : Nat} (hv : 0 < wb) {lit : Bool} {container : List Byte} {u : Hfd} {h : Hft}
    (e : Hfd.init wb lit container = .ok (u, h)) : u.Ok ∧ h.Ok wb := by
  rcases Hfd.init_cases hv lit container with ⟨-, e'⟩ | ⟨-, -, e'⟩ | ⟨-, -, k, ht, e'⟩ <;> rw [e'] at e <;> cases e
  exact ⟨Hfd.fresh_ok hv lit container ht, ht.ok⟩

/-- HFD_DECODE's fuel is enough, so its loop is a run of trials from what HFD_INIT makes. -/
theorem Hfd.decode_keeps_ok {wb : Nat} (hv : 0 < wb) {lit : Bool} {container : List Byte} {u v : Hfd} {h : Hft}
    (e : Hfd.init wb lit container = .ok (u, h)) (hr : Hfd.run ((u.nbits + 1) * (u.maxlen + 1)) u = .ok v) :
    v.Ok ∧ h.Ok wb := by
  rcases Hfd.init_cases hv lit container with ⟨-, e'⟩ | ⟨-, -, e'⟩ | ⟨-, -, k, ht, e'⟩ <;> rw [e'] at e <;> cases e
  exact ⟨(Hfd.fresh_runs hv lit container ht).ok (Hfd.fresh_ok hv lit container ht) rfl hr, ht.ok⟩

/-! ## The frame of a command -/

/-- A command keeps the invariant where its body does: refusing it and taking a fault always do. -/
theorem State.Ok.command (h : s.Ok) (hb : ∀ u a, body = .ok (u, a) → u.Ok) (ht : command hd s body = .next t) :
    t.Ok := by
  rcases command_cases ht with ⟨-, rfl⟩ | ⟨-, u, a, hu, rfl⟩ | ⟨-, r, -, rfl⟩
  · exact h.respondRefused
  · exact (hb u a hu).respondOk a
  · exact h.takeFault _ _ r

theorem State.Ok.pureCommand (h : s.Ok) {r : Result} (ht : pureCommand hd s r = .next t) : t.Ok :=
  h.command (fun u a e => by cases e; exact h) ht

/-! ## The commands that write a unit's state -/

theorem State.Ok.execLzeInit (h : s.Ok) (hv : s.cfg.Valid) {alpha : List Byte} (ht : execLzeInit alpha s = .next t) :
    t.Ok := by
  refine h.command (fun u a hb => ?_) ht
  obtain ⟨v, hi, e⟩ := bind_ok hb
  cases e
  exact h.withLze (.init hv hi)

theorem State.Ok.execLzeSymbol (h : s.Ok) (hv : s.cfg.Valid) {sym : Byte} (ht : execLzeSymbol sym s = .next t) :
    t.Ok := by
  refine h.command (fun u a hb => ?_) ht
  split at hb
  · obtain ⟨⟨v, emitted⟩, hs, e⟩ := bind_ok hb
    cases e
    exact h.withLze (h.lze.step (Config.Valid.pos hv) hs)
  · cases hb

theorem State.Ok.execLzeFlush (h : s.Ok) (hv : s.cfg.Valid) (ht : execLzeFlush s = .next t) : t.Ok := by
  refine h.command (fun u a hb => ?_) ht
  split at hb
  · obtain ⟨v, hs, e⟩ := bind_ok hb
    cases e
    exact h.withLze (h.lze.flush (Config.Valid.pos hv) hs)
  · cases hb

theorem State.Ok.execLzeEncode (h : s.Ok) (hv : s.cfg.Valid) {alpha syms : List Byte}
    (ht : execLzeEncode alpha syms s = .next t) : t.Ok := by
  refine h.command (fun u a hb => ?_) ht
  obtain ⟨v, hi, hb⟩ := bind_ok hb
  obtain ⟨w, hf, hb⟩ := bind_ok hb
  obtain ⟨x, hx, e⟩ := bind_ok hb
  cases e
  have hw := Config.Valid.pos hv
  exact h.withLze (((Lze.Ok.init hv hi).feed hw hf).flush hw hx)

theorem State.Ok.execLzdInit (h : s.Ok) (hv : s.cfg.Valid) {alpha input : List Byte} {limit : Option Nat}
    (ht : execLzdInit alpha input limit s = .next t) : t.Ok := by
  refine h.command (fun u a hb => ?_) ht
  obtain ⟨v, hi, e⟩ := bind_ok hb
  cases e
  exact h.withLzd (.init hv hi)

theorem State.Ok.execLzdStep (h : s.Ok) (hv : s.cfg.Valid) (ht : execLzdStep s = .next t) : t.Ok := by
  refine h.command (fun u a hb => ?_) ht
  split at hb
  · cases hb
  · cases hb; exact h
  · obtain ⟨⟨v, r⟩, hi, e⟩ := bind_ok hb
    have hv' := h.withLzd (h.lzd.iterate (Config.Valid.pos hv) hi)
    cases r <;> (cases e; exact hv')

theorem State.Ok.execLzdDecode (h : s.Ok) (hv : s.cfg.Valid) {alpha input : List Byte} {limit : Option Nat}
    (ht : execLzdDecode alpha input limit s = .next t) : t.Ok := by
  refine h.command (fun u a hb => ?_) ht
  obtain ⟨v, hi, hb⟩ := bind_ok hb
  obtain ⟨w, hr, e⟩ := bind_ok hb
  cases e
  exact h.withLzd ((Lzd.Ok.init hv hi).run (Config.Valid.pos hv) hr)

theorem State.Ok.execHftLoad (h : s.Ok) (hv : s.cfg.Valid) {f : List Nat} (hf : f.length ≤ 256)
    (ht : execHftLoad f s = .next t) : t.Ok := by
  refine h.command (fun u a hb => ?_) ht
  obtain ⟨k, hl, e⟩ := bind_ok hb
  cases e
  exact h.withHft (.load (Config.Valid.pos hv) hf hl)

theorem State.Ok.execHftStep (h : s.Ok) (hv : s.cfg.Valid) (ht : execHftStep s = .next t) : t.Ok := by
  refine h.command (fun u a hb => ?_) ht
  split at hb
  · cases hb
  · cases hb; exact h
  · rename_i hm
    cases hb
    exact h.withHft (h.hft.step (Config.Valid.pos hv) hm)

theorem State.Ok.execHftTable (h : s.Ok) (ht : execHftTable s = .next t) : t.Ok := by
  refine h.command (fun u a hb => ?_) ht
  split at hb
  · cases hb; exact h
  · cases hb

theorem State.Ok.execHfeEncode (h : s.Ok) (hv : s.cfg.Valid) {data : List Byte} (ht : execHfeEncode data s = .next t) :
    t.Ok := by
  refine h.command (fun u a hb => ?_) ht
  obtain ⟨f, hf, hb⟩ := bind_ok hb
  obtain ⟨k, hk, e⟩ := bind_ok hb
  cases e
  exact h.withHft (.build (Config.Valid.pos hv) (hist_length hf).le hk)

theorem State.Ok.execHfeHist (h : s.Ok) {data : List Byte} (ht : execHfeHist data s = .next t) : t.Ok := by
  refine h.command (fun u a hb => ?_) ht
  obtain ⟨f, -, e⟩ := bind_ok hb
  cases e
  exact h

theorem State.Ok.execHfdInit (h : s.Ok) (hv : s.cfg.Valid) {lit : Bool} {container : List Byte}
    (ht : execHfdInit lit container s = .next t) : t.Ok := by
  refine h.command (fun u a hb => ?_) ht
  obtain ⟨⟨v, k⟩, hi, e⟩ := bind_ok hb
  cases e
  obtain ⟨hv', hk⟩ := Hfd.init_keeps_ok (Config.Valid.pos hv) hi
  exact (h.withHft hk).withHfd hv'

theorem State.Ok.execHfdStep (h : s.Ok) (ht : execHfdStep s = .next t) : t.Ok := by
  refine h.command (fun u a hb => ?_) ht
  split at hb
  · cases hb
  · cases hb; exact h
  · rename_i hm
    obtain ⟨⟨v, r⟩, hs, e⟩ := bind_ok hb
    cases e
    exact h.withHfd (h.hfd.trialStep hm hs)

theorem State.Ok.execHfdDecode (h : s.Ok) (hv : s.cfg.Valid) {lit : Bool} {container : List Byte}
    (ht : execHfdDecode lit container s = .next t) : t.Ok := by
  refine h.command (fun u a hb => ?_) ht
  obtain ⟨⟨v, k⟩, hi, hb⟩ := bind_ok hb
  obtain ⟨w, hr, e⟩ := bind_ok hb
  cases e
  obtain ⟨hw, hk⟩ := Hfd.decode_keeps_ok (Config.Valid.pos hv) hi hr
  exact (h.withHft hk).withHfd hw

/-! ## Every command, every message, every step -/

/-- Every command keeps the invariant; an HFT_LOAD of at most the 256 counts a message carries. -/
theorem State.Ok.exec {i : Instr} (h : s.Ok) (hv : s.cfg.Valid) (hf : ∀ f, i = .hftLoad f → f.length ≤ 256)
    (ht : exec i s = .next t) : t.Ok := by
  cases i with
  | ctlReset => cases ht; exact (State.resetCore_ok hv).respondOk _
  | ctlRead r => cases ht; exact h.respondOk _
  | lzeInit alpha => exact h.execLzeInit hv ht
  | lzeSymbol sym => exact h.execLzeSymbol hv ht
  | lzeFlush => exact h.execLzeFlush hv ht
  | lzeEncode alpha syms => exact h.execLzeEncode hv ht
  | lzdInit alpha input limit => exact h.execLzdInit hv ht
  | lzdStep => exact h.execLzdStep hv ht
  | lzdDecode alpha input limit => exact h.execLzdDecode hv ht
  | hftLoad f => exact h.execHftLoad hv (hf f rfl) ht
  | hftStep => exact h.execHftStep hv ht
  | hftTable => exact h.execHftTable ht
  | hfeEncode data => exact h.execHfeEncode hv ht
  | hfeHist data => exact h.execHfeHist ht
  | hfdInit lit container => exact h.execHfdInit hv ht
  | hfdStep => exact h.execHfdStep ht
  | hfdDecode lit container => exact h.execHfdDecode hv ht
  | _ => exact h.pureCommand ht

theorem State.Ok.rejectMessage (h : s.Ok) (w : BitVec 32) (e : DecodeError) : (s.rejectMessage w e).Ok := by
  rcases rejectMessage_cases s w e with ⟨-, he⟩ | ⟨-, -, he⟩ | ⟨-, hd, n, -, he⟩ <;> rw [he]
  · exact h.respondRefused
  · exact h.takeFault _ _ _
  · exact h.takeFault _ _ _

/-- No command changes the parameters (10_state.md R43). -/
theorem exec_cfg {i : Instr} (ht : exec i s = .next t) : t.cfg = s.cfg := by
  rcases exec_cases ht with ⟨-, rfl⟩ | ⟨r, -, rfl⟩ | ⟨-, rfl⟩ | ⟨-, u, a, hw, rfl⟩ | ⟨-, r, rfl⟩
  · rfl
  · rfl
  · rfl
  · exact hw.frame.2.1
  · exact s.takeFault_cfg _ _ r

theorem rejectMessage_cfg (s : State) (w : BitVec 32) (e : DecodeError) : (s.rejectMessage w e).cfg = s.cfg := by
  rcases rejectMessage_cases s w e with ⟨-, he⟩ | ⟨-, -, he⟩ | ⟨-, hd, n, -, he⟩ <;> rw [he]
  · rfl
  · exact s.takeFault_cfg _ _ _
  · exact s.takeFault_cfg _ _ _

/-- Settles O57: a step holds the state, runs a decoded command or rejects the message, and each keeps the invariant. -/
theorem everyStepKeepsTheInvariant : Obligations.EveryStepKeepsTheInvariant := by
  intro s t hv h hstep
  obtain ⟨-, ⟨-, rfl⟩ | ⟨m, ms, i, -, hd, hx⟩ | ⟨m, ms, e, -, -, rfl⟩⟩ := step_cases hstep
  · exact ⟨h, rfl⟩
  · have hf : ∀ f, i = .hftLoad f → f.length ≤ 256 := by rintro f rfl; exact (decode_hftLoad_length hd).le
    exact ⟨(h.withCommands ms).exec hv hf hx, exec_cfg (s := s.withCommands ms) hx⟩
  · exact ⟨(h.withCommands ms).rejectMessage m.header e, rejectMessage_cfg _ _ _⟩

/-- Settles O58: the reset values of each unit, with any parameters. -/
theorem resetMeetsTheInvariant : Obligations.ResetMeetsTheInvariant :=
  ⟨fun _ hv => .powerOn hv, rfl, .powerOn (by decide), by decide⟩

end Sys2Proof.Machine
end

section
/-! PROOFS. The state (10_state.md): reset values, STATUS, the register map, and the frame of a command. -/

namespace Sys2Proof.Machine

variable {s t u : State} {f : FUnit}

/-- Settles O16: every field of the power-on state, read off its definition. -/
theorem resetValues : Obligations.ResetValues := fun _ => ⟨rfl, rfl, rfl, rfl, rfl, rfl⟩

/-! ## STATUS (R41) -/

/-- The flags of STATUS, from bit 7 down to bit 0. -/
def statusFlags (s : State) : Bits :=
  [decide (s.hfd.mode = .ended), decide (s.hfd.mode = .active), decide (s.hft.mode = .done),
   decide (s.hft.mode = .building), decide (s.lzd.mode = .ended), decide (s.lzd.mode = .active), s.lze.live,
   s.fault.faulted]

theorem natOf_statusFlags_lt (s : State) : natOf (statusFlags s) < 2 ^ 8 := natOf_lt (statusFlags s)

/-- STATUS is FAULT_CODE above the eight flags, and its 16 bits fit. -/
theorem statusWord_toNat (s : State) : (statusWord s).toNat = s.fault.code.toNat * 2 ^ 8 + natOf (statusFlags s) := by
  have hsum : s.fault.code.toNat * 2 ^ 8 + natOf (statusFlags s) < 2 ^ 32 := by
    have := s.fault.code.isLt
    have := natOf_statusFlags_lt s
    omega
  rw [← Nat.mod_eq_of_lt hsum, statusWord, BitVec.toNat_ofNat]
  simp [statusFlags, natOf_cons, Nat.add_assoc]

/-- Bits 7:0 of STATUS are the flags. -/
theorem bitsOf_statusWord (s : State) : bitsOf (statusWord s).toNat 8 = statusFlags s :=
  calc bitsOf (statusWord s).toNat 8
      = bitsOf (natOf (statusFlags s)) 8 :=
        bitsOf_congr (by rw [statusWord_toNat, Nat.mul_comm, Nat.mul_add_mod])
    _ = statusFlags s := bitsOf_natOf (statusFlags s)

theorem statusWord_faultCode (s : State) : (statusWord s).extractLsb' 8 8 = s.fault.code := by
  have := s.fault.code.isLt
  have := natOf_statusFlags_lt s
  apply BitVec.eq_of_toNat_eq
  rw [field_toNat, statusWord_toNat]
  omega

theorem statusWord_high (s : State) : (statusWord s).extractLsb' 16 16 = 0x0000#16 := by
  have := s.fault.code.isLt
  have := natOf_statusFlags_lt s
  apply BitVec.eq_of_toNat_eq
  rw [field_toNat, statusWord_toNat, BitVec.toNat_ofNat]
  omega

theorem statusWord_powerOn (cfg : Config) : statusWord (State.powerOn cfg) = 0x00000000#32 := by
  have hcode : (State.powerOn cfg).fault.code = 0#8 := rfl
  have hflags : statusFlags (State.powerOn cfg) = List.replicate 8 false := rfl
  apply BitVec.eq_of_toNat_eq
  rw [statusWord_toNat, hcode, hflags, natOf_replicate_false]
  rfl

theorem iff_of_eq_decide {b : Bool} {p : Prop} [Decidable p] (h : b = decide p) : b = true ↔ p := by
  rw [h, decide_eq_true_iff]

/-- Settles O18: the low byte is the list of flags, bit by bit, and the two fields above it are FAULT_CODE and zeros. -/
theorem statusBits : Obligations.StatusBits := by
  refine ⟨statusWord_powerOn, fun s => ?_⟩
  have hbits := bitsOf_statusWord s
  simp only [bitsOf, statusFlags, List.cons.injEq, and_true] at hbits
  obtain ⟨h7, h6, h5, h4, h3, h2, h1, h0⟩ := hbits
  exact ⟨h0, h1, iff_of_eq_decide h2, iff_of_eq_decide h3, iff_of_eq_decide h4, iff_of_eq_decide h5,
    iff_of_eq_decide h6, iff_of_eq_decide h7, statusWord_faultCode s, statusWord_high s⟩

/-! ## The register map (R40, R292) -/

/-- CTL_READ answers the register's value as a NAT and changes nothing else. -/
theorem exec_ctlRead_sends (hv : s.cfg.Valid) {r : Reg} {n : Nat} (hn : readReg s r = n) :
    ∃ p, exec (.ctlRead r) s = .next (s.send ⟨0x00000000#32, p⟩) ∧ SendsNat s.cfg.wordBits n p := by
  subst hn
  exact ⟨_, congrArg Host.Outcome.next (respondOk_eq header_zero), sendsNat_payload s (Config.Valid.pos hv) _⟩

/-- The subtrees counted by HFT_SUBTREES, as a set of ids. -/
theorem readReg_hftSubtrees (s : State) :
    readReg s .hftSubtrees = (s.hft.leaves.map (·.id)).toFinset.card := (List.card_toFinset _).symm

/-- Settles O19: each number is its row's, and `readReg` is the value of the row. -/
theorem registerMapReads : Obligations.RegisterMapReads := by
  intro s hv r
  cases r with
  | lzdPendingLen =>
    refine ⟨rfl, exec_ctlRead_sends hv ?_⟩
    show (s.lzd.pending.getD []).length = _
    cases s.lzd.pending <;> rfl
  | hftSubtrees => exact ⟨rfl, exec_ctlRead_sends hv (readReg_hftSubtrees s)⟩
  | hfdLit =>
    refine ⟨rfl, exec_ctlRead_sends hv ?_⟩
    show s.hfd.lit.toNat = _
    cases s.hfd.lit <;> rfl
  | _ => exact ⟨rfl, exec_ctlRead_sends hv rfl⟩

/-! ## The frame of a command (R37, R48, R54) -/

/-- The states of the units other than `f` are the same, and the HFT engine's too unless `f` builds trees. -/
structure OtherUnitsSame (s : State) (f : FUnit) (t : State) : Prop where
  lze : f ≠ .lze → t.lze = s.lze
  lzd : f ≠ .lzd → t.lzd = s.lzd
  hft : f ≠ .hft → f ≠ .hfe → f ≠ .hfd → t.hft = s.hft
  hfd : f ≠ .hfd → t.hfd = s.hfd

theorem OtherUnitsSame.refl (s : State) (f : FUnit) : OtherUnitsSame s f s :=
  ⟨fun _ => rfl, fun _ => rfl, fun _ _ _ => rfl, fun _ => rfl⟩

theorem Wrote.otherUnitsSame (h : Wrote s f u) : OtherUnitsSame s f u := by
  cases f <;> (simp only [Wrote] at h; rw [h]; constructor <;> simp)

theorem State.endInstance_otherUnitsSame (s : State) (f : FUnit) : OtherUnitsSame s f (s.endInstance (some f)) where
  lze := fun h => by simp [State.endInstance_lze, h]
  lzd := fun h => by simp [State.endInstance_lzd, h]
  hft := fun h _ _ => by simp [State.endInstance_hft, h]
  hfd := fun h => by simp [State.endInstance_hfd, h]

/-- Settles O20: a command reads, is refused, completes with its unit's writes, or takes a fault, which touches its unit
alone. -/
theorem commandsWriteTheirOwnUnitOnly : Obligations.CommandsWriteTheirOwnUnitOnly := by
  intro i s t ht hi
  suffices h : OtherUnitsSame s i.head.unit t ∧ t.commands = s.commands ∧
      (∃ r, t.responses = s.responses ++ [r]) ∧
      (t.fault = s.fault ∨ (s.fault.faulted = false ∧ t.fault.faulted = true)) by
    obtain ⟨⟨hlze, hlzd, hhft, hhfd⟩, hcmd, hresp, hfault⟩ := h
    exact ⟨exec_cfg ht, hcmd, hresp, hlze, hlzd, hhft, hhfd, hfault⟩
  rcases exec_cases ht with ⟨hr, -⟩ | ⟨r, -, rfl⟩ | ⟨-, rfl⟩ | ⟨-, u, a, hw, rfl⟩ | ⟨hf, r, rfl⟩
  · exact absurd hr hi
  · exact ⟨{ OtherUnitsSame.refl s _ with }, rfl, ⟨_, rfl⟩, .inl rfl⟩
  · exact ⟨{ OtherUnitsSame.refl s _ with }, rfl, ⟨_, rfl⟩, .inl rfl⟩
  · obtain ⟨hfault, -, hcmd, hresp⟩ := hw.frame
    have hsent := u.respondOk_responses a
    rw [hresp] at hsent
    exact ⟨{ hw.otherUnitsSame with }, hcmd, ⟨_, hsent⟩, .inl hfault⟩
  · exact ⟨{ s.endInstance_otherUnitsSame i.head.unit with }, s.takeFault_commands _ _ _,
      ⟨_, s.takeFault_responses _ _ _⟩, .inr ⟨hf, rfl⟩⟩

end Sys2Proof.Machine
end

section
/-! PROOFS. Memory and byte order (20_memory.md R75): every header and every field goes most significant byte first. -/

namespace Sys2Proof.Machine

/-! ## Headers -/

theorem messageBytes_eq (h : BitVec 32) (p : List Byte) : messageBytes ⟨h, p⟩ =
    [h.extractLsb' 24 8, h.extractLsb' 16 8, h.extractLsb' 8 8, h.extractLsb' 0 8] ++ p :=
  congrArg (· ++ p) (bytesBE_header h)

theorem responseBytes_eq (h : BitVec 32) (p : List Byte) : responseBytes ⟨h, p⟩ =
    [h.extractLsb' 24 8, h.extractLsb' 16 8, h.extractLsb' 8 8, h.extractLsb' 0 8] ++ p :=
  congrArg (· ++ p) (bytesBE_header h)

/-! ## Fields -/

/-- A run of fields of `n` bytes each, as the Words of a WORDS field and the counts of a FREQ field are. -/
theorem flatMap_bytesBE_eq (n : Nat) (vs : List Nat) : vs.flatMap (bytesBE n) =
    vs.flatMap fun v => (List.range n).map fun k => BitVec.ofNat 8 (v / 256 ^ (n - 1 - k)) :=
  congrArg vs.flatMap (funext (bytesBE_eq_map n))

/-- Settles O59: a header's bytes are its four fields of 8 bits and read back to it, and every other field is built of
`bytesBE`, whose bytes are the value's base-256 digits from the front (`bytesBE_eq_map`). -/
theorem portIsBigEndian : Obligations.PortIsBigEndian := by
  unfold Obligations.PortIsBigEndian
  intro bigEndian headerBytes
  have hu64 : ∀ n, encodeU64 n = bigEndian 8 n := bytesBE_eq_map 8
  have hwords : ∀ wb ws, encodeWords wb ws = bigEndian 8 ws.length ++ ws.flatMap (bigEndian (wb / 8)) :=
    fun wb ws => congrArg₂ (· ++ ·) (hu64 ws.length) (flatMap_bytesBE_eq (wb / 8) ws)
  refine ⟨fun h p => ?_, hu64, hwords, fun wb b => congrArg₂ (· ++ ·) (hu64 b.bitCount) (hwords wb b.words),
    fun bs => congrArg (· ++ bs) (hu64 bs.length), flatMap_bytesBE_eq 2⟩
  have hm : messageBytes ⟨h, p⟩ = headerBytes h ++ p := messageBytes_eq h p
  have hr : responseBytes ⟨h, p⟩ = headerBytes h ++ p := responseBytes_eq h p
  exact ⟨hm, hm ▸ messageOfBytes_messageBytes ⟨h, p⟩, hr, hr ▸ responseOfBytes_responseBytes ⟨h, p⟩⟩

end Sys2Proof.Machine
end

section
/-! PROOFS. Operand payloads (30_encoding.md R108 to R112): each operand type is a codec, every row reads its operands one
after another, and so a message decodes exactly when it is an encoding. -/

namespace Sys2Proof.Machine

/-! ## Operand types as codecs (R110) -/

/-- What an operand type is: `p` reads back what `enc` wrote, leaving the bytes after it, and reads nothing else. -/
structure Codec {α : Type} (p : Parser α) (enc : α → List Byte) (wf : α → Bool) : Prop where
  reads : ∀ {a : α}, wf a = true → ∀ r, p (enc a ++ r) = some (a, r)
  wrote : ∀ {bs r : List Byte} {a : α}, p bs = some (a, r) → bs = enc a ++ r ∧ wf a = true

theorem codec_u64 : Codec parseU64 encodeU64 fitsU64 := ⟨parseU64_encode, parseU64_eq⟩

theorem codec_bytes : Codec parseBytes encodeBytes bytesWf := ⟨parseBytes_encode, parseBytes_eq⟩

theorem codec_words {wb : Nat} (h8 : wb % 8 = 0) : Codec (parseWords wb) (encodeWords wb) (wordsWf wb) :=
  ⟨parseWords_encode h8, parseWords_eq h8⟩

theorem codec_bb {wb : Nat} (h8 : wb % 8 = 0) : Codec (parseBB wb) (encodeBB wb) (BitBuffer.wf wb) :=
  ⟨parseBB_encode h8, parseBB_eq h8⟩

theorem codec_freq : Codec parseFreq encodeFreq freqWf := ⟨parseFreq_encode, parseFreq_eq⟩

/-- The limit is there exactly where LIM = 1 (R111). -/
theorem codec_limit (lim : Bool) : Codec (parseLimit lim) encodeLimit fun l => l.isSome == lim && limitWf l where
  reads {l} h r := by
    obtain ⟨hs, hw⟩ := Bool.and_eq_true_iff.1 h
    rw [← eq_of_beq hs]
    exact parseLimit_encode hw r
  wrote h := by
    obtain ⟨hb, hw, hs⟩ := parseLimit_eq h
    exact ⟨hb, by rw [hs, hw, beq_self_eq_true]; rfl⟩

section
variable {α β : Type} {p : Parser α} {enc : α → List Byte} {wf : α → Bool} {n : Nat} {a : α} {bs : List Byte}
  {k : α → List Byte → Except Nat β} {b : β}

/-- A message that ends inside an operand does not parse (R112). -/
theorem Codec.short (hc : Codec p enc wf) (ha : wf a = true) {part : List Byte} (h1 : part <+: enc a)
    (h2 : part ≠ enc a) : p part = none := by
  have hlocal : p.Local := fun bs b r x h => by
    obtain ⟨rfl, hb⟩ := hc.wrote h
    rw [List.append_assoc]
    exact hc.reads hb (r ++ x)
  have hread := hc.reads ha []
  rw [List.append_nil] at hread
  exact hlocal.short hread h1 h2

theorem Codec.operand_enc (hc : Codec p enc wf) (ha : wf a = true) (r : List Byte) :
    operand n p (enc a ++ r) k = k a r := operand_some (hc.reads ha r)

theorem Codec.operand_eq_ok (hc : Codec p enc wf) (h : operand n p bs k = .ok b) :
    ∃ a r, bs = enc a ++ r ∧ wf a = true ∧ k a r = .ok b := by
  obtain ⟨a, r, hp, hk⟩ := operand_ok h
  obtain ⟨hbs, ha⟩ := hc.wrote hp
  exact ⟨a, r, hbs, ha, hk⟩

end

/-! ## The operands of a row, one after another (R111) -/

/-- The parse `f`, whose next operand is number `n`, reads the given fields one after another and ends with `i`. -/
inductive ReadsFields (i : Instr) : Nat → List (List Byte) → (List Byte → Except Nat Instr) → Prop
  | done (n : Nat) : ReadsFields i n [] (endOfPayload n i)
  | field {α : Type} {p : Parser α} {enc : α → List Byte} {wf : α → Bool} {n : Nat} {a : α} {fields : List (List Byte)}
      {k : α → List Byte → Except Nat Instr} (hc : Codec p enc wf) (ha : wf a = true)
      (h : ReadsFields i (n + 1) fields (k a)) : ReadsFields i n (enc a :: fields) fun bs => operand n p bs k

section
variable {i : Instr} {n : Nat} {fields before rest after : List (List Byte)} {f : List Byte → Except Nat Instr}
  {field : List Byte}

/-- The fields in front are read one after another, and the rest are left. -/
theorem ReadsFields.skip (h : ReadsFields i n (before ++ rest) f) :
    ∃ g, ReadsFields i (n + before.length) rest g ∧ ∀ bs, f (before.flatten ++ bs) = g bs := by
  induction before generalizing n f with
  | nil => exact ⟨f, h, fun _ => rfl⟩
  | cons field before ih =>
    cases h with
    | field hc ha h =>
      obtain ⟨g, hg, he⟩ := ih h
      refine ⟨g, by rwa [List.length_cons, ← Nat.add_assoc, Nat.add_right_comm], fun bs => ?_⟩
      rw [List.flatten_cons, List.append_assoc]
      exact (hc.operand_enc ha _).trans (he bs)

/-- What the parse does with the bytes after the last operand. -/
theorem ReadsFields.append (h : ReadsFields i n fields f) (extra : List Byte) :
    f (fields.flatten ++ extra) = endOfPayload (n + fields.length) i extra := by
  rw [← List.append_nil fields] at h
  obtain ⟨g, hg, he⟩ := h.skip
  cases hg
  exact he extra

/-- A message that ends inside an operand (R112). -/
theorem ReadsFields.cut (h : ReadsFields i n (before ++ field :: after) f) {part : List Byte} (h1 : part <+: field)
    (h2 : part ≠ field) : f (before.flatten ++ part) = .error (n + before.length) := by
  obtain ⟨g, hg, he⟩ := h.skip
  rw [he]
  cases hg with
  | field hc ha _ => exact operand_none (hc.short ha h1 h2)

end

/-! ## Every row (R105, R111) -/

/-- The parse of a row reads the fields of each of its well-formed instructions. -/
theorem reads_fields {wb : Nat} (h8 : wb % 8 = 0) {i : Instr} (hw : i.wf wb = true) :
    ReadsFields i 0 (i.fields wb) (parseOperands wb i.head) := by
  have hbytes := codec_bytes
  have hbb := codec_bb h8
  cases i with
  | bbNew ws n =>
    obtain ⟨h1, h2⟩ := Bool.and_eq_true_iff.1 hw
    exact .field (codec_words h8) h1 (.field codec_u64 h2 (.done 2))
  | bbAppend s v =>
    obtain ⟨h1, h2⟩ := Bool.and_eq_true_iff.1 hw
    exact .field hbb h1 (.field hbb h2 (.done 2))
  | bbUnused b | bbShiftLeft b | bbPushLeadingBit _ b | bbToBytes b => exact .field hbb hw (.done 1)
  | lzeEncode alpha syms =>
    obtain ⟨h1, h2⟩ := Bool.and_eq_true_iff.1 hw
    exact .field hbytes h1 (.field hbytes h2 (.done 2))
  | lzdInit alpha input limit | lzdDecode alpha input limit =>
    obtain ⟨h12, h3⟩ := Bool.and_eq_true_iff.1 hw
    obtain ⟨h1, h2⟩ := Bool.and_eq_true_iff.1 h12
    cases limit with
    | none => exact .field hbytes h1 (.field hbytes h2 (.done 2))
    | some l => exact .field hbytes h1 (.field hbytes h2 (.field (codec_limit true) (a := some l) h3 (.done 3)))
  | hftLoad freq => exact .field codec_freq hw (.done 1)
  | bbFromBytes d | lzeInit d | hfeEncode d | hfeHist d | hfdInit _ d | hfdDecode _ d =>
    exact .field hbytes hw (.done 1)
  | ctlNop | ctlReset | ctlRead | lzeSymbol | lzeFlush | lzdStep | hftStep | hftTable | hfdStep => exact .done 0

theorem parseOperands_encodePayload {wb : Nat} (h8 : wb % 8 = 0) {i : Instr} (hw : i.wf wb = true) :
    parseOperands wb i.head (encodePayload wb i) = .ok i := by
  have h := (reads_fields h8 hw).append []
  rwa [List.append_nil] at h

theorem decode_encode {wb : Nat} (h8 : wb % 8 = 0) {i : Instr} (hw : i.wf wb = true) :
    decode wb (encode wb i) = .ok i := decode_word.1 i (parseOperands_encodePayload h8 hw)

section
variable {α β : Type} {p : Parser α} {q : Parser β} {enc : α → List Byte} {enc' : β → List Byte} {wf : α → Bool}
  {wf' : β → Bool} {bs : List Byte} {n : Nat} {i : Instr}

theorem oneOperand_ok (hc : Codec p enc wf) {mk : α → Instr}
    (h : (operand 0 p bs fun a r => endOfPayload n (mk a) r) = .ok i) :
    ∃ a, i = mk a ∧ wf a = true ∧ [enc a].flatten = bs := by
  obtain ⟨a, r, rfl, ha, h⟩ := hc.operand_eq_ok h
  obtain ⟨rfl, rfl⟩ := endOfPayload_ok h
  exact ⟨a, rfl, ha, rfl⟩

theorem twoOperands_ok (hc : Codec p enc wf) (hc' : Codec q enc' wf') {mk : α → β → Instr}
    (h : (operand 0 p bs fun a r => operand 1 q r fun b r => endOfPayload n (mk a b) r) = .ok i) :
    ∃ a b, i = mk a b ∧ (wf a && wf' b) = true ∧ [enc a, enc' b].flatten = bs := by
  obtain ⟨a, r, rfl, ha, h⟩ := hc.operand_eq_ok h
  obtain ⟨b, r, rfl, hb, h⟩ := hc'.operand_eq_ok h
  obtain ⟨rfl, rfl⟩ := endOfPayload_ok h
  exact ⟨a, b, rfl, by rw [ha, hb]; rfl, rfl⟩

/-- The operands of LZD_INIT and LZD_DECODE, with LIM as FLAGS[0] (R103, R111). -/
theorem lzdOperands_ok {lim : Bool} {mk : List Byte → List Byte → Option Nat → Instr}
    (h : (operand 0 parseBytes bs fun a r => operand 1 parseBytes r fun x r => operand 2 (parseLimit lim) r fun l r =>
      endOfPayload n (mk a x l) r) = .ok i) :
    ∃ a x l, i = mk a x l ∧ (bytesWf a && bytesWf x && limitWf l) = true ∧
      encodeBytes a ++ (encodeBytes x ++ encodeLimit l) = bs := by
  obtain ⟨a, r, rfl, ha, h⟩ := codec_bytes.operand_eq_ok h
  obtain ⟨x, r, rfl, hx, h⟩ := codec_bytes.operand_eq_ok h
  obtain ⟨l, r, rfl, hl, h⟩ := (codec_limit lim).operand_eq_ok h
  obtain ⟨rfl, rfl⟩ := endOfPayload_ok h
  exact ⟨a, x, l, rfl, by rw [ha, hx, (Bool.and_eq_true_iff.1 hl).2]; rfl, by rw [List.append_nil]⟩

end

/-- What a row's parse accepts is the payload of a well-formed instruction: no byte is dropped (R110 to R112). -/
theorem parseOperands_ok {wb : Nat} (h8 : wb % 8 = 0) {hd : Head} {bs : List Byte} {i : Instr}
    (h : parseOperands wb hd bs = .ok i) : i.wf wb = true ∧ encodePayload wb i = bs := by
  cases hd with
  | bbNew =>
    obtain ⟨ws, n, rfl, hw, hb⟩ := twoOperands_ok (codec_words h8) codec_u64 h
    exact ⟨hw, hb⟩
  | bbAppend =>
    obtain ⟨s, v, rfl, hw, hb⟩ := twoOperands_ok (codec_bb h8) (codec_bb h8) h
    exact ⟨hw, hb⟩
  | bbUnused | bbShiftLeft | bbPushLeadingBit | bbToBytes =>
    obtain ⟨b, rfl, hw, hb⟩ := oneOperand_ok (codec_bb h8) h
    exact ⟨hw, hb⟩
  | lzeEncode =>
    obtain ⟨a, x, rfl, hw, hb⟩ := twoOperands_ok codec_bytes codec_bytes h
    exact ⟨hw, hb⟩
  | lzdInit lim =>
    obtain ⟨a, x, l, rfl, hw, hb⟩ := lzdOperands_ok h
    exact ⟨hw, (encodePayload_lzdInit wb a x l).trans hb⟩
  | lzdDecode lim =>
    obtain ⟨a, x, l, rfl, hw, hb⟩ := lzdOperands_ok h
    exact ⟨hw, (encodePayload_lzdDecode wb a x l).trans hb⟩
  | hftLoad =>
    obtain ⟨f, rfl, hw, hb⟩ := oneOperand_ok codec_freq h
    exact ⟨hw, hb⟩
  | bbFromBytes | lzeInit | hfeEncode | hfeHist | hfdInit | hfdDecode =>
    obtain ⟨d, rfl, hw, hb⟩ := oneOperand_ok codec_bytes h
    exact ⟨hw, hb⟩
  | ctlNop | ctlReset | ctlRead | lzeSymbol | lzeFlush | lzdStep | hftStep | hftTable | hfdStep =>
    obtain ⟨rfl, rfl⟩ := endOfPayload_ok h
    exact ⟨rfl, rfl⟩

/-! ## The obligations -/

/-- Settles O1: a row reads back the fields of its instruction, and a message is read back from its bytes. -/
theorem decodeOfEncodeIsTheInstruction : Obligations.DecodeOfEncodeIsTheInstruction :=
  fun _ _ h8 _ hw => ⟨decode_encode h8 hw, decodeBytes_message (decode_encode h8 hw)⟩

/-- Settles O2: the header is its row's word, and the payload is what the row's parse accepts. -/
theorem decodedMessageIsItsEncoding : Obligations.DecodedMessageIsItsEncoding := by
  intro wb _ h8 m i h
  have hheader : i.head.word = m.header := decodeHeader_eq (decode_head h)
  obtain ⟨hw, hpayload⟩ := parseOperands_ok h8 (decode_parseOperands h)
  exact ⟨hw, congrArg₂ Message.mk hheader hpayload⟩

end Sys2Proof.Machine
end

section
/-! PROOFS. What a message selects (30_encoding.md R105, R106, R112): the opcode map, the illegal headers, and the payloads
that do not frame. -/

namespace Sys2Proof.Machine

variable {s : State} {m : Message} {h : BitVec 32} {hd : Head}

/-! ## The opcode map (R105) -/

/-- A header decodes to a row exactly when it is the row's word. -/
theorem decodeHeader_iff {w : BitVec 32} (hw : hd.word = w) : decodeHeader h = some hd ↔ h = w :=
  ⟨fun e => (decodeHeader_eq e).symm.trans hw, fun e => by rw [e, ← hw, decodeHeader_word]⟩

/-- Settles O3: the word of each row is the one R105 gives. -/
theorem opcodeMapHeaders : Obligations.OpcodeMapHeaders := fun _ =>
  ⟨decodeHeader_iff word_ctlNop, decodeHeader_iff word_ctlReset, fun r => decodeHeader_iff (word_ctlRead r),
    decodeHeader_iff word_bbNew, decodeHeader_iff word_bbUnused, decodeHeader_iff word_bbAppend,
    decodeHeader_iff word_bbShiftLeft, fun b => decodeHeader_iff (word_bbPushLeadingBit b),
    decodeHeader_iff word_bbToBytes, decodeHeader_iff word_bbFromBytes, decodeHeader_iff word_lzeInit,
    fun ss => decodeHeader_iff (word_lzeSymbol ss), decodeHeader_iff word_lzeFlush, decodeHeader_iff word_lzeEncode,
    fun f => decodeHeader_iff (word_lzdInit f), decodeHeader_iff word_lzdStep,
    fun f => decodeHeader_iff (word_lzdDecode f), decodeHeader_iff word_hftLoad, decodeHeader_iff word_hftStep,
    decodeHeader_iff word_hftTable, decodeHeader_iff word_hfeEncode, decodeHeader_iff word_hfeHist,
    fun f => decodeHeader_iff (word_hfdInit f), decodeHeader_iff word_hfdStep,
    fun f => decodeHeader_iff (word_hfdDecode f)⟩

/-- Settles O5: the words written out are evaluated. -/
theorem headerWordsOfTheSpecDecode : Obligations.HeaderWordsOfTheSpecDecode := by
  unfold Obligations.HeaderWordsOfTheSpecDecode
  decide

/-! ## Illegal headers (R106) -/

/-- R106 (a) and (b): no row has the opcode. -/
def OpcodeUnassigned (unit op : Nat) : Prop :=
  7 ≤ unit ∨ (unit = 0 ∧ 3 ≤ op) ∨ (unit = 1 ∧ 7 ≤ op) ∨ (unit = 2 ∧ 4 ≤ op) ∨ (unit = 3 ∧ 3 ≤ op) ∨
    (unit = 4 ∧ 3 ≤ op) ∨ (unit = 5 ∧ 2 ≤ op) ∨ (unit = 6 ∧ 3 ≤ op)

/-- R106 (e): IMM has a bit the row does not use. -/
def ImmIllegal (unit op : Nat) (imm : BitVec 16) : Prop :=
  if (unit = 0 ∧ op = 2) ∨ (unit = 2 ∧ op = 1) then imm.extractLsb' 8 8 ≠ 0#8
  else if unit = 1 ∧ op = 4 then imm.extractLsb' 1 15 ≠ 0#15
  else imm ≠ 0#16

/-- The fields of a header select no row exactly in the ways (a), (b), (d), (e) and (f) of R106. -/
theorem decodeFields_eq_none_iff (code : Nat) (f : Bool) (imm : BitVec 16) : decodeFields code f imm = none ↔
    OpcodeUnassigned (code / 16) (code % 16) ∨
    (f = true ∧ ¬ ((code / 16 = 3 ∨ code / 16 = 6) ∧ (code % 16 = 0 ∨ code % 16 = 2))) ∨
    ImmIllegal (code / 16) (code % 16) imm ∨
    (code / 16 = 0 ∧ code % 16 = 2 ∧ (regOfNumber (imm.extractLsb' 0 8)).map Head.ctlRead = none) := by
  unfold decodeFields
  split
  case h_26 =>
    have hu : OpcodeUnassigned (code / 16) (code % 16) := by
      simp only [imp_false] at *
      rcases Nat.lt_or_ge (code / 16) 7 with hlt | hge
      · interval_cases hq : code / 16 <;> simp [OpcodeUnassigned] <;> omega
      · exact .inl hge
    simp [hu]
  all_goals simp [plainRow_none, modeRow_none, byteRow_none, bitRow_none, OpcodeUnassigned, ImmIllegal]

theorem opcode_div (h : BitVec 32) : (h.extractLsb' 24 8).toNat / 16 = (h.extractLsb' 28 4).toNat := by
  rw [field_toNat, field_toNat]
  omega

theorem opcode_mod (h : BitVec 32) : (h.extractLsb' 24 8).toNat % 16 = (h.extractLsb' 24 4).toNat := by
  rw [field_toNat, field_toNat]
  omega

theorem imm_extract (h : BitVec 32) (s n : Nat) (hs : s + n ≤ 16) :
    (h.extractLsb' 0 16).extractLsb' s n = h.extractLsb' s n := by
  ext i hi
  simp
  omega

theorem decodeHeader_eq_none_iff : decodeHeader h = none ↔ h.extractLsb' 17 7 ≠ 0#7 ∨
    decodeFields (h.extractLsb' 24 8).toNat (h.getLsbD 16) (h.extractLsb' 0 16) = none := by
  unfold decodeHeader
  by_cases hz : h.extractLsb' 17 7 = 0#7 <;> simp [hz]

/-! ## Messages that are no instruction (60_exceptions.md R314) -/

theorem header_fault4 : responseHeader 0x01 0x04#8 0x0000 = 0x01040000#32 := by decide

theorem deliver_of_decode_error {e : DecodeError} (hd : decode s.cfg.wordBits m = .error e) :
    deliver m s = .next (s.rejectMessage m.header e) := by
  simp only [deliver, hd]

theorem rejectMessage_illegalCommand (hf : s.fault.faulted = false) :
    s.rejectMessage h .illegalCommand = s.takeFault none h ⟨.illegalCommand, h.toNat⟩ := by
  simp [State.rejectMessage, hf]

theorem rejectMessage_badOperand (hf : s.fault.faulted = false) (n : Nat) :
    s.rejectMessage h (.badOperand hd n) = s.takeFault (some hd.unit) h ⟨.badOperand, n⟩ := by
  simp [State.rejectMessage, hf]

/-- An illegal header belongs to no unit, so its fault changes no unit. -/
theorem takeFault_illegalCommand (s : State) (h : BitVec 32) (n : Nat) :
    s.takeFault none h ⟨.illegalCommand, n⟩ = (s.withFault ⟨true, 0x04, n, h⟩).send ⟨0x01040000#32, []⟩ :=
  congrArg (fun r => (s.withFault ⟨true, 0x04, n, h⟩).send ⟨r, []⟩) header_fault4

/-- Settles O4: the fields select no row exactly as R106 lists it (`decodeFields_eq_none_iff`), and such a message is
rejected whatever its payload. -/
theorem illegalHeadersAreRefused : Obligations.IllegalHeadersAreRefused := by
  refine ⟨fun h => ?_, fun h payload s hd hf => ?_⟩
  · rw [decodeHeader_eq_none_iff, decodeFields_eq_none_iff, or_left_comm, opcode_div, opcode_mod, regOfNumber_none,
      imm_extract h 0 8 (by decide)]
    simp only [OpcodeUnassigned, ImmIllegal, imm_extract h 8 8 (by decide), imm_extract h 1 15 (by decide), or_assoc]
  · calc deliver ⟨h, payload⟩ s
        = .next (s.rejectMessage h .illegalCommand) := deliver_of_decode_error (decode_of_illegal hd)
      _ = .next (s.takeFault none h ⟨.illegalCommand, h.toNat⟩) := by rw [rejectMessage_illegalCommand hf]
      _ = _ := by rw [takeFault_illegalCommand]

/-! ## Payloads that do not frame (R112) -/

section
variable {wb : Nat} {i : Instr} {before after : List (List Byte)} {field : List Byte}

theorem parseOperands_cut (h8 : wb % 8 = 0) (hw : i.wf wb = true) (hf : i.fields wb = before ++ field :: after)
    {part : List Byte} (h1 : part <+: field) (h2 : part ≠ field) :
    parseOperands wb i.head (before.flatten ++ part) = .error before.length := by
  have h := reads_fields h8 hw
  rw [hf] at h
  exact (h.cut h1 h2).trans (by rw [Nat.zero_add])

theorem parseOperands_extra (h8 : wb % 8 = 0) (hw : i.wf wb = true) {extra : List Byte} (hx : extra ≠ []) :
    parseOperands wb i.head (encodePayload wb i ++ extra) = .error (i.fields wb).length :=
  ((reads_fields h8 hw).append extra).trans (by rw [endOfPayload_extra hx, Nat.zero_add])

/-- The rows whose operands are BitBuffers that must cover their bit counts read one first. -/
theorem parseOperands_bb (hu : hd.unit = .bb) (h1 : hd ≠ .bbNew) (h2 : hd ≠ .bbFromBytes) :
    ∃ k, ∀ bs, parseOperands wb hd bs = operand 0 (parseBB wb) bs k := by
  cases hd with
  | bbNew => exact absurd rfl h1
  | bbFromBytes => exact absurd rfl h2
  | bbUnused | bbAppend | bbShiftLeft | bbPushLeadingBit | bbToBytes => exact ⟨_, fun _ => rfl⟩
  | _ => cases hu

/-- Of these rows BB_APPEND alone has a second operand, a BitBuffer too. -/
theorem fields_bb (hu : i.head.unit = .bb) (h1 : i.head ≠ .bbNew) {first : List Byte}
    (hf : i.fields wb = first :: before ++ field :: after) :
    ∃ a v, i = .bbAppend a v ∧ first = encodeBB wb a ∧ before = [] := by
  cases i with
  | bbNew => exact absurd rfl h1
  | bbAppend a v =>
    rw [Instr.fields, List.cons_append, List.cons.injEq] at hf
    obtain ⟨rfl, hf⟩ := hf
    cases before with
    | nil => exact ⟨a, v, rfl, rfl, rfl⟩
    | cons => simp at hf
  | bbUnused | bbShiftLeft | bbPushLeadingBit | bbToBytes | bbFromBytes => simp [Instr.fields] at hf
  | _ => cases hu

/-- `refused` stands for a BB field whose words do not cover its bit count, and whatever follows it. -/
theorem parseOperands_uncovered (h8 : wb % 8 = 0) (hw : i.wf wb = true) (hf : i.fields wb = before ++ field :: after)
    (hu : i.head.unit = .bb) (h1 : i.head ≠ .bbNew) (h2 : i.head ≠ .bbFromBytes) {refused : List Byte}
    (hr : parseBB wb refused = none) :
    parseOperands wb i.head (before.flatten ++ refused) = .error before.length := by
  cases before with
  | nil =>
    obtain ⟨k, hk⟩ := parseOperands_bb (wb := wb) hu h1 h2
    exact (hk refused).trans (operand_none hr)
  | cons first before =>
    obtain ⟨a, v, rfl, rfl, rfl⟩ := fields_bb hu h1 hf
    obtain ⟨ha, -⟩ := Bool.and_eq_true_iff.1 hw
    rw [List.flatten_cons, List.append_assoc]
    exact ((codec_bb h8).operand_enc ha refused).trans (operand_none hr)

end

/-- Settles O6: the parse of a row reads its fields in order (`ReadsFields`), so it fails at the field cut short, or after
the last; BB_NEW carries a plain WORDS and a U64; and the machine takes the fault the decoder names. -/
theorem payloadFramingFaults : Obligations.PayloadFramingFaults := by
  refine ⟨fun wb _ h8 i hw => ⟨fun before field after part hf h1 h2 => ?_, fun extra hx => ?_,
    fun before field after n ws rest hf hu h1 h2 hn hws hc => ?_⟩, fun wb _ h8 ws n hws hn => ?_,
    fun m s hd n hf he => ?_⟩
  · exact decode_word.2 _ (parseOperands_cut h8 hw hf h1 h2)
  · exact decode_word.2 _ (parseOperands_extra h8 hw hx)
  · exact decode_word.2 _ (parseOperands_uncovered h8 hw hf hu h1 h2 (parseBB_uncovered h8 hn hws hc rest))
  · have hw : (Instr.bbNew ws n).wf wb = true := Bool.and_eq_true_iff.2 ⟨hws, decide_eq_true hn⟩
    have h := decode_encode h8 hw
    rwa [encode_def, Instr.head, word_bbNew, encodePayload, Instr.fields, List.flatten_cons, List.flatten_singleton] at h
  · rw [deliver_of_decode_error he, rejectMessage_badOperand hf]

end Sys2Proof.Machine
end

section
/-! PROOFS. What a message is answered (30_encoding.md R113, R120 to R122): the operand values a command refuses, and the one
response to every message. -/

namespace Sys2Proof.Machine

variable {s : State} {i : Instr}

/-! ## Operand values (R113) -/

theorem Lze.init_of_not_alphabetOk {cfg : Config} {alpha : List Byte} (ha : ¬ AlphabetOk alpha) :
    Lze.init cfg alpha = .error ⟨.badOperand, 0⟩ := by
  rcases Lze.init_cases (cfg := cfg) (alpha := alpha) with ⟨-, e⟩ | ⟨h, -⟩ | ⟨h, -⟩
  · exact e
  · exact absurd h ha
  · exact absurd h ha

theorem Lzd.init_of_not_alphabetOk {cfg : Config} {alpha input : List Byte} {limit : Option Nat}
    (ha : ¬ AlphabetOk alpha) : Lzd.init cfg alpha input limit = .error ⟨.badOperand, 0⟩ := by
  rcases Lzd.init_cases (cfg := cfg) (alpha := alpha) (input := input) (limit := limit) with
    ⟨-, e⟩ | ⟨h, -⟩ | ⟨h, -⟩ | ⟨h, -⟩
  · exact e
  all_goals exact absurd h ha

/-- `LimitOk` reads the padded input's capacity off the input's length (41_bitbuffer.md R157). -/
theorem Lzd.init_of_limit_gt {cfg : Config} {alpha input : List Byte} {l : Nat} (ha : AlphabetOk alpha)
    (hl : ceilDiv input.length (cfg.wordBits / 8) * cfg.wordBits < l) :
    Lzd.init cfg alpha input (some l) = .error ⟨.badOperand, 2⟩ := by
  have hn : ¬ LimitOk cfg input (some l) := fun h => by
    have := h l rfl
    rw [inputWords, bbFromBytes_words_length] at this
    omega
  rcases Lzd.init_cases (cfg := cfg) (alpha := alpha) (input := input) (limit := some l) with
    ⟨h, -⟩ | ⟨-, -, e⟩ | ⟨-, h, -⟩ | ⟨-, h, -⟩
  · exact absurd ha h
  · exact e
  all_goals exact absurd h hn

theorem takeFault_badOperand (u : Option FUnit) (h : BitVec 32) (n : Nat) :
    s.takeFault u h ⟨.badOperand, n⟩ = ((s.endInstance u).withFault ⟨true, 0x06, n, h⟩).send ⟨0x01060000#32, []⟩ :=
  congrArg (fun r => ((s.endInstance u).withFault ⟨true, 0x06, n, h⟩).send ⟨r, []⟩) header_fault6

/-- A command that begins with a check of its operands takes BAD_OPERAND where the check fails. -/
theorem command_badOperand {α : Type} (hf : s.fault.faulted = false) {hd : Head} {w : BitVec 32} (hw : hd.word = w)
    {x : Except Raise α} {n : Nat} (hx : x = .error ⟨.badOperand, n⟩) (k : α → Except Raise (State × Answer)) :
    command hd s (x >>= k) = .next (((s.endInstance (some hd.unit)).withFault ⟨true, 0x06, n, w⟩).send
      ⟨0x01060000#32, []⟩) := by
  rw [hx, error_bind, command_error hf, takeFault_badOperand, hw]

/-- Settles O7: the constructions of both units check the alphabet first, then the limit (`Lze.init_cases`,
`Lzd.init_cases`), and every other step of these commands comes after. -/
theorem operandValueFaults : Obligations.OperandValueFaults := by
  intro s alpha syms input limit hf
  refine ⟨fun ha => ?_, fun l ha hl => ?_⟩
  · have hlze := Lze.init_of_not_alphabetOk (cfg := s.cfg) ha
    have hlzd := Lzd.init_of_not_alphabetOk (cfg := s.cfg) (input := input) (limit := limit) ha
    exact ⟨command_badOperand hf word_lzeInit hlze _, command_badOperand hf word_lzeEncode hlze _,
      command_badOperand hf (word_lzdInit _) hlzd _, command_badOperand hf (word_lzdDecode _) hlzd _⟩
  · have hlzd := Lzd.init_of_limit_gt ha hl
    exact ⟨command_badOperand hf (word_lzdInit true) hlzd _, command_badOperand hf (word_lzdDecode true) hlzd _⟩

/-! ## The tag of an OK response (R122) -/

/-- The tags the command's OK response can have. -/
def TagOf (i : Instr) (tag : BitVec 16) : Prop :=
  match i with
  | .lzeSymbol _ => tag = 0x0000#16 ∨ tag = 0x0001#16
  | .lzdStep => tag = 0x0000#16 ∨ tag = 0x0001#16
  | .hftStep => tag = 0x0000#16 ∨ tag = 0x0001#16
  | .hfdStep => tag = 0x0000#16 ∨ tag.extractLsb' 8 8 = 0x01#8 ∨ tag = 0x0200#16
  | _ => tag = 0x0000#16

theorem TagOf.zero (i : Instr) : TagOf i 0x0000#16 := by
  cases i with
  | lzeSymbol | lzdStep | hftStep | hfdStep => exact .inl rfl
  | _ => rfl

theorem TagOf.trial (r : Trial) : TagOf .hfdStep r.tag := by
  cases r with
  | miss => exact .zero _
  | hit b => exact .inr (.inl (hit_tag b))
  | ended => exact .inr (.inr rfl)

/-- The tag of a step that says whether it emitted, or whether it was the last. -/
theorem tag_zero_or_one (b : Bool) :
    (if b then 0x0001#16 else 0x0000#16) = 0x0000#16 ∨ (if b then 0x0001#16 else 0x0000#16) = 0x0001#16 := by
  cases b
  · exact .inl rfl
  · exact .inr rfl

/-- If the body completes, it answers with a tag of the command `i`. -/
def Answers (i : Instr) (body : Except Raise (State × Answer)) : Prop := ∀ u a, body = .ok (u, a) → TagOf i a.tag

section
variable {α : Type} {x : Except Raise α} {k : α → Except Raise (State × Answer)}

theorem Answers.ok {u : State} {a : Answer} (ha : TagOf i a.tag) : Answers i (.ok (u, a)) := by
  rintro _ _ ⟨⟩
  exact ha

theorem Answers.zero {u : State} {r : Result} : Answers i (.ok (u, ⟨0x0000, r⟩)) := .ok (.zero i)

theorem Answers.error {r : Raise} : Answers i (.error r) := fun _ _ h => by cases h

theorem Answers.bind (hk : ∀ v, Answers i (k v)) : Answers i (x >>= k) := fun u a h => by
  obtain ⟨v, -, h⟩ := bind_ok h
  exact hk v u a h

end

/-- Every instruction but CTL_RESET and CTL_READ runs in the frame `command` of its own row, and answers with a tag of its
own. -/
theorem exec_answers (i : Instr) (s : State) (h1 : i ≠ .ctlReset) (h2 : ∀ r, i ≠ .ctlRead r) :
    ∃ body, exec i s = command i.head s body ∧ Answers i body := by
  cases i with
  | ctlReset => exact absurd rfl h1
  | ctlRead r => exact absurd rfl (h2 r)
  | ctlNop | bbNew | bbUnused | bbAppend | bbShiftLeft | bbPushLeadingBit | bbToBytes | bbFromBytes =>
    exact ⟨_, rfl, .zero⟩
  | lzeInit | lzdInit | hftLoad | hfeHist => exact ⟨_, rfl, .bind fun _ => .zero⟩
  | hfdInit => exact ⟨_, rfl, .bind fun (_, _) => .zero⟩
  | lzdDecode | hfeEncode => exact ⟨_, rfl, .bind fun _ => .bind fun _ => .zero⟩
  | hfdDecode => exact ⟨_, rfl, .bind fun (_, _) => .bind fun _ => .zero⟩
  | lzeEncode => exact ⟨_, rfl, .bind fun _ => .bind fun _ => .bind fun _ => .zero⟩
  | lzeSymbol sym =>
    refine ⟨_, rfl, ?_⟩
    split
    · exact .bind fun (_, emitted) => .ok (tag_zero_or_one emitted)
    · exact .error
  | lzeFlush =>
    refine ⟨_, rfl, ?_⟩
    split
    · exact .bind fun _ => .zero
    · exact .error
  | lzdStep =>
    refine ⟨_, rfl, ?_⟩
    split
    · exact .error
    · exact .ok (.inr rfl)
    · exact .bind fun
        | (_, none) => .ok (.inr rfl)
        | (_, some _) => .zero
  | hftStep =>
    refine ⟨_, rfl, ?_⟩
    split
    · exact .error
    · exact .ok (.inr rfl)
    · exact .ok (tag_zero_or_one _)
  | hftTable =>
    refine ⟨_, rfl, ?_⟩
    split
    · exact .zero
    · exact .error
  | hfdStep =>
    refine ⟨_, rfl, ?_⟩
    split
    · exact .error
    · exact .ok (.trial .ended)
    · exact .bind fun (_, r) => .ok (.trial r)

theorem tag_eq_of_respondOk_eq {u v : State} {a b : Answer} (h : u.respondOk a = v.respondOk b) : a.tag = b.tag := by
  have hresp := congrArg State.responses h
  rw [State.respondOk_responses, State.respondOk_responses] at hresp
  obtain ⟨-, hlast⟩ := List.append_inj' hresp (by simp only [List.length_singleton])
  simp only [List.cons.injEq, Response.mk.injEq, and_true] at hlast
  obtain ⟨hheader, -⟩ := hlast
  rw [← responseHeader_tag 0x00 0x00 a.tag, hheader, responseHeader_tag]

/-- A command that completes and records no fault answers with a tag of its own. -/
theorem exec_respondOk_tag {u : State} {a : Answer} (hf : s.fault.faulted = false) (hu : u.fault = s.fault)
    (h1 : i ≠ .ctlReset) (h2 : ∀ r, i ≠ .ctlRead r) (he : exec i s = .next (u.respondOk a)) : TagOf i a.tag := by
  obtain ⟨body, hb, ha⟩ := exec_answers i s h1 h2
  rw [hb] at he
  rcases command_cases he with ⟨hf', -⟩ | ⟨-, v, b, hv, e⟩ | ⟨-, r, -, e⟩
  · rw [hf] at hf'
    cases hf'
  · rw [tag_eq_of_respondOk_eq e]
    exact ha v b hv
  · have hfault : u.fault.faulted = true := congrArg (·.fault.faulted) e
    rw [hu, hf] at hfault
    cases hfault

/-! ## One response to every message (R120, R121) -/

/-- Settles O10: a message resets the CORE, reads a register, is refused, completes or takes a fault (`step_message`), and
each of these sends one response. -/
theorem everyCommandGetsOneResponse : Obligations.EveryCommandGetsOneResponse := by
  intro s t m ms hc hstep
  obtain ⟨-, h⟩ := step_message hc hstep
  rcases h with ⟨hd, rfl⟩ | ⟨r, hd, rfl⟩ | ⟨hf, rfl⟩ | ⟨hf, i, u, a, hd, h1, h2, hw, rfl, he⟩ | ⟨hf, r, rfl, -⟩
  · refine ⟨rfl, rfl, _, rfl, .inl ⟨responseHeader_rstatus _ _ _, responseHeader_rfault _ _ _, ?_, _, hd,
      responseHeader_tag _ _ _⟩⟩
    rw [decode_head hd]
    exact (Bool.and_false _).symm
  · refine ⟨rfl, rfl, _, rfl, .inl ⟨responseHeader_rstatus _ _ _, responseHeader_rfault _ _ _, ?_, _, hd,
      responseHeader_tag _ _ _⟩⟩
    rw [decode_head hd]
    exact (Bool.and_true _).symm
  · exact ⟨rfl, rfl, _, rfl, .inr (.inr ⟨responseHeader_rstatus _ _ _, hf, responseHeader_rfault _ _ _,
      responseHeader_tag _ _ _, rfl, rfl⟩)⟩
  · obtain ⟨hfault, hcfg, hcmd, hresp⟩ := hw.frame
    have hsent := u.respondOk_responses a
    rw [hresp] at hsent
    refine ⟨hcmd, hcfg, _, hsent, .inl ⟨responseHeader_rstatus _ _ _, responseHeader_rfault _ _ _, ?_, i, hd, ?_⟩⟩
    · rw [hf, Bool.false_and, State.respondOk_fault, hfault]
      exact hf
    · rw [responseHeader_tag]
      exact exec_respondOk_tag (s := s.withCommands ms) hf hfault h1 h2 he
  · exact ⟨State.takeFault_commands _ _ _ _, State.takeFault_cfg _ _ _ _, _, State.takeFault_responses _ _ _ _,
      .inr (.inl ⟨responseHeader_rstatus _ _ _, hf, rfl, responseHeader_rfault _ _ _, responseHeader_tag _ _ _, rfl⟩)⟩

end Sys2Proof.Machine
end

section
/-! PROOFS. BitBuffers and Counters (41_bitbuffer.md): each command's answer, in words, count and bits. A BitBuffer command
answers in every state that has no fault (`pureCommand_ok`), so each proof is about the buffer it answers with. -/

namespace Sys2Proof.Machine

variable {wb : Nat}

/-! ## Declaring a count (R141, R150, R151) -/

theorem bbNew_words (ws : List Nat) (n : Nat) :
    (bbNew wb ws n).words = List.replicate (ceilDiv n wb - ws.length) 0 ++ ws := by
  unfold bbNew
  dsimp only
  split
  · rfl
  · rw [Nat.sub_eq_zero_of_le (by omega)]
    rfl

/-- Words that cover the count already get no padding. -/
theorem bbNew_words_of_covered (hw : 0 < wb) {ws : List Nat} {n : Nat} (h : n ≤ ws.length * wb) :
    (bbNew wb ws n).words = ws := by
  rw [bbNew_words, Nat.sub_eq_zero_of_le (ceilDiv_le_of_le_mul hw h)]
  rfl

/-- Where there is padding, one word less would not cover the count. -/
theorem bbNew_pad_least (hw : 0 < wb) {ws : List Nat} {n : Nat} (hk : 0 < ceilDiv n wb - ws.length) :
    ((bbNew wb ws n).words.length - 1) * wb < n := by
  have hlen : (bbNew wb ws n).words.length = ceilDiv n wb := by
    rw [bbNew_words, List.length_append, List.length_replicate]
    omega
  have hlt : ceilDiv n wb * wb < n + wb := ceilDiv_mul_lt hw
  have hge : wb ≤ ceilDiv n wb * wb := Nat.le_mul_of_pos_left wb (by omega)
  rw [hlen, Nat.sub_one_mul]
  omega

/-- Settles O23: the number of padding words is `ceil(n / WB) - len(ws)`, zero where the words cover the count. -/
theorem newPadsAtTheFront : Obligations.NewPadsAtTheFront := by
  intro s hf hv ws n
  have hw := Config.Valid.pos hv
  exact ⟨bbNew s.cfg.wordBits ws n, _, pureCommand_ok hf _, sendsBB_payload s _, rfl, bbNew_capacity hw ws n,
    bbNew_words_of_covered hw, ⟨_, bbNew_words ws n, bbNew_pad_least hw⟩, natOf_cat_bbNew ws n⟩

/-- Settles O24: the number the command answers is the one the statement's sum fixes. -/
theorem unusedBitsOfABuffer : Obligations.UnusedBitsOfABuffer := by
  intro s hf hv b u hu
  have hun : unused s.cfg.wordBits b = u := by rw [unused_eq]; omega
  exact ⟨_, pureCommand_ok hf _, hun ▸ sendsNat_payload s (Config.Valid.pos hv) _⟩

/-! ## Appending (R152, R159, R160) -/

theorem bbAppend_bitCount {a v : BitBuffer} (ha : a.bitCount ≤ a.words.length * wb)
    (hv : v.bitCount ≤ v.words.length * wb) : (bbAppend wb a v).bitCount = a.bitCount + v.bitCount := by
  rw [bbAppend, frombits_bitCount, List.length_append, sbits_length ha, vbits_length hv]

/-- Settles O25: the answer is a stream (`bbAppend_streamOk`), so its bits and its zero padding are all of its words. -/
theorem appendConcatenatesBits : Obligations.AppendConcatenatesBits := by
  intro s hf hval a v ha hv
  have hw := Config.Valid.pos hval
  obtain ⟨hlen, hlt, -⟩ := bbAppend_streamOk hw a v
  refine ⟨bbAppend s.cfg.wordBits a v, _, pureCommand_ok hf _, sendsBB_payload s _, bbAppend_bitCount ha hv, hlen, hlt,
    ?_⟩
  rw [(bbAppend_streamOk hw a v).cat_eq hw, sbits_bbAppend hw]
  rfl

/-- Settles O31: an append's bits depend on the value's bits only (`sbits_bbAppend`). -/
theorem appendIsAssociativeOnBits : Obligations.AppendIsAssociativeOnBits := by
  intro wb h8 _
  have hw : 0 < wb := by omega
  have hassoc (a b c : BitBuffer) :
      sbits wb (bbAppend wb (bbAppend wb a b) c) = sbits wb a ++ vbits wb b ++ vbits wb c := by
    rw [sbits_bbAppend hw, sbits_bbAppend hw]
  refine ⟨fun a b c => ⟨hassoc a b c, fun v hv => ?_⟩, fun out v n => ?_⟩
  · rw [hassoc, sbits_bbAppend hw, hv, sbits_frombits hw, List.append_assoc]
  · rw [sbits_bbAppend hw, vbits_valueBB hw]

/-! ## Shifting left (R153) -/

theorem bbShiftLeft_words_length (b : BitBuffer) : (bbShiftLeft wb b).words.length = b.words.length := wordsOf_length _ _ _

/-- Settles O26, by the bits of the shifted words (`cat_bbShiftLeft`). -/
theorem shiftLeftRealignsAValue : Obligations.ShiftLeftRealignsAValue := fun s hf _ b hb =>
  ⟨bbShiftLeft s.cfg.wordBits b, _, pureCommand_ok hf _, sendsBB_payload s _, rfl, bbShiftLeft_words_length b, wordsOf_lt,
    cat_bbShiftLeft hb⟩

/-! ## Pushing a leading bit (R154) -/

theorem push_capacity (hw : 0 < wb) (bit : Bool) {b : BitBuffer} (h : b.bitCount ≤ b.words.length * wb) :
    b.bitCount < (bbPushLeadingBit wb bit b).words.length * wb := by
  rw [push_words_length]
  split
  · rw [Nat.add_mul]; omega
  · rw [Nat.add_zero]; omega

/-- The number of the pushed words, before it is cut to their width. -/
theorem natOf_cat_push (bit : Bool) (b : BitBuffer) :
    natOf (cat wb (bbPushLeadingBit wb bit b).words)
      = (natOf (cat wb b.words) - ((natOf (cat wb b.words)).testBit b.bitCount).toNat * 2 ^ b.bitCount
          + bit.toNat * 2 ^ b.bitCount) % 2 ^ ((bbPushLeadingBit wb bit b).words.length * wb) := by
  have hlead : natOf (cat wb (0 :: b.words)) = natOf (cat wb b.words) := natOf_cat_replicate_append 1 b.words
  unfold bbPushLeadingBit
  dsimp only
  rw [cat_wordsOf, natOf_bitsOf, wordsOf_length]
  split
  · rw [hlead]
  · rfl

/-- The number of the pushed words: bit `bit_count` is the pushed one, and every other bit is kept. -/
theorem testBit_natOf_cat_push (hw : 0 < wb) (bit : Bool) {b : BitBuffer} (h : b.bitCount ≤ b.words.length * wb)
    (i : Nat) : (natOf (cat wb (bbPushLeadingBit wb bit b).words)).testBit i
      = if i = b.bitCount then bit else (natOf (cat wb b.words)).testBit i := by
  have hcap := push_capacity hw bit h
  rw [natOf_cat_push, Nat.testBit_mod_two_pow, setBit_testBit]
  by_cases hi : i < (bbPushLeadingBit wb bit b).words.length * wb
  · rw [decide_eq_true hi, Bool.true_and]
  · have hlen : b.words.length * wb ≤ i :=
      (Nat.mul_le_mul_right wb (by rw [push_words_length]; omega)).trans (Nat.le_of_not_lt hi)
    have hx : (natOf (cat wb b.words)).testBit i = false :=
      Nat.testBit_lt_two_pow ((ctrValue_lt b.words).trans_le (Nat.pow_le_pow_right (by omega) hlen))
    rw [decide_eq_false hi, Bool.false_and, if_neg (by omega), hx]

/-- The bits above the pushed one are kept. -/
theorem natOf_cat_push_div (hw : 0 < wb) (bit : Bool) {b : BitBuffer} (h : b.bitCount ≤ b.words.length * wb) :
    natOf (cat wb (bbPushLeadingBit wb bit b).words) / 2 ^ (b.bitCount + 1)
      = natOf (cat wb b.words) / 2 ^ (b.bitCount + 1) := by
  refine Nat.eq_of_testBit_eq fun i => ?_
  rw [Nat.testBit_div_two_pow, Nat.testBit_div_two_pow, testBit_natOf_cat_push hw bit h, if_neg (by omega)]

/-- Settles O27: the value bits by `vbits_push`, the bits above by `natOf_cat_push_div`. -/
theorem pushedBitLeadsTheValue : Obligations.PushedBitLeadsTheValue := by
  intro s hf hv bit b hb
  have hw := Config.Valid.pos hv
  refine ⟨bbPushLeadingBit s.cfg.wordBits bit b, _, pureCommand_ok hf _, sendsBB_payload s _, rfl, ?_,
    wordsOf_lt, vbits_push hw bit hb, natOf_cat_push_div hw bit hb⟩
  rw [push_words_length]
  split <;> rfl

/-! ## Bytes (R156 to R158) -/

/-- Settles O28, by the length and the bits of the serialized stream. -/
theorem toBytesSerializesAStream : Obligations.ToBytesSerializesAStream := by
  intro s hf ⟨_, h8⟩ b hb
  have hlen := bbToBytes_length h8 hb
  refine ⟨bbToBytes s.cfg.wordBits b, _, pureCommand_ok hf _, sendsBytes_payload s _, hlen, ?_⟩
  rw [bitsOfBytes_bbToBytes h8, hlen]

/-- Bytes fill as many words as their bits do. -/
theorem ceilDiv_mul_eight (hw : 8 ≤ wb) (h8 : wb % 8 = 0) (n : Nat) : ceilDiv (8 * n) wb = ceilDiv n (wb / 8) := by
  have hge := ceilDiv_mul_ge (a := n) (b := wb / 8) (by omega)
  have hlt := ceilDiv_mul_lt (a := n) (b := wb / 8) (by omega)
  have he : ceilDiv n (wb / 8) * wb = 8 * (ceilDiv n (wb / 8) * (wb / 8)) := by
    rw [Nat.mul_left_comm, Nat.mul_div_cancel' (Nat.dvd_of_mod_eq_zero h8)]
  exact ceilDiv_unique (by omega) (by omega) (by omega)

/-- Deserialization makes a stream in normal form (R157). -/
theorem bbFromBytes_streamOk (hw : 8 ≤ wb) (h8 : wb % 8 = 0) (bs : List Byte) : StreamOk wb (bbFromBytes wb bs) := by
  refine ⟨?_, bbFromBytes_words_lt hw h8 bs, ?_⟩
  · rw [bbFromBytes_words_length, bbFromBytes_bitCount, ceilDiv_mul_eight hw h8]
  · have hcat := cat_bbFromBytes hw h8 bs
    have hlen := congrArg List.length hcat
    rw [cat_length, List.length_append, bitsOfBytes_length, List.length_replicate] at hlen
    rw [hcat, bbFromBytes_bitCount, List.drop_left' (bitsOfBytes_length bs), unused_eq, hlen, bbFromBytes_bitCount,
      Nat.add_sub_cancel_left]

/-- Settles O29: the answer is a stream (`bbFromBytes_streamOk`) whose bits are those of the bytes. -/
theorem fromBytesMakesAStream : Obligations.FromBytesMakesAStream := by
  intro s hf ⟨hw, h8⟩ bs
  refine ⟨bbFromBytes s.cfg.wordBits bs, _, pureCommand_ok hf _, sendsBB_payload s _, rfl, bbFromBytes_words_length bs,
    bbFromBytes_words_lt hw h8 bs, ?_⟩
  rw [(bbFromBytes_streamOk hw h8 bs).cat_eq (by omega), sbits_bbFromBytes hw h8]

theorem bbToBytes_bbFromBytes (hw : 8 ≤ wb) (h8 : wb % 8 = 0) (bs : List Byte) :
    bbToBytes wb (bbFromBytes wb bs) = bs := by
  have hcount : 8 * ceilDiv (8 * bs.length) 8 = 8 * bs.length := by
    rw [Nat.mul_comm 8 bs.length, ceilDiv_mul_self (by decide), Nat.mul_comm]
  refine bitsOfBytes_inj ?_
  calc bitsOfBytes (bbToBytes wb (bbFromBytes wb bs))
      = (cat wb (bbFromBytes wb bs).words).take (8 * bs.length) := by
        rw [bitsOfBytes_bbToBytes h8, bbFromBytes_bitCount, hcount]
    _ = bitsOfBytes bs := sbits_bbFromBytes hw h8 bs

theorem StreamOk.covered (hw : 0 < wb) {b : BitBuffer} (hb : StreamOk wb b) : b.bitCount ≤ b.words.length * wb := by
  rw [hb.1]
  exact ceilDiv_mul_ge hw

/-- The whole bytes of a count lie in the words that cover it. -/
theorem ceilDiv_eight_le (h8 : wb % 8 = 0) {b : BitBuffer} (h : b.bitCount ≤ b.words.length * wb) :
    8 * ceilDiv b.bitCount 8 ≤ b.words.length * wb := by
  have he : b.words.length * wb = 8 * (b.words.length * (wb / 8)) := by
    rw [Nat.mul_left_comm, Nat.mul_div_cancel' (Nat.dvd_of_mod_eq_zero h8)]
  rw [he] at h ⊢
  exact Nat.mul_le_mul_left 8 (ceilDiv_le_of_le_mul (by decide) (by rwa [Nat.mul_comm _ 8]))

/-- The bits of a serialized stream in normal form: its own, then zeros up to a byte. -/
theorem StreamOk.bitsOfBytes_bbToBytes (hw : 8 ≤ wb) (h8 : wb % 8 = 0) {b : BitBuffer} (hb : StreamOk wb b) :
    bitsOfBytes (bbToBytes wb b) = sbits wb b ++ List.replicate ((8 - b.bitCount % 8) % 8) false := by
  have hcov := hb.covered (show 0 < wb by omega)
  have hpad : b.bitCount + (8 - b.bitCount % 8) % 8 = ceilDiv b.bitCount 8 * 8 := length_add_pad (by decide)
  have hfit := ceilDiv_eight_le h8 hcov
  rw [Machine.bitsOfBytes_bbToBytes h8, hb.cat_eq (by omega), List.take_append, sbits_length hcov,
    List.take_of_length_le (by rw [sbits_length hcov]; omega), List.take_replicate]
  congr 2
  omega

/-- Settles O30: the bits of the round trip are the stream's and the zeros that fill its last byte, and both sides are
streams in normal form, which their bits determine (`StreamOk.ext_bits`). -/
theorem serializationRoundTrips : Obligations.SerializationRoundTrips := by
  intro wb hw h8
  refine ⟨bbToBytes_bbFromBytes hw h8, fun b hb => ?_⟩
  have hbits : sbits wb (bbFromBytes wb (bbToBytes wb b))
      = sbits wb b ++ List.replicate ((8 - b.bitCount % 8) % 8) false := by
    rw [sbits_bbFromBytes hw h8, hb.bitsOfBytes_bbToBytes hw h8]
  refine ⟨hbits, fun h => ?_, fun h => ?_⟩
  · have hcount : 8 * (bbToBytes wb b).length = b.bitCount := congrArg BitBuffer.bitCount h
    omega
  · refine (bbFromBytes_streamOk hw h8 _).ext_bits (by omega) hb ?_
    rw [hbits, h]
    exact List.append_nil _

/-! ## Counters (R144 to R146) -/

/-- Settles O32: the rules of the increment, and the canonical word sequence of the value for uniqueness. -/
theorem counterIncrementCarries : Obligations.CounterIncrementCarries := by
  intro wb h8 _ c hc
  have hw : 0 < wb := by omega
  have hlt : ∀ w ∈ c, w < 2 ^ wb := hc.2.1
  refine ⟨hc.inc hw, ctrValue_inc hlt hw, hc.length_eq hw, inc_length hlt, fun d hd he => ?_⟩
  calc d = canon wb (ctrValue wb d) := hd.eq_canon hw
    _ = canon wb (ctrValue wb c) := by rw [he]
    _ = c := (hc.eq_canon hw).symm

end Sys2Proof.Machine
end

section
/-! PROOFS. The LZW encoder (42_lzw_encoder.md): one equation for each answer of the encoder's operations, the commands in terms of
these operations, and LZE_ENCODE against the sequence of commands it stands for. -/

namespace Sys2Proof.Machine

variable {cfg : Config} {s : State} {u v : Lze} {sym z : Byte} {alpha syms : List Byte}

/-! ## The operations (R170 to R176) -/

theorem Lze.init_of_not_withinCap (ha : AlphabetOk alpha) (hc : ¬ WithinCap cfg alpha.length) :
    Lze.init cfg alpha = .error ⟨.capacityExceeded, 2⟩ := by
  rcases Lze.init_cases (cfg := cfg) (alpha := alpha) with ⟨h, -⟩ | ⟨-, -, e⟩ | ⟨-, h, -⟩
  · exact absurd ha h
  · exact e
  · exact absurd h hc

/-- An insertion under the next codeword, which is the number of entries (R185). -/
theorem Lze.Synced.insert_eq (hw : 0 < cfg.wordBits) (hu : u.Synced cfg) {p : List Byte}
    (hp : p ∉ u.dict.map Prod.fst) :
    u.insert cfg p = { u with
      dict := u.dict ++ [(p, u.dict.length)], ctr := canon cfg.wordBits (u.dict.length + 1),
      width := bitlen u.dict.length } := by
  have hi := hu.insert hw hp
  have hd : (u.insert cfg p).dict = u.dict ++ [(p, u.dict.length)] := by rw [Lze.insert_dict hp, hu.length]
  have hl : (u.insert cfg p).dict.length = u.dict.length + 1 := by rw [hd, List.length_append, List.length_singleton]
  refine Lze.ext_fields rfl rfl hd ?_ ?_ rfl rfl
  · rw [hi.ctr.eq_canon hw, ← hi.length, hl]
  · rw [hi.width, hl, Nat.add_sub_cancel]

theorem Lze.emit_eq (hw : 0 < cfg.wordBits) (u : Lze) (c w : Nat) :
    u.emit cfg c w = { u with out := frombits cfg.wordBits (sbits cfg.wordBits u.out ++ bitsOf c w) } := by
  rw [Lze.emit, bbAppend, vbits_valueBB hw]

theorem Lze.step_of_mem (hk : u.phrase ++ [sym] ∈ u.dict.map Prod.fst) :
    u.step cfg sym = .ok ({ u with phrase := u.phrase ++ [sym] }, false) := by
  obtain ⟨c, hc⟩ := mapGet_isSome.2 hk
  simp only [Lze.step, hc]

theorem Lze.step_of_not_withinCap (hk : u.phrase ++ [sym] ∉ u.dict.map Prod.fst)
    (hc : ¬ WithinCap cfg (u.dict.length + 1)) : u.step cfg sym = .error ⟨.capacityExceeded, 2⟩ := by
  simp only [Lze.step, mapGet_eq_none.2 hk, overCap_eq_true.2 hc, if_true]

theorem Lze.step_of_no_codeword (hk : u.phrase ++ [sym] ∉ u.dict.map Prod.fst)
    (hc : WithinCap cfg (u.dict.length + 1)) (hq : u.phrase ∉ u.dict.map Prod.fst)
    (hz : (u.phrase ++ [sym]).head? = some z) : u.step cfg sym = .error ⟨.alphabetCoverage, z.toNat⟩ := by
  simp [Lze.step, mapGet_eq_none.2 hk, overCap_eq_false.2 hc, mapGet_eq_none.2 hq, List.headD_eq_head?_getD, hz]

theorem Lze.step_of_codeword (hw : 0 < cfg.wordBits) (hu : u.Synced cfg)
    (hk : u.phrase ++ [sym] ∉ u.dict.map Prod.fst) (hc : WithinCap cfg (u.dict.length + 1)) {c : Nat}
    (hg : mapGet u.dict u.phrase = some c) :
    u.step cfg sym = .ok ({ u with
      dict := u.dict ++ [(u.phrase ++ [sym], u.dict.length)], ctr := canon cfg.wordBits (u.dict.length + 1),
      width := bitlen u.dict.length, phrase := [sym],
      out := frombits cfg.wordBits (sbits cfg.wordBits u.out ++ bitsOf c u.width) }, true) := by
  simp only [Lze.step, mapGet_eq_none.2 hk, overCap_eq_false.2 hc, hg, hu.insert_eq hw hk, Lze.emit_eq hw]
  rfl

theorem Lze.flush_of_nil (hp : u.phrase = []) : u.flush cfg = .ok { u with live := false } := by
  simp only [Lze.flush, hp]

theorem Lze.flush_of_codeword (hw : 0 < cfg.wordBits) (hp : u.phrase ≠ []) {c : Nat}
    (hg : mapGet u.dict u.phrase = some c) :
    u.flush cfg = .ok { u with
      live := false, out := frombits cfg.wordBits (sbits cfg.wordBits u.out ++ bitsOf c u.width) } := by
  rcases Lze.flush_cases (cfg := cfg) u with ⟨h, -⟩ | ⟨-, h, -⟩ | ⟨-, d, hd, e⟩
  · exact absurd h hp
  · exact absurd (mapGet_isSome.1 ⟨c, hg⟩) h
  · cases hg.symm.trans hd
    rw [e, Lze.emit_eq hw]

theorem Lze.flush_of_no_codeword (hk : u.phrase ∉ u.dict.map Prod.fst) (hz : u.phrase.head? = some z) :
    u.flush cfg = .error ⟨.alphabetCoverage, z.toNat⟩ := by
  rcases Lze.flush_cases (cfg := cfg) u with ⟨h, -⟩ | ⟨-, -, e⟩ | ⟨-, d, hd, -⟩
  · rw [h] at hz
    cases hz
  · rw [e, List.headD_eq_head?_getD, hz, Option.getD_some]
  · exact absurd (mapGet_isSome.1 ⟨d, hd⟩) hk

theorem Lze.feed_alpha : ∀ {u v : Lze}, u.feed cfg syms = .ok v → v.alpha = u.alpha := by
  induction syms with
  | nil => rintro u v ⟨⟩; rfl
  | cons a syms ih =>
    intro u v h
    rw [Lze.feed] at h
    split at h
    · cases h
    next w e hs => rw [ih h, (Lze.step_alpha hs).1]

theorem Lze.flush_alpha (h : u.flush cfg = .ok v) : v.alpha = u.alpha := by
  rcases Lze.flush_cases (cfg := cfg) u with ⟨-, e⟩ | ⟨-, -, e⟩ | ⟨-, c, -, e⟩ <;> rw [e] at h <;> cases h <;> rfl

/-! ## The faults of the unit (R177, R178; 60_exceptions.md R321) -/

/-- A fault of an LZE command ends the encoding and keeps every other field of the encoder. -/
theorem command_lze_error {hd : Head} {r : Raise} {c : Byte} {w rh : BitVec 32} (hf : s.fault.faulted = false)
    (hu : hd.unit = .lze) (hw : hd.word = w) (hc : r.code.byte = c) (hr : responseHeader 0x01 c 0x0000 = rh) :
    command hd s (.error r) = .next (((s.withLze { s.lze with live := false }).withFault
      ⟨true, c, r.info, w⟩).send ⟨rh, []⟩) := by
  subst hw hc hr
  rw [command_error hf, hu]
  rfl

theorem command_lze_capacityExceeded {hd : Head} {w : BitVec 32} (hf : s.fault.faulted = false) (hu : hd.unit = .lze)
    (hw : hd.word = w) (n : Nat) :
    command hd s (.error ⟨.capacityExceeded, n⟩) = .next (((s.withLze { s.lze with live := false }).withFault
      ⟨true, 0x08, n, w⟩).send ⟨0x01080000#32, []⟩) :=
  command_lze_error hf hu hw rfl header_fault8

theorem command_lze_alphabetCoverage {hd : Head} {w : BitVec 32} (hf : s.fault.faulted = false) (hu : hd.unit = .lze)
    (hw : hd.word = w) (n : Nat) :
    command hd s (.error ⟨.alphabetCoverage, n⟩) = .next (((s.withLze { s.lze with live := false }).withFault
      ⟨true, 0x01, n, w⟩).send ⟨0x01010000#32, []⟩) :=
  command_lze_error hf hu hw rfl header_fault1

/-! ## The commands (R180 to R183): a fault of the operation is the command's, and the rest is the response -/

/-- A completed command, with its response header as a numeral. -/
theorem command_ok_send {hd : Head} {tag : BitVec 16} {h : BitVec 32} (hf : s.fault.faulted = false)
    (ht : responseHeader 0x00 0x00 tag = h) (t : State) (r : Result) :
    command hd s (.ok (t, ⟨tag, r⟩)) = .next (t.send ⟨h, t.payload r⟩) :=
  (command_ok hf t ⟨tag, r⟩).trans (congrArg _ (respondOk_eq ht))

theorem exec_lzeInit_of_ok (hf : s.fault.faulted = false) (h : Lze.init s.cfg alpha = .ok u) :
    exec (.lzeInit alpha) s = .next ((s.withLze u).send ⟨0x00000000#32, []⟩) := by
  rw [exec, execLzeInit, h, ok_bind]
  exact command_ok_send hf header_zero (s.withLze u) .none

theorem exec_lzeInit_of_error {r : Raise} (h : Lze.init s.cfg alpha = .error r) :
    exec (.lzeInit alpha) s = command .lzeInit s (.error r) := by
  rw [exec, execLzeInit, h, error_bind]

theorem exec_lzeSymbol_of_silent (hf : s.fault.faulted = false) (hl : s.lze.live = true)
    (h : s.lze.step s.cfg sym = .ok (u, false)) :
    exec (.lzeSymbol sym) s = .next ((s.withLze u).send ⟨0x00000000#32, []⟩) := by
  rw [exec, execLzeSymbol, if_pos hl, h, ok_bind]
  exact command_ok_send hf header_zero (s.withLze u) .none

theorem exec_lzeSymbol_of_emitted (hf : s.fault.faulted = false) (hl : s.lze.live = true)
    (h : s.lze.step s.cfg sym = .ok (u, true)) :
    exec (.lzeSymbol sym) s = .next ((s.withLze u).send ⟨0x00000001#32, []⟩) := by
  rw [exec, execLzeSymbol, if_pos hl, h, ok_bind]
  exact command_ok_send hf header_one (s.withLze u) .none

theorem exec_lzeSymbol_of_error (hl : s.lze.live = true) {r : Raise} (h : s.lze.step s.cfg sym = .error r) :
    exec (.lzeSymbol sym) s = command (.lzeSymbol sym) s (.error r) := by
  rw [exec, execLzeSymbol, if_pos hl, h, error_bind]

theorem exec_lzeFlush_of_ok (hf : s.fault.faulted = false) (hl : s.lze.live = true)
    (h : s.lze.flush s.cfg = .ok u) : ∃ p,
    exec .lzeFlush s = .next ((s.withLze u).send ⟨0x00000000#32, p⟩) ∧ SendsBB s.cfg.wordBits u.out p := by
  rw [exec, execLzeFlush, if_pos hl, h, ok_bind]
  exact ⟨_, command_ok_send hf header_zero (s.withLze u) (.bb u.out), sendsBB_payload (s.withLze u) _⟩

theorem exec_lzeFlush_of_error (hl : s.lze.live = true) {r : Raise} (h : s.lze.flush s.cfg = .error r) :
    exec .lzeFlush s = command .lzeFlush s (.error r) := by
  rw [exec, execLzeFlush, if_pos hl, h, error_bind]

/-- The operations LZE_ENCODE runs, as one. -/
def Lze.encode (cfg : Config) (alpha syms : List Byte) : Except Raise Lze := do
  let u ← Lze.init cfg alpha
  u.encodeRest cfg syms

theorem Lze.encode_of_init (h : Lze.init cfg alpha = .ok u) : Lze.encode cfg alpha syms = u.encodeRest cfg syms := by
  rw [Lze.encode, h, ok_bind]

theorem exec_lzeEncode_eq_command : exec (.lzeEncode alpha syms) s
    = command .lzeEncode s (Lze.encode s.cfg alpha syms >>= fun u => .ok (s.withLze u, ⟨0x0000, .bb u.out⟩)) := by
  rw [exec, execLzeEncode, Lze.encode]
  cases Lze.init s.cfg alpha with
  | error => rfl
  | ok u =>
    simp only [ok_bind, Lze.encodeRest]
    cases u.feed s.cfg syms <;> rfl

theorem exec_lzeEncode_of_ok (hf : s.fault.faulted = false) (h : Lze.encode s.cfg alpha syms = .ok u) : ∃ p,
    exec (.lzeEncode alpha syms) s = .next ((s.withLze u).send ⟨0x00000000#32, p⟩) ∧ SendsBB s.cfg.wordBits u.out p := by
  rw [exec_lzeEncode_eq_command, h, ok_bind]
  exact ⟨_, command_ok_send hf header_zero (s.withLze u) (.bb u.out), sendsBB_payload (s.withLze u) _⟩

theorem exec_lzeEncode_of_error {r : Raise} (h : Lze.encode s.cfg alpha syms = .error r) :
    exec (.lzeEncode alpha syms) s = command .lzeEncode s (.error r) := by
  rw [exec_lzeEncode_eq_command, h, error_bind]

/-! ## The sequence LZE_INIT, LZE_SYMBOL for each symbol, LZE_FLUSH (R183) -/

/-- The CORE holds the fault `r`, whatever command raised it. -/
def State.HoldsFault (s : State) (r : Raise) : Prop := ∃ h, s.fault = ⟨true, r.code.byte, r.info, h⟩

theorem State.HoldsFault.faulted {r : Raise} (h : s.HoldsFault r) : s.fault.faulted = true := by
  obtain ⟨_, e⟩ := h
  rw [e]

theorem command_error_holdsFault {hd : Head} (hf : s.fault.faulted = false) (r : Raise) :
    ∃ t, command hd s (.error r) = .next t ∧ t.HoldsFault r :=
  ⟨_, command_error hf r, _, State.takeFault_fault _ _ _ _⟩

/-- A fault stays until reset, whatever else is sent (60_exceptions.md R322). -/
theorem execAll_append_holdsFault {is js : List Instr} {t : State} {r : Raise} (hj : .ctlReset ∉ js)
    (h : execAll is s = .next t) (ht : t.HoldsFault r) : ∃ t', execAll (is ++ js) s = .next t' ∧ t'.HoldsFault r := by
  obtain ⟨t', h'⟩ := execAll_total js t
  refine ⟨t', (execAll_append h).trans h', ?_⟩
  rw [State.HoldsFault, execAll_faulted hj ht.faulted h']
  exact ht

theorem execAll_singleton (i : Instr) (s : State) : execAll [i] s = exec i s := by
  obtain ⟨t, h⟩ := exec_next i s
  exact (execAll_cons_next h).trans h.symm

/-- The commands LZE_ENCODE stands for after LZE_INIT. -/
def encodeCommands (syms : List Byte) : List Instr := syms.map .lzeSymbol ++ [.lzeFlush]

theorem ctlReset_not_mem_encodeCommands : .ctlReset ∉ encodeCommands syms := by simp [encodeCommands]

/-- What `t` is when a run of the encoder from `s` completes with the encoder `v`. -/
structure EncodeFinished (s : State) (v : Lze) (t : State) : Prop where
  fault : t.fault = s.fault
  lze : t.lze = v
  answer : ∃ q, t.responses.getLast? = some ⟨0x00000000#32, q⟩ ∧ SendsBB s.cfg.wordBits v.out q

theorem execAll_encodeCommands_of_ok (hf : s.fault.faulted = false) (hl : s.lze.live = true)
    (h : s.lze.encodeRest s.cfg syms = .ok v) : ∃ t, execAll (encodeCommands syms) s = .next t ∧ EncodeFinished s v t := by
  obtain ⟨u, hfeed, hflush⟩ := bind_ok h
  obtain ⟨rs, hrun, hlive⟩ := (execAll_symbols hf hl).1 u hfeed
  obtain ⟨q, hexec, hq⟩ := exec_lzeFlush_of_ok (s := s.atLze u rs) hf hlive hflush
  refine ⟨((s.atLze u rs).withLze v).send ⟨0x00000000#32, q⟩, ?_, rfl, rfl, q, List.getLast?_concat, hq⟩
  rw [encodeCommands, execAll_append hrun, execAll_singleton, hexec]

theorem execAll_encodeCommands_of_error (hf : s.fault.faulted = false) (hl : s.lze.live = true) {r : Raise}
    (h : s.lze.encodeRest s.cfg syms = .error r) :
    ∃ t, execAll (encodeCommands syms) s = .next t ∧ t.HoldsFault r := by
  rcases bind_error h with hfeed | ⟨u, hfeed, hflush⟩
  · obtain ⟨t, hrun, hfault, hcode, hinfo⟩ := (execAll_symbols hf hl).2 r hfeed
    refine execAll_append_holdsFault (by simp) hrun ⟨t.fault.cmd, ?_⟩
    rw [← hfault, ← hcode, ← hinfo]
  · obtain ⟨rs, hrun, hlive⟩ := (execAll_symbols hf hl).1 u hfeed
    rw [encodeCommands, execAll_append hrun, execAll_singleton,
      exec_lzeFlush_of_error (s := s.atLze u rs) hlive hflush]
    exact command_error_holdsFault (s := s.atLze u rs) hf r

theorem execAll_lzeInit_encodeCommands_of_ok (hf : s.fault.faulted = false) (h : Lze.encode s.cfg alpha syms = .ok v) :
    ∃ t, execAll (.lzeInit alpha :: encodeCommands syms) s = .next t ∧ EncodeFinished s v t := by
  obtain ⟨u, hinit, hrest⟩ := bind_ok h
  obtain ⟨t, hrun, hfault, hlze, hanswer⟩ := execAll_encodeCommands_of_ok
    (s := (s.withLze u).send ⟨0x00000000#32, []⟩) hf (Lze.init_live hinit) hrest
  exact ⟨t, (execAll_cons_next (exec_lzeInit_of_ok hf hinit)).trans hrun, hfault, hlze, hanswer⟩

theorem execAll_lzeInit_encodeCommands_of_error (hf : s.fault.faulted = false) {r : Raise}
    (h : Lze.encode s.cfg alpha syms = .error r) :
    ∃ t, execAll (.lzeInit alpha :: encodeCommands syms) s = .next t ∧ t.HoldsFault r := by
  rcases bind_error h with hinit | ⟨u, hinit, hrest⟩
  · obtain ⟨t, hexec, ht⟩ := command_error_holdsFault (hd := .lzeInit) hf r
    refine execAll_append_holdsFault (is := [.lzeInit alpha]) ctlReset_not_mem_encodeCommands ?_ ht
    rw [execAll_singleton, exec_lzeInit_of_error hinit, hexec]
  · rw [execAll_cons_next (exec_lzeInit_of_ok hf hinit)]
    exact execAll_encodeCommands_of_error (s := (s.withLze u).send ⟨0x00000000#32, []⟩) hf (Lze.init_live hinit) hrest

/-! ## The obligations -/

/-- Settles O33: the encoder a good alphabet makes, field by field (`Lze.fresh_eq`). -/
theorem initSeedsTheEncoder : Obligations.InitSeedsTheEncoder := by
  intro s hf hv alpha h1 h256 hn
  have ha : AlphabetOk alpha := ⟨h1, h256, hn⟩
  refine ⟨fun hc => ?_, fun hc => ?_⟩
  · rw [exec_lzeInit_of_ok hf (Lze.init_ok ha hc), Lze.fresh_eq (Config.Valid.pos hv) ha]
  · rw [exec_lzeInit_of_error (Lze.init_of_not_withinCap ha hc)]
    exact command_lze_capacityExceeded hf rfl word_lzeInit 2

/-- Settles O34, by the four answers of the phrase step. -/
theorem symbolStepOfTheEncoder : Obligations.SymbolStepOfTheEncoder := by
  intro s hf hv hl hok sym u p n
  refine ⟨fun hk => ?_, fun hk hc c hmem => ?_, fun hk hc => ?_, fun hk hc hq z hz => ?_⟩
  · exact exec_lzeSymbol_of_silent hf hl (Lze.step_of_mem hk)
  · have hg : mapGet u.dict u.phrase = some c := mapGet_of_mem hok.keys hmem
    exact ⟨(hok.code_fits hg).2,
      exec_lzeSymbol_of_emitted hf hl (Lze.step_of_codeword (Config.Valid.pos hv) hok.synced hk hc hg)⟩
  · rw [exec_lzeSymbol_of_error hl (Lze.step_of_not_withinCap hk hc)]
    exact command_lze_capacityExceeded hf rfl (word_lzeSymbol sym) 2
  · rw [exec_lzeSymbol_of_error hl (Lze.step_of_no_codeword hk hc hq hz)]
    exact command_lze_alphabetCoverage hf rfl (word_lzeSymbol sym) z.toNat

/-- Settles O35, by the three answers of the flush; the empty phrase is never a key, so a phrase with a codeword is emitted. -/
theorem flushAnswersTheStream : Obligations.FlushAnswersTheStream := by
  intro s hf hv hl hok u
  refine ⟨fun hp => ?_, fun c hmem => ?_, fun hk z hz => ?_⟩
  · exact exec_lzeFlush_of_ok hf hl (Lze.flush_of_nil hp)
  · have hp : u.phrase ≠ [] := fun hp => hok.nonempty (hp ▸ mem_map_fst hmem)
    have hg : mapGet u.dict u.phrase = some c := mapGet_of_mem hok.keys hmem
    exact exec_lzeFlush_of_ok hf hl (Lze.flush_of_codeword (Config.Valid.pos hv) hp hg)
  · rw [exec_lzeFlush_of_error hl (Lze.flush_of_no_codeword hk hz)]
    exact command_lze_alphabetCoverage hf rfl word_lzeFlush z.toNat

/-- Settles O36: both sides complete with the encoder of `Lze.encode`, or hold its fault. -/
theorem encodeIsInitSymbolsFlush : Obligations.EncodeIsInitSymbolsFlush := by
  intro s alpha syms hf
  cases h : Lze.encode s.cfg alpha syms with
  | ok v =>
    obtain ⟨p, hexec, hp⟩ := exec_lzeEncode_of_ok hf h
    obtain ⟨u, hrun, hfault, rfl, q, hlast, hq⟩ := execAll_lzeInit_encodeCommands_of_ok hf h
    refine ⟨_, u, hexec, hrun, ?_, ?_, ?_, fun _ => ⟨p, q, rfl, hlast, hp, hq⟩⟩ <;> rw [hfault] <;> rfl
  | error r =>
    obtain ⟨t, hexec, c, ht⟩ := command_error_holdsFault (hd := .lzeEncode) hf r
    obtain ⟨u, hrun, d, hu⟩ := execAll_lzeInit_encodeCommands_of_error hf h
    refine ⟨t, u, (exec_lzeEncode_of_error h).trans hexec, hrun, ?_, ?_, ?_, fun hok => ?_⟩
    · rw [ht, hu]
    · rw [ht, hu]
    · rw [ht, hu]
    · rw [ht] at hok
      cases hok

/-- Settles O37: the command completes (`exec_lzeEncode`), no step touches the alphabet, and with no symbol the phrase is
empty at the flush. -/
theorem encodeOverTheAlphabetCompletes : Obligations.EncodeOverTheAlphabetCompletes := by
  intro s hf hv alpha syms h1 h256 hn hall hroom
  have ha : AlphabetOk alpha := ⟨h1, h256, hn⟩
  obtain ⟨u, v, p, hfeed, hflush, hok, hexec, hp⟩ := exec_lzeEncode hf hv ha hall hroom
  obtain ⟨-, halpha, hphrase, hout⟩ := Lze.fresh_fields (cfg := s.cfg) (Config.Valid.pos hv) ha
  refine ⟨v, p, hexec, hp, Lze.flush_live hflush, ?_, hok, fun hnil => ?_⟩
  · rw [Lze.flush_alpha hflush, Lze.feed_alpha hfeed, halpha]
  · subst hnil
    cases hfeed
    rw [Lze.flush_of_nil hphrase] at hflush
    cases hflush
    exact hout

/-- Settles O38: a fresh encoder is clean and over its alphabet, so the foreign byte ends the input (`Lze.Ok.foreign`). -/
theorem foreignByteEndsTheEncoding : Obligations.ForeignByteEndsTheEncoding := by
  intro s hf hv alpha before z after h1 h256 hn hall hz hroom
  have hw := Config.Valid.pos hv
  have ha : AlphabetOk alpha := ⟨h1, h256, hn⟩
  have hc : WithinCap s.cfg alpha.length := hroom.imp_right fun h => by omega
  obtain ⟨-, halpha, hphrase, -⟩ := Lze.fresh_fields (cfg := s.cfg) hw ha
  have hr : Room s.cfg (Lze.fresh s.cfg alpha) (before.length + 2) := by
    rw [Room, Lze.fresh_dict hw ha, seedEntries_length, ← Nat.add_assoc]
    exact hroom
  have henc : Lze.encode s.cfg alpha (before ++ z :: after) = .error ⟨.alphabetCoverage, z.toNat⟩ :=
    (Lze.encode_of_init (Lze.init_ok ha hc)).trans
      ((Lze.fresh_ok hw ha hc).foreign hw (.inl hphrase) (Lze.fresh_over hw ha) (halpha.symm ▸ hall) (halpha.symm ▸ hz) hr)
  rw [exec_lzeEncode_of_error henc]
  exact command_lze_alphabetCoverage hf rfl word_lzeEncode z.toNat

end Sys2Proof.Machine
end

section
/-! PROOFS. The LZW decoder (43_lzw_decoder.md): one equation for each answer of the decoder's operations, the commands in terms
of these operations, LZD_DECODE against the sequence of commands it stands for, and decoding what the encoder made. -/

namespace Sys2Proof.Machine

variable {cfg : Config} {s : State} {u v : Lzd} {alpha input seq q : List Byte} {limit : Option Nat} {r : Raise}

/-! ## Construction (R200, R210, R211) -/

theorem limitOk_none : LimitOk cfg input none := by rintro l ⟨⟩

theorem alphabetOk_singleton {a : Byte} : AlphabetOk [a] := ⟨by simp, by simp, List.nodup_singleton a⟩

theorem Lzd.init_ok (ha : AlphabetOk alpha) (hl : LimitOk cfg input limit) (hc : WithinCap cfg alpha.length) :
    Lzd.init cfg alpha input limit = .ok (Lzd.fresh cfg alpha input limit) := by
  rcases Lzd.init_cases (cfg := cfg) (alpha := alpha) (input := input) (limit := limit) with
    ⟨h, -⟩ | ⟨-, h, -⟩ | ⟨-, -, h, -⟩ | ⟨-, -, -, e⟩
  · exact absurd ha h
  · exact absurd hl h
  · exact absurd hc h
  · exact e

theorem Lzd.init_of_not_withinCap (ha : AlphabetOk alpha) (hl : LimitOk cfg input limit)
    (hc : ¬ WithinCap cfg alpha.length) : Lzd.init cfg alpha input limit = .error ⟨.capacityExceeded, 3⟩ := by
  rcases Lzd.init_cases (cfg := cfg) (alpha := alpha) (input := input) (limit := limit) with
    ⟨h, -⟩ | ⟨-, h, -⟩ | ⟨-, -, -, e⟩ | ⟨-, -, h, -⟩
  · exact absurd ha h
  · exact absurd hl h
  · exact e
  · exact absurd h hc

/-- A construction that completes has passed every check, and makes the seeded instance. -/
theorem Lzd.init_eq_ok (h : Lzd.init cfg alpha input limit = .ok u) :
    AlphabetOk alpha ∧ LimitOk cfg input limit ∧ WithinCap cfg alpha.length ∧ u = Lzd.fresh cfg alpha input limit := by
  rcases Lzd.init_cases (cfg := cfg) (alpha := alpha) (input := input) (limit := limit) with
    ⟨-, e⟩ | ⟨-, -, e⟩ | ⟨-, -, -, e⟩ | ⟨ha, hl, hc, e⟩ <;> rw [e] at h <;> cases h
  exact ⟨ha, hl, hc, rfl⟩

theorem Lzd.fresh_length_pos (hw : 0 < cfg.wordBits) (ha : AlphabetOk alpha) :
    0 < (Lzd.fresh cfg alpha input limit).dict.length := by
  rw [(Lzd.fresh_spec hw alpha input limit).1, codeEntries_length]
  exact ha.1

/-- An empty input has no words to read (R210). -/
theorem Lzd.fresh_limit_empty (hv : cfg.Valid) : (Lzd.fresh cfg alpha [] none).limit = 0 := by
  obtain ⟨-, -, -, -, -, -, hlimit, -⟩ := Lzd.fresh_spec (Config.Valid.pos hv) alpha [] none
  have hbytes : 0 < cfg.wordBits / 8 := Nat.div_pos hv.1 (by decide)
  rw [hlimit, Option.getD_none, inputWords, bbFromBytes_words_length, List.length_nil, ceilDiv_zero hbytes,
    Nat.zero_mul]

/-- The iterations of a seeded instance are bounded by the padded input (R207, R210). -/
theorem Lzd.fresh_measure_le (hv : cfg.Valid) (hl : LimitOk cfg input limit) (hc : WithinCap cfg alpha.length) :
    (Lzd.fresh cfg alpha input limit).measure ≤ ceilDiv input.length (cfg.wordBits / 8) * cfg.wordBits + 2 := by
  have hlim := (Lzd.fresh_ok hv hl hc).limit
  obtain ⟨-, -, -, -, -, hwords, -, -, hpend, -⟩ := Lzd.fresh_spec (Config.Valid.pos hv) alpha input limit
  rw [hwords, inputWords, bbFromBytes_words_length] at hlim
  rw [Lzd.measure, if_pos hpend]
  omega

/-! ## One iteration (R201 to R206) -/

/-- An insertion under the next codeword, which is the number of entries (R217). -/
theorem Lzd.Synced.insert_eq (hw : 0 < cfg.wordBits) (hu : u.Synced cfg) (seq : List Byte) :
    u.insert cfg seq = { u with
      dict := u.dict ++ [(u.dict.length, seq)], ctr := canon cfg.wordBits (u.dict.length + 1) } := by
  have hi := hu.insert hw seq
  have hd := hu.insert_dict seq
  refine Lzd.ext_fields rfl rfl hd ?_ rfl rfl rfl rfl rfl rfl
  rw [hi.ctr.eq_canon hw, ← hi.length, hd, List.length_append, List.length_singleton]

theorem Lzd.emitted_of_no_pending (hp : u.pending = none) :
    u.emitted cfg seq
      = { u with out := u.out ++ seq, width := bitlen u.dict.length, pending := some seq, pos := u.pos + u.width } := by
  rw [Lzd.emitted, hp]

theorem Lzd.Synced.emitted_of_pending (hw : 0 < cfg.wordBits) (hu : u.Synced cfg) (hp : u.pending = some q) :
    u.emitted cfg seq = { u with
      dict := u.dict ++ [(u.dict.length, q ++ seq.take 1)], ctr := canon cfg.wordBits (u.dict.length + 1),
      out := u.out ++ seq, width := bitlen (u.dict.length + 1), pending := some seq, pos := u.pos + u.width } := by
  simp only [Lzd.emitted, hp, hu.insert_eq hw, List.length_append, List.length_singleton]

/-- A codeword past the next entry, or the next entry with none pending. -/
theorem Lzd.Synced.resolve_of_corrupt (hu : u.Synced cfg) {c : Nat}
    (h : u.dict.length < c ∨ (c = u.dict.length ∧ u.pending = none)) :
    u.resolve cfg c = .error ⟨.corruptStream, c⟩ := by
  rcases hu.resolve_cases c with ⟨hc, -⟩ | ⟨hc, p, hp, -⟩ | ⟨-, -, e⟩
  · omega
  · rcases h with h | ⟨-, h⟩
    · omega
    · rw [hp] at h
      cases h
  · exact e

theorem Lzd.iterate_of_end (h : u.limit < u.pos + u.width) :
    u.iterate cfg = .ok ({ u with mode := .ended }, none) := by
  rw [Lzd.iterate, if_pos h]

theorem Lzd.iterate_of_unresolved (h : u.pos + u.width ≤ u.limit) (hr : u.resolve cfg (u.code cfg) = .error r) :
    u.iterate cfg = .error r := by
  rw [Lzd.code] at hr
  rw [Lzd.iterate, if_neg (by omega), hr, error_bind]

theorem Lzd.iterate_of_resolved (h : u.pos + u.width ≤ u.limit) (hr : u.resolve cfg (u.code cfg) = .ok seq)
    (hc : u.pending ≠ none → WithinCap cfg (u.dict.length + 1)) :
    u.iterate cfg = .ok (u.emitted cfg seq, some seq) := by
  rcases Lzd.iterate_cases (cfg := cfg) u with ⟨hl, -⟩ | ⟨-, r, hr', -⟩ | ⟨-, hp, hn, -⟩ | ⟨-, -, seq', hr', e⟩
  · omega
  · cases hr.symm.trans hr'
  · exact absurd (hc hp) hn
  · cases hr.symm.trans hr'
    exact e

theorem Lzd.iterate_of_not_withinCap (h : u.pos + u.width ≤ u.limit) (hr : u.resolve cfg (u.code cfg) = .ok seq)
    (hp : u.pending ≠ none) (hc : ¬ WithinCap cfg (u.dict.length + 1)) :
    u.iterate cfg = .error ⟨.capacityExceeded, 3⟩ := by
  rcases Lzd.iterate_cases (cfg := cfg) u with ⟨hl, -⟩ | ⟨-, r, hr', -⟩ | ⟨-, -, -, -, e⟩ | ⟨-, hn, -⟩
  · omega
  · cases hr.symm.trans hr'
  · exact e
  · exact absurd (hn hp) hc

/-! ## The commands (R211 to R213): a fault of the operation is the command's, and the rest is the response -/

/-- A fault of a command ends its unit's instance (60_exceptions.md R321); the response header as a numeral. -/
theorem command_error_send {hd : Head} {c : Byte} {w rh : BitVec 32} (hf : s.fault.faulted = false) (hw : hd.word = w)
    (hc : r.code.byte = c) (hr : responseHeader 0x01 c 0x0000 = rh) :
    command hd s (.error r)
      = .next (((s.endInstance (some hd.unit)).withFault ⟨true, c, r.info, w⟩).send ⟨rh, []⟩) := by
  subst hw hc hr
  exact command_error hf r

theorem exec_lzdInit_of_ok (hf : s.fault.faulted = false) (h : Lzd.init s.cfg alpha input limit = .ok u) :
    exec (.lzdInit alpha input limit) s = .next ((s.withLzd u).send ⟨0x00000000#32, []⟩) := by
  rw [exec, execLzdInit, h, ok_bind]
  exact command_ok_send hf header_zero (s.withLzd u) .none

theorem exec_lzdInit_of_error (h : Lzd.init s.cfg alpha input limit = .error r) :
    exec (.lzdInit alpha input limit) s = command (.lzdInit limit.isSome) s (.error r) := by
  rw [exec, execLzdInit, h, error_bind]

theorem exec_lzdStep_of_ended (hf : s.fault.faulted = false) (hm : s.lzd.mode = .ended) :
    exec .lzdStep s = .next (s.send ⟨0x00000001#32, []⟩) := by
  rw [exec, execLzdStep, hm]
  exact command_ok_send hf header_one s .none

theorem exec_lzdStep_of_end (hf : s.fault.faulted = false) (hm : s.lzd.mode = .active)
    (h : s.lzd.iterate s.cfg = .ok (u, none)) :
    exec .lzdStep s = .next ((s.withLzd u).send ⟨0x00000001#32, []⟩) := by
  rw [exec, execLzdStep, hm, h]
  exact command_ok_send hf header_one (s.withLzd u) .none

theorem exec_lzdStep_of_emitted (hf : s.fault.faulted = false) (hm : s.lzd.mode = .active)
    (h : s.lzd.iterate s.cfg = .ok (u, some seq)) : ∃ p, SendsBytes seq p ∧
    exec .lzdStep s = .next ((s.withLzd u).send ⟨0x00000000#32, p⟩) := by
  rw [exec, execLzdStep, hm, h]
  exact ⟨_, sendsBytes_payload (s.withLzd u) seq, command_ok_send hf header_zero (s.withLzd u) (.bytes seq)⟩

theorem exec_lzdStep_of_error (hm : s.lzd.mode = .active) (h : s.lzd.iterate s.cfg = .error r) :
    exec .lzdStep s = command .lzdStep s (.error r) := by
  rw [exec, execLzdStep, hm, h]
  rfl

/-- The operations LZD_DECODE runs, as one. -/
def Lzd.decode (cfg : Config) (alpha input : List Byte) (limit : Option Nat) : Except Raise Lzd := do
  let u ← Lzd.init cfg alpha input limit
  Lzd.run cfg (u.limit + 2) u

theorem exec_lzdDecode_eq_command : exec (.lzdDecode alpha input limit) s
    = command (.lzdDecode limit.isSome) s
        (Lzd.decode s.cfg alpha input limit >>= fun u => .ok (s.withLzd u, ⟨0x0000, .bytes u.out⟩)) := by
  rw [exec, execLzdDecode, Lzd.decode]
  cases Lzd.init s.cfg alpha input limit <;> rfl

theorem exec_lzdDecode_of_ok (hf : s.fault.faulted = false) (h : Lzd.decode s.cfg alpha input limit = .ok u) : ∃ p,
    exec (.lzdDecode alpha input limit) s = .next ((s.withLzd u).send ⟨0x00000000#32, p⟩) ∧ SendsBytes u.out p := by
  rw [exec_lzdDecode_eq_command, h, ok_bind]
  exact ⟨_, command_ok_send hf header_zero (s.withLzd u) (.bytes u.out), sendsBytes_payload (s.withLzd u) _⟩

theorem exec_lzdDecode_of_error (h : Lzd.decode s.cfg alpha input limit = .error r) :
    exec (.lzdDecode alpha input limit) s = command (.lzdDecode limit.isSome) s (.error r) := by
  rw [exec_lzdDecode_eq_command, h, error_bind]

/-- `exec_lzdDecode`, on a CORE whose parameters are given by name. -/
theorem exec_lzdDecode_of_runs (hcfg : s.cfg = cfg) (hf : s.fault.faulted = false) (hv : cfg.Valid)
    (ha : AlphabetOk alpha) (hl : LimitOk cfg input limit) (hc : WithinCap cfg alpha.length)
    (hr : Lzd.Runs cfg (Lzd.fresh cfg alpha input limit) (.ok v)) : ∃ p,
    exec (.lzdDecode alpha input limit) s = .next ((s.withLzd v).send ⟨0x00000000#32, p⟩) ∧ SendsBytes v.out p := by
  subst hcfg
  exact exec_lzdDecode hf hv ha hl hc hr

/-! ## The sequence LZD_INIT, LZD_STEP until END (R213) -/

/-- The commands LZD_DECODE stands for, with `m` steps. -/
def decodeCommands (alpha input : List Byte) (limit : Option Nat) (m : Nat) : List Instr :=
  .lzdInit alpha input limit :: List.replicate m .lzdStep

/-- The steps from the instance LZD_INIT makes do what `Lzd.run` does. -/
theorem execAll_decodeCommands_of_init (hf : s.fault.faulted = false) (hv : s.cfg.Valid) {m : Nat}
    (hm : ceilDiv input.length (s.cfg.wordBits / 8) * s.cfg.wordBits + 2 ≤ m)
    (hinit : Lzd.init s.cfg alpha input limit = .ok u) :
    (∀ v, Lzd.run s.cfg (u.limit + 2) u = .ok v →
      ∃ rs, execAll (decodeCommands alpha input limit m) s = .next (s.atLzd v rs)) ∧
    (∀ r, Lzd.run s.cfg (u.limit + 2) u = .error r →
      ∃ t, execAll (decodeCommands alpha input limit m) s = .next t ∧ t.HoldsFault r) := by
  obtain ⟨ha, hl, hc, rfl⟩ := Lzd.init_eq_ok hinit
  have hw := Config.Valid.pos hv
  obtain ⟨hok, herr⟩ := execAll_lzd_runs hw (Lzd.fresh_runs hv ha hl hc)
    (s := (s.withLzd (Lzd.fresh s.cfg alpha input limit)).send ⟨0x00000000#32, []⟩) rfl rfl hf (Lzd.init_mode hinit)
    (Lzd.fresh_ok hv hl hc) (Lzd.fresh_length_pos hw ha) ((Lzd.fresh_measure_le hv hl hc).trans hm)
  rw [decodeCommands, execAll_cons_next (exec_lzdInit_of_ok hf hinit)]
  refine ⟨hok, fun r hr => ?_⟩
  obtain ⟨t, hexec, hfault, hcode, hinfo⟩ := herr r hr
  exact ⟨t, hexec, t.fault.cmd, by rw [← hfault, ← hcode, ← hinfo]⟩

theorem execAll_decodeCommands_of_error (hf : s.fault.faulted = false) (hv : s.cfg.Valid) {m : Nat}
    (hm : ceilDiv input.length (s.cfg.wordBits / 8) * s.cfg.wordBits + 2 ≤ m)
    (h : Lzd.decode s.cfg alpha input limit = .error r) :
    ∃ t, execAll (decodeCommands alpha input limit m) s = .next t ∧ t.HoldsFault r := by
  rcases bind_error h with hinit | ⟨u, hinit, hrun⟩
  · obtain ⟨t, hexec, ht⟩ := command_error_holdsFault (hd := .lzdInit limit.isSome) hf r
    refine execAll_append_holdsFault (is := [.lzdInit alpha input limit]) (by simp) ?_ ht
    rw [execAll_singleton, exec_lzdInit_of_error hinit, hexec]
  · exact (execAll_decodeCommands_of_init hf hv hm hinit).2 r hrun

/-! ## Decoding what the encoder made (R214 to R216) -/

section
variable {x : List Byte} {e e' : Lze}

/-- With the stream's bit count as the limit, the decoder gives the encoder's input back. -/
theorem Lzd.fresh_runs_limited (hv : cfg.Valid) (ha : AlphabetOk alpha) (hc : WithinCap cfg alpha.length)
    (hx : alpha.length = 1 → x ≠ []) (hfeed : (Lze.fresh cfg alpha).feed cfg x = .ok e)
    (hflush : e.flush cfg = .ok e') (ho : StreamOk cfg.wordBits e'.out) :
    ∃ v, Lzd.Runs cfg (Lzd.fresh cfg alpha (bbToBytes cfg.wordBits e'.out) (some e'.out.bitCount)) (.ok v) ∧
      v.out = x := by
  have hw := Config.Valid.pos hv
  have hl := limitOk_bitCount hv e'.out (ho.covered hw)
  obtain ⟨pad, hbits⟩ := cat_inputWords hv e'.out
  obtain ⟨-, -, -, -, hwidth, hwords, hlimit, -, -, hout⟩ :=
    Lzd.fresh_spec hw alpha (bbToBytes cfg.wordBits e'.out) (some e'.out.bitCount)
  obtain ⟨-, -, hphrase, -⟩ := Lze.fresh_fields (cfg := cfg) hw ha
  have hpos (hn : x = []) : 0 < bitlen (alpha.length - 1) := by
    have hone : alpha.length ≠ 1 := fun h => hx h hn
    exact bitlen_pos (by have := ha.1; omega)
  obtain ⟨v, hr, hvo⟩ := (inStep_fresh hv ha hc hl).runs hw (Lzd.fresh_length_pos hw ha)
    (fun hn => by rw [hwidth]; exact hpos (List.append_eq_nil_iff.1 hn).2) hfeed hflush (by rw [hwords]; exact hbits)
    (by rw [hlimit, sbits_length (ho.covered hw)]; rfl)
  exact ⟨v, hr, by rw [hvo, hout, hphrase]; rfl⟩

/-- What a decoder that was given no limit makes of the encoder's stream: the input, and `k` copies of the first symbol,
one for each further read that fits in the padding. -/
def ReadsPadding (cfg : Config) (a : Byte) (x : List Byte) (e : Lze) (v : Lzd) (k : Nat) : Prop :=
  v.out = x ++ List.replicate k a ∧
  e.out.bitCount + readWidths e.dict.length k ≤ e.out.words.length * cfg.wordBits ∧
  e.out.words.length * cfg.wordBits < e.out.bitCount + readWidths e.dict.length (k + 1)

/-- The empty input has no stream and no padding, so the decoder stops at once. -/
theorem Lzd.fresh_runs_of_nil (hv : cfg.Valid) {a : Byte} (ha : AlphabetOk (a :: alpha)) (hne : alpha ≠ [])
    (hflush : (Lze.fresh cfg (a :: alpha)).flush cfg = .ok e') :
    ∃ v, Lzd.Runs cfg (Lzd.fresh cfg (a :: alpha) (bbToBytes cfg.wordBits e'.out) none) (.ok v) ∧
      ReadsPadding cfg a [] e' v 0 := by
  have hw := Config.Valid.pos hv
  obtain ⟨-, -, hphrase, hout⟩ := Lze.fresh_fields (cfg := cfg) hw ha
  have hdict := Lze.fresh_dict (cfg := cfg) hw ha
  rw [Lze.flush_of_nil hphrase, hout] at hflush
  cases hflush
  have hbytes : bbToBytes cfg.wordBits ⟨[], 0⟩ = [] := List.take_nil
  dsimp only
  rw [hbytes]
  obtain ⟨-, -, -, -, hwidth, -, -, hpos, -, hvo⟩ := Lzd.fresh_spec hw (a :: alpha) [] none
  have hn : 0 < alpha.length := List.length_pos_iff.2 hne
  refine ⟨_, .done (Lzd.iterate_of_end ?_), hvo, ?_, ?_⟩
  · rw [Lzd.fresh_limit_empty hv, hpos, hwidth, Nat.zero_add]
    exact bitlen_pos (by simpa using hn)
  · simp [readWidths]
  · simp [readWidths, hdict, bitlen_pos]

/-- A stream with a codeword: the decoder reads it in step with the encoder, and then reads the zeros after it. -/
theorem Lzd.fresh_runs_of_ne_nil (hv : cfg.Valid) (hcap : cfg.dictCap = 0) {a : Byte} (ha : AlphabetOk (a :: alpha))
    (hx : x ≠ []) (hfeed : (Lze.fresh cfg (a :: alpha)).feed cfg x = .ok e) (hflush : e.flush cfg = .ok e')
    (ho : StreamOk cfg.wordBits e'.out) :
    ∃ v k, Lzd.Runs cfg (Lzd.fresh cfg (a :: alpha) (bbToBytes cfg.wordBits e'.out) none) (.ok v) ∧
      ReadsPadding cfg a x e' v k := by
  have hw := Config.Valid.pos hv
  have hcov := ho.covered hw
  obtain ⟨hlen, hbits⟩ := cat_inputWords_zeros hv ho
  obtain ⟨hdict, -, -, -, -, hwords, hlimit, -, -, hout⟩ :=
    Lzd.fresh_spec hw (a :: alpha) (bbToBytes cfg.wordBits e'.out) none
  obtain ⟨-, -, hphrase, -⟩ := Lze.fresh_fields (cfg := cfg) hw ha
  rw [Option.getD_none, hlen] at hlimit
  rw [← hwords] at hbits
  obtain ⟨w, hreach, hwok, hwo, hwpos, hwwords, hwlimit, hwpend, hwlen, hpre⟩ :=
    (inStep_fresh hv ha (.inl hcap) limitOk_none).reaches hw (by simpa [hphrase] using hx) hfeed hflush hbits
      (by rw [hlimit, sbits_length hcov]; exact hcov)
  rw [sbits_length hcov] at hwpos
  have hzero : mapGet w.dict 0 = some [a] := by
    refine mapGet_of_mem hwok.synced.keys_nodup (hpre.subset ?_)
    rw [hdict]
    simp [codeEntries]
  obtain ⟨k, v, hr, hvo, hle, hlt⟩ := hwok.runs_zeros hw hcap le_rfl hwpend hzero
    (by rw [hwwords, hwpos, hbits, List.drop_left' (sbits_length hcov)])
    (by rw [hwlimit, hlimit, hwwords, hwords, cat_length, hlen])
  rw [hwlimit, hlimit, hwpos, hwlen] at hle hlt
  refine ⟨v, k, hreach _ hr, ?_, hle, hlt⟩
  rw [hvo, hwo, hout, hphrase]
  rfl

/-- Without a limit the decoder gives the encoder's input back, and reads the padding (R216). -/
theorem Lzd.fresh_runs_unlimited (hv : cfg.Valid) (hcap : cfg.dictCap = 0) {a : Byte} (ha : AlphabetOk (a :: alpha))
    (hx : alpha = [] → x ≠ []) (hfeed : (Lze.fresh cfg (a :: alpha)).feed cfg x = .ok e)
    (hflush : e.flush cfg = .ok e') (ho : StreamOk cfg.wordBits e'.out) :
    ∃ v k, Lzd.Runs cfg (Lzd.fresh cfg (a :: alpha) (bbToBytes cfg.wordBits e'.out) none) (.ok v) ∧
      ReadsPadding cfg a x e' v k := by
  cases x with
  | nil =>
    cases hfeed
    obtain ⟨v, h⟩ := Lzd.fresh_runs_of_nil hv ha (fun hnil => hx hnil rfl) hflush
    exact ⟨v, 0, h⟩
  | cons b x => exact Lzd.fresh_runs_of_ne_nil hv hcap ha (List.cons_ne_nil b x) hfeed hflush ho

/-- Over one symbol the first iteration reads no bits and emits the symbol (R207). -/
theorem Lzd.fresh_runs_one_symbol (hv : cfg.Valid) (hcap : cfg.dictCap = 0) (a : Byte) :
    ∃ v, Lzd.Runs cfg (Lzd.fresh cfg [a] [] none) (.ok v) ∧ v.out = [a] := by
  have hw := Config.Valid.pos hv
  have hok : (Lzd.fresh cfg [a] [] none).Ok cfg := Lzd.fresh_ok hv limitOk_none (.inl hcap)
  obtain ⟨hdict, -, -, -, hwidth, -, -, hpos, hpend, hout⟩ := Lzd.fresh_spec hw [a] [] none
  have hle : (Lzd.fresh cfg [a] [] none).pos + (Lzd.fresh cfg [a] [] none).width
      ≤ (Lzd.fresh cfg [a] [] none).limit := by
    rw [hpos, hwidth]
    exact Nat.zero_le _
  have hcode : (Lzd.fresh cfg [a] [] none).code cfg = 0 := by
    rw [Lzd.code, hwidth]
    rfl
  have hres := hok.resolve_of (c := 0) (seq := [a]) (.inl (by simp [hdict, codeEntries]))
  have hi := Lzd.iterate_of_resolved hle (hcode.symm ▸ hres) (fun h => absurd hpend h)
  have hlen : 0 < ((Lzd.fresh cfg [a] [] none).emitted cfg [a]).dict.length := by
    rw [hok.synced.emitted_length, hdict]
    exact Nat.succ_pos _
  have hstop := (hok.iterate hw hi).iterate_end hlen (by rw [Lzd.emitted_pending]; exact Option.some_ne_none _)
    (by rw [Lzd.emitted_limit, Lzd.fresh_limit_empty hv]; exact Nat.zero_le _)
  exact ⟨_, .more hi (.done hstop), by rw [Lzd.emitted_out, hout]; rfl⟩

end

/-! ## The obligations -/

/-- Settles O39: the decoder a good alphabet makes, field by field (`Lzd.fresh_eq`). -/
theorem initSeedsTheDecoder : Obligations.InitSeedsTheDecoder := by
  intro s hf hv alpha input limit h1 h256 hn ws hl
  have ha : AlphabetOk alpha := ⟨h1, h256, hn⟩
  refine ⟨fun hc => ?_, fun hc => ?_⟩
  · have hexec := exec_lzdInit_of_ok hf (Lzd.init_ok ha hl hc)
    rw [Lzd.fresh_eq (Config.Valid.pos hv)] at hexec
    exact hexec
  · rw [exec_lzdInit_of_error (Lzd.init_of_not_withinCap ha hl hc)]
    exact command_error_send hf (word_lzdInit_isSome limit) rfl header_fault8

/-- Settles O40, by the answers of one iteration; what a codeword resolves to is `Lzd.Ok.resolve_of`. -/
theorem iterationOfTheDecoder : Obligations.IterationOfTheDecoder := by
  intro s hf hv hok u n c
  have hw := Config.Valid.pos hv
  refine ⟨exec_lzdStep_of_ended hf, fun hm hend => exec_lzdStep_of_end hf hm (Lzd.iterate_of_end hend),
    fun hm hle => ⟨fun seq hseq => ?_, fun hc => ?_⟩⟩
  · have hres : u.resolve s.cfg (u.code s.cfg) = .ok seq := hok.resolve_of hseq
    refine ⟨fun hp => ?_, fun q hp hcap => ?_, fun hp hcap => ?_⟩
    · have hi := Lzd.iterate_of_resolved hle hres (fun h => absurd hp h)
      rw [Lzd.emitted_of_no_pending hp] at hi
      exact exec_lzdStep_of_emitted hf hm hi
    · have hi := Lzd.iterate_of_resolved hle hres (fun _ => hcap)
      rw [hok.synced.emitted_of_pending hw hp] at hi
      exact exec_lzdStep_of_emitted hf hm hi
    · rw [exec_lzdStep_of_error hm (Lzd.iterate_of_not_withinCap hle hres hp hcap)]
      exact command_error_send hf word_lzdStep rfl header_fault8
  · rw [exec_lzdStep_of_error hm (Lzd.iterate_of_unresolved hle (hok.synced.resolve_of_corrupt hc))]
    exact command_error_send hf word_lzdStep rfl header_fault2

/-- Settles O41: both sides complete with the decoder of `Lzd.decode`, or hold its fault. -/
theorem decodeIsInitAndIterations : Obligations.DecodeIsInitAndIterations := by
  intro s alpha input limit m hf hv hm
  cases h : Lzd.decode s.cfg alpha input limit with
  | ok v =>
    obtain ⟨u, hinit, hrun⟩ := bind_ok h
    obtain ⟨p, hexec, hp⟩ := exec_lzdDecode_of_ok hf h
    obtain ⟨rs, hall⟩ := (execAll_decodeCommands_of_init hf hv hm hinit).1 v hrun
    exact ⟨_, _, hexec, hall, rfl, rfl, rfl, fun _ => ⟨Lzd.decode_mode hv hinit hrun, p, rfl, hp⟩⟩
  | error r =>
    obtain ⟨t, hexec, c, ht⟩ := command_error_holdsFault (hd := .lzdDecode limit.isSome) hf r
    obtain ⟨u, hall, d, hu⟩ := execAll_decodeCommands_of_error hf hv hm h
    refine ⟨t, u, (exec_lzdDecode_of_error h).trans hexec, hall, ?_, ?_, ?_, fun hok => ?_⟩
    · rw [ht, hu]
    · rw [ht, hu]
    · rw [ht, hu]
    · rw [ht] at hok
      cases hok

/-- Settles O42: the encoder completes, and the decoder runs in step with it to the end of the stream
(`Lzd.fresh_runs_limited`). -/
theorem lzwRoundTrip : Obligations.LzwRoundTrip := by
  intro s s' hf hf' hv hcfg alpha x h1 h256 hn hall hx hroom
  have hw := Config.Valid.pos hv
  have ha : AlphabetOk alpha := ⟨h1, h256, hn⟩
  have hc : WithinCap s.cfg alpha.length := hroom.imp_right fun h => by omega
  obtain ⟨e, e', p, hfeed, hflush, hok, hexec, hp⟩ := exec_lzeEncode hf hv ha hall hroom
  obtain ⟨v, hr, rfl⟩ := Lzd.fresh_runs_limited hv ha hc hx hfeed hflush hok.out
  obtain ⟨q, hexec', hq⟩ :=
    exec_lzdDecode_of_runs hcfg hf' hv ha (limitOk_bitCount hv e'.out (hok.out.covered hw)) hc hr
  exact ⟨e', p, hexec, hp, v, q, hexec', rfl, hq⟩

/-- Settles O43: after the stream the decoder reads the zeros of its padding (`Lzd.fresh_runs_unlimited`), of which the
empty stream has none; one symbol needs no stream at all (`Lzd.fresh_runs_one_symbol`). -/
theorem decodingReadsThePadding : Obligations.DecodingReadsThePadding := by
  intro s s' hf hf' hv hcfg hcap
  refine ⟨fun a alpha x h256 hn hall hx => ?_, fun a => ?_⟩
  · have ha : AlphabetOk (a :: alpha) := ⟨by simp, h256, hn⟩
    obtain ⟨e, e', p, hfeed, hflush, hok, hexec, -⟩ := exec_lzeEncode hf hv ha hall (.inl hcap)
    obtain ⟨v, k, hr, hout, hle, hlt⟩ := Lzd.fresh_runs_unlimited hv hcap ha hx hfeed hflush hok.out
    obtain ⟨q, hexec', hq⟩ := exec_lzdDecode_of_runs hcfg hf' hv ha limitOk_none (.inl hcap) hr
    exact ⟨e', p, hexec, v, q, k, hexec', hout, hout ▸ hq, hle, hlt⟩
  · obtain ⟨v, hr, hout⟩ := Lzd.fresh_runs_one_symbol hv hcap a
    obtain ⟨q, hexec, hq⟩ := exec_lzdDecode_of_runs hcfg hf' hv alphabetOk_singleton limitOk_none (.inl hcap) hr
    exact ⟨v, q, hexec, hout, hout ▸ hq⟩

end Sys2Proof.Machine
end

section
/-! PROOFS. The Huffman tree engine (44_huffman_tree.md): the leaves a load makes, the commands in terms of the engine's
operations, the merges from a table to its finished tree, and the codewords of a finished tree. -/

namespace Sys2Proof.Machine

variable {wb : Nat} {s : State} {f : List Nat} {h u : Hft} {l : Leaf} {b : Byte} {r : Raise}

/-! ## Loading (R231, R238, R240) -/

/-- The leaf of a byte is fixed by its count. -/
theorem mem_leavesOf_iff_count (hf : f.length ≤ 256) :
    l ∈ leavesOf f ↔ ∃ n, f[l.sym.toNat]? = some n ∧ 0 < n ∧ l = ⟨⟨[], 0⟩, l.sym, l.sym, n⟩ := by
  rw [mem_leavesOf]
  constructor
  · rintro ⟨i, n, hi, hn, rfl⟩
    have hlt := (List.getElem?_eq_some_iff.1 hi).1
    have hsym : (BitVec.ofNat 8 i).toNat = i := by rw [BitVec.toNat_ofNat, Nat.mod_eq_of_lt (by omega)]
    exact ⟨n, by rwa [hsym], hn, rfl⟩
  · rintro ⟨n, hn, hpos, hl⟩
    exact ⟨l.sym.toNat, n, hn, hpos, by rwa [BitVec.ofNat_toNat, BitVec.setWidth_eq]⟩

theorem Hft.load_of_sum_zero (hs : f.sum = 0) : Hft.load f = .error ⟨.degenerateTree, 0⟩ := by
  rw [Hft.load, if_pos hs]

theorem Hft.loaded_leaves_length : (Hft.loaded f).leaves.length = (f.filter (fun n => 0 < n)).length :=
  (sortLeaves_perm _).length_eq.trans (leavesOf_length f)

/-- Every leaf of a loaded table is a subtree of its own. -/
theorem Hft.loaded_subtreeIds_length (hf : f.length ≤ 256) :
    (subtreeIds (Hft.loaded f).leaves).length = (f.filter (fun n => 0 < n)).length := by
  rw [subtreeIds_of_nodup (Hft.loaded_ids hf), List.length_map, Hft.loaded_leaves_length]

theorem buildTree_eq_finish (hs : 0 < f.sum) :
    buildTree wb f = .ok ((Hft.loaded f).finish wb (f.filter (fun n => 0 < n)).length) := by
  rw [buildTree, Hft.load_eq hs, ok_bind, Hft.loaded_leaves_length]

/-! ## One step (R233 to R236) -/

/-- Construction is finished where a leaf weighs the total, or where there is no second subtree. -/
theorem Hft.select_eq_none
    (hend : (∃ l ∈ h.leaves, l.weight = h.total) ∨ ∀ l ∈ h.leaves, ∀ m ∈ h.leaves, l.id = m.id) : h.select = none := by
  cases hs : h.select with
  | none => rfl
  | some p =>
    have hsel := Hft.select_some (m1 := p.1) (m2 := p.2) hs
    rcases hend with ⟨l, hl, hw⟩ | hone
    · exact absurd hw (hsel.unfinished l hl)
    · exact absurd (hone _ hsel.mem2 _ hsel.mem1) hsel.ne

theorem Hft.step_of_select_none (hs : h.select = none) : h.step wb = ({ h with mode := .done }, true) := by
  rw [Hft.step, hs]

theorem Hft.step_of_select_some {m1 m2 : Leaf} (hs : h.select = some (m1, m2)) :
    h.step wb = ({ h with leaves := merged wb m1 m2 h.leaves, merges := h.merges + 1 }, false) := by
  rw [Hft.step, hs]
  rfl

theorem mergeLeaf_of_lo {lo hi : Byte} {w : Nat} (hl : l.id = lo) :
    mergeLeaf wb lo hi w l = { l with code := bbPushLeadingBit wb false l.code, weight := w } := if_pos hl

theorem mergeLeaf_of_hi {lo hi : Byte} {w : Nat} (h1 : l.id ≠ lo) (h2 : l.id = hi) :
    mergeLeaf wb lo hi w l = { l with code := bbPushLeadingBit wb true l.code, id := lo, weight := w } :=
  (if_neg h1).trans (if_pos h2)

theorem mergeLeaf_of_other {lo hi : Byte} {w : Nat} (h1 : l.id ≠ lo) (h2 : l.id ≠ hi) : mergeLeaf wb lo hi w l = l :=
  (if_neg h1).trans (if_neg h2)

/-! ## The commands (R240 to R242) -/

theorem exec_hftLoad_of_ok (hf : s.fault.faulted = false) (hl : Hft.load f = .ok u) :
    exec (.hftLoad f) s = .next ((s.withHft u).send ⟨0x00000000#32, []⟩) := by
  rw [exec, execHftLoad, hl, ok_bind]
  exact command_ok_send hf header_zero (s.withHft u) .none

theorem exec_hftLoad_of_error (hl : Hft.load f = .error r) :
    exec (.hftLoad f) s = command .hftLoad s (.error r) := by
  rw [exec, execHftLoad, hl, error_bind]

theorem exec_hftStep_of_done (hf : s.fault.faulted = false) (hm : s.hft.mode = .done) :
    exec .hftStep s = .next (s.send ⟨0x00000001#32, []⟩) := by
  rw [exec, execHftStep, hm]
  exact command_ok_send hf header_one s .none

theorem exec_hftStep_of_finished (hf : s.fault.faulted = false) (hm : s.hft.mode = .building)
    (hu : s.hft.step s.cfg.wordBits = (u, true)) :
    exec .hftStep s = .next ((s.withHft u).send ⟨0x00000001#32, []⟩) := by
  rw [exec, execHftStep, hm, hu]
  exact command_ok_send hf header_one (s.withHft u) .none

theorem exec_hftStep_of_merged (hf : s.fault.faulted = false) (hm : s.hft.mode = .building)
    (hu : s.hft.step s.cfg.wordBits = (u, false)) :
    exec .hftStep s = .next ((s.withHft u).send ⟨0x00000000#32, []⟩) := by
  rw [exec, execHftStep, hm, hu]
  exact command_ok_send hf header_zero (s.withHft u) .none

theorem exec_hftTable_of_done (hf : s.fault.faulted = false) (hm : s.hft.mode = .done) :
    exec .hftTable s = .next (s.send ⟨0x00000000#32, s.payload (.table s.hft.table)⟩) := by
  rw [exec, execHftTable, if_pos hm]
  exact command_ok_send hf header_zero s (.table s.hft.table)

/-! ## The table (R242) -/

theorem Hft.table_length : h.table.length = 256 := by rw [Hft.table, List.length_map, List.length_range]

theorem Hft.table_get (h : Hft) (b : Byte) : h.table[b.toNat]? = some (h.codeword b) := by
  rw [Hft.table, List.getElem?_map, List.getElem?_range b.isLt, Option.map_some, BitVec.ofNat_toNat,
    BitVec.setWidth_eq]

/-- Every length field of a table fits, as no codeword is longer than 255 bits (R245). -/
theorem Hft.Ok.table_fits (hv : 8 ≤ wb) (ho : h.Ok wb) (hm : h.mode ≠ .idle) : h.table.all fitsBB = true := by
  rw [List.all_eq_true]
  intro c hc
  obtain ⟨i, -, rfl⟩ := List.mem_map.1 hc
  obtain ⟨hbits, hwords⟩ := ho.codeword_small hv hm (BitVec.ofNat 8 i)
  exact Bool.and_eq_true_iff.2 ⟨decide_eq_true (by omega), decide_eq_true (by omega)⟩

theorem payload_table {t : List BitBuffer} (ht : t.all fitsBB = true) :
    s.payload (.table t) = t.flatMap (encodeBB s.cfg.wordBits) := by
  rw [State.payload, resultPayload, if_pos ht, Option.getD_some]

/-! ## The codewords of a finished tree (R239, R245) -/

theorem TreeOf.present_iff_count (ht : TreeOf wb f h) (hf : f.length ≤ 256) (b : Byte) :
    h.Present b ↔ ∃ n, f[b.toNat]? = some n ∧ 0 < n := by
  rw [Hft.Present, ht.symbols.mem_iff, mem_leavesOf_sym hf]

theorem TreeOf.leaves_length (ht : TreeOf wb f h) : h.leaves.length = (f.filter (fun n => 0 < n)).length := by
  rw [← leavesOf_length]
  simpa using ht.symbols.length_eq

/-- A finished tree of `k` leaves was made by `k - 1` merges. -/
theorem TreeOf.merges_eq (ht : TreeOf wb f h) : h.merges = (f.filter (fun n => 0 < n)).length - 1 := by
  have hone := ht.ok.finished ht.done
  have hsum := ht.ok.merges
  rw [ht.leaves_length] at hsum
  omega

/-- Where two leaves or more make one tree, none of them is its root. -/
theorem Hft.Ok.code_pos_of_done (hv : 0 < wb) (ho : h.Ok wb) (hd : h.mode = .done) (h2 : 2 ≤ h.leaves.length)
    (hl : l ∈ h.leaves) : 0 < l.code.bitCount := by
  have hcard : 1 < (h.leaves.map (·.sym)).toFinset.card := by
    rwa [List.toFinset_card_of_nodup ho.symbols, List.length_map]
  obtain ⟨c, hc, hne⟩ := Finset.exists_mem_ne hcard l.sym
  obtain ⟨m, hm, rfl⟩ := List.mem_map.1 (List.mem_toFinset.1 hc)
  exact ho.code_pos hv hl hm (Hft.Ok.one_subtree (ho.finished hd) hl hm) hne.symm

/-- There a codeword is its leaf's own code: the only-symbol case of R239 cannot arise. -/
theorem Hft.Ok.codeword_eq_code (hv : 0 < wb) (ho : h.Ok wb) (hd : h.mode = .done) (h2 : 2 ≤ h.leaves.length)
    (hl : l ∈ h.leaves) : h.codeword l.sym = l.code := by
  rw [ho.codeword_leaf hl, if_pos (ho.code_pos_of_done hv hd h2 hl)]

/-- The codewords of a finished tree are complete: a long enough bit string begins with one (R245). -/
theorem TreeOf.exists_prefix (hv : 0 < wb) (ht : TreeOf wb f h) (h2 : 2 ≤ h.leaves.length) {bits : Bits}
    (hlong : ∀ b, h.Present b → (h.bits wb b).length ≤ bits.length) : ∃ b, h.Present b ∧ h.bits wb b <+: bits := by
  have hcode : ∀ m ∈ h.leaves, h.bits wb m.sym = vbits wb m.code := fun m hm => by
    rw [Hft.bits, ht.ok.codeword_eq_code hv ht.done h2 hm]
  obtain ⟨l, hl⟩ := List.exists_mem_of_ne_nil _ ht.leaves_ne_nil
  obtain ⟨m, hm, -, hp⟩ := ht.ok.full l hl bits fun m hm _ => by
    rw [← hcode m hm]
    exact hlong _ (List.mem_map_of_mem hm)
  exact ⟨m.sym, List.mem_map_of_mem hm, by rwa [hcode m hm]⟩

/-- A tree made without a merge has the codeword "0" (R239). -/
theorem Hft.Ok.codeword_of_no_merges (ho : h.Ok wb) (hm : h.merges = 0) (hp : h.Present b) :
    h.codeword b = ⟨[0], 1⟩ := by
  obtain ⟨l, hl, rfl⟩ := List.mem_map.1 hp
  have hdepth := ho.depth l hl
  rw [ho.codeword_leaf hl, if_neg (by omega)]

/-- Each bit of a codeword is from a merge (R237). -/
theorem Hft.Ok.codeword_bitCount_le (hv : 0 < wb) (ho : h.Ok wb) (hd : h.mode = .done) (h2 : 2 ≤ h.leaves.length)
    (hp : h.Present b) : (h.codeword b).bitCount ≤ h.merges := by
  obtain ⟨l, hl, rfl⟩ := List.mem_map.1 hp
  rw [ho.codeword_eq_code hv hd h2 hl]
  exact ho.depth l hl

/-! ## The obligations -/

/-- Settles O44: a load sorts the leaves of the counts (`mem_leavesOf_iff_count`, `sortLeaves_lex`). -/
theorem loadMakesTheLeaves : Obligations.LoadMakesTheLeaves := by
  intro s hs f hf
  refine ⟨fun h0 => ?_, fun hpos => ?_⟩
  · rw [exec_hftLoad_of_error (Hft.load_of_sum_zero h0)]
    exact command_error_send hs word_hftLoad rfl header_fault3
  · refine ⟨sortLeaves (leavesOf f), exec_hftLoad_of_ok hs (Hft.load_eq hpos), fun l => ?_,
      sortLeaves_lex (leavesOf_sorted hf.le)⟩
    rw [mem_sortLeaves, mem_leavesOf_iff_count hf.le]

/-- Settles O45, by what the step selects; a merge maps each leaf by `mergeLeaf`. -/
theorem mergeStepOfTheTree : Obligations.MergeStepOfTheTree := by
  intro s hf hv ho h
  have hw := Config.Valid.pos hv
  refine ⟨exec_hftStep_of_done hf, fun hm hend =>
    exec_hftStep_of_finished hf hm (Hft.step_of_select_none (Hft.select_eq_none hend)), ?_⟩
  intro hm hun before m1 after hleaves hb1 ha1 before2 m2 after2 hrest hb2 ha2
  have hmem : m1 ∈ h.leaves := by
    rw [hleaves]
    exact List.mem_append_right _ List.mem_cons_self
  have hsel : h.select = some (m1, m2) := by
    refine Hft.select_eq hun ?_ ?_ (ho.positive m1 hmem)
    · rw [hleaves]
      exact firstLightest_eq hb1 ha1
    · rw [hrest]
      exact firstLightest_eq hb2 ha2
  refine ⟨_, exec_hftStep_of_merged hf hm (Hft.step_of_select_some hsel), forall2_map fun l hl => ?_⟩
  have hc := ho.codes l hl
  split
  next h1 =>
    rw [mergeLeaf_of_lo h1]
    exact ⟨rfl, h1, rfl, hc.push hw false, vbits_push hw false (hc.capacity hw)⟩
  next h1 =>
    split
    next h2 =>
      rw [mergeLeaf_of_hi h1 h2]
      exact ⟨rfl, rfl, rfl, hc.push hw true, vbits_push hw true (hc.capacity hw)⟩
    next h2 => exact mergeLeaf_of_other h1 h2

/-- Settles O46: the table holds each byte's codeword, and no length field of it is too long to send. -/
theorem tableOfTheTree : Obligations.TableOfTheTree := by
  intro s hf hv ho hd
  have hfits := ho.table_fits hv.1 (by rw [hd]; decide)
  refine ⟨_, _, exec_hftTable_of_done hf hd, payload_table hfits, Hft.table_length, fun b =>
    ⟨_, Hft.table_get s.hft b, ?_, fun hb => Hft.codeword_absent ?_⟩⟩
  · rintro l hl rfl
    exact ho.codeword_leaf hl
  · intro hp
    obtain ⟨l, hl, hs⟩ := List.mem_map.1 hp
    exact hb l hl hs

/-- Settles O47: the loaded leaves are `k + 1` subtrees, which `k` merges join (`execAll_merges`). -/
theorem mergesOfATable : Obligations.MergesOfATable := by
  intro s hf hv f k hlen hk
  have hw := Config.Valid.pos hv
  have hpos := sum_pos_of_filter hk
  obtain ⟨t, hrun, hresp, -, -, hm, hmerges, hdone, hfinish⟩ := execAll_merges hw k
    (s := (s.withHft (Hft.loaded f)).send ⟨0x00000000#32, []⟩) rfl hf (Hft.loaded_ok hw hlen.le hpos) rfl
    ((Hft.loaded_subtreeIds_length hlen.le).trans hk)
  refine ⟨t, ?_, ?_, hm, hmerges.trans (Nat.zero_add k), hdone, ?_⟩
  · rw [execAll_cons_next (exec_hftLoad_of_ok hf (Hft.load_eq hpos))]
    exact hrun
  · rw [hresp, State.send_responses, State.withHft_responses, List.append_assoc, List.replicate_succ,
      List.singleton_append]
  · rw [buildTree_eq_finish hpos, hk]
    exact congrArg _ (hfinish (k + 1) (Nat.lt_succ_self k))

/-- Settles O48, from the invariant of a finished tree: its one subtree is full, and no codeword in it begins another. -/
theorem tableIsAFullTree : Obligations.TableIsAFullTree := by
  intro wb h8 _ f h hlen hb present code k
  have hw : 0 < wb := by omega
  obtain ⟨-, ht⟩ := treeOf_of_build hw hlen.le hb
  have hpresent : ∀ b, present b ↔ h.Present b := fun b => (ht.present_iff_count hlen.le b).symm
  have hmerges : h.merges = k - 1 := ht.merges_eq
  have hleaves : h.leaves.length = k := ht.leaves_length
  simp only [hpresent]
  refine ⟨hmerges, fun b => Hft.codeword_absent, fun h1 b => ht.ok.codeword_of_no_merges (by omega), fun h2 => ?_⟩
  have h2' : 2 ≤ h.leaves.length := by omega
  refine ⟨fun b c => ht.ok.bits_prefixFree hw ht.done, fun bits => ht.exists_prefix hw h2', fun b hp => ?_⟩
  have hbits : (code b).length = (h.codeword b).bitCount := ht.ok.bits_length hw b
  have hle := ht.ok.codeword_bitCount_le hw ht.done h2' hp
  exact ⟨hbits ▸ (ht.ok.present_iff b).1 hp, by omega, hbits⟩

end Sys2Proof.Machine
end

section
/-! PROOFS. The Huffman codec (45_huffman_codec.md): the answers of the histogram and of one trial, the commands in terms of
the units' operations, HFD_DECODE against the sequence of commands it stands for, and decoding what HFE_ENCODE made. -/

namespace Sys2Proof.Machine

variable {wb : Nat} {s : State} {f : List Nat} {h : Hft} {u v : Hfd} {r : Raise} {b : Byte} {data container : List Byte}
  {lit : Bool}

/-! ## The encoder's commands (R262, R264): a fault of the operation is the command's, and the rest is the response -/

theorem exec_hfeHist_of_ok (hf : s.fault.faulted = false) (hh : hist data = .ok f) :
    exec (.hfeHist data) s = .next (s.send ⟨0x00000000#32, f.flatMap (bytesBE 2)⟩) := by
  rw [exec, execHfeHist, hh, ok_bind]
  exact command_ok_send hf header_zero s (.freq f)

theorem exec_hfeHist_of_error (hh : hist data = .error r) :
    exec (.hfeHist data) s = command .hfeHist s (.error r) := by
  rw [exec, execHfeHist, hh, error_bind]

theorem exec_hfeEncode_of_hist_error (hh : hist data = .error r) :
    exec (.hfeEncode data) s = command .hfeEncode s (.error r) := by
  rw [exec, execHfeEncode, hh, error_bind]

theorem exec_hfeEncode_of_build_error (hh : hist data = .ok f) (hb : buildTree s.cfg.wordBits f = .error r) :
    exec (.hfeEncode data) s = command .hfeEncode s (.error r) := by
  rw [exec, execHfeEncode, hh, ok_bind, hb, error_bind]

theorem buildTree_of_sum_zero (hs : f.sum = 0) : buildTree wb f = .error ⟨.degenerateTree, 0⟩ := by
  rw [buildTree, Hft.load_of_sum_zero hs, error_bind]

/-- The empty buffer has a histogram, but no tree (R264). -/
theorem buildTree_byteCounts_nil : buildTree wb (byteCounts []) = .error ⟨.degenerateTree, 0⟩ :=
  buildTree_of_sum_zero (byteCounts_sum [])

/-! ## Construction of the decoder (R265, R271) -/

/-- The counts of a container are the table its first 512 bytes are the bytes of (R265). -/
theorem containerCounts_of_take (hlen : f.length = 256) (hb : ∀ n ∈ f, n ≤ 65535)
    (hc : f.flatMap (bytesBE 2) = container.take 512) : containerCounts container = f := by
  have hsplit : encodeFreq f ++ container.drop 512 = container := by rw [encodeFreq, hc, List.take_append_drop]
  calc containerCounts container = containerCounts (encodeFreq f ++ container.drop 512) := by rw [hsplit]
    _ = f := containerCounts_encode hlen (fun n hn => Nat.lt_succ_of_le (hb n hn)) _

theorem Hfd.init_of_short (hl : container.length < 512) :
    Hfd.init wb lit container = .error ⟨.corruptStream, container.length⟩ := if_pos hl

theorem Hfd.init_of_build_error (hl : 512 ≤ container.length) (hb : buildTree wb (containerCounts container) = .error r) :
    Hfd.init wb lit container = .error r := by
  simp only [Hfd.init, if_neg (Nat.not_lt.2 hl), hb, error_bind]

theorem Hfd.init_of_treeOf (hl : 512 ≤ container.length) (ht : TreeOf wb (containerCounts container) h) :
    Hfd.init wb lit container = .ok (Hfd.fresh wb lit container h, h) := by
  simp only [Hfd.init, if_neg (Nat.not_lt.2 hl), ht.built, ok_bind]
  rfl

theorem exec_hfdInit_of_ok (hf : s.fault.faulted = false) (hi : Hfd.init s.cfg.wordBits lit container = .ok (u, h)) :
    exec (.hfdInit lit container) s = .next (((s.withHft h).withHfd u).send ⟨0x00000000#32, []⟩) := by
  rw [exec, execHfdInit, hi, ok_bind]
  exact command_ok_send hf header_zero ((s.withHft h).withHfd u) .none

theorem exec_hfdInit_of_error (hi : Hfd.init s.cfg.wordBits lit container = .error r) :
    exec (.hfdInit lit container) s = command (.hfdInit lit) s (.error r) := by
  rw [exec, execHfdInit, hi, error_bind]

/-! ## One trial (R268 to R270) -/

/-- The default mode ends after `total` symbols (R268); literal mode does not count. -/
def Hfd.Unfinished (u : Hfd) : Prop := u.lit = true ∨ u.emitted ≠ u.total

theorem Hfd.trialStep_of_finished (hl : u.lit = false) (he : u.emitted = u.total) :
    u.trialStep = .ok ({ u with mode := .ended }, .ended) := if_pos ⟨hl, he⟩

theorem Hfd.Unfinished.not_finished (hu : u.Unfinished) : ¬ (u.lit = false ∧ u.emitted = u.total) := by
  rintro ⟨hl, he⟩
  rcases hu with hl' | he'
  · rw [hl] at hl'
    cases hl'
  · exact he' he

theorem Hfd.trialStep_of_input_end (hu : u.Unfinished) (hn : u.nbits < u.pos + u.trial) : u.trialStep = u.malformed := by
  rw [Hfd.trialStep, if_neg hu.not_finished, if_pos hn]

theorem Hfd.trialStep_of_hit (hu : u.Unfinished) (hn : u.pos + u.trial ≤ u.nbits)
    (hb : mapGet u.rev u.trialBits = some b) : u.trialStep
      = .ok ({ u with out := u.out ++ [b], pos := u.pos + u.trial, trial := u.minlen, emitted := u.emitted + 1 },
          .hit b) := by
  rw [Hfd.trialBits] at hb
  rw [Hfd.trialStep, if_neg hu.not_finished, if_neg (Nat.not_lt.2 hn), hb]

theorem Hfd.trialStep_of_miss (hu : u.Unfinished) (hn : u.pos + u.trial ≤ u.nbits)
    (hb : mapGet u.rev u.trialBits = none) (hm : u.trial + 1 ≤ u.maxlen) :
    u.trialStep = .ok ({ u with trial := u.trial + 1 }, .miss) := by
  rw [Hfd.trialBits] at hb
  simp only [Hfd.trialStep, if_neg hu.not_finished, if_neg (Nat.not_lt.2 hn), hb, if_neg (Nat.not_lt.2 hm)]

theorem Hfd.trialStep_of_past_maxlen (hu : u.Unfinished) (hn : u.pos + u.trial ≤ u.nbits)
    (hb : mapGet u.rev u.trialBits = none) (hm : u.maxlen < u.trial + 1) :
    u.trialStep = Hfd.malformed { u with trial := u.trial + 1 } := by
  rw [Hfd.trialBits] at hb
  simp only [Hfd.trialStep, if_neg hu.not_finished, if_neg (Nat.not_lt.2 hn), hb, if_pos hm]

theorem Hfd.malformed_of_literal (hl : u.lit = true) : u.malformed = .ok ({ u with mode := .ended }, .ended) := if_pos hl

theorem Hfd.malformed_of_default (hl : u.lit = false) : u.malformed = .error ⟨.corruptStream, u.pos⟩ := by
  rw [Hfd.malformed, hl]
  rfl

theorem Hfd.Ok.mapGet_of_mem_rev (ho : u.Ok) {bits : Bits} (hb : (bits, b) ∈ u.rev) : mapGet u.rev bits = some b :=
  mapGet_of_mem (keys_nodup_of_prefixFree ho.prefixFree) hb

theorem exec_hfdStep_of_ended (hf : s.fault.faulted = false) (hm : s.hfd.mode = .ended) :
    exec .hfdStep s = .next (s.send ⟨0x00000200#32, []⟩) := by
  rw [exec, execHfdStep, hm]
  exact command_ok_send hf header_end s .none

/-- A trial that is no fault answers its tag (R272). -/
theorem exec_hfdStep_of_ok {t : Trial} {hd : BitVec 32} (hf : s.fault.faulted = false) (hm : s.hfd.mode = .active)
    (ht : s.hfd.trialStep = .ok (v, t)) (hh : responseHeader 0x00 0x00 t.tag = hd) :
    exec .hfdStep s = .next ((s.withHfd v).send ⟨hd, []⟩) := by
  rw [exec, execHfdStep, hm, ht]
  exact command_ok_send hf hh (s.withHfd v) .none

/-- A malformed stream is CORRUPT_STREAM with the cursor (R269). -/
theorem exec_hfdStep_of_corrupt {n : Nat} (hf : s.fault.faulted = false) (hm : s.hfd.mode = .active)
    (ht : s.hfd.trialStep = .error ⟨.corruptStream, n⟩) :
    exec .hfdStep s = .next (((s.withHfd { s.hfd with mode := .idle }).withFault ⟨true, 0x02, n, 0x61000000#32⟩).send
      ⟨0x01020000#32, []⟩) := by
  rw [exec, execHfdStep, hm, ht]
  exact command_error_send (r := ⟨.corruptStream, n⟩) hf word_hfdStep rfl header_fault2

/-! ## The whole loop (R273) -/

/-- The operations HFD_DECODE runs, as one. -/
def Hfd.decode (wb : Nat) (lit : Bool) (container : List Byte) : Except Raise (Hfd × Hft) := do
  let (u, h) ← Hfd.init wb lit container
  let v ← Hfd.run ((u.nbits + 1) * (u.maxlen + 1)) u
  .ok (v, h)

theorem exec_hfdDecode_eq_command : exec (.hfdDecode lit container) s
    = command (.hfdDecode lit) s
        (Hfd.decode s.cfg.wordBits lit container >>= fun (u, h) =>
          .ok ((s.withHft h).withHfd u, ⟨0x0000, .bytes u.out⟩)) := by
  rw [exec, execHfdDecode, Hfd.decode]
  cases Hfd.init s.cfg.wordBits lit container with
  | error => rfl
  | ok p =>
    simp only [ok_bind]
    cases Hfd.run ((p.1.nbits + 1) * (p.1.maxlen + 1)) p.1 <;> rfl

theorem exec_hfdDecode_of_error (hd : Hfd.decode s.cfg.wordBits lit container = .error r) :
    exec (.hfdDecode lit container) s = command (.hfdDecode lit) s (.error r) := by
  rw [exec_hfdDecode_eq_command, hd, error_bind]

/-- A decoding that completes built a tree, and its trials ran to END. -/
theorem Hfd.decode_eq_ok (hw : 0 < wb) (hd : Hfd.decode wb lit container = .ok (v, h)) :
    512 ≤ container.length ∧ TreeOf wb (containerCounts container) h ∧
      Hfd.Runs (Hfd.fresh wb lit container h) (.ok v) := by
  obtain ⟨⟨u, k⟩, hi, hd⟩ := bind_ok hd
  obtain ⟨w, hr, hvh⟩ := bind_ok hd
  cases hvh
  rcases Hfd.init_cases hw lit container with ⟨-, e⟩ | ⟨-, -, e⟩ | ⟨hl, -, k, ht, e⟩ <;> rw [e] at hi <;> cases hi
  exact ⟨hl, ht, hr ▸ Hfd.fresh_runs hw lit container ht⟩

/-- A decoding that faults did so in its construction, or in a trial. -/
theorem Hfd.decode_eq_error (hw : 0 < wb) (hd : Hfd.decode wb lit container = .error r) :
    Hfd.init wb lit container = .error r ∨ ∃ h, 512 ≤ container.length ∧ TreeOf wb (containerCounts container) h ∧
      Hfd.Runs (Hfd.fresh wb lit container h) (.error r) := by
  rcases bind_error hd with hi | ⟨⟨u, k⟩, hi, hd⟩
  · exact .inl hi
  rcases bind_error hd with hr | ⟨w, -, hd⟩
  · rcases Hfd.init_cases hw lit container with ⟨-, e⟩ | ⟨-, -, e⟩ | ⟨hl, -, k, ht, e⟩ <;> rw [e] at hi <;> cases hi
    exact .inr ⟨_, hl, ht, hr ▸ Hfd.fresh_runs hw lit container ht⟩
  · cases hd

/-- The trials of a new instance are bounded by its input, as no codeword is longer than 255 bits (R366). -/
theorem Hfd.fresh_measure_le (h8 : 8 ≤ wb) (ht : TreeOf wb f h) :
    (Hfd.fresh wb lit container h).measure ≤ (8 * (container.length - 512) + 1) * 256 := by
  have hmax := ht.maxLength_le h8
  calc (Hfd.fresh wb lit container h).measure
      ≤ (8 * (container.drop 512).length + 1) * (maxLength (reverseTable wb h) + 1) := Hfd.fresh_measure wb lit container h
    _ ≤ (8 * (container.length - 512) + 1) * 256 := by
      rw [List.length_drop]
      exact Nat.mul_le_mul_left _ (Nat.succ_le_succ hmax)

/-! ## The sequence HFD_INIT, HFD_STEP until END (R273) -/

/-- The commands HFD_DECODE stands for, with `m` trials. -/
def trialCommands (lit : Bool) (container : List Byte) (m : Nat) : List Instr :=
  .hfdInit lit container :: List.replicate m .hfdStep

/-- The trials from the instance HFD_INIT makes do what the loop does. -/
theorem execAll_trialCommands_of_treeOf (hf : s.fault.faulted = false) (hv : s.cfg.Valid) {m : Nat}
    (hm : (8 * (container.length - 512) + 1) * 256 ≤ m) (hl : 512 ≤ container.length)
    (ht : TreeOf s.cfg.wordBits (containerCounts container) h) {x : Except Raise Hfd}
    (hr : Hfd.Runs (Hfd.fresh s.cfg.wordBits lit container h) x) :
    (∀ v, x = .ok v →
      ∃ rs, execAll (trialCommands lit container m) s = .next ((s.withHft h).atHfd v rs)) ∧
    (∀ r, x = .error r → ∃ t, execAll (trialCommands lit container m) s = .next t ∧ t.HoldsFault r) := by
  obtain ⟨hok, herr⟩ := execAll_hfd_runs hr (m := m)
    (s := ((s.withHft h).withHfd (Hfd.fresh s.cfg.wordBits lit container h)).send ⟨0x00000000#32, []⟩) rfl hf rfl
    (Hfd.fresh_ok (Config.Valid.pos hv) lit container ht) ((Hfd.fresh_measure_le hv.1 ht).trans hm)
  rw [trialCommands, execAll_cons_next (exec_hfdInit_of_ok hf (Hfd.init_of_treeOf hl ht))]
  refine ⟨hok, fun r hx => ?_⟩
  obtain ⟨t, hexec, hfault, hcode, hinfo⟩ := herr r hx
  exact ⟨t, hexec, t.fault.cmd, by rw [← hfault, ← hcode, ← hinfo]⟩

theorem execAll_trialCommands_of_error (hf : s.fault.faulted = false) (hv : s.cfg.Valid) {m : Nat}
    (hm : (8 * (container.length - 512) + 1) * 256 ≤ m) (hd : Hfd.decode s.cfg.wordBits lit container = .error r) :
    ∃ t, execAll (trialCommands lit container m) s = .next t ∧ t.HoldsFault r := by
  rcases Hfd.decode_eq_error (Config.Valid.pos hv) hd with hi | ⟨h, hl, ht, hr⟩
  · obtain ⟨t, hexec, ht⟩ := command_error_holdsFault (hd := .hfdInit lit) hf r
    refine execAll_append_holdsFault (is := [.hfdInit lit container]) (by simp) ?_ ht
    rw [execAll_singleton, exec_hfdInit_of_error hi, hexec]
  · exact (execAll_trialCommands_of_treeOf hf hv hm hl ht hr).2 r rfl

/-! ## Containers (R274 to R276) -/

/-- HFD_DECODE completes on a container with the table of a buffer where the loop does, on any CORE of the same
parameters. -/
theorem exec_hfdDecode_of_runs_container (hf : s.fault.faulted = false) (hv : s.cfg.Valid) {rest : List Byte}
    (hc : ∀ b : Byte, data.count b ≤ 65535) (ht : TreeOf s.cfg.wordBits (byteCounts data) h)
    (hr : Hfd.Runs (Hfd.fresh s.cfg.wordBits lit (encodeFreq (byteCounts data) ++ rest) h) (.ok v)) :
    ∃ q, exec (.hfdDecode lit (encodeFreq (byteCounts data) ++ rest)) s
      = .next (((s.withHft h).withHfd v).send ⟨0x00000000#32, q⟩) ∧ SendsBytes v.out q := by
  rw [← counts_container hc rest] at ht
  exact exec_hfdDecode_send hf hv rfl (le_container data rest) ht hr

/-- A longer container has the same table. -/
theorem containerCounts_append (hl : 512 ≤ container.length) (extra : List Byte) :
    containerCounts (container ++ extra) = containerCounts container := by
  rw [containerCounts, List.take_append_of_le_length hl, containerCounts]

/-- The instance of a longer container is the same but for the bytes at the end of its stream. -/
theorem Hfd.fresh_append (hl : 512 ≤ container.length) (extra : List Byte) :
    Hfd.fresh wb lit (container ++ extra) h = (Hfd.fresh wb lit container h).extend extra := by
  simp only [Hfd.fresh, Hfd.extend, containerCounts_append hl, List.drop_append_of_le_length hl, List.length_append,
    Nat.mul_add]

/-- In literal mode the loop ends with every symbol it read, whatever the input (R270). -/
theorem Hfd.fresh_runs_literal (hw : 0 < wb) (ht : TreeOf wb f h) :
    ∃ v, Hfd.Runs (Hfd.fresh wb true container h) (.ok v) ∧ v.mode = .ended := by
  have hr := Hfd.fresh_runs hw true container ht
  obtain ⟨v, -, hx, -⟩ := hr.literal (Hfd.fresh_ok hw true container ht) rfl rfl
  exact ⟨v, hx ▸ hr, hr.ended rfl hx⟩

/-- A container with a nonzero byte in its table has a tree. -/
theorem treeOf_containerCounts (hw : 0 < wb) (hl : 512 ≤ container.length) (hne : ∃ b ∈ container.take 512, b ≠ 0) :
    ∃ h, TreeOf wb (containerCounts container) h := by
  refine buildTree_treeOf hw containerCounts_length.le (containerCounts_pos ?_ ?_)
  · rw [List.length_take_of_le hl]
  · rwa [List.take_take]

/-! ## The obligations -/

/-- Settles O49, by the two answers of the histogram. -/
theorem histogramOfABuffer : Obligations.HistogramOfABuffer := by
  intro s hf data
  refine ⟨fun hc => ⟨byteCounts data, exec_hfeHist_of_ok hf (hist_ok hc), byteCounts_length data,
    byteCounts_get data⟩, fun b hb hlow => ?_⟩
  rw [exec_hfeHist_of_error (hist_error hb hlow)]
  exact command_error_send hf word_hfeHist rfl header_fault7

/-- Settles O50: the tree of the counts encodes each byte, and the stream is padded to a byte
(`bitsOfBytes_codewordStream`); the counts that do not fit and the empty buffer fault before the engine is written. -/
theorem encodeMakesAContainer : Obligations.EncodeMakesAContainer := by
  intro s hf hv data
  refine ⟨fun hc hne => ?_, fun b hb hlow => ?_, ?_⟩
  · obtain ⟨h, ht⟩ := treeOf_byteCounts (Config.Valid.pos hv) hne
    obtain ⟨p, hexec, hp⟩ := exec_hfeEncode hf hc ht
    refine ⟨byteCounts data, h, _, p, byteCounts_length data, byteCounts_get data, ht.built, ht.done,
      ht.total.trans (byteCounts_sum data), hexec, hp, List.take_left' (encodeFreq_length (byteCounts_length data)),
      (8 - (streamBits s.cfg.wordBits h data).length % 8) % 8, Nat.mod_lt _ (by decide), ?_⟩
    rw [drop_container]
    exact bitsOfBytes_codewordStream hv.1 hv.2 h data
  · rw [exec_hfeEncode_of_hist_error (hist_error hb hlow)]
    exact command_error_send hf word_hfeEncode rfl header_fault7
  · rintro rfl
    have hh : hist [] = .ok (byteCounts []) := hist_ok fun b => Nat.zero_le _
    rw [exec_hfeEncode_of_build_error hh buildTree_byteCounts_nil]
    exact command_error_send hf word_hfeEncode rfl header_fault3

/-- Settles O51: the decoder a tree makes, field by field, and what its reverse table holds (`mem_reverseTable`). -/
theorem initBuildsTheReverseTable : Obligations.InitBuildsTheReverseTable := by
  intro s hf hv lit container header
  refine ⟨fun hl => ?_, fun hl f hlen hc hb => ?_⟩
  · rw [exec_hfdInit_of_error (Hfd.init_of_short hl)]
    exact command_error_send hf (word_hfdInit' lit) rfl header_fault2
  obtain rfl := containerCounts_of_take hlen hb hc
  refine ⟨fun hs => ?_, fun hs => ?_⟩
  · rw [exec_hfdInit_of_error (Hfd.init_of_build_error hl (buildTree_of_sum_zero hs))]
    exact command_error_send hf (word_hfdInit' lit) rfl header_fault3
  · have hw := Config.Valid.pos hv
    obtain ⟨h, ht⟩ := buildTree_treeOf hw hlen.le hs
    have hexec := exec_hfdInit_of_ok (lit := lit) hf (Hfd.init_of_treeOf hl ht)
    rw [Hfd.fresh, List.length_drop] at hexec
    have hne := ht.reverseTable_ne_nil
    refine ⟨h, _, _, _, ht.built, hexec, keys_nodup_of_prefixFree (reverseTable_pairwise hw ht.ok ht.done),
      fun bits b => ?_, minLength_mem hne, maxLength_mem hne, fun e he => ⟨minLength_le he, le_maxLength he⟩⟩
    rw [mem_reverseTable ht.ok, ht.present_iff_count hlen.le]
    rfl

/-- Settles O52, by the answers of one trial; a key of the reverse table has one byte (`Hfd.Ok.mapGet_of_mem_rev`). -/
theorem trialOfTheDecoder : Obligations.TrialOfTheDecoder := by
  intro s hf ho u bits fault
  refine ⟨exec_hfdStep_of_ended hf, fun hm hl he =>
    exec_hfdStep_of_ok hf hm (Hfd.trialStep_of_finished hl he) header_end, fun hm hu => ⟨fun hn hl => ?_,
    fun hn hl => ?_, fun hn b hb => ?_, fun hn hb => ?_⟩⟩
  · exact exec_hfdStep_of_ok hf hm
      ((Hfd.trialStep_of_input_end hu hn).trans (Hfd.malformed_of_literal hl)) header_end
  · exact exec_hfdStep_of_corrupt hf hm ((Hfd.trialStep_of_input_end hu hn).trans (Hfd.malformed_of_default hl))
  · exact exec_hfdStep_of_ok hf hm (Hfd.trialStep_of_hit hu hn (ho.mapGet_of_mem_rev hb)) (header_hit b)
  have hmiss : mapGet u.rev u.trialBits = none := mapGet_eq_none.2 hb
  refine ⟨fun hmax => ?_, fun hmax hl => ?_, fun hmax hl => ?_⟩
  · exact exec_hfdStep_of_ok hf hm (Hfd.trialStep_of_miss hu hn hmiss hmax) header_zero
  · exact exec_hfdStep_of_ok hf hm
      ((Hfd.trialStep_of_past_maxlen hu hn hmiss hmax).trans (Hfd.malformed_of_literal hl)) header_end
  · exact exec_hfdStep_of_corrupt hf hm
      ((Hfd.trialStep_of_past_maxlen hu hn hmiss hmax).trans (Hfd.malformed_of_default hl))

/-- Settles O53: both sides complete with the decoder and tree of `Hfd.decode`, or hold its fault. -/
theorem decodeIsInitAndTrials : Obligations.DecodeIsInitAndTrials := by
  intro s lit container m hf hv hm
  cases hd : Hfd.decode s.cfg.wordBits lit container with
  | ok p =>
    obtain ⟨v, h⟩ := p
    obtain ⟨hl, ht, hr⟩ := Hfd.decode_eq_ok (Config.Valid.pos hv) hd
    obtain ⟨q, hexec, hq⟩ := exec_hfdDecode_send hf hv rfl hl ht hr
    obtain ⟨rs, hall⟩ := (execAll_trialCommands_of_treeOf hf hv hm hl ht hr).1 v rfl
    exact ⟨_, _, hexec, hall, rfl, rfl, rfl, fun _ => ⟨hr.ended rfl rfl, q, rfl, hq⟩⟩
  | error r =>
    obtain ⟨t, hexec, c, ht⟩ := command_error_holdsFault (hd := .hfdDecode lit) hf r
    obtain ⟨u, hall, d, hu⟩ := execAll_trialCommands_of_error hf hv hm hd
    refine ⟨t, u, (exec_hfdDecode_of_error hd).trans hexec, hall, ?_, ?_, ?_, fun hok => ?_⟩
    · rw [ht, hu]
    · rw [ht, hu]
    · rw [ht, hu]
    · rw [ht] at hok
      cases hok

/-- Settles O54: the trials read the codewords of the data one by one, and no further (`Hfd.runs_container`). -/
theorem huffmanRoundTrip : Obligations.HuffmanRoundTrip := by
  intro s s' hf hf' hv hcfg data hne hc
  obtain ⟨h, ht⟩ := treeOf_byteCounts (Config.Valid.pos hv) hne
  obtain ⟨p, hexec, hp⟩ := exec_hfeEncode hf hc ht
  refine ⟨h, _, p, hexec, hp, fun extra => ?_⟩
  rw [← hcfg] at hv ht ⊢
  obtain ⟨v, hr, rfl⟩ := Hfd.runs_container (extra := extra) hv.1 hv.2 hc ht
  obtain ⟨q, hexec', hq⟩ := exec_hfdDecode_of_runs_container hf' hv hc ht hr
  exact ⟨v, q, by rw [List.append_assoc]; exact hexec', rfl, hq⟩

/-- Settles O55: the longer container has the same tree, and its trials never reach the bytes it has more
(`Hfd.Runs.extend`). -/
theorem extraBytesAreNotRead : Obligations.ExtraBytesAreNotRead := by
  intro s t container extra hf hv hexec hok
  cases hd : Hfd.decode s.cfg.wordBits false container with
  | error r =>
    obtain ⟨t', hexec', ht'⟩ := command_error_holdsFault (hd := .hfdDecode false) hf r
    rw [exec_hfdDecode_of_error hd, hexec'] at hexec
    cases hexec
    rw [ht'.faulted] at hok
    cases hok
  | ok p =>
    obtain ⟨v, h⟩ := p
    obtain ⟨hl, ht, hr⟩ := Hfd.decode_eq_ok (Config.Valid.pos hv) hd
    have hr' := hr.extend rfl rfl rfl extra
    rw [← Hfd.fresh_append hl] at hr'
    have hl' : 512 ≤ (container ++ extra).length := by
      rw [List.length_append]
      exact Nat.le_add_right_of_le hl
    have ht' : TreeOf s.cfg.wordBits (containerCounts (container ++ extra)) h := by rwa [containerCounts_append hl]
    have hexec' := exec_hfdDecode hf hv rfl hl' ht' hr'
    rw [exec_hfdDecode hf hv rfl hl ht hr] at hexec
    cases hexec
    exact ⟨_, hexec', hf, rfl, rfl, rfl, rfl⟩

/-- Settles O56: in literal mode no trial faults (`Hfd.Runs.literal`), and each symbol past the data takes one of the at
most 7 bits that fill the last byte (`Hfd.runs_container_literal`). -/
theorem literalModeNeverFaults : Obligations.LiteralModeNeverFaults := by
  intro s s' hf hf' hv hcfg
  have hw := Config.Valid.pos hv
  refine ⟨fun container hl hne => ?_, fun data hne hc => ?_⟩
  · rw [← hcfg] at hv hw
    obtain ⟨h, ht⟩ := treeOf_containerCounts hw hl hne
    obtain ⟨v, hr, hend⟩ := Hfd.fresh_runs_literal hw ht
    obtain ⟨q, hexec, hq⟩ := exec_hfdDecode_send hf' hv rfl hl ht hr
    exact ⟨h, v, q, hexec, hend, hq⟩
  · obtain ⟨h, ht⟩ := treeOf_byteCounts hw hne
    obtain ⟨p, hexec, hp⟩ := exec_hfeEncode hf hc ht
    refine ⟨h, _, p, hexec, hp, ?_⟩
    rw [← hcfg] at hv ht ⊢
    obtain ⟨v, more, hr, hout, hmore⟩ := Hfd.runs_container_literal hv.1 hv.2 ht
    obtain ⟨q, hexec', hq⟩ := exec_hfdDecode_of_runs_container hf' hv hc ht hr
    exact ⟨v, q, more, hexec', hout, hmore, hout ▸ hq⟩

end Sys2Proof.Machine
end

section
/-! PROOFS. The control unit (46_control.md): CTL_NOP, and CTL_RESET against the power-on state. -/

namespace Sys2Proof.Machine

/-! ## CTL_RESET (R291, R350) -/

/-- The two resets have the same effect on the CORE; CTL_RESET keeps the parameters and the HOST's side. -/
theorem State.resetCore_eq_powerOn (s : State) :
    s.resetCore = { State.powerOn s.cfg with commands := s.commands, responses := s.responses } := rfl

/-- STATUS reads no message, so after a reset it is the one of the power-on state. -/
theorem statusWord_resetCore_send (s : State) (r : Response) :
    statusWord (s.resetCore.send r) = 0x00000000#32 :=
  calc statusWord (s.resetCore.send r)
      = statusWord (State.powerOn s.cfg) := by rw [State.resetCore_eq_powerOn]; rfl
    _ = 0x00000000#32 := statusWord_powerOn s.cfg

/-- CTL_RESET does not look at the fault: it resets the CORE and answers OK with no payload. -/
theorem exec_ctlReset (s : State) : exec .ctlReset s = .next (s.resetCore.send ⟨0x00000000#32, []⟩) :=
  congrArg Host.Outcome.next (respondOk_eq header_zero)

/-- Settles O17: the CORE is reset (`exec_ctlReset`), which is the power-on state with the HOST's side kept
(`State.resetCore_eq_powerOn`). -/
theorem ctlResetIsThePowerOnState : Obligations.CtlResetIsThePowerOnState := by
  intro s
  refine ⟨s.resetCore.send ⟨0x00000000#32, []⟩, exec_ctlReset s, ?_, statusWord_resetCore_send s _⟩
  rw [State.resetCore_eq_powerOn]
  rfl

/-! ## CTL_NOP (R290) -/

/-- Settles O22: CTL_NOP is a command that writes no state, with the empty result (`pureCommand_ok`). -/
theorem nopAnswersAndDoesNothing : Obligations.NopAnswersAndDoesNothing :=
  fun _ hf => pureCommand_ok hf .none

end Sys2Proof.Machine
end

section
/-! PROOFS. Exceptions (60_exceptions.md): fault entry and the codes of each command, refusal while faulted, and reset as
the only return. -/

namespace Sys2Proof.Machine

variable {s t : State} {m : Message} {ms : List Message}

/-! ## Fault entry (R320, R321) -/

/-- Fault entry, field by field. -/
theorem State.takeFault_eq_fields (s : State) (u : Option FUnit) (h : BitVec 32) (r : Raise) :
    s.takeFault u h r =
      { cfg := s.cfg
        fault := { faulted := true, code := r.code.byte, info := r.info, cmd := h }
        lze := if u = some .lze then { s.lze with live := false } else s.lze
        lzd := if u = some .lzd then { s.lzd with mode := .idle } else s.lzd
        hft := if u = some .hft then { s.hft with mode := .idle } else s.hft
        hfd := if u = some .hfd then { s.hfd with mode := .idle } else s.hfd
        commands := s.commands
        responses := s.responses ++ [⟨0x01000000#32 + r.code.byte.setWidth 32 * 0x00010000#32, []⟩] } := by
  rw [← responseHeader_fault]
  cases u with
  | none => rfl
  | some u => cases u <;> rfl

/-- A step that enters a fault takes it for the header's unit: for an illegal header, for a payload that does not frame, or
as the decoded command's own. -/
theorem step_fault_entry (hc : s.commands = m :: ms) (h : step s = .next t) (hf : s.fault.faulted = false)
    (ht : t.fault.faulted = true) :
    ∃ r, t = (s.withCommands ms).takeFault ((decodeHeader m.header).map Head.unit) m.header r ∧
      ((decodeHeader m.header = none ∧ r = ⟨.illegalCommand, m.header.toNat⟩) ∨
       (∃ hd n, decodeHeader m.header = some hd ∧ r = ⟨.badOperand, n⟩) ∨
       (∃ i, decode s.cfg.wordBits m = .ok i ∧ exec i (s.withCommands ms) = .next t)) := by
  obtain ⟨-, ⟨-, rfl⟩ | ⟨r, -, rfl⟩ | ⟨hf', -⟩ | ⟨-, i, u, a, -, -, -, hw, rfl, -⟩ | ⟨-, hr⟩⟩ := step_message hc h
  · cases ht
  · exact absurd ht (Bool.eq_false_iff.1 hf)
  · exact absurd hf' (Bool.eq_false_iff.1 hf)
  · obtain ⟨hfault, -⟩ := hw.frame
    rw [State.respondOk_fault, hfault] at ht
    exact absurd ht (Bool.eq_false_iff.1 hf)
  · exact hr

/-- Settles O11: every fault is entered by `takeFault` with the header's unit (`step_fault_entry`), which writes the fields
listed there and no other. -/
theorem faultEntryKeepsTheRest : Obligations.FaultEntryKeepsTheRest := by
  intro s t m ms hc hstep hf ht
  obtain ⟨r, rfl, -⟩ := step_fault_entry hc hstep hf ht
  obtain ⟨hlow, hhigh⟩ := r.code.byte_range
  exact ⟨r.code.byte, r.info, hlow, hhigh, State.takeFault_eq_fields _ _ _ _⟩

/-! ## The codes of each command (R310, R311) -/

/-- The row of a command in the table of R310, with the BAD_OPERAND of R112 in front. -/
def faultCodes (hd : Head) : List FaultCode :=
  .badOperand ::
    match hd with
    | .ctlNop | .ctlReset | .ctlRead _ => []
    | .bbNew | .bbUnused | .bbAppend | .bbShiftLeft | .bbPushLeadingBit _ | .bbToBytes | .bbFromBytes => []
    | .lzeInit | .lzdInit _ => [.capacityExceeded]
    | .lzeSymbol _ => [.alphabetCoverage, .sequenceError, .capacityExceeded]
    | .lzeFlush => [.alphabetCoverage, .sequenceError]
    | .lzeEncode => [.alphabetCoverage, .capacityExceeded]
    | .lzdStep => [.corruptStream, .sequenceError, .capacityExceeded]
    | .lzdDecode _ => [.corruptStream, .capacityExceeded]
    | .hftLoad => [.degenerateTree]
    | .hftStep | .hftTable => [.sequenceError]
    | .hfeEncode => [.degenerateTree, .countOverflow]
    | .hfeHist => [.countOverflow]
    | .hfdInit _ | .hfdDecode _ => [.corruptStream, .degenerateTree]
    | .hfdStep => [.corruptStream, .sequenceError]

/-- A command's body raises only the codes listed, and leaves the fault state alone where it completes. -/
def RaisesOnly (s : State) (codes : List FaultCode) (body : Except Raise (State × Answer)) : Prop :=
  (∀ r, body = .error r → r.code ∈ codes) ∧ ∀ u a, body = .ok (u, a) → u.fault = s.fault

section
variable {codes : List FaultCode} {c c₁ c₂ : FaultCode} {α : Type} {x : Except Raise α}
  {k : α → Except Raise (State × Answer)}

theorem RaisesOnly.ok {u : State} {a : Answer} (hu : u.fault = s.fault) : RaisesOnly s codes (.ok (u, a)) :=
  ⟨nofun, by rintro _ _ ⟨⟩; exact hu⟩

theorem RaisesOnly.error {r : Raise} (hr : r.code ∈ codes) : RaisesOnly s codes (.error r) :=
  ⟨by rintro _ ⟨⟩; exact hr, nofun⟩

theorem RaisesOnly.bind (hx : ∀ r, x = .error r → r.code ∈ codes) (hk : ∀ v, RaisesOnly s codes (k v)) :
    RaisesOnly s codes (x >>= k) := by
  cases x with
  | error r => exact .error (hx r rfl)
  | ok v => exact hk v

/-! The side condition of the next three lemmas, that a row has a code, is read off the row. -/

theorem RaisesOnly.sequenceError {hd : Head}
    (hc : FaultCode.sequenceError ∈ codes := by simp [faultCodes, Instr.head]) :
    RaisesOnly s codes (.error (sequenceError hd)) := .error hc

/-- An operation that raises one code, then the rest of the body. -/
theorem RaisesOnly.bind_one (hx : ∀ {r}, x = .error r → r.code = c) (hk : ∀ v, RaisesOnly s codes (k v))
    (hc : c ∈ codes := by simp [faultCodes, Instr.head]) : RaisesOnly s codes (x >>= k) :=
  .bind (fun _ h => hx h ▸ hc) hk

/-- An operation that raises one of two codes, then the rest of the body. -/
theorem RaisesOnly.bind_two (hx : ∀ {r}, x = .error r → r.code = c₁ ∨ r.code = c₂)
    (hk : ∀ v, RaisesOnly s codes (k v)) (h₁ : c₁ ∈ codes := by simp [faultCodes, Instr.head])
    (h₂ : c₂ ∈ codes := by simp [faultCodes, Instr.head]) : RaisesOnly s codes (x >>= k) :=
  .bind (fun _ h => (hx h).elim (· ▸ h₁) (· ▸ h₂)) hk

end

/-- Every instruction but CTL_RESET and CTL_READ runs in the frame `command` of its own row, and raises only the codes of
that row. -/
theorem exec_raisesOnly (i : Instr) (s : State) (h1 : i ≠ .ctlReset) (h2 : ∀ r, i ≠ .ctlRead r) :
    ∃ body, exec i s = command i.head s body ∧ RaisesOnly s (faultCodes i.head) body := by
  cases i with
  | ctlReset => exact absurd rfl h1
  | ctlRead r => exact absurd rfl (h2 r)
  | ctlNop | bbNew | bbUnused | bbAppend | bbShiftLeft | bbPushLeadingBit | bbToBytes | bbFromBytes =>
    exact ⟨_, rfl, .ok rfl⟩
  | lzeInit => exact ⟨_, rfl, .bind_two Lze.init_code fun _ => .ok rfl⟩
  | lzeEncode =>
    exact ⟨_, rfl, .bind_two Lze.init_code fun _ => .bind_two Lze.feed_code fun _ =>
      .bind_one Lze.flush_code fun _ => .ok rfl⟩
  | lzdInit => exact ⟨_, rfl, .bind_two Lzd.init_code fun _ => .ok rfl⟩
  | lzdDecode => exact ⟨_, rfl, .bind_two Lzd.init_code fun _ => .bind_two Lzd.run_code fun _ => .ok rfl⟩
  | hftLoad => exact ⟨_, rfl, .bind_one Hft.load_code fun _ => .ok rfl⟩
  | hfeEncode => exact ⟨_, rfl, .bind_one hist_code fun _ => .bind_one buildTree_code fun _ => .ok rfl⟩
  | hfeHist => exact ⟨_, rfl, .bind_one hist_code fun _ => .ok rfl⟩
  | hfdInit => exact ⟨_, rfl, .bind_two Hfd.init_code fun (_, _) => .ok rfl⟩
  | hfdDecode => exact ⟨_, rfl, .bind_two Hfd.init_code fun (_, _) => .bind_one Hfd.run_code fun _ => .ok rfl⟩
  | lzeSymbol sym =>
    refine ⟨_, rfl, ?_⟩
    split
    · exact .bind_two Lze.step_code fun (_, _) => .ok rfl
    · exact .sequenceError
  | lzeFlush =>
    refine ⟨_, rfl, ?_⟩
    split
    · exact .bind_one Lze.flush_code fun _ => .ok rfl
    · exact .sequenceError
  | lzdStep =>
    refine ⟨_, rfl, ?_⟩
    split
    · exact .sequenceError
    · exact .ok rfl
    · exact .bind_two Lzd.iterate_code fun
        | (_, none) => .ok rfl
        | (_, some _) => .ok rfl
  | hftStep =>
    refine ⟨_, rfl, ?_⟩
    split
    · exact .sequenceError
    · exact .ok rfl
    · exact .ok rfl
  | hftTable =>
    refine ⟨_, rfl, ?_⟩
    split
    · exact .ok rfl
    · exact .sequenceError
  | hfdStep =>
    refine ⟨_, rfl, ?_⟩
    split
    · exact .sequenceError
    · exact .ok rfl
    · exact .bind_one Hfd.trialStep_code fun (_, _) => .ok rfl

/-- The code a command records is one of its row. -/
theorem exec_faultCode {i : Instr} (hf : s.fault.faulted = false) (he : exec i s = .next t)
    (ht : t.fault.faulted = true) : ∃ c ∈ faultCodes i.head, t.fault.code = c.byte := by
  have hs : s.fault.faulted ≠ true := Bool.eq_false_iff.1 hf
  by_cases h1 : i = .ctlReset
  · subst h1
    cases he
    cases ht
  by_cases h2 : ∃ r, i = .ctlRead r
  · obtain ⟨r, rfl⟩ := h2
    cases he
    exact absurd ht hs
  obtain ⟨body, hb, hraise, hkeep⟩ := exec_raisesOnly i s h1 fun r e => h2 ⟨r, e⟩
  rw [hb] at he
  rcases command_cases he with ⟨hf', -⟩ | ⟨-, u, a, hu, rfl⟩ | ⟨-, r, hr, rfl⟩
  · exact absurd hf' hs
  · rw [State.respondOk_fault, hkeep u a hu] at ht
    exact absurd ht hs
  · exact ⟨r.code, hraise r hr, rfl⟩

/-- Settles O14: a fault is an illegal header's, a framing fault's or the command's own (`step_fault_entry`), and the
command's own is of its row (`exec_faultCode`). -/
theorem faultCodesOfEachCommand : Obligations.FaultCodesOfEachCommand := by
  intro s t m ms hc hstep hf ht
  have hrow : (decodeHeader m.header = none ∧ t.fault.code = 0x04#8) ∨
      ∃ hd, decodeHeader m.header = some hd ∧ ∃ c ∈ faultCodes hd, t.fault.code = c.byte := by
    obtain ⟨r, htake, ⟨hh, rfl⟩ | ⟨hd, n, hh, rfl⟩ | ⟨i, hdec, he⟩⟩ := step_fault_entry hc hstep hf ht
    · exact .inl ⟨hh, by rw [htake]; rfl⟩
    · exact .inr ⟨hd, hh, .badOperand, List.mem_cons_self, by rw [htake]; rfl⟩
    · exact .inr ⟨i.head, decode_head hdec, exec_faultCode (s := s.withCommands ms) hf he ht⟩
  obtain ⟨hh, hcode⟩ | ⟨hd, hh, c, hmem, hcode⟩ := hrow
  · rw [hh]
    exact hcode
  · have hbyte : t.fault.code ∈ (faultCodes hd).map FaultCode.byte := hcode ▸ List.mem_map_of_mem hmem
    rw [hh]
    cases hd <;> exact hbyte

/-! ## Commands that need an instance (R311 SEQUENCE_ERROR, R312) -/

/-- A command whose body raises SEQUENCE_ERROR takes it with its header as information. -/
theorem command_sequenceError (hf : s.fault.faulted = false) {hd : Head} {w : BitVec 32} (hw : hd.word = w) {n : Nat}
    (hn : w.toNat = n) (ht : s.endInstance (some hd.unit) = t) {body : Except Raise (State × Answer)}
    (hb : body = .error (sequenceError hd)) :
    command hd s body = .next ((t.withFault ⟨true, 0x05, n, w⟩).send ⟨0x01050000#32, []⟩) := by
  subst hw hn ht hb
  rw [command_error hf, State.takeFault, ← header_fault5]
  rfl

theorem State.endInstance_lze_of_not_live (h : s.lze.live = false) : s.endInstance (some .lze) = s := by
  rw [State.endInstance, ← h]
  rfl

theorem State.endInstance_lzd_of_idle (h : s.lzd.mode = .idle) : s.endInstance (some .lzd) = s := by
  rw [State.endInstance, ← h]
  rfl

theorem State.endInstance_hft_of_idle (h : s.hft.mode = .idle) : s.endInstance (some .hft) = s := by
  rw [State.endInstance, ← h]
  rfl

theorem State.endInstance_hfd_of_idle (h : s.hfd.mode = .idle) : s.endInstance (some .hfd) = s := by
  rw [State.endInstance, ← h]
  rfl

theorem toNat_lzeSymbol_word : ∀ ss : Byte, (0x21000000#32 + ss.setWidth 32).toNat = 0x21000000 + ss.toNat := by decide

/-- Settles O15: each body begins with the check for the instance (`command_sequenceError`), and ending an instance that is
not there changes nothing. -/
theorem commandsWithoutAnInstanceFault : Obligations.CommandsWithoutAnInstanceFault := by
  intro s hf
  refine ⟨fun h ss => ?_, fun h => ?_, fun h => ?_, fun h => ?_, fun h => ?_, fun h => ?_⟩
  · exact command_sequenceError hf (word_lzeSymbol ss) (toNat_lzeSymbol_word ss) (State.endInstance_lze_of_not_live h)
      (if_neg (Bool.eq_false_iff.1 h))
  · exact command_sequenceError hf word_lzeFlush rfl (State.endInstance_lze_of_not_live h)
      (if_neg (Bool.eq_false_iff.1 h))
  · exact command_sequenceError hf word_lzdStep rfl (State.endInstance_lzd_of_idle h) (by simp only [h])
  · exact command_sequenceError hf word_hftStep rfl (State.endInstance_hft_of_idle h) (by simp only [h])
  · exact command_sequenceError hf word_hftTable rfl rfl (if_neg h)
  · exact command_sequenceError hf word_hfdStep rfl (State.endInstance_hfd_of_idle h) (by simp only [h])

/-! ## While faulted (R322, R323) -/

/-- Everything a faulted CORE can do with a message. -/
theorem step_faulted (hc : s.commands = m :: ms) (hf : s.fault.faulted = true) (h : step s = .next t) :
    (decode s.cfg.wordBits m = .ok .ctlReset ∧ t = (s.withCommands ms).resetCore.send ⟨0x00000000#32, []⟩) ∨
    (∃ r, decode s.cfg.wordBits m = .ok (.ctlRead r) ∧
      t = (s.withCommands ms).respondOk ⟨0x0000, .nat (readReg (s.withCommands ms) r)⟩) ∨
    t = (s.withCommands ms).send ⟨0x02000000#32 + s.fault.code.setWidth 32 * 0x00010000#32, []⟩ := by
  obtain ⟨-, ⟨hd, rfl⟩ | hread | ⟨-, rfl⟩ | ⟨hf', -⟩ | ⟨hf', -⟩⟩ := step_message hc h
  · exact .inl ⟨hd, respondOk_eq header_zero⟩
  · exact .inr (.inl hread)
  · exact .inr (.inr (by rw [State.respondRefused, responseHeader_refused]; rfl))
  · exact absurd hf (Bool.eq_false_iff.1 hf')
  · exact absurd hf (Bool.eq_false_iff.1 hf')

/-- A message without payload runs the row of its header, where the row has no operands. -/
theorem step_of_word {i : Instr} {w : BitVec 32} (hv : s.cfg.Valid) (hc : s.commands = ⟨w, []⟩ :: ms)
    (hword : i.head.word = w) (hwf : i.wf s.cfg.wordBits = true) (hp : encodePayload s.cfg.wordBits i = []) :
    step s = exec i (s.withCommands ms) := by
  have hd : decode s.cfg.wordBits ⟨w, []⟩ = .ok i := by
    have h := decode_encode hv.2 hwf
    rwa [encode, hword, hp] at h
  exact (stepRunsTheDecodedInstruction s hv).1 _ ms i hc hd

/-- Settles O12: a header of another command leaves only the refusal (`step_faulted`), CTL_RESET and CTL_READ run, and of
the three answers only reset's writes the fault state. -/
theorem refusalWhileFaulted : Obligations.RefusalWhileFaulted := by
  intro s m ms hv hc hf
  refine ⟨fun hreset hread => ?_, ?_, ?_, fun t hstep ht => ?_⟩
  · obtain ⟨t, hstep⟩ := step_next hv
    obtain ⟨hd, -⟩ | ⟨r, hd, -⟩ | rfl := step_faulted hc hf hstep
    · exact absurd (decode_head hd) hreset
    · exact absurd (decode_head hd) (hread r)
    · exact hstep
  · rintro rfl
    have hstep : step s = exec .ctlReset (s.withCommands ms) := step_of_word hv hc word_ctlReset rfl rfl
    exact ⟨_, hstep.trans (exec_ctlReset _), rfl, rfl⟩
  · rintro r rfl
    have hstep : step s = exec (.ctlRead r) (s.withCommands ms) := step_of_word hv hc (word_ctlRead r) rfl rfl
    obtain ⟨p, hp, -⟩ := exec_ctlRead_sends (s := s.withCommands ms) hv (r := r) rfl
    exact ⟨p, hstep.trans hp⟩
  · obtain ⟨-, rfl⟩ | ⟨r, -, rfl⟩ | rfl := step_faulted hc hf hstep
    · cases ht
    · rfl
    · rfl

/-- Settles O13: of what a faulted CORE can do (`step_faulted`) only reset clears the fault, a message that decodes to
CTL_RESET is its encoding, and the reset state is the power-on state (`State.resetCore_eq_powerOn`). -/
theorem onlyResetLeavesTheFaultedState : Obligations.OnlyResetLeavesTheFaultedState := by
  intro s t hstep hf ht
  have hs : s.fault.faulted ≠ false := Bool.ne_false_iff.2 hf
  obtain ⟨hv, -⟩ := step_cases hstep
  cases hc : s.commands with
  | nil =>
    rw [step_of_commands_nil hv hc] at hstep
    cases hstep
    exact absurd ht hs
  | cons m ms =>
    obtain ⟨hd, rfl⟩ | ⟨r, -, rfl⟩ | rfl := step_faulted hc hf hstep
    · obtain ⟨-, hm⟩ := decodedMessageIsItsEncoding _ hv.1 hv.2 m _ hd
      rw [← hm, encode, Instr.head, word_ctlReset]
      exact ⟨ms, rfl, by rw [State.resetCore_eq_powerOn]; rfl⟩
    · exact absurd ht hs
    · exact absurd ht hs

end Sys2Proof.Machine
end

section
/-! PROOFS. Lifecycles (70_reset_and_hazards.md R352): where the mode of each unit goes with a command that is refused,
that takes a fault, and that completes. -/

namespace Sys2Proof.Machine

variable {i : Instr} {s t : State}

/-! ## Refusal and fault entry -/

/-- All a faulted CORE does with a command but CTL_RESET is to respond. -/
theorem exec_faulted_sends (he : exec i s = .next t) (hf : s.fault.faulted = true) (hi : i ≠ .ctlReset) :
    ∃ r, t = s.send r := by
  rcases exec_cases he with ⟨hr, -⟩ | ⟨r, -, rfl⟩ | ⟨-, rfl⟩ | ⟨hf', -⟩ | ⟨hf', -⟩
  · exact absurd hr hi
  · exact ⟨_, rfl⟩
  · exact ⟨_, rfl⟩
  · exact absurd hf (Bool.eq_false_iff.1 hf')
  · exact absurd hf (Bool.eq_false_iff.1 hf')

/-- A command that enters the faulted state takes the fault for its own unit. -/
theorem exec_enters_fault (he : exec i s = .next t) (hs : s.fault.faulted = false) (ht : t.fault.faulted = true) :
    ∃ r, t = s.takeFault (some i.head.unit) i.head.word r := by
  have hs' : s.fault.faulted ≠ true := Bool.eq_false_iff.1 hs
  rcases exec_cases he with ⟨-, rfl⟩ | ⟨r, -, rfl⟩ | ⟨hf, -⟩ | ⟨-, u, a, hw, rfl⟩ | ⟨-, hr⟩
  · cases ht
  · exact absurd ht hs'
  · exact absurd hf hs'
  · obtain ⟨hfault, -⟩ := hw.frame
    rw [State.respondOk_fault, hfault] at ht
    exact absurd ht hs'
  · exact hr

/-- Fault entry ends the instance of the unit, and moves no other mode. -/
theorem State.takeFault_modes (s : State) (f : FUnit) (h : BitVec 32) (r : Raise) :
    (s.takeFault (some f) h r).lze.live = (if f = .lze then false else s.lze.live) ∧
    (s.takeFault (some f) h r).lzd.mode = (if f = .lzd then .idle else s.lzd.mode) ∧
    (s.takeFault (some f) h r).hft.mode = (if f = .hft then .idle else s.hft.mode) ∧
    (s.takeFault (some f) h r).hfd.mode = (if f = .hfd then .idle else s.hfd.mode) := by
  cases f <;> exact ⟨rfl, rfl, rfl, rfl⟩

/-! ## Completion: what each command that writes its unit does to the mode -/

/-- A command that leaves the CORE not faulted completed its body. -/
theorem command_completed {hd : Head} {body : Except Raise (State × Answer)} (he : command hd s body = .next t)
    (ht : t.fault.faulted = false) : ∃ u a, body = .ok (u, a) ∧ t = u.respondOk a := by
  rcases command_cases he with ⟨hf, rfl⟩ | ⟨-, h⟩ | ⟨-, r, -, rfl⟩
  · exact absurd hf (Bool.eq_false_iff.1 ht)
  · exact h
  · cases ht

/-- The responses after a completed command that writes none itself, with the header as a numeral. -/
theorem respondOk_responses_of {u : State} {a : Answer} {h : BitVec 32} (hh : responseHeader 0x00 0x00 a.tag = h)
    (hu : u.responses = s.responses) : (u.respondOk a).responses = s.responses ++ [⟨h, u.payload a.result⟩] := by
  rw [State.respondOk_responses, hh, hu]

/-! ### The LZW encoder (R180 to R183) -/

/-- The phrase step keeps the instance. -/
theorem Lze.step_live {cfg : Config} {u v : Lze} {sym : Byte} {e : Bool} (h : u.step cfg sym = .ok (v, e)) :
    v.live = u.live := by
  rcases Lze.step_cases (cfg := cfg) u sym with ⟨-, e⟩ | ⟨-, -, e⟩ | ⟨-, -, -, e⟩ | ⟨-, -, c, -, e⟩ <;>
    rw [e] at h <;> cases h <;> rfl

theorem exec_lzeInit_live {alpha : List Byte} (he : exec (.lzeInit alpha) s = .next t) (ht : t.fault.faulted = false) :
    t.lze.live = true := by
  obtain ⟨u, a, hb, rfl⟩ := command_completed he ht
  obtain ⟨v, hv, hb⟩ := bind_ok hb
  cases hb
  exact Lze.init_live hv

theorem exec_lzeSymbol_live {sym : Byte} (he : exec (.lzeSymbol sym) s = .next t) (ht : t.fault.faulted = false) :
    t.lze.live = s.lze.live := by
  obtain ⟨u, a, hb, rfl⟩ := command_completed he ht
  split at hb
  · obtain ⟨v, hv, hb⟩ := bind_ok hb
    cases hb
    exact Lze.step_live hv
  · cases hb

theorem exec_lzeFlush_live (he : exec .lzeFlush s = .next t) (ht : t.fault.faulted = false) : t.lze.live = false := by
  obtain ⟨u, a, hb, rfl⟩ := command_completed he ht
  split at hb
  · obtain ⟨v, hv, hb⟩ := bind_ok hb
    cases hb
    exact Lze.flush_live hv
  · cases hb

theorem exec_lzeEncode_live {alpha syms : List Byte} (he : exec (.lzeEncode alpha syms) s = .next t)
    (ht : t.fault.faulted = false) : t.lze.live = false := by
  obtain ⟨u, a, hb, rfl⟩ := command_completed he ht
  obtain ⟨v₀, -, hb⟩ := bind_ok hb
  obtain ⟨v₁, -, hb⟩ := bind_ok hb
  obtain ⟨v, hv, hb⟩ := bind_ok hb
  cases hb
  exact Lze.flush_live hv

/-! ### The LZW decoder (R211 to R213) -/

theorem exec_lzdInit_mode {alpha input : List Byte} {limit : Option Nat}
    (he : exec (.lzdInit alpha input limit) s = .next t) (ht : t.fault.faulted = false) : t.lzd.mode = .active := by
  obtain ⟨u, a, hb, rfl⟩ := command_completed he ht
  obtain ⟨v, hv, hb⟩ := bind_ok hb
  cases hb
  exact Lzd.init_mode hv

theorem exec_lzdDecode_mode (hcfg : s.cfg.Valid) {alpha input : List Byte} {limit : Option Nat}
    (he : exec (.lzdDecode alpha input limit) s = .next t) (ht : t.fault.faulted = false) : t.lzd.mode = .ended := by
  obtain ⟨u, a, hb, rfl⟩ := command_completed he ht
  obtain ⟨v₀, hv₀, hb⟩ := bind_ok hb
  obtain ⟨v, hv, hb⟩ := bind_ok hb
  cases hb
  exact Lzd.decode_mode hcfg hv₀ hv

/-- LZD_STEP ends an active instance with the answer END, and only so; without an instance it faults. -/
theorem exec_lzdStep_mode (he : exec .lzdStep s = .next t) (ht : t.fault.faulted = false) :
    (s.lzd.mode = .active ∧ t.lzd.mode = .ended ∧ t.responses = s.responses ++ [⟨0x00000001#32, []⟩]) ∨
    (t.lzd.mode = s.lzd.mode ∧
      (s.lzd.mode = .active → ∃ p, t.responses = s.responses ++ [⟨0x00000000#32, p⟩])) := by
  obtain ⟨u, a, hb, rfl⟩ := command_completed he ht
  split at hb
  case h_1 => cases hb
  case h_2 hm =>
    cases hb
    exact .inr ⟨rfl, fun hm' => nomatch hm.symm.trans hm'⟩
  case h_3 hm =>
    obtain ⟨⟨v, seq⟩, hv, hb⟩ := bind_ok hb
    cases seq with
    | none =>
      cases hb
      exact .inl ⟨hm, Lzd.iterate_none hv, respondOk_responses_of header_one rfl⟩
    | some seq =>
      cases hb
      exact .inr ⟨Lzd.iterate_some hv, fun _ => ⟨_, respondOk_responses_of header_zero rfl⟩⟩

/-! ### The Huffman tree engine (R240, R241), and the encoder's tree in it (R264) -/

theorem exec_hftLoad_mode {f : List Nat} (he : exec (.hftLoad f) s = .next t) (ht : t.fault.faulted = false) :
    t.hft.mode = .building := by
  obtain ⟨u, a, hb, rfl⟩ := command_completed he ht
  obtain ⟨h, hh, hb⟩ := bind_ok hb
  cases hb
  exact Hft.load_mode hh

/-- The header of a step that says whether it was the last (R122). -/
theorem header_of_done {d e : Bool} (h : d = e) :
    responseHeader 0x00 0x00 (if d then 0x0001 else 0x0000) = if e then 0x00000001#32 else 0x00000000#32 := by
  subst h
  cases d
  · exact header_zero
  · exact header_one

/-- HFT_STEP finishes a tree with the answer DONE, and only so; without an instance it faults. -/
theorem exec_hftStep_mode (he : exec .hftStep s = .next t) (ht : t.fault.faulted = false) :
    (s.hft.mode = .building ∧ t.hft.mode = .done ∧ t.responses = s.responses ++ [⟨0x00000001#32, []⟩]) ∨
    (t.hft.mode = s.hft.mode ∧ (s.hft.mode = .building → t.responses = s.responses ++ [⟨0x00000000#32, []⟩])) := by
  obtain ⟨u, a, hb, rfl⟩ := command_completed he ht
  split at hb
  case h_1 => cases hb
  case h_2 hm =>
    cases hb
    exact .inr ⟨rfl, fun hm' => nomatch hm.symm.trans hm'⟩
  case h_3 hm =>
    cases hb
    rcases Hft.step_mode (wb := s.cfg.wordBits) s.hft with ⟨hd, hmode⟩ | ⟨hd, hmode⟩
    · exact .inl ⟨hm, hmode, respondOk_responses_of (header_of_done hd) rfl⟩
    · exact .inr ⟨hmode, fun _ => respondOk_responses_of (header_of_done hd) rfl⟩

theorem exec_hftTable_hft (he : exec .hftTable s = .next t) (ht : t.fault.faulted = false) : t.hft = s.hft := by
  obtain ⟨u, a, hb, rfl⟩ := command_completed he ht
  split at hb <;> cases hb
  rfl

theorem exec_hfeEncode_mode (hcfg : s.cfg.Valid) {data : List Byte} (he : exec (.hfeEncode data) s = .next t)
    (ht : t.fault.faulted = false) : t.hft.mode = .done := by
  obtain ⟨u, a, hb, rfl⟩ := command_completed he ht
  obtain ⟨f, hf, hb⟩ := bind_ok hb
  obtain ⟨h, hh, hb⟩ := bind_ok hb
  cases hb
  exact buildTree_mode (Config.Valid.pos hcfg) (hist_length hf).le hh

theorem exec_hfeHist_hft {data : List Byte} (he : exec (.hfeHist data) s = .next t) (ht : t.fault.faulted = false) :
    t.hft = s.hft := by
  obtain ⟨u, a, hb, rfl⟩ := command_completed he ht
  obtain ⟨f, -, hb⟩ := bind_ok hb
  cases hb
  rfl

/-! ### The bit matcher (R271 to R273) -/

theorem exec_hfdInit_modes (hcfg : s.cfg.Valid) {lit : Bool} {container : List Byte}
    (he : exec (.hfdInit lit container) s = .next t) (ht : t.fault.faulted = false) :
    t.hft.mode = .done ∧ t.hfd.mode = .active := by
  obtain ⟨u, a, hb, rfl⟩ := command_completed he ht
  obtain ⟨⟨v, h⟩, hv, hb⟩ := bind_ok hb
  cases hb
  exact ⟨Hfd.init_hft (Config.Valid.pos hcfg) hv, Hfd.init_mode hv⟩

theorem exec_hfdDecode_modes (hcfg : s.cfg.Valid) {lit : Bool} {container : List Byte}
    (he : exec (.hfdDecode lit container) s = .next t) (ht : t.fault.faulted = false) :
    t.hft.mode = .done ∧ t.hfd.mode = .ended := by
  obtain ⟨u, a, hb, rfl⟩ := command_completed he ht
  obtain ⟨⟨v₀, h⟩, hv₀, hb⟩ := bind_ok hb
  obtain ⟨v, hv, hb⟩ := bind_ok hb
  cases hb
  exact ⟨Hfd.init_hft (Config.Valid.pos hcfg) hv₀, Hfd.decode_mode (Config.Valid.pos hcfg) hv₀ hv⟩

/-- A trial that did not end answers another header than END (R122). -/
theorem Trial.header_ne_end {r : Trial} (h : r ≠ .ended) : responseHeader 0x00 0x00 r.tag ≠ 0x00000200#32 := by
  cases r with
  | miss => decide
  | hit b => exact hit_ne b
  | ended => exact absurd rfl h

theorem exec_hfdStep_hft (he : exec .hfdStep s = .next t) (ht : t.fault.faulted = false) : t.hft = s.hft := by
  obtain ⟨u, a, hb, rfl⟩ := command_completed he ht
  split at hb
  case h_1 => cases hb
  case h_2 => cases hb; rfl
  case h_3 =>
    obtain ⟨v, -, hb⟩ := bind_ok hb
    cases hb
    rfl

/-- HFD_STEP ends an active instance with the answer END, and only so; without an instance it faults. -/
theorem exec_hfdStep_mode (he : exec .hfdStep s = .next t) (ht : t.fault.faulted = false) :
    (s.hfd.mode = .active ∧ t.hfd.mode = .ended ∧ t.responses = s.responses ++ [⟨0x00000200#32, []⟩]) ∨
    (t.hfd.mode = s.hfd.mode ∧
      (s.hfd.mode = .active → ∃ h, h ≠ 0x00000200#32 ∧ t.responses = s.responses ++ [⟨h, []⟩])) := by
  obtain ⟨u, a, hb, rfl⟩ := command_completed he ht
  split at hb
  case h_1 => cases hb
  case h_2 hm =>
    cases hb
    exact .inr ⟨rfl, fun hm' => nomatch hm.symm.trans hm'⟩
  case h_3 hm =>
    obtain ⟨⟨v, r⟩, hv, hb⟩ := bind_ok hb
    cases hb
    obtain ⟨rfl, hmode⟩ | ⟨hr, hmode⟩ := Hfd.trialStep_mode hm hv
    · exact .inl ⟨hm, hmode, respondOk_responses_of header_end rfl⟩
    · exact .inr ⟨hmode.trans hm.symm, fun _ => ⟨_, Trial.header_ne_end hr, rfl⟩⟩

/-! ## The obligation -/

/-- Settles O21: while faulted a command only responds (`exec_faulted_sends`), and a fault ends its own unit's instance
(`exec_enters_fault`, `State.takeFault_modes`). A command that completes leaves the other units as they are
(`commandsWriteTheirOwnUnitOnly`), and moves its own unit's mode as the lemma about it says. -/
theorem modesMoveAsListed : Obligations.ModesMoveAsListed := by
  intro i s t hcfg he
  refine ⟨fun hf hi => ?_, fun hs ht => ?_, fun ht => ?_⟩
  · obtain ⟨r, rfl⟩ := exec_faulted_sends he hf hi
    exact ⟨rfl, rfl, rfl, rfl⟩
  · obtain ⟨r, rfl⟩ := exec_enters_fault he hs ht
    exact s.takeFault_modes _ _ r
  by_cases hi : i = .ctlReset
  · subst hi
    rw [exec_ctlReset] at he
    cases he
    exact ⟨rfl, rfl, rfl, rfl⟩
  obtain ⟨-, -, -, hlze, hlzd, hhft, hhfd, -⟩ := commandsWriteTheirOwnUnitOnly i s t he hi
  refine ⟨?lze, ?lzd, ?hft, ?hfd⟩
  case lze =>
    cases i with
    | ctlReset => exact absurd rfl hi
    | lzeInit => exact exec_lzeInit_live he ht
    | lzeSymbol => exact exec_lzeSymbol_live he ht
    | lzeFlush => exact exec_lzeFlush_live he ht
    | lzeEncode => exact exec_lzeEncode_live he ht
    | _ => exact congrArg Lze.live (hlze nofun)
  case lzd =>
    cases i with
    | ctlReset => exact absurd rfl hi
    | lzdInit => exact exec_lzdInit_mode he ht
    | lzdStep => exact exec_lzdStep_mode he ht
    | lzdDecode => exact exec_lzdDecode_mode hcfg he ht
    | _ => exact congrArg Lzd.mode (hlzd nofun)
  case hft =>
    cases i with
    | ctlReset => exact absurd rfl hi
    | hftLoad => exact exec_hftLoad_mode he ht
    | hftStep => exact exec_hftStep_mode he ht
    | hftTable => exact congrArg Hft.mode (exec_hftTable_hft he ht)
    | hfeEncode => exact exec_hfeEncode_mode hcfg he ht
    | hfeHist => exact congrArg Hft.mode (exec_hfeHist_hft he ht)
    | hfdInit => exact (exec_hfdInit_modes hcfg he ht).1
    | hfdStep => exact congrArg Hft.mode (exec_hfdStep_hft he ht)
    | hfdDecode => exact (exec_hfdDecode_modes hcfg he ht).1
    | _ => exact congrArg Hft.mode (hhft nofun nofun nofun)
  case hfd =>
    cases i with
    | ctlReset => exact absurd rfl hi
    | hfdInit => exact (exec_hfdInit_modes hcfg he ht).2
    | hfdStep => exact exec_hfdStep_mode he ht
    | hfdDecode => exact (exec_hfdDecode_modes hcfg he ht).2
    | _ => exact congrArg Hfd.mode (hhfd nofun)

end Sys2Proof.Machine
end
